-- ==== Sys2Proof/Word.lean ====
section
/-! DEFINITION. The word types of the block: bit 0 is the least significant bit (R8). -/

namespace Sys2Proof

/-- A stream byte, a symbol, a confidence state. -/
abbrev Byte := BitVec 8

/-- A table entry: the unit of the table memory (R60). -/
abbrev Entry := BitVec 16

/-- A register-port word (R44). -/
abbrev Word32 := BitVec 32

/-- A command word, a configuration word, a 64-bit register (R90, R24). -/
abbrev Word64 := BitVec 64

end Sys2Proof
end

