-- ==== Sys2Proof/Syntax.lean ====
section
/-! DEFINITION. The commands of the block: one constructor per row of the opcode map (R93), and the pseudo-commands (R98).
An operand is the unsigned number its field holds (R91); that it fits its field is WellFormed.lean's check. -/

namespace Sys2Proof

/-- The commands, in the order of the opcode map (R93). -/
inductive Instr where
  /-- no operation (R113) -/
  | nop
  /-- write CONFIG[63:32] (R114) -/
  | setcfgHi (imm32 : Nat)
  /-- write CONFIG[31:0] (R115) -/
  | setcfgLo (imm32 : Nat)
  /-- set the interrupt enables, clear pending bits (R116) -/
  | setirq (en clr : Nat)
  /-- start an encode session (R117) -/
  | initEnc
  /-- start a decode session (R118) -/
  | initDec
  /-- read one table entry into RESULT (R120) -/
  | tblRead (tid idx : Nat)
  /-- check that a finished decode consumed all of its input (R121) -/
  | decCheckEnd
  /-- encode one byte of the message (R241) -/
  | encSym (byte : Nat)
  /-- end the message and flush (R243) -/
  | encEnd
  /-- decode one byte of the message, or find the end (R242) -/
  | decSym
  /-- encode one binary flag (R217) -/
  | rcEncBit (bit p : Nat)
  /-- decode one binary flag (R218) -/
  | rcDecBit (p : Nat)
  /-- encode the end-of-stream flag (R219) -/
  | rcEncEos (last : Nat)
  /-- decode the end-of-stream flag (R220) -/
  | rcDecEos
  /-- encode a symbol interval of a frequency table (R221) -/
  | rcEncFreq (cum freq tot : Nat)
  /-- compute the decoder's target value for a table total (R222) -/
  | rcDecTarget (tot : Nat)
  /-- narrow the decoder to a symbol interval (R223) -/
  | rcDecNarrow (cum freq tot : Nat)
  /-- drain the coder and end the encode session (R224) -/
  | rcFlush
  deriving DecidableEq, Repr

/-- The pseudo-commands: assembler shorthand, of which the block sees only the expansion (R98). -/
inductive Pseudo where
  | setcfg (imm64 : Nat)
  | encodeBytes (bytes : List Nat)
  | rcEncLit (cum freq tot : Nat)
  /-- the host chooses `cum` and `freq` from RESULT between the two commands -/
  | rcDecLit (cum freq tot : Nat)
  /-- `en` is the current IRQ_EN -/
  | ackIrq (en : Nat)
  deriving DecidableEq, Repr

end Sys2Proof
end

