-- ==== Sys2Proof/WellFormed.lean ====
section
/-! DEFINITION. Which commands have a word: every operand fits its field (R91, R97). A value that fits but that the command's
rule refuses (R92) is well formed: the block decodes it and raises OPERAND_RANGE. -/

namespace Sys2Proof

/-- `v` fits an unsigned field of `width` bits. -/
def fits (width v : Nat) : Bool := decide (v < 2 ^ width)

/-- Every operand fits its field of R91: the assembler "refuses a value that does not fit its field" (R97). -/
def Instr.wellFormed : Instr → Bool
  | .nop => true
  | .setcfgHi imm32 => fits 32 imm32
  | .setcfgLo imm32 => fits 32 imm32
  | .setirq en clr => fits 2 en && fits 2 clr
  | .initEnc => true
  | .initDec => true
  | .tblRead tid idx => fits 4 tid && fits 32 idx
  | .decCheckEnd => true
  | .encSym byte => fits 8 byte
  | .encEnd => true
  | .decSym => true
  | .rcEncBit bit p => fits 1 bit && fits 15 p
  | .rcDecBit p => fits 15 p
  | .rcEncEos last => fits 1 last
  | .rcDecEos => true
  | .rcEncFreq cum freq tot => fits 16 cum && fits 16 freq && fits 16 tot
  | .rcDecTarget tot => fits 16 tot
  | .rcDecNarrow cum freq tot => fits 16 cum && fits 16 freq && fits 16 tot
  | .rcFlush => true

/-- The operands of a pseudo-command fit, so that every command of its expansion is well formed (R98). -/
def Pseudo.wellFormed : Pseudo → Bool
  | .setcfg imm64 => fits 64 imm64
  | .encodeBytes bytes => bytes.all (fits 8)
  | .rcEncLit cum freq tot => fits 16 cum && fits 16 freq && fits 16 tot
  | .rcDecLit cum freq tot => fits 16 cum && fits 16 freq && fits 16 tot
  | .ackIrq en => fits 2 en

end Sys2Proof
end

