-- ==== Sys2Proof/Decode.lean ====
section
/-! DEFINITION. Decoding a command word (R90 to R95), encoding a command (R97), the pseudo-commands' expansions (R98) and the
assembler syntax (R97). -/

namespace Sys2Proof

/-- An operand field: bits `hi` down to `lo` of the word (R91). -/
structure FieldPos where
  name : String
  hi : Nat
  lo : Nat
  deriving DecidableEq, Repr

/-- Bits `hi` down to `lo` of a word, as an unsigned number (R8, R99). -/
def bits (w : Word64) (hi lo : Nat) : Nat := (w.toNat >>> lo) % 2 ^ (hi + 1 - lo)

/-- One row of the opcode map (R93): a word is this command exactly when its bits under `mask` are `pattern`. -/
structure Row where
  mnemonic : String
  pattern : Word64
  mask : Word64
  fields : List FieldPos
  build : Word64 → Instr

/-- OP = 0x00 to 0x07 (R93). -/
def controlRows : List Row :=
  [ ⟨"NOP", 0x0000000000000000#64, 0xFFFFFFFFFFFFFFFF#64, [], fun _ => .nop⟩,
    ⟨"SETCFG_HI", 0x0100000000000000#64, 0xFFFFFFFF00000000#64, [⟨"IMM32", 31, 0⟩], fun w => .setcfgHi (bits w 31 0)⟩,
    ⟨"SETCFG_LO", 0x0200000000000000#64, 0xFFFFFFFF00000000#64, [⟨"IMM32", 31, 0⟩], fun w => .setcfgLo (bits w 31 0)⟩,
    ⟨"SETIRQ", 0x0300000000000000#64, 0xFFFFFFFFFFFFFCFC#64, [⟨"EN", 1, 0⟩, ⟨"CLR", 9, 8⟩],
      fun w => .setirq (bits w 1 0) (bits w 9 8)⟩,
    ⟨"INIT_ENC", 0x0400000000000000#64, 0xFFFFFFFFFFFFFFFF#64, [], fun _ => .initEnc⟩,
    ⟨"INIT_DEC", 0x0500000000000000#64, 0xFFFFFFFFFFFFFFFF#64, [], fun _ => .initDec⟩,
    ⟨"TBL_READ", 0x0600000000000000#64, 0xFFF0FFFF00000000#64, [⟨"TID", 51, 48⟩, ⟨"IDX", 31, 0⟩],
      fun w => .tblRead (bits w 51 48) (bits w 31 0)⟩,
    ⟨"DEC_CHECK_END", 0x0700000000000000#64, 0xFFFFFFFFFFFFFFFF#64, [], fun _ => .decCheckEnd⟩ ]

/-- OP = 0x10 to 0x12 (R93). -/
def symbolRows : List Row :=
  [ ⟨"ENC_SYM", 0x1000000000000000#64, 0xFFFFFFFFFFFFFF00#64, [⟨"BYTE", 7, 0⟩], fun w => .encSym (bits w 7 0)⟩,
    ⟨"ENC_END", 0x1100000000000000#64, 0xFFFFFFFFFFFFFFFF#64, [], fun _ => .encEnd⟩,
    ⟨"DEC_SYM", 0x1200000000000000#64, 0xFFFFFFFFFFFFFFFF#64, [], fun _ => .decSym⟩ ]

/-- OP = 0x20 to 0x27 (R93). -/
def rawCoderRows : List Row :=
  [ ⟨"RC_ENC_BIT", 0x2000000000000000#64, 0xFFFFFFFFFFFE8000#64, [⟨"BIT", 16, 16⟩, ⟨"P", 14, 0⟩],
      fun w => .rcEncBit (bits w 16 16) (bits w 14 0)⟩,
    ⟨"RC_DEC_BIT", 0x2100000000000000#64, 0xFFFFFFFFFFFF8000#64, [⟨"P", 14, 0⟩], fun w => .rcDecBit (bits w 14 0)⟩,
    ⟨"RC_ENC_EOS", 0x2200000000000000#64, 0xFFFFFFFFFFFFFFFE#64, [⟨"LAST", 0, 0⟩], fun w => .rcEncEos (bits w 0 0)⟩,
    ⟨"RC_DEC_EOS", 0x2300000000000000#64, 0xFFFFFFFFFFFFFFFF#64, [], fun _ => .rcDecEos⟩,
    ⟨"RC_ENC_FREQ", 0x2400000000000000#64, 0xFFFF000000000000#64,
      [⟨"CUM", 47, 32⟩, ⟨"FREQ", 31, 16⟩, ⟨"TOT", 15, 0⟩],
      fun w => .rcEncFreq (bits w 47 32) (bits w 31 16) (bits w 15 0)⟩,
    ⟨"RC_DEC_TARGET", 0x2500000000000000#64, 0xFFFFFFFFFFFF0000#64, [⟨"TOT", 15, 0⟩], fun w => .rcDecTarget (bits w 15 0)⟩,
    ⟨"RC_DEC_NARROW", 0x2600000000000000#64, 0xFFFF000000000000#64,
      [⟨"CUM", 47, 32⟩, ⟨"FREQ", 31, 16⟩, ⟨"TOT", 15, 0⟩],
      fun w => .rcDecNarrow (bits w 47 32) (bits w 31 16) (bits w 15 0)⟩,
    ⟨"RC_FLUSH", 0x2700000000000000#64, 0xFFFFFFFFFFFFFFFF#64, [], fun _ => .rcFlush⟩ ]

/-- The opcode map (R93). -/
def opcodeMap : List Row := controlRows ++ symbolRows ++ rawCoderRows

/-- `(w & row.mask) = row.match` (R94). -/
def Row.accepts (r : Row) (w : Word64) : Bool := w &&& r.mask == r.pattern

/-- Why a word is illegal (R95). -/
inductive Illegal where
  /-- OP is not in the opcode map -/
  | unassignedOpcode (op : Nat)
  /-- OP is in the map, but a reserved bit of the word is 1 -/
  | reservedBitSet (op : Nat)
  deriving DecidableEq, Repr

/-- The opcode, bits 63:56 (R90). -/
def opcode (w : Word64) : Nat := bits w 63 56

/-- Decode(w) (R94): the first row that accepts the word, or the reason it is illegal (R95). -/
def decode (w : Word64) : Except Illegal Instr :=
  match opcodeMap.find? (fun r => r.accepts w) with
  | some r => .ok (r.build w)
  | none =>
    if opcodeMap.any (fun r => opcode r.pattern == opcode w) then .error (.reservedBitSet (opcode w))
    else .error (.unassignedOpcode (opcode w))

/-- The word of a command: `match | (each field << its low bit)` (R97, R91, R93). -/
def encode : Instr → Word64
  | .nop => 0x0000000000000000#64
  | .setcfgHi imm32 => BitVec.ofNat 64 (0x0100000000000000 ||| imm32)
  | .setcfgLo imm32 => BitVec.ofNat 64 (0x0200000000000000 ||| imm32)
  | .setirq en clr => BitVec.ofNat 64 (0x0300000000000000 ||| en ||| clr <<< 8)
  | .initEnc => 0x0400000000000000#64
  | .initDec => 0x0500000000000000#64
  | .tblRead tid idx => BitVec.ofNat 64 (0x0600000000000000 ||| tid <<< 48 ||| idx)
  | .decCheckEnd => 0x0700000000000000#64
  | .encSym byte => BitVec.ofNat 64 (0x1000000000000000 ||| byte)
  | .encEnd => 0x1100000000000000#64
  | .decSym => 0x1200000000000000#64
  | .rcEncBit bit p => BitVec.ofNat 64 (0x2000000000000000 ||| bit <<< 16 ||| p)
  | .rcDecBit p => BitVec.ofNat 64 (0x2100000000000000 ||| p)
  | .rcEncEos last => BitVec.ofNat 64 (0x2200000000000000 ||| last)
  | .rcDecEos => 0x2300000000000000#64
  | .rcEncFreq cum freq tot => BitVec.ofNat 64 (0x2400000000000000 ||| cum <<< 32 ||| freq <<< 16 ||| tot)
  | .rcDecTarget tot => BitVec.ofNat 64 (0x2500000000000000 ||| tot)
  | .rcDecNarrow cum freq tot => BitVec.ofNat 64 (0x2600000000000000 ||| cum <<< 32 ||| freq <<< 16 ||| tot)
  | .rcFlush => 0x2700000000000000#64

/-- The row of the opcode map a command stands in (R93). -/
def rowMnemonic : Instr → String
  | .nop => "NOP"
  | .setcfgHi _ => "SETCFG_HI"
  | .setcfgLo _ => "SETCFG_LO"
  | .setirq _ _ => "SETIRQ"
  | .initEnc => "INIT_ENC"
  | .initDec => "INIT_DEC"
  | .tblRead _ _ => "TBL_READ"
  | .decCheckEnd => "DEC_CHECK_END"
  | .encSym _ => "ENC_SYM"
  | .encEnd => "ENC_END"
  | .decSym => "DEC_SYM"
  | .rcEncBit _ _ => "RC_ENC_BIT"
  | .rcDecBit _ => "RC_DEC_BIT"
  | .rcEncEos _ => "RC_ENC_EOS"
  | .rcDecEos => "RC_DEC_EOS"
  | .rcEncFreq _ _ _ => "RC_ENC_FREQ"
  | .rcDecTarget _ => "RC_DEC_TARGET"
  | .rcDecNarrow _ _ _ => "RC_DEC_NARROW"
  | .rcFlush => "RC_FLUSH"

/-- The operand values of a command, in the order of R91. -/
def operandValues : Instr → List Nat
  | .setcfgHi imm32 => [imm32]
  | .setcfgLo imm32 => [imm32]
  | .setirq en clr => [en, clr]
  | .tblRead tid idx => [tid, idx]
  | .encSym byte => [byte]
  | .rcEncBit bit p => [bit, p]
  | .rcDecBit p => [p]
  | .rcEncEos last => [last]
  | .rcEncFreq cum freq tot => [cum, freq, tot]
  | .rcDecTarget tot => [tot]
  | .rcDecNarrow cum freq tot => [cum, freq, tot]
  | .nop | .initEnc | .initDec | .decCheckEnd | .encEnd | .decSym | .rcDecEos | .rcFlush => []

/-- A line of assembler text: the mnemonic, then its fields as NAME=value in the order of R91, in decimal (R97). -/
def assemblerLine (i : Instr) : String :=
  match opcodeMap.find? (fun r => r.mnemonic == rowMnemonic i) with
  | none => rowMnemonic i
  | some r =>
    (r.fields.zip (operandValues i)).foldl (fun line fv => line ++ " " ++ fv.1.name ++ "=" ++ toString fv.2) r.mnemonic

/-- The assembler (R97): `match | (each field << its low bit)`, an omitted field being 0; none where the mnemonic or a field's
name is unknown, or a value does not fit its field. -/
def assemble (mnemonic : String) (given : List (String × Nat)) : Option Word64 :=
  match opcodeMap.find? (fun r => r.mnemonic == mnemonic) with
  | none => none
  | some r =>
    if given.all (fun g => r.fields.any (fun f => f.name == g.1 && fits (f.hi + 1 - f.lo) g.2)) then
      some (r.fields.foldl (fun w f => w ||| BitVec.ofNat 64 (((given.lookup f.name).getD 0) <<< f.lo)) r.pattern)
    else none

/-- The expansion of a pseudo-command (R98). -/
def expandPseudo : Pseudo → List Instr
  | .setcfg imm64 => [.setcfgHi (imm64 >>> 32), .setcfgLo (imm64 % 2 ^ 32)]
  | .encodeBytes bytes => bytes.map .encSym ++ [.encEnd]
  | .rcEncLit cum freq tot => [.rcEncFreq cum freq tot]
  | .rcDecLit cum freq tot => [.rcDecTarget tot, .rcDecNarrow cum freq tot]
  | .ackIrq en => [.setirq en 3]

/-- The command this decoder reads from the one 64-bit word `w`, of which the table gives `nbits` bits. -/
def decodeTableWord (nbits w : Nat) : Option Instr :=
  (decode (BitVec.ofNat 64 (w % 2 ^ nbits))).toOption

end Sys2Proof
end

