-- ==== Sys2Proof/Config.lean ====
section
/-! DEFINITION. What an implementation fixes (R6), and the free values of everything the spec leaves at "any value". -/

namespace Sys2Proof

/-- The parameter LOG2_FIX (R184) as plain data: the spec's decided default, which is computed, or a table whose entry at
place n - 1 is LOG2_FIX(n). Every value is below 2^24 by its type. -/
inductive Log2Fix where
  /-- `floor(2^14 * log2 n)`, the decided default of R184 -/
  | exact
  /-- an implementation's own values for 1, 2, 3, ... -/
  | table (values : List (BitVec 24))
  deriving DecidableEq, Repr

/-- The parameters of R6. None of them changes during operation. -/
structure Params where
  /-- the FSM ROM: entry `2*s + m` is `FSM_TABLE[s][m]` (R65) -/
  fsmTable : Vector Byte 512
  /-- LOG2_FIX (R184) -/
  log2Fix : Log2Fix
  /-- COST_THRESHOLD (R185) -/
  costThreshold : Word32
  /-- TABLE_MEM_WORDS (R61) -/
  tableMemWords : Word64
  /-- CMD_FIFO_DEPTH, at least 1 (R303) -/
  cmdFifoDepth : Nat
  deriving DecidableEq, Repr

/-- FSM_TABLE is OPEN (R148): nothing is known of it but that its entries are bytes. -/
opaque Config.fsmTable : Vector Byte 512

/-- TABLE_MEM_WORDS is OPEN (R61). -/
opaque Config.tableMemWords : Word64

/-- CMD_FIFO_DEPTH is OPEN but at least 1 (R6): this is the depth less one. -/
opaque Config.cmdFifoDepthLessOne : Nat

/-- The decided default of COST_THRESHOLD, `128 * LOG2_FIX(255)` (R185). -/
def Config.costThresholdDefault : Word32 := 16765312#32

/-- The parameters a machine is built with. -/
def Config.params : Params where
  fsmTable := Config.fsmTable
  log2Fix := .exact
  costThreshold := Config.costThresholdDefault
  tableMemWords := Config.tableMemWords
  cmdFifoDepth := Config.cmdFifoDepthLessOne + 1

/-- The value of register number `field`, `width` bits wide, that the spec calls "any value" at the draw `draw` (R266). -/
opaque Config.anyBits (draw field width : Nat) : BitVec width

/-- An entry of the table memory whose contents the spec calls unspecified (R67) or "any value" (R266). -/
opaque Config.anyEntry (draw table index : Nat) : Entry

/-- What a register read returns while BUSY = 1, where the spec gives it no value (R46). -/
opaque Config.anyRead (draw : Nat) (number : BitVec 6) : Word32

end Sys2Proof
end

