-- ==== Sys2Proof/Machine/State.lean ====
section
/-! DEFINITION. Everything the spec gives the machine (R20): the registers of R21, the session tables, the parameters (the FSM ROM
among them), the command FIFO and the two stream ports; and the reasons a step can stop. -/

namespace Sys2Proof.Machine

/-- MODE (R22). The codes 5 and 6 are never held. -/
inductive Mode where
  /-- 0: no session has started since reset -/
  | idle
  /-- 1: an encode session accepts symbols -/
  | enc
  /-- 2: EOS = 1 has been coded by RC_ENC_EOS; only RC_FLUSH may follow -/
  | encEnding
  /-- 3: a decode session accepts decode commands -/
  | dec
  /-- 4: the session ended normally -/
  | done
  /-- 7: a fault ended the run -/
  | faulted
  deriving DecidableEq, Repr

/-- The causes of the fault the block itself takes (R261). BAD_MAGIC (3) is reserved: no rule raises it. -/
inductive Cause where
  /-- 1: a port answered with an error -/
  | ioFailure
  /-- 2: InRead found the end mark -/
  | unexpectedEndOfInput
  /-- 3: reserved for the integrator -/
  | badMagic
  /-- 4: `CfgValid(CONFIG)` is false at session start -/
  | invalidConfiguration
  /-- 5: `NeedWords(CONFIG) > TABLE_MEM_WORDS` -/
  | allocationFailure
  /-- 6: a byte remains after the decode ended -/
  | trailingData
  /-- 16: unassigned opcode or a reserved bit set -/
  | illegalCommand
  /-- 17: the command is not legal in the current MODE or DIR -/
  | badState
  /-- 18: a field outside its range -/
  | operandRange
  /-- 19: a decoded target outside its total -/
  | corruptPayload
  /-- 20: RC_DEC_NARROW's interval does not hold the target -/
  | narrowMismatch
  /-- 21: a second carry, or a carry into a missing or 0xFF delayed byte -/
  | carryOverflow
  /-- 22: the pending 0xFF run would exceed 2^32 - 1 -/
  | ffrunOverflow
  deriving DecidableEq, Repr

/-- The registers of R21, in its order. ID and VERSION are constants (Machine/HostPort.lean). -/
structure Regs where
  /-- MODE, R22 -/
  mode : Mode
  /-- DIR: false encode, true decode, R23 -/
  dir : Bool
  /-- BUSY, R40 -/
  busy : Bool
  /-- CONFIG, R24 -/
  config : Word64
  /-- SCFG, R26 -/
  scfg : Word64
  /-- TABLES_VALID, R47 -/
  tablesValid : Bool
  /-- RC_BUFFER, R27 -/
  rcBuffer : BitVec 31
  /-- RC_RANGE, R28 -/
  rcRange : BitVec 31
  /-- CARRY, R29 -/
  carry : Bool
  /-- DELAY_VALID, R30 -/
  delayValid : Bool
  /-- DELAY, R30 -/
  delay : Byte
  /-- LOOK, R32 -/
  look : Byte
  /-- FFRUN, R31 -/
  ffrun : Word32
  /-- CONTEXT, R33 -/
  context : Word64
  /-- HIST_LO, R34 -/
  histLo : BitVec 4
  /-- HIST_HI, R34 -/
  histHi : BitVec 4
  /-- COST, R35 -/
  cost : Word32
  /-- RESULT, R36 -/
  result : Word32
  /-- FAULT_CAUSE, R37 -/
  faultCause : Byte
  /-- FAULT_CMD, R37 -/
  faultCmd : Word64
  /-- FAULT_WORD, R37 -/
  faultWord : Word64
  /-- IRQ_EN, R38 -/
  irqEn : BitVec 2
  /-- IRQ_PEND, R38 -/
  irqPend : BitVec 2
  /-- CMD_COUNT, R39 -/
  cmdCount : Word64
  /-- IN_COUNT, R39 -/
  inCount : Word64
  /-- OUT_COUNT, R39 -/
  outCount : Word64
  deriving DecidableEq, Repr

/-- The reset column of R21 (R291). -/
def Regs.reset : Regs where
  mode := .idle
  dir := false
  busy := false
  config := 0#64
  scfg := 0#64
  tablesValid := false
  rcBuffer := 0#31
  rcRange := 0x7FFFFFFF#31
  carry := false
  delayValid := false
  delay := 0#8
  look := 0#8
  ffrun := 0#32
  context := 0#64
  histLo := 0#4
  histHi := 0#4
  cost := 0#32
  result := 0#32
  faultCause := 0#8
  faultCmd := 0#64
  faultWord := 0#64
  irqEn := 0#2
  irqPend := 0#2
  cmdCount := 0#64
  inCount := 0#64
  outCount := 0#64

/-- The session tables (R62 to R64). The FSM table is not one of them: it is a ROM (R65). -/
inductive TableId where
  | lzpLo | lzpHi | apmLo | apmHi | lit
  deriving DecidableEq, Repr

/-- What an entry that no list names reads as. -/
inductive Fill where
  /-- an unspecified value, free at this draw: after reset (R67) and after an imprecise fault (R266) -/
  | unspecified (draw : Nat)
  /-- the value the session start wrote (R119) -/
  | sessionStart
  deriving DecidableEq, Repr

/-- One listed entry of a table: its index and its value. -/
abbrev Cell := Nat × Entry

/-- The table memory: of each table the entries that differ from what `fill` says of an unlisted one, indexes rising. -/
structure Tables where
  fill : Fill
  lzpLo : List Cell
  lzpHi : List Cell
  apmLo : List Cell
  apmHi : List Cell
  lit : List Cell
  deriving DecidableEq, Repr

/-- An answer of the input port to InRead (R79). -/
inductive InAnswer where
  | byte (b : Byte)
  | endMark
  | error
  deriving DecidableEq, Repr

/-- An answer of the output port to OutWrite (R80). -/
inductive OutAnswer where
  | accept
  | error
  deriving DecidableEq, Repr

/-- The input stream port (R79): the answers it is about to give; the answer it gives for ever after them (none: it waits);
whether it has given the end mark in this session; and the answers the running command has had. -/
structure InPort where
  answers : List InAnswer
  rest : Option InAnswer
  ended : Bool
  used : List InAnswer
  deriving DecidableEq, Repr

/-- The output stream port (R80): the answers it is about to give; the answer it gives for ever after them (none: it waits); the
answers the running command has had; and the bytes it has taken, first byte first. -/
structure OutPort where
  answers : List OutAnswer
  rest : Option OutAnswer
  used : List OutAnswer
  taken : List Byte
  deriving DecidableEq, Repr

/-- A command that waits on a port (R299), and what it began from: with the answers it has had so far, this is all that its
continuation depends on. -/
structure Stall where
  word : Word64
  regs : Regs
  tables : Tables
  inEnded : Bool
  outTaken : List Byte
  deriving DecidableEq, Repr

/-- Why a step stops for good. Every reason is a state from which a rule's own text says nothing more, and each is one that the
spec shows no run from reset reaches; the block's faults (R260) are not among them: those are next states. All are safe: the
model stops where the rules stop speaking. -/
inductive Fault where
  /-- a rule subtracts a larger number, though "subtraction appears only where a rule shows that its result is not
  negative" (R9); raised by the subtraction of every rule; safe -/
  | negativeDifference
  /-- a rule divides by zero (R177, R212 and R213 have R >= 2^23 and a total >= 1); raised by the division of every rule; safe -/
  | zeroDivisor
  /-- "a written value must fit the register's width" (R10); raised by the register and table writes of the rules; safe -/
  | valueTooWide
  /-- a normalization loop entered with R = 0 would not end (R204: "R >= 1 on entry"); raised by EncNormalize and DecNormalize;
  safe -/
  | endlessNormalization
  /-- the walk of LitDecAdaptive leaves the table (R177: "both walks end inside the table"); raised by it; safe -/
  | walkPastTable
  /-- LOG2_FIX of a number outside 1..32767, or outside the table given for it (R184); raised by CostUpdate; safe -/
  | logarithmDomain
  deriving DecidableEq, Repr

/-- Why an instruction has no meaning here. -/
inductive Refusal where
  /-- raised by exec's arm of an instruction that has no meaning yet; safe. No arm raises it: every instruction has one. -/
  | notModelled (mnemonic : String)
  deriving DecidableEq, Repr

/-- The block (R20), with what the host has put on its ports. -/
structure State where
  regs : Regs
  tables : Tables
  params : Params
  /-- the command FIFO, oldest word first (R72) -/
  cmdFifo : List Word64
  inPort : InPort
  outPort : OutPort
  /-- the command that waits on a port, if one does (R299) -/
  stall : Option Stall
  /-- the model's own: the draw the next free value is taken at -/
  draws : Nat
  deriving DecidableEq, Repr

/-- The table memory after a reset: unspecified contents (R67). -/
def Tables.unspecified (draw : Nat) : Tables where
  fill := .unspecified draw
  lzpLo := []
  lzpHi := []
  apmLo := []
  apmHi := []
  lit := []

/-- The machine right after reset (R291, R292): the registers at their reset values, the FIFO empty. What the host holds on the
stream ports is no part of a reset (R293); this state has an input port that has not answered yet and an output port that
accepts every byte. -/
def State.reset : State where
  regs := Regs.reset
  tables := Tables.unspecified 0
  params := Config.params
  cmdFifo := []
  inPort := { answers := [], rest := none, ended := false, used := [] }
  outPort := { answers := [], rest := some .accept, used := [], taken := [] }
  stall := none
  draws := 1

end Sys2Proof.Machine
end

