-- ==== Sys2Proof/Machine/ConfigWord.lean ====
section
/-! DEFINITION. The fields of a configuration word (R24), when it is valid (R25), whether its session is dual (R26), and the table
sizes it asks for (R61 to R64). -/

namespace Sys2Proof.Machine

/-- `LCTX = c[63:56]` -/
def cfgLctx (c : Word64) : Nat := (c.extractLsb' 56 8).toNat

/-- `LMASK = c[55:48]` -/
def cfgLmask (c : Word64) : Nat := (c.extractLsb' 48 8).toNat

/-- `HCTX = c[47:40]` -/
def cfgHctx (c : Word64) : Nat := (c.extractLsb' 40 8).toNat

/-- `HMASK = c[39:32]` -/
def cfgHmask (c : Word64) : Nat := (c.extractLsb' 32 8).toNat

/-- `ORDER = ORDER_SEL + 1`, `ORDER_SEL = c[31]` -/
def cfgOrder (c : Word64) : Nat := (c.extractLsb' 31 1).toNat + 1

/-- `INIT = c[30:24]` -/
def cfgInit (c : Word64) : Nat := (c.extractLsb' 24 7).toNat

/-- `STEP = c[23:16]` -/
def cfgStep (c : Word64) : Nat := (c.extractLsb' 16 8).toNat

/-- `LIMIT = c[15:0]` -/
def cfgLimit (c : Word64) : Nat := (c.extractLsb' 0 16).toNat

/-- `CfgValid(c)` (R25). The bound `LIMIT <= 32767 - STEP` is written as a sum. -/
def cfgValid (c : Word64) : Bool :=
  decide (cfgOrder c < cfgLctx c) && decide (cfgLctx c ≤ cfgHctx c) && decide (cfgHctx c ≤ 8)
    && decide (15 ≤ cfgLmask c) && decide (cfgLmask c ≤ 30) && decide (15 ≤ cfgHmask c) && decide (cfgHmask c ≤ 30)
    && decide (1 ≤ cfgInit c) && decide (cfgInit c ≤ 127)
    && decide (1 ≤ cfgStep c) && decide (cfgStep c ≤ 127)
    && decide (cfgInit c * 256 ≤ cfgLimit c) && decide (cfgLimit c + cfgStep c ≤ 32767)

/-- `DUAL(c)` (R26): dual unless both lengths and both mask sizes are equal. -/
def cfgDual (c : Word64) : Bool := !(cfgLctx c == cfgHctx c && cfgLmask c == cfgHmask c)

/-- `256^ORDER`, the size of the literal context space (R64). -/
def cfgContexts (c : Word64) : Nat := 256 ^ cfgOrder c

/-- `NeedWords(c)` (R61). -/
def needWords (c : Word64) : Nat :=
  2 ^ cfgLmask c + (if cfgDual c then 2 ^ cfgHmask c else 0) + 4096 * (if cfgDual c then 2 else 1) + 273 * cfgContexts c

/-- How many entries a table has in a session of configuration `c` (R62 to R64): a high table only in a dual session. -/
def tableSize (c : Word64) : TableId → Nat
  | .lzpLo => 2 ^ cfgLmask c
  | .lzpHi => if cfgDual c then 2 ^ cfgHmask c else 0
  | .apmLo => 4096
  | .apmHi => if cfgDual c then 4096 else 0
  | .lit => 273 * cfgContexts c

/-- The value a session start writes to entry `i` of a table (R119): the sentinel slot, the midpoint, and by the layout of R64 a
single, a group sum or a total. -/
def sessionStartEntry (c : Word64) (t : TableId) (i : Nat) : Entry :=
  match t with
  | .lzpLo => 0x0000#16
  | .lzpHi => 0x0000#16
  | .apmLo => 0x4000#16
  | .apmHi => 0x4000#16
  | .lit =>
    if i % 273 < 256 then BitVec.ofNat 16 (cfgInit c)
    else if i % 273 < 272 then BitVec.ofNat 16 (16 * cfgInit c)
    else BitVec.ofNat 16 (256 * cfgInit c)

end Sys2Proof.Machine
end

