-- ==== Sys2Proof/Machine/Flags.lean ====
section
/-! DEFINITION. The codes of the modes and causes, and the status flags that are derived, not stored (R22, R26, R35, R261, R268, R44). -/

namespace Sys2Proof.Machine

/-- The number MODE holds (R22). -/
def modeCode : Mode → BitVec 3
  | .idle => 0#3
  | .enc => 1#3
  | .encEnding => 2#3
  | .dec => 3#3
  | .done => 4#3
  | .faulted => 7#3

/-- The number FAULT_CAUSE holds (R261). -/
def causeCode : Cause → Byte
  | .ioFailure => 1#8
  | .unexpectedEndOfInput => 2#8
  | .badMagic => 3#8
  | .invalidConfiguration => 4#8
  | .allocationFailure => 5#8
  | .trailingData => 6#8
  | .illegalCommand => 16#8
  | .badState => 17#8
  | .operandRange => 18#8
  | .corruptPayload => 19#8
  | .narrowMismatch => 20#8
  | .carryOverflow => 21#8
  | .ffrunOverflow => 22#8

/-- DUAL (R26): of the session's latched configuration. -/
def dual (s : State) : Bool := cfgDual s.regs.scfg

/-- USE_FIXED (R35, R180): derived from COST, not stored. -/
def useFixed (s : State) : Bool := decide (s.params.costThreshold.toNat < s.regs.cost.toNat)

/-- The interrupt output IRQ (R268, R38). -/
def irqOutput (s : State) : Bool :=
  (s.regs.irqPend.getLsbD 0 && s.regs.irqEn.getLsbD 0) || (s.regs.irqPend.getLsbD 1 && s.regs.irqEn.getLsbD 1)

/-- A flag as the number 0 or 1. -/
def flag (b : Bool) : Nat := if b then 1 else 0

/-- STATUS (R44). -/
def statusWord (s : State) : Word32 :=
  BitVec.ofNat 32 ((modeCode s.regs.mode).toNat + flag s.regs.dir * 2 ^ 3 + flag (s.regs.tablesValid && dual s) * 2 ^ 4
    + flag (useFixed s) * 2 ^ 5 + flag (irqOutput s) * 2 ^ 6 + flag s.regs.busy * 2 ^ 7 + flag s.regs.tablesValid * 2 ^ 8
    + flag s.cmdFifo.isEmpty * 2 ^ 9)

/-- RC_FLAGS (R44). -/
def rcFlagsWord (r : Regs) : Word32 :=
  BitVec.ofNat 32 (flag r.carry + flag r.delayValid * 2 ^ 1 + r.delay.toNat * 2 ^ 8 + r.look.toNat * 2 ^ 16)

end Sys2Proof.Machine
end

