-- ==== Sys2Proof/Machine/Operands.lean ====
section
/-! DEFINITION. Which operands a command takes (R92), and in which mode a command may run (R111, R112). -/

namespace Sys2Proof.Machine

/-- `1 <= freq` and `cum + freq <= tot` and `1 <= tot`: the interval RC_ENC_FREQ and RC_DEC_NARROW take (R92). -/
def intervalInRange (cum freq tot : Nat) : Bool := !(tot == 0) && !(freq == 0) && decide (cum + freq ≤ tot)

/-- The operand ranges of R92: where this is false the command raises OPERAND_RANGE. -/
def operandsInRange : Instr → Bool
  | .nop => true
  | .setcfgHi _ => true
  | .setcfgLo _ => true
  | .setirq _ _ => true
  | .initEnc => true
  | .initDec => true
  | .tblRead _ _ => true
  | .decCheckEnd => true
  | .encSym _ => true
  | .encEnd => true
  | .decSym => true
  | .rcEncBit _ p => !(p == 0)
  | .rcDecBit p => !(p == 0)
  | .rcEncEos _ => true
  | .rcDecEos => true
  | .rcEncFreq cum freq tot => intervalInRange cum freq tot
  | .rcDecTarget tot => !(tot == 0)
  | .rcDecNarrow cum freq tot => intervalInRange cum freq tot
  | .rcFlush => true

/-- MODE ∈ {IDLE, DONE}: no session streams. -/
def betweenSessions (m : Mode) : Bool := m == .idle || m == .done

/-- `Legal(op, MODE, DIR)` (R111). -/
def legal (i : Instr) (m : Mode) (dir : Bool) : Bool :=
  match i with
  | .nop => true
  | .setirq _ _ => true
  | .setcfgHi _ => betweenSessions m
  | .setcfgLo _ => betweenSessions m
  | .initEnc => betweenSessions m
  | .initDec => betweenSessions m
  | .tblRead _ _ => !(m == .faulted)
  | .decCheckEnd => m == .done && dir
  | .encSym _ => m == .enc
  | .encEnd => m == .enc
  | .rcEncBit _ _ => m == .enc
  | .rcEncEos _ => m == .enc
  | .rcEncFreq _ _ _ => m == .enc
  | .rcFlush => m == .enc || m == .encEnding
  | .decSym => m == .dec
  | .rcDecBit _ => m == .dec
  | .rcDecEos => m == .dec
  | .rcDecTarget _ => m == .dec
  | .rcDecNarrow _ _ _ => m == .dec

/-- The commands that run in MODE = FAULTED; every other word is discarded there (R112). -/
def runsWhenFaulted : Instr → Bool
  | .nop => true
  | .setirq _ _ => true
  | .setcfgHi _ => false
  | .setcfgLo _ => false
  | .initEnc => false
  | .initDec => false
  | .tblRead _ _ => false
  | .decCheckEnd => false
  | .encSym _ => false
  | .encEnd => false
  | .decSym => false
  | .rcEncBit _ _ => false
  | .rcDecBit _ => false
  | .rcEncEos _ => false
  | .rcDecEos => false
  | .rcEncFreq _ _ _ => false
  | .rcDecTarget _ => false
  | .rcDecNarrow _ _ _ => false
  | .rcFlush => false

end Sys2Proof.Machine
end

