-- ==== Sys2Proof/Machine/Ops.lean ====
section
/-! DEFINITION. The primitives of the pseudocode (R10): table entries, the stream ports, arithmetic on natural numbers; fault entry
(R263) and what an imprecise fault leaves undefined (R266); the envelope every command runs in (R110), and the wait on a port
(R299). -/

namespace Sys2Proof.Machine

/-! ### Table entries -/

/-- What entry `i` of a table reads as when no list names it: the session start's value (R119), or a free value where the contents
are unspecified (R67, R266). -/
def unlistedEntry (f : Fill) (c : Word64) (t : TableId) (i : Nat) : Entry :=
  match f with
  | .sessionStart => sessionStartEntry c t i
  | .unspecified draw =>
    match t with
    | .lzpLo => Config.anyEntry draw 0 i
    | .lzpHi => Config.anyEntry draw 1 i
    | .apmLo => Config.anyEntry draw 2 i
    | .apmHi => Config.anyEntry draw 3 i
    | .lit => Config.anyEntry draw 4 i

/-- The list of a table's entries. -/
def tableCells (ts : Tables) : TableId → List Cell
  | .lzpLo => ts.lzpLo
  | .lzpHi => ts.lzpHi
  | .apmLo => ts.apmLo
  | .apmHi => ts.apmHi
  | .lit => ts.lit

/-- The table memory with one table's list replaced. -/
def setTableCells (ts : Tables) (t : TableId) (cells : List Cell) : Tables :=
  match t with
  | .lzpLo => { ts with lzpLo := cells }
  | .lzpHi => { ts with lzpHi := cells }
  | .apmLo => { ts with apmLo := cells }
  | .apmHi => { ts with apmHi := cells }
  | .lit => { ts with lit := cells }

/-- Entry `i` of a list whose indexes rise; `unlisted i` where the list does not name it. -/
def readCells (unlisted : Nat → Entry) : List Cell → Nat → Entry
  | [], i => unlisted i
  | (k, v) :: rest, i => if i = k then v else if i < k then unlisted i else readCells unlisted rest i

/-- The list with entry `i` set to `v`: indexes still rising, and no entry equal to what an unlisted one reads as. -/
def writeCells (unlisted : Nat → Entry) : List Cell → Nat → Entry → List Cell
  | [], i, v => if v = unlisted i then [] else [(i, v)]
  | (k, w) :: rest, i, v =>
    if i = k then (if v = unlisted i then rest else (i, v) :: rest)
    else if i < k then (if v = unlisted i then (k, w) :: rest else (i, v) :: (k, w) :: rest)
    else (k, w) :: writeCells unlisted rest i v

/-- The canonical form of one list. -/
abbrev CellsWf (unlisted : Nat → Entry) (cells : List Cell) : Prop :=
  cells.Pairwise (fun a b => a.1 < b.1) ∧ ∀ c ∈ cells, c.2 ≠ unlisted c.1

/-- The canonical form of the table memory of a session of configuration `c`. -/
abbrev Memory.wf (c : Word64) (ts : Tables) : Prop :=
  CellsWf (unlistedEntry ts.fill c .lzpLo) ts.lzpLo ∧ CellsWf (unlistedEntry ts.fill c .lzpHi) ts.lzpHi
    ∧ CellsWf (unlistedEntry ts.fill c .apmLo) ts.apmLo ∧ CellsWf (unlistedEntry ts.fill c .apmHi) ts.apmHi
    ∧ CellsWf (unlistedEntry ts.fill c .lit) ts.lit

/-- `TblRead(T, i)` (R66) on the table memory of a session of configuration `c`. -/
def tablesRead (c : Word64) (ts : Tables) (t : TableId) (i : Nat) : Entry :=
  readCells (unlistedEntry ts.fill c t) (tableCells ts t) i

/-- `TblWrite(T, i, v)` (R66). -/
def tablesWrite (c : Word64) (ts : Tables) (t : TableId) (i : Nat) (v : Entry) : Tables :=
  setTableCells ts t (writeCells (unlistedEntry ts.fill c t) (tableCells ts t) i v)

/-- `TblRead(T, i)` (R66) in a state. -/
def tblRead (s : State) (t : TableId) (i : Nat) : Entry := tablesRead s.regs.scfg s.tables t i

/-- `TblRead(FSM, i)` (R65): an entry of the ROM. -/
def fsmRead (p : Params) (i : Fin 512) : Byte := p.fsmTable[i.val]'i.isLt

/-- The place of a transition in the ROM is inside it (R65). -/
theorem fsmIndex_lt (st : Byte) (matched : Bool) : 2 * st.toNat + flag matched < 512 := by
  have := st.isLt
  unfold flag
  split <;> omega

/-- `Next(st, m) = TblRead(FSM, 2*st + m)` (R149): the transition of state `st` on a match (m = 1) or a mismatch. -/
def nextState (p : Params) (st : Byte) (matched : Bool) : Byte :=
  fsmRead p ⟨2 * st.toNat + flag matched, fsmIndex_lt st matched⟩

/-! ### The computation of a command's rule -/

/-- Why a command's rule ends before its end. -/
inductive Abort where
  /-- `raise Fault(cause)` (R10) -/
  | raise (cause : Cause)
  /-- a port has no answer yet (R299) -/
  | wait
  /-- the rules say nothing more -/
  | stop (f : Fault)
  deriving DecidableEq, Repr

/-- A piece of a command's rule: it reads and writes the state in order, and may end the command. The state where it ends is
kept. -/
abbrev Cmd := EStateM Abort State

/-- `raise Fault(cause)`. -/
def raiseFault {α : Type} (cause : Cause) : Cmd α := fun s => .error (.raise cause) s

/-- The rules stop speaking. -/
def stopFault {α : Type} (f : Fault) : Cmd α := fun s => .error (.stop f) s

/-- The registers. -/
def getRegs : Cmd Regs := fun s => .ok s.regs s

/-- A register write. -/
def modifyRegs (f : Regs → Regs) : Cmd Unit := fun s => .ok () { s with regs := f s.regs }

/-- `a - b` on natural numbers (R9). -/
def checkedSub (a b : Nat) : Cmd Nat := fun s => if b ≤ a then .ok (a - b) s else .error (.stop .negativeDifference) s

/-- `a / b` on natural numbers (R9). -/
def checkedDiv (a b : Nat) : Cmd Nat := fun s => if b = 0 then .error (.stop .zeroDivisor) s else .ok (a / b) s

/-- A value as the contents of a register or entry of `w` bits, which it must fit (R10). -/
def checkedFit (w v : Nat) : Cmd (BitVec w) := fun s =>
  if v < 2 ^ w then .ok (BitVec.ofNat w v) s else .error (.stop .valueTooWide) s

/-- `TblWrite(T, i, v)` (R66). -/
def writeTable (t : TableId) (i : Nat) (v : Entry) : Cmd Unit := fun s =>
  .ok () { s with tables := tablesWrite s.regs.scfg s.tables t i v }

/-- `if c: x`. -/
def whenTrue (c : Bool) (x : Cmd Unit) : Cmd Unit := if c then x else pure ()

/-- A step for each number of a list, in order. -/
def forEach (body : Nat → Cmd Unit) : List Nat → Cmd Unit
  | [] => pure ()
  | j :: js => do
    body j
    forEach body js

/-- `acc` and the values of a list of numbers, summed in order. -/
def sumOver (value : Nat → Cmd Nat) : List Nat → Nat → Cmd Nat
  | [], acc => pure acc
  | j :: js, acc => do
    let v ← value j
    sumOver value js (acc + v)

/-! ### The stream ports -/

/-- What the input port answers next, and the port after it; none while it has no answer (R79). Once it has given the end mark in a
session it gives it to every later request of that session. -/
def nextInAnswer (p : InPort) : Option (InAnswer × InPort) :=
  if p.ended then some (.endMark, p)
  else
    match p.answers with
    | a :: later => some (a, { p with answers := later, used := p.used ++ [a], ended := a == .endMark })
    | [] =>
      match p.rest with
      | some a => some (a, { p with used := p.used ++ [a], ended := a == .endMark })
      | none => none

/-- What the output port answers next, and the port after it; none while it has no answer (R80). -/
def nextOutAnswer (p : OutPort) : Option (OutAnswer × OutPort) :=
  match p.answers with
  | a :: later => some (a, { p with answers := later, used := p.used ++ [a] })
  | [] =>
    match p.rest with
    | some a => some (a, { p with used := p.used ++ [a] })
    | none => none

/-- Ask the input port; wait while it has no answer (R79, R299). -/
def askInput : Cmd InAnswer := fun s =>
  match nextInAnswer s.inPort with
  | none => .error .wait s
  | some (a, p) => .ok a { s with inPort := p }

/-- IN_COUNT <- (IN_COUNT + 1) mod 2^64 (R39). -/
def countInput : Cmd Unit := modifyRegs fun r => { r with inCount := r.inCount + 1#64 }

/-- `InRead()` (R79). -/
def inRead : Cmd Byte := do
  let answer ← askInput
  match answer with
  | .byte b =>
    countInput
    pure b
  | .endMark => raiseFault .unexpectedEndOfInput
  | .error => raiseFault .ioFailure

/-- `OutWrite(b)` (R80). -/
def outWrite (b : Byte) : Cmd Unit := fun s =>
  match nextOutAnswer s.outPort with
  | none => .error .wait s
  | some (.accept, p) =>
    .ok () { s with outPort := { p with taken := p.taken ++ [b] }, regs := { s.regs with outCount := s.regs.outCount + 1#64 } }
  | some (.error, p) => .error (.raise .ioFailure) { s with outPort := p }

/-! ### Fault entry and the end of a command -/

/-- The end of a command, however it ends: BUSY <- 0 (R110). -/
def endCommand (s : State) : State :=
  { s with
    regs := { s.regs with busy := false }
    inPort := { s.inPort with used := [] }
    outPort := { s.outPort with used := [] }
    stall := none }

/-- Fault entry (R263): the cause, CMD_COUNT and the word are recorded, MODE <- FAULTED, IRQ_PEND[0] <- 1; the command ends, not
counted. -/
def faultEntry (cause : Cause) (word : Word64) (s : State) : State :=
  endCommand
    { s with
      regs :=
        { s.regs with
          faultCause := causeCode cause
          faultCmd := s.regs.cmdCount
          faultWord := word
          mode := .faulted
          irqPend := s.regs.irqPend ||| 1#2 } }

/-- Whether a fault leaves state undefined (R265, R266): CORRUPT_PAYLOAD does where DEC_SYM raises it, and does not where
RC_DEC_TARGET does. -/
def impreciseFault (i : Instr) : Cause → Bool
  | .ioFailure => true
  | .unexpectedEndOfInput => true
  | .badMagic => false
  | .invalidConfiguration => false
  | .allocationFailure => false
  | .trailingData => false
  | .illegalCommand => false
  | .badState => false
  | .operandRange => false
  | .corruptPayload => i == .decSym
  | .narrowMismatch => true
  | .carryOverflow => true
  | .ffrunOverflow => true

/-- The registers that hold "any value" after an imprecise fault (R266), each a free value of its width. -/
def anyRegs (draw : Nat) (r : Regs) : Regs :=
  { r with
    rcBuffer := Config.anyBits draw 0 31
    rcRange := Config.anyBits draw 1 31
    carry := Config.anyBits draw 2 1 == 1#1
    delay := Config.anyBits draw 3 8
    delayValid := Config.anyBits draw 4 1 == 1#1
    ffrun := Config.anyBits draw 5 32
    look := Config.anyBits draw 6 8
    context := Config.anyBits draw 7 64
    histLo := Config.anyBits draw 8 4
    histHi := Config.anyBits draw 9 4
    cost := Config.anyBits draw 10 32
    result := Config.anyBits draw 11 32
    inCount := Config.anyBits draw 12 64
    outCount := Config.anyBits draw 13 64 }

/-- What an imprecise fault leaves at "any value" (R266): registers and the session tables. -/
def undefineAfterFault (s : State) : State :=
  { s with regs := anyRegs s.draws s.regs, tables := Tables.unspecified s.draws, draws := s.draws + 1 }

/-- A fault raised inside command `i`, the state being as its rule left it at the raise (R263, R265, R266). -/
def takeFault (i : Instr) (cause : Cause) (s : State) : State :=
  faultEntry cause (encode i) (if impreciseFault i cause then undefineAfterFault s else s)

/-- The command retires: CMD_COUNT <- (CMD_COUNT + 1) mod 2^64 (R110). -/
def retire (s : State) : State :=
  endCommand { s with regs := { s.regs with cmdCount := s.regs.cmdCount + 1#64 } }

/-- The block takes a command: BUSY <- 1 (R110, R40). -/
def takeCommand (s : State) : State :=
  { s with
    regs := { s.regs with busy := true }
    inPort := { s.inPort with used := [] }
    outPort := { s.outPort with used := [] }
    stall := none }

/-- The command waits (R299): the state is as its rule left it at the call, with what it began from beside it. -/
def waitOnPort (i : Instr) (start s : State) : State :=
  { s with
    stall :=
      some { word := encode i, regs := start.regs, tables := start.tables, inEnded := start.inPort.ended,
             outTaken := start.outPort.taken } }

/-- A waiting command taken up again: what it began from, with the answers its ports have given it so far in front of those to
come. Its rule then makes the same moves as before up to the call it waits in, and goes on from there. -/
def resumeStalled (st : Stall) (s : State) : State :=
  { s with
    regs := st.regs
    tables := st.tables
    inPort := { s.inPort with answers := s.inPort.used ++ s.inPort.answers, ended := st.inEnded, used := [] }
    outPort := { s.outPort with answers := s.outPort.used ++ s.outPort.answers, used := [], taken := st.outTaken }
    stall := none }

/-- The word the block executes next, and the state it executes it in: the waiting command's (R299), or the oldest word of the
FIFO, which it takes out (R72, R43); none while it is idle (R274, R292). -/
def fetchCommand (s : State) : Option (Word64 × State) :=
  match s.stall with
  | some st => some (st.word, resumeStalled st s)
  | none =>
    match s.cmdFifo with
    | [] => none
    | w :: later => some (w, { s with cmdFifo := later })

/-- `w` at the head of the FIFO in place of the word there, and no command waiting: the next word the block takes. -/
def placeCommand (w : Word64) (s : State) : State := { s with cmdFifo := w :: s.cmdFifo.tail, stall := none }

/-- How a command's rule ended, as the outcome of the step. -/
def concludeCommand (i : Instr) (start : State) : EStateM.Result Abort State Unit → Host.Outcome State Fault Refusal
  | .ok _ s => .next (retire s)
  | .error (.raise cause) s => .next (takeFault i cause s)
  | .error .wait s => .next (waitOnPort i start s)
  | .error (.stop f) _ => .fault f

/-- `Execute(w)` (R110) of the word that decodes as `i`, whose rule is `rule`: discarded in FAULTED unless it runs there (R112);
then the mode (R111), the operand ranges (R92), the rule, and the retirement, in the order of R264. -/
def executeCommand (i : Instr) (rule : Cmd Unit) (s : State) : Host.Outcome State Fault Refusal :=
  if s.regs.mode = .faulted ∧ runsWhenFaulted i = false then .next (endCommand s)
  else if legal i s.regs.mode s.regs.dir = false then .next (faultEntry .badState (encode i) s)
  else if operandsInRange i = false then .next (faultEntry .operandRange (encode i) s)
  else concludeCommand i s (rule (takeCommand s))

/-- `Execute(w)` (R110) of an illegal word: ILLEGAL_COMMAND (R95), but discarded in FAULTED (R112). -/
def executeIllegal (w : Word64) (s : State) : State :=
  if s.regs.mode = .faulted then endCommand s else faultEntry .illegalCommand w s

/-- MODE <- DONE and IRQ_PEND[1] <- 1: every transition into DONE (R38). -/
def enterDone : Cmd Unit := modifyRegs fun r => { r with mode := .done, irqPend := r.irqPend ||| 2#2 }

/-- RESULT <- v (R36). -/
def setResult (v : Nat) : Cmd Unit := modifyRegs fun r => { r with result := BitVec.ofNat 32 v }

end Sys2Proof.Machine
end

