-- ==== Sys2Proof/Machine/Coder.lean ====
section
/-! DEFINITION. The range coder (spec/43_range_coder.md R200 to R214): the procedures that every coding command calls. B is
RC_BUFFER, R is RC_RANGE. -/

namespace Sys2Proof.Machine

/-- RC_RANGE <- v, where v must fit its 31 bits (R10, R28). -/
def setRange (v : Nat) : Cmd Unit := do
  let r ← checkedFit 31 v
  modifyRegs fun regs => { regs with rcRange := r }

/-- RC_BUFFER <- v mod 2^31 (R27). -/
def setBuffer (v : Nat) : Cmd Unit := modifyRegs fun regs => { regs with rcBuffer := BitVec.ofNat 31 v }

/-- `CarryAdd(v)` (R201): a carry out of bit 30 sets CARRY; a second one is CARRY_OVERFLOW. -/
def carryAdd (v : Nat) : Cmd Unit := do
  let r ← getRegs
  if r.rcBuffer.toNat + v ≤ 2 ^ 31 - 1 then setBuffer (r.rcBuffer.toNat + v)
  else if r.carry then raiseFault .carryOverflow
  else modifyRegs fun regs => { regs with carry := true, rcBuffer := BitVec.ofNat 31 (r.rcBuffer.toNat + v) }

/-- `repeat n times: OutWrite(b)`. -/
def outWriteRun (b : Byte) : Nat → Cmd Unit
  | 0 => pure ()
  | n + 1 => do
    outWrite b
    outWriteRun b n

/-- The flushing branch of OutputStage (R202): the delayed byte with the carry added, then the pending run, then `x` is delayed. -/
def flushDelayed (x : Byte) : Cmd Unit := do
  let r ← getRegs
  whenTrue r.delayValid (outWrite (r.delay + BitVec.ofNat 8 (flag r.carry)))
  outWriteRun (if r.carry then 0x00#8 else 0xFF#8) r.ffrun.toNat
  modifyRegs fun regs => { regs with ffrun := 0#32, delay := x, delayValid := true, carry := false }

/-- `OutputStage(x)` (R202): the carry-propagating byte output. -/
def outputStage (x : Byte) : Cmd Unit := do
  let r ← getRegs
  if x ≠ 0xFF#8 ∨ r.carry = true then
    if r.carry = true ∧ (r.delayValid = false ∨ r.delay = 0xFF#8) then raiseFault .carryOverflow else flushDelayed x
  else if r.ffrun.toNat = 2 ^ 32 - 1 then raiseFault .ffrunOverflow
  else modifyRegs fun regs => { regs with ffrun := regs.ffrun + 1#32 }

/-- `EncShift()` (R203): the top byte B[30:23] leaves the window. -/
def encShift : Cmd Unit := do
  let r ← getRegs
  outputStage (r.rcBuffer.extractLsb' 23 8)
  modifyRegs fun regs => { regs with rcBuffer := regs.rcBuffer <<< 8 }

/-- At most `turns` turns of EncNormalize's loop. -/
def encNormalizeWithin : Nat → Cmd Unit
  | 0 => do
    let r ← getRegs
    if r.rcRange.toNat < 2 ^ 23 then stopFault .endlessNormalization else pure ()
  | turns + 1 => do
    let r ← getRegs
    if r.rcRange.toNat < 2 ^ 23 then
      encShift
      modifyRegs fun regs => { regs with rcRange := regs.rcRange <<< 8 }
      encNormalizeWithin turns
    else pure ()

/-- `EncNormalize()` (R204): while R < 2^23, shift a byte out. R >= 1 on entry, so the loop runs at most 3 times. -/
def encNormalize : Cmd Unit := encNormalizeWithin 3

/-- One byte `n` of the code stream enters the decoder's window, one bit behind the byte boundary (R205). -/
def decShift (n : Byte) : Cmd Unit := modifyRegs fun r =>
  { r with
    rcBuffer := BitVec.ofNat 31 (r.rcBuffer.toNat <<< 8 ||| (r.look.toNat % 2) <<< 7 ||| n.toNat >>> 1)
    look := n
    rcRange := r.rcRange <<< 8 }

/-- At most `turns` turns of DecNormalize's loop. -/
def decNormalizeWithin : Nat → Cmd Unit
  | 0 => do
    let r ← getRegs
    if r.rcRange.toNat < 2 ^ 23 then stopFault .endlessNormalization else pure ()
  | turns + 1 => do
    let r ← getRegs
    if r.rcRange.toNat < 2 ^ 23 then
      let n ← inRead
      decShift n
      decNormalizeWithin turns
    else pure ()

/-- `DecNormalize()` (R205). -/
def decNormalize : Cmd Unit := decNormalizeWithin 3

/-- `DecPrime()` (R206): the first 31 bits of the code stream. -/
def decPrime : Cmd Unit := do
  let n1 ← inRead
  let n2 ← inRead
  let n3 ← inRead
  let n4 ← inRead
  modifyRegs fun r =>
    { r with
      rcBuffer := BitVec.ofNat 31 (n1.toNat <<< 23 ||| n2.toNat <<< 15 ||| n3.toNat <<< 7 ||| n4.toNat >>> 1)
      look := n4 }

/-- `h = (R >> 15) * p` (R207, R208). -/
def flagSplit (r : Regs) (p : Nat) : Nat := (r.rcRange.toNat >>> 15) * p

/-- The sub-interval EncFlag takes (R207): a match takes the low part. -/
def encFlagNarrow (p : Nat) (m : Bool) : Cmd Unit := do
  let r ← getRegs
  if m then setRange (flagSplit r p)
  else
    carryAdd (flagSplit r p)
    let rest ← checkedSub r.rcRange.toNat (flagSplit r p)
    setRange rest

/-- `EncFlag(p, m)` (R207). -/
def encFlag (p : Nat) (m : Bool) : Cmd Unit := do
  encFlagNarrow p m
  encNormalize

/-- `DecFlag(p)` (R208). -/
def decFlag (p : Nat) : Cmd Bool := do
  let r ← getRegs
  if r.rcBuffer.toNat < flagSplit r p then
    setRange (flagSplit r p)
    decNormalize
    pure true
  else
    let rest ← checkedSub r.rcRange.toNat (flagSplit r p)
    setBuffer (r.rcBuffer.toNat - flagSplit r p)
    setRange rest
    decNormalize
    pure false

/-- The sub-interval EncEos takes (R209). -/
def encEosNarrow (last : Bool) : Cmd Unit := do
  let r ← getRegs
  let less ← checkedSub r.rcRange.toNat 1
  if last then
    carryAdd less
    setRange 1
  else setRange less

/-- `EncEos(last)` (R209). -/
def encEos (last : Bool) : Cmd Unit := do
  encEosNarrow last
  encNormalize

/-- `DecEos()` (R210). -/
def decEos : Cmd Bool := do
  let r ← getRegs
  let less ← checkedSub r.rcRange.toNat 1
  if r.rcBuffer.toNat < less then
    setRange less
    decNormalize
    pure false
  else
    setBuffer 0
    setRange 1
    decNormalize
    pure true

/-- `EncFreq(cum, freq, tot)` (R211). -/
def encFreq (cum freq tot : Nat) : Cmd Unit := do
  let regs ← getRegs
  let r ← checkedDiv regs.rcRange.toNat tot
  carryAdd (cum * r)
  setRange (r * freq)
  encNormalize

/-- `DecTarget(tot)` (R212): it changes no state. -/
def decTarget (tot : Nat) : Cmd Nat := do
  let regs ← getRegs
  let r ← checkedDiv regs.rcRange.toNat tot
  let t ← checkedDiv regs.rcBuffer.toNat r
  if tot ≤ t then raiseFault .corruptPayload else pure t

/-- B <- B - base * r and R <- r * freq, then normalize: what every multi-symbol decoding ends with (R213, R177, R179). -/
def decTakeInterval (base freq r : Nat) : Cmd Unit := do
  let regs ← getRegs
  let rest ← checkedSub regs.rcBuffer.toNat (base * r)
  setBuffer rest
  setRange (r * freq)
  decNormalize

/-- `DecNarrow(cum, freq, tot)` (R213). -/
def decNarrow (cum freq tot : Nat) : Cmd Unit := do
  let regs ← getRegs
  let r ← checkedDiv regs.rcRange.toNat tot
  let t ← checkedDiv regs.rcBuffer.toNat r
  if cum ≤ t ∧ t < cum + freq then decTakeInterval cum freq r else raiseFault .narrowMismatch

/-- `Flush()` (R214): five shifts; R plays no part. -/
def flushCoder : Cmd Unit := do
  encShift
  encShift
  encShift
  encShift
  encShift

end Sys2Proof.Machine
end

