-- ==== Sys2Proof/Machine/Control.lean ====
section
/-! DEFINITION. The control commands (spec/40_control.md R113 to R121), with the session start INIT_ENC and INIT_DEC share (R119). -/

namespace Sys2Proof.Machine

/-- NOP (R113). -/
def execNop (s : State) : Host.Outcome State Fault Refusal := executeCommand .nop (pure ()) s

/-- SETCFG_HI (R114): `CONFIG <- {IMM32, CONFIG[31:0]}`. -/
def execSetcfgHi (imm32 : Nat) (s : State) : Host.Outcome State Fault Refusal :=
  executeCommand (.setcfgHi imm32)
    (modifyRegs fun r => { r with config := BitVec.ofNat 32 imm32 ++ r.config.extractLsb' 0 32 }) s

/-- SETCFG_LO (R115): `CONFIG <- {CONFIG[63:32], IMM32}`. -/
def execSetcfgLo (imm32 : Nat) (s : State) : Host.Outcome State Fault Refusal :=
  executeCommand (.setcfgLo imm32)
    (modifyRegs fun r => { r with config := r.config.extractLsb' 32 32 ++ BitVec.ofNat 32 imm32 }) s

/-- SETIRQ (R116): `IRQ_EN <- EN; IRQ_PEND <- IRQ_PEND & ~CLR`. -/
def execSetirq (en clr : Nat) (s : State) : Host.Outcome State Fault Refusal :=
  executeCommand (.setirq en clr)
    (modifyRegs fun r => { r with irqEn := BitVec.ofNat 2 en, irqPend := r.irqPend &&& ~~~(BitVec.ofNat 2 clr) }) s

/-- The registers a session start writes (R119, the session-start column of R21), from CONFIG. -/
def sessionStartRegs (r : Regs) : Regs :=
  { r with
    inCount := 0#64
    outCount := 0#64
    scfg := r.config
    tablesValid := true
    rcBuffer := 0#31
    rcRange := 0x7FFFFFFF#31
    carry := false
    delayValid := false
    delay := 0#8
    ffrun := 0#32
    look := 0#8
    context := 0#64
    histLo := 0#4
    histHi := 0#4
    cost := 0#32
    result := 0#32 }

/-- The table memory after R119's loops: every entry of the session's tables holds its session-start value, so no list names one. -/
def sessionStartTables : Tables where
  fill := .sessionStart
  lzpLo := []
  lzpHi := []
  apmLo := []
  apmHi := []
  lit := []

/-- `SessionInit(d)` (R119): the two checks before any write; then the counters, SCFG, the tables and the registers. The input
port's end mark is per session (R79). -/
def sessionInit : Cmd Unit := fun s =>
  if cfgValid s.regs.config = false then .error (.raise .invalidConfiguration) s
  else if s.params.tableMemWords.toNat < needWords s.regs.config then .error (.raise .allocationFailure) s
  else
    .ok ()
      { s with
        regs := sessionStartRegs s.regs
        tables := sessionStartTables
        inPort := { s.inPort with ended := false } }

/-- INIT_ENC (R117). -/
def execInitEnc (s : State) : Host.Outcome State Fault Refusal :=
  executeCommand .initEnc
    (do
      sessionInit
      modifyRegs fun r => { r with mode := .enc, dir := false }) s

/-- INIT_DEC (R118): the session start, the priming of the decoder, then the mode. -/
def execInitDec (s : State) : Host.Outcome State Fault Refusal :=
  executeCommand .initDec
    (do
      sessionInit
      decPrime
      modifyRegs fun r => { r with mode := .dec, dir := true }) s

/-- What TBL_READ answers where no entry is named (R120). -/
def tableSentinel : Nat := 0xFFFFFFFF

/-- The table a table id names, but the FSM ROM's (R74). -/
def tableOfId (tid : Nat) : Option TableId :=
  match tid with
  | 0 => some .lzpLo
  | 1 => some .lzpHi
  | 2 => some .apmLo
  | 3 => some .apmHi
  | 4 => some .lit
  | _ => none

/-- The value TBL_READ writes to RESULT (R120): the FSM ROM in every mode; a session table's entry once a session has started and
where the table has one; else the sentinel. -/
def tableReadValue (tid idx : Nat) (s : State) : Nat :=
  if h : tid = 5 ∧ idx < 512 then (fsmRead s.params ⟨idx, h.2⟩).toNat
  else if s.regs.tablesValid = false then tableSentinel
  else
    match tableOfId tid with
    | some t => if idx < tableSize s.regs.scfg t then (tblRead s t idx).toNat else tableSentinel
    | none => tableSentinel

/-- TBL_READ (R120). -/
def execTblRead (tid idx : Nat) (s : State) : Host.Outcome State Fault Refusal :=
  executeCommand (.tblRead tid idx)
    (do
      let now ← get
      setResult (tableReadValue tid idx now)) s

/-- DEC_CHECK_END (R121): the end mark is the answer that retires; a byte is consumed and is TRAILING_DATA. -/
def execDecCheckEnd (s : State) : Host.Outcome State Fault Refusal :=
  executeCommand .decCheckEnd
    (do
      let answer ← askInput
      match answer with
      | .endMark => setResult 0
      | .byte _ =>
        countInput
        raiseFault .trailingData
      | .error => raiseFault .ioFailure) s

end Sys2Proof.Machine
end

