-- ==== Sys2Proof/Machine/RawCoder.lean ====
section
/-! DEFINITION. The raw range-coder commands (spec/43_range_coder.md R217 to R224). -/

namespace Sys2Proof.Machine

/-- RC_ENC_BIT (R217). -/
def execRcEncBit (bit p : Nat) (s : State) : Host.Outcome State Fault Refusal :=
  executeCommand (.rcEncBit bit p) (encFlag p (bit == 1)) s

/-- RC_DEC_BIT (R218). -/
def execRcDecBit (p : Nat) (s : State) : Host.Outcome State Fault Refusal :=
  executeCommand (.rcDecBit p)
    (do
      let m ← decFlag p
      setResult (flag m)) s

/-- RC_ENC_EOS (R219). -/
def execRcEncEos (last : Nat) (s : State) : Host.Outcome State Fault Refusal :=
  executeCommand (.rcEncEos last)
    (do
      encEos (last == 1)
      whenTrue (last == 1) (modifyRegs fun r => { r with mode := .encEnding })) s

/-- RC_DEC_EOS (R220). -/
def execRcDecEos (s : State) : Host.Outcome State Fault Refusal :=
  executeCommand .rcDecEos
    (do
      let last ← decEos
      setResult (flag last)
      whenTrue last enterDone) s

/-- RC_ENC_FREQ (R221). -/
def execRcEncFreq (cum freq tot : Nat) (s : State) : Host.Outcome State Fault Refusal :=
  executeCommand (.rcEncFreq cum freq tot) (encFreq cum freq tot) s

/-- RC_DEC_TARGET (R222). -/
def execRcDecTarget (tot : Nat) (s : State) : Host.Outcome State Fault Refusal :=
  executeCommand (.rcDecTarget tot)
    (do
      let t ← decTarget tot
      setResult t) s

/-- RC_DEC_NARROW (R223). -/
def execRcDecNarrow (cum freq tot : Nat) (s : State) : Host.Outcome State Fault Refusal :=
  executeCommand (.rcDecNarrow cum freq tot) (decNarrow cum freq tot) s

/-- RC_FLUSH (R224). -/
def execRcFlush (s : State) : Host.Outcome State Fault Refusal :=
  executeCommand .rcFlush
    (do
      flushCoder
      enterDone) s

end Sys2Proof.Machine
end

