-- ==== Sys2Proof/Machine/Literal.lean ====
section
/-! DEFINITION. The order-N literal model (spec/42_literal_model.md R170 to R186): exclusion of the mispredicted symbol, the
adaptive and the fixed coding paths, training, rescale, and the cost tracker. -/

namespace Sys2Proof.Machine

/-! ### LOG2_FIX (R184) -/

/-- `floor(log2 n)` for `1 <= n < 2^(2^k)`. -/
def floorLog2Below (n : Nat) : Nat → Nat
  | 0 => 0
  | k + 1 => if n >>> 2 ^ k = 0 then floorLog2Below n k else 2 ^ k + floorLog2Below (n >>> 2 ^ k) k

/-- The scale of LOG2_FIX: 14 fractional bits (R184). -/
def log2Scale : Nat := 2 ^ 14

/-- The decided default, `floor(2^14 * log2 n) = bitlength(n^16384) - 1`, for `1 <= n <= 32767`. -/
def log2FixExact (n : Nat) : Nat := floorLog2Below (n ^ log2Scale) 18

/-- LOG2_FIX(n); none outside its domain 1..32767. -/
def log2FixValue (f : Log2Fix) (n : Nat) : Option Nat :=
  if 1 ≤ n ∧ n ≤ 32767 then
    match f with
    | .exact => some (log2FixExact n)
    | .table values => (values[n - 1]?).map BitVec.toNat
  else none

/-- LOG2_FIX(n), in a rule. -/
def log2Fix (n : Nat) : Cmd Nat := fun s =>
  match log2FixValue s.params.log2Fix n with
  | some v => .ok v s
  | none => .error (.stop .logarithmDomain) s

/-! ### The table of the literal context -/

/-- `LitCtx()` (R170). -/
def litCtx (s : State) : Nat := s.regs.context.toNat &&& (cfgContexts s.regs.scfg - 1)

/-- The place of `Single(c, sym)` (R64). -/
def singleIndex (c sym : Nat) : Nat := c * 273 + sym

/-- The place of `Group(c, g)` (R64). -/
def groupIndex (c g : Nat) : Nat := c * 273 + (256 + g)

/-- The place of `Total(c)` (R64). -/
def totalIndex (c : Nat) : Nat := c * 273 + 272

/-- `f[sym]` (R170). -/
def litSingle (s : State) (sym : Nat) : Nat := (tblRead s .lit (singleIndex (litCtx s) sym)).toNat

/-- `G[g]` (R170). -/
def litGroup (s : State) (g : Nat) : Nat := (tblRead s .lit (groupIndex (litCtx s) g)).toNat

/-- `T` (R170). -/
def litTotal (s : State) : Nat := (tblRead s .lit (totalIndex (litCtx s))).toNat

/-- `f[sym]`, in a rule. -/
def readSingle (sym : Nat) : Cmd Nat := fun s => .ok (litSingle s sym) s

/-! ### Exclusion (R173, R174) -/

/-- `TotEx(x) = T - f[x]`. -/
def totEx (x : Nat) : Cmd Nat := do
  let s ← get
  checkedSub (litTotal s) (litSingle s x)

/-- `GroupEx(g, x)`. -/
def groupEx (g x : Nat) : Cmd Nat := do
  let s ← get
  checkedSub (litGroup s g) (if x >>> 4 = g then litSingle s x else 0)

/-- `FreqEx(sym, x)`. -/
def freqEx (sym x : Nat) : Cmd Nat := do
  let s ← get
  pure (if sym = x then 0 else litSingle s sym)

/-- `CumEx(sym, x)` (R174): whole groups below the symbol's group, then singles within it. -/
def cumEx (sym x : Nat) : Cmd Nat := do
  let groups ← sumOver (fun j => groupEx j x) (List.range (sym >>> 4)) 0
  sumOver (fun t => freqEx t x) (List.range' (16 * (sym >>> 4)) (sym - 16 * (sym >>> 4))) groups

/-! ### The two coding paths -/

/-- `LitEncAdaptive(sym, x)` (R176). -/
def litEncAdaptive (sym x : Nat) : Cmd Unit := do
  let te ← totEx x
  let cum ← cumEx sym x
  let fs ← readSingle sym
  encFreq cum fs te

/-- The group walk of LitDecAdaptive (R177), `left` groups before the table's end: the group whose interval holds `t`, and the sum
below it. -/
def walkGroups (x t : Nat) : Nat → Nat → Nat → Cmd (Nat × Nat)
  | 0, _, _ => stopFault .walkPastTable
  | left + 1, g, acc => do
    let f ← groupEx g x
    if acc + f ≤ t then walkGroups x t left (g + 1) (acc + f) else pure (g, acc)

/-- The single walk of LitDecAdaptive (R177). -/
def walkSingles (x t : Nat) : Nat → Nat → Nat → Cmd (Nat × Nat)
  | 0, _, _ => stopFault .walkPastTable
  | left + 1, sym, acc => do
    let f ← freqEx sym x
    if acc + f ≤ t then walkSingles x t left (sym + 1) (acc + f) else pure (sym, acc)

/-- `LitDecAdaptive(x)` (R177). -/
def litDecAdaptive (x : Nat) : Cmd Nat := do
  let regs ← getRegs
  let te ← totEx x
  let r ← checkedDiv regs.rcRange.toNat te
  let t ← checkedDiv regs.rcBuffer.toNat r
  if te ≤ t then raiseFault .corruptPayload
  else
    let found ← walkGroups x t 16 0 0
    let hit ← walkSingles x t (256 - 16 * found.1) (16 * found.1) found.2
    let fs ← readSingle hit.1
    decTakeInterval hit.2 fs r
    pure hit.1

/-- `LitEncFixed(sym, x)` (R178). -/
def litEncFixed (sym x : Nat) : Cmd Unit := do
  let regs ← getRegs
  let r ← checkedDiv regs.rcRange.toNat 255
  let rank ← checkedSub sym (if x < sym then 1 else 0)
  carryAdd (rank * r)
  setRange r
  encNormalize

/-- `LitDecFixed(x)` (R179). -/
def litDecFixed (x : Nat) : Cmd Nat := do
  let regs ← getRegs
  let r ← checkedDiv regs.rcRange.toNat 255
  let t ← checkedDiv regs.rcBuffer.toNat r
  if 255 ≤ t then raiseFault .corruptPayload
  else
    decTakeInterval t 1 r
    pure (t + (if x ≤ t then 1 else 0))

/-! ### Training (R181, R182) -/

/-- Entry `i` of LIT <- its value + `step`. -/
def addToLit (i step : Nat) : Cmd Unit := do
  let s ← get
  let v ← checkedFit 16 ((tblRead s .lit i).toNat + step)
  writeTable .lit i v

/-- `f[sym] <- max(1, f[sym] >> 1)`. -/
def halveSingle (c sym : Nat) : Cmd Unit := do
  let s ← get
  writeTable .lit (singleIndex c sym) (BitVec.ofNat 16 (max 1 ((tblRead s .lit (singleIndex c sym)).toNat >>> 1)))

/-- An entry of LIT, in a rule. -/
def readLit (i : Nat) : Cmd Nat := fun s => .ok (tblRead s .lit i).toNat s

/-- `G[g] <-` the sum of its 16 singles. -/
def regroup (c g : Nat) : Cmd Unit := do
  let sum ← sumOver (fun sym => readLit (singleIndex c sym)) (List.range' (16 * g) 16) 0
  let v ← checkedFit 16 sum
  writeTable .lit (groupIndex c g) v

/-- `Rescale()` (R182) of literal context `c`. -/
def rescale (c : Nat) : Cmd Unit := do
  forEach (halveSingle c) (List.range 256)
  forEach (regroup c) (List.range 16)
  let sum ← sumOver (fun g => readLit (groupIndex c g)) (List.range 16) 0
  let v ← checkedFit 16 sum
  writeTable .lit (totalIndex c) v

/-- `LitTrain(sym)` (R181). -/
def litTrain (sym : Nat) : Cmd Unit := do
  let s ← get
  addToLit (singleIndex (litCtx s) sym) (cfgStep s.regs.scfg)
  addToLit (groupIndex (litCtx s) (sym >>> 4)) (cfgStep s.regs.scfg)
  addToLit (totalIndex (litCtx s)) (cfgStep s.regs.scfg)
  let trained ← get
  whenTrue (decide (cfgLimit s.regs.scfg < litTotal trained)) (rescale (litCtx s))

/-- `CostUpdate(te, fs)` (R183). -/
def costUpdate (te fs : Nat) : Cmd Unit := do
  let r ← getRegs
  let kept ← checkedSub r.cost.toNat (r.cost.toNat >>> 7)
  let logTotal ← log2Fix te
  let logFreq ← log2Fix fs
  let sum ← checkedSub (kept + logTotal) logFreq
  let cost ← checkedFit 32 sum
  modifyRegs fun regs => { regs with cost := cost }

/-! ### The literal procedures (R186) -/

/-- The coding path USE_FIXED selects (R180). -/
def litEncPath (fixed : Bool) (sym x : Nat) : Cmd Unit := if fixed then litEncFixed sym x else litEncAdaptive sym x

/-- The decoding path USE_FIXED selects (R180). -/
def litDecPath (fixed : Bool) (x : Nat) : Cmd Nat := if fixed then litDecFixed x else litDecAdaptive x

/-- `LitEncode(sym, x)`. -/
def litEncode (sym x : Nat) : Cmd Unit := do
  let s ← get
  let te ← totEx x
  let fs ← readSingle sym
  litEncPath (useFixed s) sym x
  costUpdate te fs
  litTrain sym

/-- `LitDecode(x)`. -/
def litDecode (x : Nat) : Cmd Nat := do
  let s ← get
  let te ← totEx x
  let sym ← litDecPath (useFixed s) x
  let fs ← readSingle sym
  costUpdate te fs
  litTrain sym
  pure sym

end Sys2Proof.Machine
end

