-- ==== Sys2Proof/Machine/Predictor.lean ====
section
/-! DEFINITION. The context, the hash, the LZP predictors, the confidence FSM and the adaptive probability maps
(spec/41_lzp_model.md R140 to R155). -/

namespace Sys2Proof.Machine

/-- `FNV_PRIME` (R141). -/
def fnvPrime : Word32 := 16777619#32

/-- `FNV_BASIS` (R141), which the spec supplies from general knowledge. -/
def fnvBasis : Word32 := 2166136261#32

/-- `CONTEXT[8i+7:8i]` (R33). -/
def contextByte (c : Word64) (i : Nat) : Byte := c.extractLsb' (8 * i) 8

/-- `count` steps of the hash from context byte `first` on: multiply, then XOR (R141, R142). -/
def hashContext (c : Word64) (h : Word32) (first : Nat) : Nat → Word32
  | 0 => h
  | count + 1 => hashContext c ((h * fnvPrime) ^^^ (contextByte c first).setWidth 32) (first + 1) count

/-- The 32-bit hash of context bytes 0 to LCTX - 1 (R142). -/
def hashLo (r : Regs) : Word32 := hashContext r.context fnvBasis 0 (cfgLctx r.scfg)

/-- The low hash continued over bytes LCTX to HCTX - 1 (R142). -/
def hashHi (r : Regs) : Word32 := hashContext r.context (hashLo r) (cfgLctx r.scfg) (cfgHctx r.scfg - cfgLctx r.scfg)

/-- IDX_LO (R142). -/
def indexLo (r : Regs) : Nat := (hashLo r).toNat &&& (2 ^ cfgLmask r.scfg - 1)

/-- IDX_HI (R142). -/
def indexHi (r : Regs) : Nat := (hashHi r).toNat &&& (2 ^ cfgHmask r.scfg - 1)

/-- A member of the predictor bank (R48). -/
inductive Member where
  | lo | hi
  deriving DecidableEq, Repr

/-- The member's LZP table (R48). -/
def memberLzp : Member → TableId
  | .lo => .lzpLo
  | .hi => .lzpHi

/-- The member's adaptive probability table (R48). -/
def memberApm : Member → TableId
  | .lo => .apmLo
  | .hi => .apmHi

/-- The member's table index (R142). -/
def memberIndex (m : Member) (r : Regs) : Nat :=
  match m with
  | .lo => indexLo r
  | .hi => indexHi r

/-- The member's match history (R34). -/
def memberHist (m : Member) (r : Regs) : BitVec 4 :=
  match m with
  | .lo => r.histLo
  | .hi => r.histHi

/-- A write of the member's match history. -/
def setMemberHist (m : Member) (h : BitVec 4) (r : Regs) : Regs :=
  match m with
  | .lo => { r with histLo := h }
  | .hi => { r with histHi := h }

/-- What Predict reads of one member (R147): its slot's index, confidence state and predicted byte, and the probability that the
byte is right. -/
structure Prediction where
  index : Nat
  state : Byte
  symbol : Byte
  prob : Nat
  deriving DecidableEq, Repr

/-- ST of a slot, bits 15:8 (R145, R62). -/
def slotState (v : Entry) : Byte := v.extractLsb' 8 8

/-- PRED of a slot, bits 7:0 (R145, R62). -/
def slotSymbol (v : Entry) : Byte := v.extractLsb' 0 8

/-- A slot's entry: `state << 8 | symbol` (R62). -/
def packSlot (st symbol : Byte) : Entry := st ++ symbol

/-- The place of history `h` and state `st` in an adaptive probability table (R63). -/
def apmIndex (h : BitVec 4) (st : Byte) : Nat := h.toNat * 256 + st.toNat

/-- One member's part of `Predict()` (R147), with `Slot` (R145) and `Prob` (R150). -/
def predictMember (m : Member) (s : State) : Prediction :=
  let slot := tblRead s (memberLzp m) (memberIndex m s.regs)
  { index := memberIndex m s.regs
    state := slotState slot
    symbol := slotSymbol slot
    prob := (tblRead s (memberApm m) (apmIndex (memberHist m s.regs) (slotState slot))).toNat }

/-- `Choose()` (R154): HI only where its probability is the greater; LO wins a tie. -/
def choose (s : State) : Prediction :=
  if dual s = true ∧ (predictMember .lo s).prob < (predictMember .hi s).prob then predictMember .hi s
  else predictMember .lo s

/-- `HistUpdate(h, m)` (R152): a mismatch enters as 1. -/
def histUpdate (h : BitVec 4) (matched : Bool) : BitVec 4 := BitVec.ofNat 4 (h.toNat * 2 + flag (!matched))

/-- The value `ApmUpdate` writes over `p` (R151). -/
def apmNext (p : Nat) (matched : Bool) : Cmd Nat :=
  if matched then do
    let gap ← checkedSub 32768 p
    pure (p + gap >>> 7)
  else checkedSub p (p >>> 7)

/-- `ApmUpdate(A, h, st, m)` (R151). -/
def apmUpdate (t : TableId) (h : BitVec 4) (st : Byte) (matched : Bool) : Cmd Unit := do
  let s ← get
  let p ← apmNext (tblRead s t (apmIndex h st)).toNat matched
  let v ← checkedFit 16 p
  writeTable t (apmIndex h st) v

/-- One member's part of `Observe(b)` (R153), with what Predict read of it. -/
def observeMember (m : Member) (q : Prediction) (b : Byte) : Cmd Unit := do
  let s ← get
  writeTable (memberLzp m) q.index (packSlot (nextState s.params q.state (b == q.symbol)) b)
  apmUpdate (memberApm m) (memberHist m s.regs) q.state (b == q.symbol)
  modifyRegs fun r => setMemberHist m (histUpdate (memberHist m r) (b == q.symbol)) r

/-- `UpdateContext(b)` (R140). -/
def updateContext (b : Byte) : Cmd Unit := modifyRegs fun r =>
  { r with context := (r.context <<< 8) ||| b.setWidth 64 }

/-- `Observe(b)` (R153): both members are trained, LO first, each on its own outcome; then the context. -/
def observe (lo hi : Prediction) (b : Byte) : Cmd Unit := do
  observeMember .lo lo b
  let s ← get
  whenTrue (dual s) (observeMember .hi hi b)
  updateContext b

end Sys2Proof.Machine
end

