-- ==== Sys2Proof/Machine/Symbol.lean ====
section
/-! DEFINITION. The composite symbol commands (spec/44_symbol_step.md R240 to R243). -/

namespace Sys2Proof.Machine

/-- The rule of ENC_SYM (R241): the EOS flag 0, the prediction, the match flag, the literal on a mismatch, the training. -/
def encodeSymbol (b : Byte) : Cmd Unit := do
  encEos false
  let s ← get
  encFlag (choose s).prob (b == (choose s).symbol)
  whenTrue (!(b == (choose s).symbol)) (litEncode b.toNat (choose s).symbol.toNat)
  observe (predictMember .lo s) (predictMember .hi s) b

/-- ENC_SYM (R241). -/
def execEncSym (byte : Nat) (s : State) : Host.Outcome State Fault Refusal :=
  executeCommand (.encSym byte) (encodeSymbol (BitVec.ofNat 8 byte)) s

/-- ENC_END (R243). -/
def execEncEnd (s : State) : Host.Outcome State Fault Refusal :=
  executeCommand .encEnd
    (do
      encEos true
      flushCoder
      enterDone) s

/-- DEC_SYM's answer at the end of the stream (R242). -/
def endOfStreamResult : Nat := 0x100

/-- The byte DEC_SYM decodes where more data follows (R242): the match flag, and the literal on a mismatch. -/
def decodeByte (x : Prediction) : Cmd Byte := do
  let m ← decFlag x.prob
  if m then pure x.symbol
  else
    let sym ← litDecode x.symbol.toNat
    pure (BitVec.ofNat 8 sym)

/-- The rule of DEC_SYM (R242). -/
def decodeSymbol : Cmd Unit := do
  let last ← decEos
  if last then
    setResult endOfStreamResult
    enterDone
  else
    let s ← get
    let b ← decodeByte (choose s)
    observe (predictMember .lo s) (predictMember .hi s) b
    outWrite b
    setResult b.toNat

/-- DEC_SYM (R242). -/
def execDecSym (s : State) : Host.Outcome State Fault Refusal := executeCommand .decSym decodeSymbol s

end Sys2Proof.Machine
end

