-- ==== Sys2Proof/Machine/Dispatch.lean ====
section
/-! DEFINITION. One arm per command: each calls its meaning (R110: Execute(w) runs the rule of the decoded command). -/

namespace Sys2Proof.Machine

def exec (i : Instr) (s : State) : Host.Outcome State Fault Refusal :=
  match i with
  | .nop => Sys2Proof.Machine.execNop s
  | .setcfgHi imm32 => Sys2Proof.Machine.execSetcfgHi imm32 s
  | .setcfgLo imm32 => Sys2Proof.Machine.execSetcfgLo imm32 s
  | .setirq en clr => Sys2Proof.Machine.execSetirq en clr s
  | .initEnc => Sys2Proof.Machine.execInitEnc s
  | .initDec => Sys2Proof.Machine.execInitDec s
  | .tblRead tid idx => Sys2Proof.Machine.execTblRead tid idx s
  | .decCheckEnd => Sys2Proof.Machine.execDecCheckEnd s
  | .encSym byte => Sys2Proof.Machine.execEncSym byte s
  | .encEnd => Sys2Proof.Machine.execEncEnd s
  | .decSym => Sys2Proof.Machine.execDecSym s
  | .rcEncBit bit p => Sys2Proof.Machine.execRcEncBit bit p s
  | .rcDecBit p => Sys2Proof.Machine.execRcDecBit p s
  | .rcEncEos last => Sys2Proof.Machine.execRcEncEos last s
  | .rcDecEos => Sys2Proof.Machine.execRcDecEos s
  | .rcEncFreq cum freq tot => Sys2Proof.Machine.execRcEncFreq cum freq tot s
  | .rcDecTarget tot => Sys2Proof.Machine.execRcDecTarget tot s
  | .rcDecNarrow cum freq tot => Sys2Proof.Machine.execRcDecNarrow cum freq tot s
  | .rcFlush => Sys2Proof.Machine.execRcFlush s

end Sys2Proof.Machine
end

