-- ==== Sys2Proof/Machine/Step.lean ====
section
/-! DEFINITION. One step: the block takes the next command word, decodes it and executes it (R72, R110). A model may execute each
command in one step (R303). -/

namespace Sys2Proof.Machine

/-- One step of the block. With no word to take, and none waiting on a port, the block is idle and its state stays as it is (R274);
a command that still waits leaves the state it waits in (R299). -/
def step (s : State) : Host.Outcome State Fault Refusal :=
  match fetchCommand s with
  | none => .next s
  | some (w, t) =>
    match decode w with
    | .ok i => exec i t
    | .error _ => .next (executeIllegal w t)

/-- The command word `w` placed where the next step takes its word: at the head of the command FIFO, no command waiting. -/
def State.withFetchWord (s : State) (nbits w : Nat) : State := placeCommand (BitVec.ofNat 64 (w % 2 ^ nbits)) s

end Sys2Proof.Machine
end

