-- ==== Sys2Proof/Machine/HostPort.lean ====
section
/-! DEFINITION. What the host can do to the block, between its steps (R271): push a command word, read a register, answer at the
stream ports, assert reset. -/

namespace Sys2Proof.Machine

/-- ID (R41): reads so at all times. -/
def idRegister : Word32 := 0x544C5A50#32

/-- VERSION (R41). -/
def versionRegister : Word32 := 0x00000001#32

/-- The low 32 bits of a 64-bit register (R44). -/
def lowHalf (w : Word64) : Word32 := w.extractLsb' 0 32

/-- The high 32 bits of a 64-bit register (R44). -/
def highHalf (w : Word64) : Word32 := w.extractLsb' 32 32

/-- What a register number shows while BUSY = 0 (R44); a number not in the map reads as 0 (R45). -/
def idleRegister (number : BitVec 6) (s : State) : Word32 :=
  match number.toNat with
  | 0x00 => idRegister
  | 0x01 => versionRegister
  | 0x02 => statusWord s
  | 0x03 => s.regs.faultCause.setWidth 32
  | 0x04 => lowHalf s.regs.faultCmd
  | 0x05 => highHalf s.regs.faultCmd
  | 0x06 => lowHalf s.regs.faultWord
  | 0x07 => highHalf s.regs.faultWord
  | 0x08 => lowHalf s.regs.config
  | 0x09 => highHalf s.regs.config
  | 0x0A => s.regs.rcBuffer.setWidth 32
  | 0x0B => s.regs.rcRange.setWidth 32
  | 0x0C => rcFlagsWord s.regs
  | 0x0D => s.regs.ffrun
  | 0x0E => lowHalf s.regs.context
  | 0x0F => highHalf s.regs.context
  | 0x10 => BitVec.ofNat 32 (s.regs.histLo.toNat + s.regs.histHi.toNat * 2 ^ 4)
  | 0x11 => s.regs.cost
  | 0x12 => s.regs.result
  | 0x13 => BitVec.ofNat 32 (s.regs.irqEn.toNat + s.regs.irqPend.toNat * 2 ^ 8)
  | 0x14 => lowHalf s.regs.cmdCount
  | 0x15 => highHalf s.regs.cmdCount
  | 0x16 => lowHalf s.regs.inCount
  | 0x17 => highHalf s.regs.inCount
  | 0x18 => lowHalf s.regs.outCount
  | 0x19 => highHalf s.regs.outCount
  | 0x1A => lowHalf s.params.tableMemWords
  | 0x1B => highHalf s.params.tableMemWords
  | 0x1C => s.params.costThreshold
  | 0x1D => lowHalf s.regs.scfg
  | 0x1E => highHalf s.regs.scfg
  | _ => 0#32

/-- STATUS bits 7 and 9, the only ones defined while BUSY = 1 (R46). -/
def busyStatusMask : Word32 := 0x00000280#32

/-- The register read port (R44 to R46). A read has no side effect. While BUSY = 1 a read returns a free value, taken at the draw
`draw` of the reader's, but for STATUS bits 7 and 9. -/
def readRegister (draw : Nat) (number : BitVec 6) (s : State) : Word32 :=
  if s.regs.busy then
    if number = 0x02#6 then
      (statusWord s &&& busyStatusMask) ||| (Config.anyRead draw number &&& ~~~busyStatusMask)
    else Config.anyRead draw number
  else idleRegister number s

/-- The host pushes a command word (R60, R271); none while the FIFO is full: the push waits. -/
def pushCommand (w : Word64) (s : State) : Option State :=
  if s.cmdFifo.length < s.params.cmdFifoDepth then some { s with cmdFifo := s.cmdFifo ++ [w] } else none

/-- The host gives further answers at the input port, behind those it has given (R79). -/
def giveInput (answers : List InAnswer) (s : State) : State :=
  { s with inPort := { s.inPort with answers := s.inPort.answers ++ answers } }

/-- The host gives further answers at the output port (R80). -/
def giveOutput (answers : List OutAnswer) (s : State) : State :=
  { s with outPort := { s.outPort with answers := s.outPort.answers ++ answers } }

/-- Reset (R290, R291): the registers at their reset values, the FIFO emptied, the table memory unspecified, the running or waiting
command abandoned. The bytes that have crossed the ports, and the host's side of them, stay (R293). -/
def assertReset (s : State) : State :=
  { s with
    regs := Regs.reset
    tables := Tables.unspecified s.draws
    cmdFifo := []
    inPort := { s.inPort with used := [] }
    outPort := { s.outPort with used := [] }
    stall := none
    draws := s.draws + 1 }

end Sys2Proof.Machine
end

