-- ==== Sys2Proof/Safety.lean ====
section
/-! DEFINITION. What counts as a good state and a good step, in the terms the statements use: the coder's invariants (R200), the
literal model's (R172), the probability maps' (R155), the machine's; what a symbol's step may write (R247); and the code value an
encode session has produced so far (R200, R68). -/

namespace Sys2Proof.Machine

/-! ### How a command ended -/

/-- The command was executed to its end, not in FAULTED: no fault was taken and nothing waits. -/
def retiredIn (t : State) : Prop := t.regs.mode ≠ .faulted ∧ t.stall = none

/-- The state after a command that changes registers only: `regs` with the command counted and BUSY = 0 (R110). -/
def countedWith (s : State) (regs : Regs) : State :=
  { s with
    regs := { regs with cmdCount := s.regs.cmdCount + 1#64, busy := false }
    inPort := { s.inPort with used := [] }
    outPort := { s.outPort with used := [] }
    stall := none }

/-- The state after a fault taken before the command changed anything (R263, R265). -/
def faultedWith (s : State) (code : Byte) (word : Word64) : State :=
  { s with
    regs :=
      { s.regs with
        faultCause := code
        faultCmd := s.regs.cmdCount
        faultWord := word
        mode := .faulted
        irqPend := s.regs.irqPend ||| 1#2
        busy := false }
    inPort := { s.inPort with used := [] }
    outPort := { s.outPort with used := [] }
    stall := none }

/-- The state after a word that is discarded (R112): nothing but the word has gone, and BUSY = 0. -/
def discarded (s : State) : State :=
  { s with
    regs := { s.regs with busy := false }
    inPort := { s.inPort with used := [] }
    outPort := { s.outPort with used := [] }
    stall := none }

/-! ### The ports -/

/-- Every answer of the output port, now and for ever, accepts the byte. -/
def acceptsAll (p : OutPort) : Prop := (∀ a ∈ p.answers, a = .accept) ∧ p.rest = some .accept

/-- What the output port answers to the OutWrite `k` from now; none where it has no answer, and OutWrite waits (R80). -/
def outAnswerAt (p : OutPort) (k : Nat) : Option OutAnswer :=
  match p.answers[k]? with
  | some a => some a
  | none => p.rest

/-- The output port accepts the next `n` bytes. -/
def acceptsFirst (p : OutPort) (n : Nat) : Prop := ∀ m < n, outAnswerAt p m = some .accept

/-- What the input port answers to the request `k` from now, the ones before it having been answered with bytes; none where it has no
answer, and InRead waits (R79). -/
def inAnswerAt (p : InPort) (k : Nat) : Option InAnswer :=
  if p.ended then some .endMark
  else
    match p.answers[k]? with
    | some a => some a
    | none => p.rest

/-- The input port answers the next `n` requests with bytes. -/
def bytesFirst (p : InPort) (n : Nat) : Prop := ∀ m < n, ∃ b, inAnswerAt p m = some (.byte b)

/-- The input port is about to give at least `n` bytes. -/
def givesBytes (p : InPort) (n : Nat) : Prop :=
  p.ended = false ∧ n ≤ p.answers.length ∧ ∀ a ∈ p.answers.take n, ∃ b, a = .byte b

/-! ### The coder (R200) -/

/-- `Lw = B + CARRY * 2^31`: the window low. -/
def windowLow (r : Regs) : Nat := r.rcBuffer.toNat + flag r.carry * 2 ^ 31

/-- What R200 says of an encode session between procedures: the range of R, (W) and (D). -/
structure CoderInv (r : Regs) : Prop where
  range : 2 ^ 23 ≤ r.rcRange.toNat
  window : windowLow r + r.rcRange.toNat ≤ 2 ^ 32
  delayed :
    r.delayValid = false ∨ r.delay = 0xFF#8 →
      (2 ^ (8 * r.ffrun.toNat) - 1) * 2 ^ 31 + windowLow r + r.rcRange.toNat ≤ 2 ^ (8 * r.ffrun.toNat + 31)

/-- An encode session that can go on: its coder is as R200 says, the output port accepts every byte, and the pending run is far from
its bound. -/
structure EncoderReady (s : State) : Prop where
  coder : CoderInv s.regs
  accepts : acceptsAll s.outPort
  run : s.regs.ffrun.toNat + 16 < 2 ^ 32

/-- How many bytes a normalization shifts when it is entered with R = `r` >= 1 (R204, R205). -/
def normShifts (r : Nat) : Nat :=
  if 2 ^ 23 ≤ r then 0 else if 2 ^ 23 ≤ r * 256 then 1 else if 2 ^ 23 ≤ r * 256 ^ 2 then 2 else 3

/-- R after a normalization entered with R = `r` (R204, R205). -/
def normRange (r : Nat) : Nat := r * 256 ^ normShifts r

/-- The number a string of bytes is, most significant first (R68). -/
def bytesValue (bs : List Byte) : Nat := bs.foldl (fun v b => v * 256 + b.toNat) 0

/-- The bytes shifted out of the window: those the output port has taken, the delayed byte, the pending run (R200). -/
def shiftedOut (s : State) : List Byte :=
  s.outPort.taken ++ (if s.regs.delayValid then [s.regs.delay] else []) ++ List.replicate s.regs.ffrun.toNat 0xFF#8

/-- The code value so far: the bytes shifted out, CARRY not yet added to them, and the window below them (R200). -/
def codeValue (s : State) : Nat := bytesValue (shiftedOut s) * 2 ^ 31 + windowLow s.regs

/-- The encoder's output side (R202): the bytes that have gone out, CARRY, DELAY_VALID, DELAY, and FFRUN as a number. -/
structure OutSide where
  taken : List Byte
  carry : Bool
  valid : Bool
  delay : Byte
  run : Nat
  deriving DecidableEq, Repr

/-- The output side of a state. -/
def outSide (s : State) : OutSide := ⟨s.outPort.taken, s.regs.carry, s.regs.delayValid, s.regs.delay, s.regs.ffrun.toNat⟩

/-- OutputStage(x) (R202) where neither of its checks fails: a byte 0xFF without a carry joins the run; any other sends out the
delayed byte and the run, the carry added to them, and is delayed. -/
def OutSide.stage (c : OutSide) (x : Byte) : OutSide :=
  if x = 0xFF#8 ∧ c.carry = false then { c with run := c.run + 1 }
  else
    { taken := c.taken ++ (if c.valid then [c.delay + BitVec.ofNat 8 (flag c.carry)] else []) ++
        List.replicate c.run (if c.carry then 0x00#8 else 0xFF#8)
      carry := false, valid := true, delay := x, run := 0 }

/-- OutputStage of one byte after the other. -/
def OutSide.stages (c : OutSide) (xs : List Byte) : OutSide := xs.foldl OutSide.stage c

/-- OutputStage(x) raises FFRUN_OVERFLOW (R202). -/
def OutSide.full (c : OutSide) (x : Byte) : Prop := x = 0xFF#8 ∧ c.carry = false ∧ c.run = 2 ^ 32 - 1

/-- Byte `j` of those that leave a window of 31 bits from the top (R203): bits 30:23, then the eight below, then zeros. -/
def leavingByte (window j : Nat) : Byte := BitVec.ofNat 8 (window * 256 ^ j / 2 ^ 23)

/-- The first `k` bytes that leave a window. -/
def leavingBytes (window k : Nat) : List Byte := (List.range k).map (leavingByte window)

/-- The output side once CarryAdd(v) has set CARRY where the sum passes bit 30 (R201), and `k` bytes have left the window (R203). -/
def outSideAfter (s : State) (v k : Nat) : OutSide :=
  OutSide.stages { outSide s with carry := s.regs.carry || decide (2 ^ 31 ≤ s.regs.rcBuffer.toNat + v) }
    (leavingBytes (s.regs.rcBuffer.toNat + v) k)

/-- After CarryAdd(v), byte `j` to leave finds the run counter at its bound (R202). -/
def runFull (s : State) (v j : Nat) : Prop := (outSideAfter s v j).full (leavingByte (s.regs.rcBuffer.toNat + v) j)

/-- From `s` to `t` some bytes have gone out: each was accepted, each is counted, and the port's answers have moved on by them (R80). -/
def Sent (s t : State) : Prop :=
  ∃ bs, t.outPort.taken = s.outPort.taken ++ bs ∧ t.regs.outCount = s.regs.outCount + BitVec.ofNat 64 bs.length ∧
    acceptsFirst s.outPort bs.length ∧ ∀ k, outAnswerAt t.outPort k = outAnswerAt s.outPort (bs.length + k)

/-- The decoder's window with the bit that waits in LOOK below it (R205). -/
def decoderWindow (r : Regs) : Nat := r.rcBuffer.toNat * 2 + r.look.toNat % 2

/-- The byte of an answer. -/
def answerByte : InAnswer → Option Byte
  | .byte b => some b
  | .endMark => none
  | .error => none

/-- How many of the answers are bytes. -/
def byteCount (answers : List InAnswer) : Nat := (answers.filterMap answerByte).length

/-- The first `n` bytes the input port is about to give. -/
def comingBytes (p : InPort) (n : Nat) : List Byte := (p.answers.take n).filterMap answerByte

/-- A state without what an encode procedure may change: the coder's encode registers, OUT_COUNT and the output port. -/
def encoderErased (s : State) : State :=
  { s with
    regs :=
      { s.regs with
        rcBuffer := 0#31, rcRange := 0#31, carry := false, delayValid := false, delay := 0#8, ffrun := 0#32, outCount := 0#64 }
    outPort := { answers := [], rest := none, used := [], taken := [] } }

/-- A state without what a decode procedure may change: the coder's decode registers, IN_COUNT and the input port. -/
def decoderErased (s : State) : State :=
  { s with
    regs := { s.regs with rcBuffer := 0#31, rcRange := 0#31, look := 0#8, inCount := 0#64 }
    inPort := { answers := [], rest := none, ended := false, used := [] } }

/-- A state without what a symbol's step may change of the session: the coder, the model, RESULT, the counters, the ports. -/
def symbolErased (s : State) : State :=
  { s with
    regs :=
      { s.regs with
        rcBuffer := 0#31, rcRange := 0#31, carry := false, delayValid := false, delay := 0#8, ffrun := 0#32, look := 0#8,
        context := 0#64, histLo := 0#4, histHi := 0#4, cost := 0#32, result := 0#32, inCount := 0#64, outCount := 0#64 }
    tables := Tables.unspecified 0
    inPort := { answers := [], rest := none, ended := false, used := [] }
    outPort := { answers := [], rest := none, used := [], taken := [] } }

/-- From `s` to `t` the encoder has added `v` to the window low, made R `r`, and normalized (R200): R, B and the code value say so,
and so does the output side, byte by byte (R201, R202), which no byte finds with its run at the bound; the invariants of R200 are kept;
and OUT_COUNT counts the bytes that went out. -/
structure Encoded (s t : State) (v r : Nat) : Prop where
  range : t.regs.rcRange.toNat = normRange r
  buffer : t.regs.rcBuffer.toNat = (s.regs.rcBuffer.toNat + v) * 256 ^ normShifts r % 2 ^ 31
  value : codeValue t = (codeValue s + v) * 256 ^ normShifts r
  length : (shiftedOut t).length = (shiftedOut s).length + normShifts r
  inv : CoderInv s.regs → CoderInv t.regs
  accepts : acceptsAll s.outPort → acceptsAll t.outPort
  run : t.regs.ffrun.toNat ≤ s.regs.ffrun.toNat + normShifts r
  side : outSide t = outSideAfter s v (normShifts r)
  bounded : ∀ j < normShifts r, ¬runFull s v j
  sent : Sent s t

/-- From `s` to `t` the decoder has taken `v` from the code value in its window, made R `r`, and normalized (R200, R205): R says so,
and so does the window with LOOK's waiting bit, into which the bytes read have been shifted; LOOK is the last of them, and as it was
where none was read (R32, R205). -/
structure Decoded (s t : State) (v r : Nat) : Prop where
  range : t.regs.rcRange.toNat = normRange r
  window : decoderWindow t.regs =
    ((decoderWindow s.regs - 2 * v) * 256 ^ normShifts r + bytesValue (comingBytes s.inPort (normShifts r))) % 2 ^ 32
  look : t.regs.look = (comingBytes s.inPort (normShifts r)).getLastD s.regs.look
  count : t.regs.inCount = s.regs.inCount + BitVec.ofNat 64 (normShifts r)
  answers : t.inPort.answers = s.inPort.answers.drop (normShifts r)

/-! ### Where a port ends a command (R79, R80, R299) -/

/-- The command ends in a fault of this code (R263). -/
def faultsWith (i : Instr) (s : State) (code : Byte) (holds : State → Prop) : Prop :=
  ∃ t, exec i s = .next t ∧ t.regs.mode = .faulted ∧ t.regs.faultCause = code ∧ holds t

/-- The command waits on a port (R299; how a wait is held is the model's choice, log entry 4). -/
def waitsWith (i : Instr) (s : State) (holds : State → Prop) : Prop :=
  ∃ t, exec i s = .next t ∧ t.stall ≠ none ∧ t.regs.busy = true ∧ t.regs.mode = s.regs.mode ∧ holds t

/-- How the command `i` that began in `s` ends where its coder, as it stands in `u`, adds `v` to the window low and shifts `k` bytes
out, and the port does not take one of the bytes this sends, or the run is at its bound: a refused byte is IO_FAILURE (1), after those
before it have gone out; a byte the port has no answer for makes the command wait; and a full run is FFRUN_OVERFLOW (22). -/
structure EncoderTraps (i : Instr) (s u : State) (v k : Nat) : Prop where
  refused : (∀ j < k, ¬runFull u v j) → ∀ n, u.outPort.taken.length ≤ s.outPort.taken.length + n →
    s.outPort.taken.length + n < (outSideAfter u v k).taken.length → acceptsFirst s.outPort n → outAnswerAt s.outPort n = some .error →
    faultsWith i s 1#8 fun t => t.outPort.taken = (outSideAfter u v k).taken.take (s.outPort.taken.length + n)
  unanswered : (∀ j < k, ¬runFull u v j) → ∀ n, u.outPort.taken.length ≤ s.outPort.taken.length + n →
    s.outPort.taken.length + n < (outSideAfter u v k).taken.length → acceptsFirst s.outPort n → outAnswerAt s.outPort n = none →
    waitsWith i s fun t => t.outPort.taken = (outSideAfter u v k).taken.take (s.outPort.taken.length + n)
  full : ∀ j < k, (∀ m < j, ¬runFull u v m) → runFull u v j →
    acceptsFirst s.outPort ((outSideAfter u v j).taken.length - s.outPort.taken.length) →
    faultsWith i s 22#8 fun t => t.outPort.taken = (outSideAfter u v j).taken

/-- The port takes every byte that the command sends which began in `s`, up to where its coder, as it stands in `u`, has added `v` and
shifted `k` bytes out, and no byte finds the run at its bound. -/
structure GoesOut (s u : State) (v k : Nat) : Prop where
  bounded : ∀ j < k, ¬runFull u v j
  accepted : acceptsFirst s.outPort ((outSideAfter u v k).taken.length - s.outPort.taken.length)

/-- How the command `i` ends where it is to read `k` bytes and the input port does not give them all: the end mark is
UNEXPECTED_END_OF_INPUT (2), a port error IO_FAILURE (1), and no answer makes the command wait; no byte has gone out. -/
structure DecoderTraps (i : Instr) (s : State) (k : Nat) : Prop where
  endMark : ∀ n < k, bytesFirst s.inPort n → inAnswerAt s.inPort n = some .endMark →
    faultsWith i s 2#8 fun t => t.outPort.taken = s.outPort.taken
  error : ∀ n < k, bytesFirst s.inPort n → inAnswerAt s.inPort n = some .error →
    faultsWith i s 1#8 fun t => t.outPort.taken = s.outPort.taken
  unanswered : ∀ n < k, bytesFirst s.inPort n → inAnswerAt s.inPort n = none →
    waitsWith i s fun t => t.outPort.taken = s.outPort.taken

/-! ### The models -/

/-- `Single(c, sym)` as a number (R64). -/
def singleOf (s : State) (c sym : Nat) : Nat := (tblRead s .lit (singleIndex c sym)).toNat

/-- `Group(c, g)` as a number (R64). -/
def groupOf (s : State) (c g : Nat) : Nat := (tblRead s .lit (groupIndex c g)).toNat

/-- `Total(c)` as a number (R64). -/
def totalOf (s : State) (c : Nat) : Nat := (tblRead s .lit (totalIndex c)).toNat

/-- What R172 says of a literal context between commands. -/
structure LitContextOk (s : State) (c : Nat) : Prop where
  groups : ∀ g < 16, groupOf s c g = ((List.range 16).map fun k => singleOf s c (16 * g + k)).sum
  total : totalOf s c = ((List.range 16).map fun g => groupOf s c g).sum
  positive : ∀ sym < 256, 1 ≤ singleOf s c sym
  bound : totalOf s c ≤ max (cfgLimit s.regs.scfg) (cfgStep s.regs.scfg + 256)

/-- Every entry of the probability maps is in [127, 32641] (R155). -/
def ApmOk (s : State) : Prop :=
  ∀ t, t = .apmLo ∨ t = .apmHi → ∀ i < 4096, 127 ≤ (tblRead s t i).toNat ∧ (tblRead s t i).toNat ≤ 32641

/-! ### A literal (R173 to R187) -/

/-- `FreqEx(sym, x)` (R173) as a number. -/
def freqWithout (s : State) (x sym : Nat) : Nat := if sym = x then 0 else litSingle s sym

/-- The sum of the excluded frequencies below a symbol: what `CumEx(sym, x)` is to be (R174). -/
def cumWithout (s : State) (x sym : Nat) : Nat := ((List.range sym).map (freqWithout s x)).sum

/-- `TotEx(x)` (R173) as a number. -/
def totWithout (s : State) (x : Nat) : Nat := litTotal s - litSingle s x

/-- The unit a literal's range is divided into, from RC_RANGE = `range` (R176, R178). -/
def literalUnit (s : State) (range x : Nat) : Nat := if useFixed s then range / 255 else range / totWithout s x

/-- The low end of a literal's sub-interval, above the window low (R176, R178). -/
def literalLow (s : State) (range x sym : Nat) : Nat :=
  (if useFixed s then sym - (if x < sym then 1 else 0) else cumWithout s x sym) * literalUnit s range x

/-- The width of a literal's sub-interval (R176, R178). -/
def literalWidth (s : State) (range x sym : Nat) : Nat :=
  literalUnit s range x * (if useFixed s then 1 else litSingle s sym)

/-- LitTrain(sym) (R181, R182) from `s` to `t`, as numbers: every single of the context, the sums (R172), and every other entry. -/
structure LiteralTrained (s t : State) (sym : Nat) : Prop where
  singles : ∀ k < 256, singleOf t (litCtx s) k =
    if cfgLimit s.regs.scfg < litTotal s + cfgStep s.regs.scfg then
      max 1 ((litSingle s k + (if k = sym then cfgStep s.regs.scfg else 0)) / 2)
    else litSingle s k + (if k = sym then cfgStep s.regs.scfg else 0)
  sums : LitContextOk t (litCtx s)
  others : ∀ i, ¬(litCtx s * 273 ≤ i ∧ i < litCtx s * 273 + 273) → tblRead t .lit i = tblRead s .lit i

/-- CostUpdate(TotEx(x), f[sym]) (R183) from `s` to `t`, as numbers. -/
def CostTracked (s t : State) (x sym : Nat) : Prop :=
  ∃ logTotal logFreq, log2FixValue s.params.log2Fix (totWithout s x) = some logTotal ∧
    log2FixValue s.params.log2Fix (litSingle s sym) = some logFreq ∧ logFreq ≤ logTotal ∧
    t.regs.cost.toNat = s.regs.cost.toNat - s.regs.cost.toNat / 128 + (logTotal - logFreq)

/-! ### Observe (R153) -/

/-- The probability ApmUpdate writes over `p` (R151). -/
def apmMoved (p : Nat) (matched : Bool) : Nat := if matched then p + (32768 - p) / 128 else p - p / 128

/-- Observe(b) (R153) from `s` to `t`: each member present trains the slot and the probability Predict read of it and shifts its
history; the slot takes the byte and the state FSM_TABLE gives, entry 2 * state + 1 on a match and 2 * state on a mismatch (R65, R149);
CONTEXT takes the byte; no other entry of the predictors' tables changes. -/
structure PredictorTrained (s t : State) (b : Byte) : Prop where
  context : t.regs.context = (s.regs.context <<< 8) ||| b.setWidth 64
  histLo : t.regs.histLo = histUpdate s.regs.histLo (b == (predictMember .lo s).symbol)
  histHi : t.regs.histHi = if dual s then histUpdate s.regs.histHi (b == (predictMember .hi s).symbol) else s.regs.histHi
  slotLo : ∃ next,
    s.params.fsmTable[2 * (predictMember .lo s).state.toNat + if b = (predictMember .lo s).symbol then 1 else 0]? = some next ∧
      tblRead t .lzpLo (indexLo s.regs) = next ++ b
  slotHi : dual s = true → ∃ next,
    s.params.fsmTable[2 * (predictMember .hi s).state.toNat + if b = (predictMember .hi s).symbol then 1 else 0]? = some next ∧
      tblRead t .lzpHi (indexHi s.regs) = next ++ b
  probLo : (tblRead t .apmLo (s.regs.histLo.toNat * 256 + (predictMember .lo s).state.toNat)).toNat =
    apmMoved (predictMember .lo s).prob (b == (predictMember .lo s).symbol)
  probHi : dual s = true → (tblRead t .apmHi (s.regs.histHi.toNat * 256 + (predictMember .hi s).state.toNat)).toNat =
    apmMoved (predictMember .hi s).prob (b == (predictMember .hi s).symbol)
  othersLzpLo : ∀ i, i ≠ indexLo s.regs → tblRead t .lzpLo i = tblRead s .lzpLo i
  othersLzpHi : ∀ i, ¬(dual s = true ∧ i = indexHi s.regs) → tblRead t .lzpHi i = tblRead s .lzpHi i
  othersApmLo : ∀ i, i ≠ s.regs.histLo.toNat * 256 + (predictMember .lo s).state.toNat → tblRead t .apmLo i = tblRead s .apmLo i
  othersApmHi : ∀ i, ¬(dual s = true ∧ i = s.regs.histHi.toNat * 256 + (predictMember .hi s).state.toNat) →
    tblRead t .apmHi i = tblRead s .apmHi i

/-- What coding the byte `b` against the prediction `x` does to the model, from `s` to `t` (R241, R242): Observe; and a literal's
cost and training where the prediction was wrong, nothing of the literal model where it was right. -/
structure SymbolLearned (s t : State) (x b : Byte) : Prop where
  predictor : PredictorTrained s t b
  hit : b = x → t.regs.cost = s.regs.cost ∧ ∀ i, tblRead t .lit i = tblRead s .lit i
  missCost : b ≠ x → CostTracked s t x.toNat b.toNat
  missTables : b ≠ x → LiteralTrained s t b.toNat

/-! ### Both directions (R245) -/

/-- The number the decoder's window and its next `m` bytes spell, in the place of the encoder's code value and one bit below it
(R200, R205). -/
def streamValue (s d : State) (m : Nat) : Nat :=
  (2 * codeValue s + decoderWindow d.regs) * 256 ^ m + bytesValue (comingBytes d.inPort m)

/-- The number is inside the encoder's interval, `m` bytes below it. -/
def Inside (s : State) (y m : Nat) : Prop :=
  2 * codeValue s * 256 ^ m ≤ y ∧ y < 2 * (codeValue s + s.regs.rcRange.toNat) * 256 ^ m

/-- Two states whose models are the same: the parameters, the session's configuration and tables, the model registers. -/
structure SameModel (s t : State) : Prop where
  params : s.params = t.params
  tables : s.tables = t.tables
  scfg : s.regs.scfg = t.regs.scfg
  context : s.regs.context = t.regs.context
  histLo : s.regs.histLo = t.regs.histLo
  histHi : s.regs.histHi = t.regs.histHi
  cost : s.regs.cost = t.regs.cost

/-- A state without what a model procedure may change: the tables and the model registers. -/
def modelErased (s : State) : State :=
  { s with
    regs := { s.regs with context := 0#64, histLo := 0#4, histHi := 0#4, cost := 0#32 }
    tables := Tables.unspecified 0 }

/-- A LOG2_FIX that R184 permits: non-decreasing on 1..32767; that its values are below 2^24 is part of it for the decided default. -/
def log2Permitted (f : Log2Fix) : Prop :=
  ∀ n m, 1 ≤ n → n ≤ m → m ≤ 32767 →
    ∃ v w, log2FixValue f n = some v ∧ log2FixValue f m = some w ∧ v ≤ w ∧ w < 2 ^ 24

/-- A session whose models are as the spec says they are between commands. -/
structure SessionOk (s : State) : Prop where
  config : cfgValid s.regs.scfg = true
  valid : s.regs.tablesValid = true
  fill : s.tables.fill = .sessionStart
  lit : ∀ c < cfgContexts s.regs.scfg, LitContextOk s c
  apm : ApmOk s
  cost : s.regs.cost.toNat < 2 ^ 31

/-- ENC_SYM's end (R241), from `s`, its coder ending as in `u`, its prediction `x`: the command has retired, the coder and the bytes
gone out are those of `u`, the model has learned the byte `b`, and nothing else has changed. -/
structure SymbolCoded (s u t : State) (x b : Byte) : Prop where
  retired : retiredIn t
  frame : symbolErased t = symbolErased (countedWith s s.regs)
  kept : t.regs.result = s.regs.result ∧ t.regs.look = s.regs.look ∧ t.regs.inCount = s.regs.inCount
  input : t.inPort = { s.inPort with used := [] }
  value : codeValue t = codeValue u
  coder : t.regs.rcRange = u.regs.rcRange ∧ t.regs.rcBuffer = u.regs.rcBuffer
  side : outSide t = outSide u ∧ t.regs.outCount = u.regs.outCount
  inv : CoderInv t.regs
  learned : SymbolLearned s t x b

/-- DEC_SYM's answer `b` (R242), from `s`, its coder ending as in `u`, its prediction `x`: the command has retired, the byte is in
RESULT and has gone out, the model has learned it, and nothing else has changed. -/
structure SymbolAnswered (s u t : State) (x b : Byte) : Prop where
  retired : retiredIn t
  frame : symbolErased t = symbolErased (countedWith s s.regs)
  result : t.regs.result = b.setWidth 32
  written : t.outPort.taken = s.outPort.taken ++ [b] ∧ t.regs.outCount = s.regs.outCount + 1#64
  coder : t.regs.rcBuffer = u.regs.rcBuffer ∧ t.regs.rcRange = u.regs.rcRange ∧ t.regs.look = u.regs.look
  input : t.regs.inCount = u.regs.inCount ∧ t.inPort.answers = u.inPort.answers
  encoder : t.regs.carry = s.regs.carry ∧ t.regs.delayValid = s.regs.delayValid ∧ t.regs.delay = s.regs.delay ∧
    t.regs.ffrun = s.regs.ffrun
  learned : SymbolLearned s t x b

/-- DEC_SYM with its symbol decoded (R242), and the byte `b` to give out: accepted, the command answers; refused, it is IO_FAILURE (1);
with no answer, it waits (R80, R299). -/
structure SymbolGivenOut (s u : State) (x b : Byte) : Prop where
  accepted : outAnswerAt s.outPort 0 = some .accept → ∃ t, exec .decSym s = .next t ∧ SymbolAnswered s u t x b
  refused : outAnswerAt s.outPort 0 = some .error → faultsWith .decSym s 1#8 fun t => t.outPort.taken = s.outPort.taken
  unanswered : outAnswerAt s.outPort 0 = none → waitsWith .decSym s fun t => t.outPort.taken = s.outPort.taken

/-- A state in which a session's models and parameters are as the spec says (R25, R155, R172, R184): a symbol can be coded. -/
structure SymbolsCodable (s : State) : Prop where
  session : SessionOk s
  memory : Memory.wf s.regs.scfg s.tables
  log : log2Permitted s.params.log2Fix
  range : 2 ^ 23 ≤ s.regs.rcRange.toNat

/-- A session streams: MODE is ENC, ENC_ENDING or DEC. -/
def streaming (m : Mode) : Prop := m = .enc ∨ m = .encEnding ∨ m = .dec

/-- A state between commands that the rules speak of: the canonical memory; in a session its models and its range (R28); in an encode
session its coder (R200). -/
structure SettledOk (s : State) : Prop where
  idle : s.regs.busy = false
  memory : Memory.wf s.regs.scfg s.tables
  session : streaming s.regs.mode → SessionOk s ∧ 2 ^ 23 ≤ s.regs.rcRange.toNat
  encoder : s.regs.mode = .enc ∨ s.regs.mode = .encEnding → CoderInv s.regs

/-- The machine's invariant: permitted parameters; and the state it is in, or the state its waiting command began from, is one
between commands that the rules speak of. -/
structure MachineInv (s : State) : Prop where
  params : log2Permitted s.params.log2Fix
  settled : s.stall = none → SettledOk s
  waiting : ∀ st, s.stall = some st → SettledOk (resumeStalled st s)

/-- The memory's part of the invariant: the canonical form of the table memory, of the waiting command's too. -/
def MemoryInv (s : State) : Prop :=
  Memory.wf s.regs.scfg s.tables ∧ ∀ st, s.stall = some st → Memory.wf st.regs.scfg st.tables

/-! ### A message -/

/-- Commands executed one after the other (R110), each of which must retire; none where one faults or waits. -/
def runCommands : List Instr → State → Option State
  | [], s => some s
  | i :: later, s =>
    match exec i s with
    | .next t => if t.regs.mode = .faulted ∨ t.stall.isSome = true then none else runCommands later t
    | .fault _ => none
    | .refused _ => none

/-- A state in which a session of CONFIG can start and its stream can go out (R111, R25, R61, R184, R80). -/
structure CanStart (s : State) : Prop where
  mode : s.regs.mode = .idle ∨ s.regs.mode = .done
  config : cfgValid s.regs.config = true
  memory : needWords s.regs.config ≤ s.params.tableMemWords.toNat
  log : log2Permitted s.params.log2Fix
  accepts : acceptsAll s.outPort

/-! ### Safety of a step -/

/-- The step gives a next state: it neither stops nor refuses. -/
def goesOn (o : Host.Outcome State Fault Refusal) : Prop := ∃ t, o = .next t

end Sys2Proof.Machine
end

