-- ==== Sys2Proof/Certificates/Slice0/Obligations.lean ====
section
/-! DEFINITION. What is to be proved of the block, in the terms of Sys2Proof/Safety.lean: each says the rule of the spec it comes from. -/

open Sys2Proof Sys2Proof.Machine

/-! ### The command word -/

/-- Decoding gives back every well-formed command from its word (R91, R93, R94, R97). -/
def Obligations.DecodeUndoesEncode : Prop :=
  ∀ i : Instr, i.wellFormed = true → decode (encode i) = .ok i

/-- A word that decodes is the word of the command it decodes to: no bit of it goes unread (R91, R95, R99). -/
def Obligations.EncodeUndoesDecode : Prop :=
  ∀ (w : Word64) (i : Instr), decode w = .ok i → i.wellFormed = true ∧ encode i = w

/-- Decode(w) is the row whose masked bits match, ILLEGAL where none does; at most one row matches (R94). -/
def Obligations.DecodeFollowsTheRows : Prop :=
  (∀ w, ∀ r ∈ opcodeMap, r.accepts w = true → ∃ i, decode w = .ok i ∧ rowMnemonic i = r.mnemonic) ∧
  (∀ w, (∀ r ∈ opcodeMap, r.accepts w = false) → ∃ e, decode w = .error e) ∧
  opcodeMap.Pairwise (fun a b => a.mnemonic ≠ b.mnemonic ∧ ∀ w, a.accepts w = true → b.accepts w = false)

/-- Which words are illegal, which bits are reserved, and that the block faults on such a word, or discards it in FAULTED (R95). -/
def Obligations.IllegalWordsFault : Prop :=
  (∀ w : Word64, (∃ e, decode w = .error e) ↔
    ((8 ≤ opcode w ∧ opcode w ≤ 0x0F) ∨ (0x13 ≤ opcode w ∧ opcode w ≤ 0x1F) ∨ (0x28 ≤ opcode w ∧ opcode w ≤ 0xFF)) ∨
      ∃ r ∈ opcodeMap, opcode r.pattern = opcode w ∧ w &&& r.mask ≠ r.pattern) ∧
  (∀ r ∈ opcodeMap, ∀ k < 64, r.mask.getLsbD k = !(r.fields.any fun f => decide (f.lo ≤ k) && decide (k ≤ f.hi))) ∧
  ∀ (s : State) (w : Word64) (later : List Word64) (e : Illegal),
    s.stall = none → s.cmdFifo = w :: later → decode w = .error e →
      step s = .next (if s.regs.mode = .faulted then discarded { s with cmdFifo := later }
        else faultedWith { s with cmdFifo := later } 16#8 w)

/-- The words of R100. -/
def Obligations.WordExamples : Prop :=
  decode 0x2000000000014000#64 = .ok (.rcEncBit 1 16384) ∧ decode 0x240000030002000A#64 = .ok (.rcEncFreq 3 2 10) ∧
  decode 0x0604000000000111#64 = .ok (.tblRead 4 273) ∧ decode 0x1000000000000041#64 = .ok (.encSym 0x41) ∧
  decode 0x0200000001010100#64 = .ok (.setcfgLo 0x01010100) ∧ decode 0x0300000000000303#64 = .ok (.setirq 3 3) ∧
  decode 0x2000000000008000#64 = .error (.reservedBitSet 0x20) ∧ decode 0x0800000000000000#64 = .error (.unassignedOpcode 8) ∧
  assemble "RC_ENC_BIT" [("BIT", 1), ("P", 16384)] = some 0x2000000000014000#64 ∧
  assemble "RC_ENC_FREQ" [("CUM", 3), ("FREQ", 2), ("TOT", 10)] = some 0x240000030002000A#64 ∧
  assemble "TBL_READ" [("TID", 4), ("IDX", 273)] = some 0x0604000000000111#64 ∧
  assemble "ENC_SYM" [("BYTE", 0x41)] = some 0x1000000000000041#64 ∧
  assemble "SETCFG_LO" [("IMM32", 0x01010100)] = some 0x0200000001010100#64 ∧
  assemble "SETIRQ" [("EN", 3), ("CLR", 3)] = some 0x0300000000000303#64

/-- Each pseudo-command expands to the list of R98, of well-formed commands where it is well-formed; SETCFG's two write the whole of
CONFIG; ACK_IRQ's clears both pending bits and keeps the enables. -/
def Obligations.PseudoCommandsExpand : Prop :=
  (∀ imm64, expandPseudo (.setcfg imm64) = [.setcfgHi (imm64 / 2 ^ 32), .setcfgLo (imm64 % 2 ^ 32)]) ∧
  (∀ bytes, expandPseudo (.encodeBytes bytes) = (bytes.map fun b => .encSym b) ++ [.encEnd]) ∧
  (∀ cum freq tot, expandPseudo (.rcEncLit cum freq tot) = [.rcEncFreq cum freq tot]) ∧
  (∀ cum freq tot, expandPseudo (.rcDecLit cum freq tot) = [.rcDecTarget tot, .rcDecNarrow cum freq tot]) ∧
  (∀ en, expandPseudo (.ackIrq en) = [.setirq en 3]) ∧
  (∀ p : Pseudo, p.wellFormed = true → ∀ i ∈ expandPseudo p, i.wellFormed = true) ∧
  (∀ (s : State) (imm64 : Nat), imm64 < 2 ^ 64 → s.regs.mode = .idle ∨ s.regs.mode = .done →
    ∃ i j t u, expandPseudo (.setcfg imm64) = [i, j] ∧ exec i s = .next t ∧ exec j t = .next u ∧
      u = countedWith t { t.regs with config := BitVec.ofNat 64 imm64 }) ∧
  ∀ s : State, ∃ i, expandPseudo (.ackIrq s.regs.irqEn.toNat) = [i] ∧ exec i s = .next (countedWith s { s.regs with irqPend := 0#2 })

/-! ### The step -/

/-- With no command waiting, the step takes the oldest word and executes what it decodes to; with no word, the block is idle
(R72, R110, R274). That one command is one step is the model's choice (log entry 10). -/
def Obligations.StepRunsDecodedCommand : Prop :=
  (∀ (s : State) (w : Word64) (later : List Word64) (i : Instr),
    s.stall = none → s.cmdFifo = w :: later → decode w = .ok i → step s = exec i { s with cmdFifo := later }) ∧
  ∀ s : State, s.stall = none → s.cmdFifo = [] → step s = .next s

/-- A command that waits goes on, when its ports answer, as if the answers had been there from the start (R299); answers are given to a
port that has no standing answer: the one it waits on has none, the other may have one. How the wait is held is the model's choice (log
entry 4). So are the ports' standing answers (log entry 3). -/
def Obligations.WaitingCommandResumes : Prop :=
  ∀ (i : Instr) (s t : State) (ins : List InAnswer) (outs : List OutAnswer), i.wellFormed = true → s.stall = none →
    s.inPort.rest = none ∨ ins = [] → s.outPort.rest = none ∨ outs = [] → exec i s = .next t → t.stall ≠ none →
      (s.inPort.rest = none ∨ s.outPort.rest = none) ∧
      step (giveInput ins (giveOutput outs t)) = exec i (giveInput ins (giveOutput outs s))

/-- After a command BUSY is 1 exactly where the command waits on a port (R40, R299). -/
def Obligations.BusyExactlyWhileWaiting : Prop :=
  ∀ (i : Instr) (s t : State), exec i s = .next t → (t.regs.busy = true ↔ t.stall ≠ none)

/-! ### The envelope and faults -/

/-- The numbers of the causes, no two the same, 0 none of them, every other code never written (R261). -/
def Obligations.CauseCodes : Prop :=
  (causeCode .ioFailure = 1#8 ∧ causeCode .unexpectedEndOfInput = 2#8 ∧ causeCode .badMagic = 3#8 ∧
    causeCode .invalidConfiguration = 4#8 ∧ causeCode .allocationFailure = 5#8 ∧ causeCode .trailingData = 6#8 ∧
    causeCode .illegalCommand = 16#8 ∧ causeCode .badState = 17#8 ∧ causeCode .operandRange = 18#8 ∧
    causeCode .corruptPayload = 19#8 ∧ causeCode .narrowMismatch = 20#8 ∧ causeCode .carryOverflow = 21#8 ∧
    causeCode .ffrunOverflow = 22#8) ∧
  ∀ c d : Cause, causeCode c = causeCode d → c = d

/-- In FAULTED the block takes every word: NOP and SETIRQ retire, every other word is discarded and changes nothing (R112). -/
def Obligations.FaultedBlock : Prop :=
  ∀ (s : State) (w : Word64) (later : List Word64), s.stall = none → s.cmdFifo = w :: later → s.regs.mode = .faulted →
    (decode w = .ok .nop → step s = .next (countedWith { s with cmdFifo := later } s.regs)) ∧
    (∀ en clr, decode w = .ok (.setirq en clr) → step s = .next (countedWith { s with cmdFifo := later }
      { s.regs with irqEn := BitVec.ofNat 2 en, irqPend := s.regs.irqPend &&& ~~~(BitVec.ofNat 2 clr) })) ∧
    (decode w ≠ .ok .nop → (∀ en clr, decode w ≠ .ok (.setirq en clr)) → step s = .next (discarded { s with cmdFifo := later })) ∧
    ∀ t, step s = .next t → t.regs.mode = .faulted ∧ t.regs.faultCause = s.regs.faultCause ∧
      t.regs.faultCmd = s.regs.faultCmd ∧ t.regs.faultWord = s.regs.faultWord

/-- Which command is legal in which mode and direction: one that is not raises BAD_STATE and changes nothing else; one that is does not
raise it (R111). -/
def Obligations.BadStateTable : Prop :=
  let allowed : Instr → Mode → Bool → Prop := fun i m dir =>
    match i with
    | .nop | .setirq _ _ => True
    | .setcfgHi _ | .setcfgLo _ | .initEnc | .initDec => m = .idle ∨ m = .done
    | .tblRead _ _ => m = .idle ∨ m = .enc ∨ m = .encEnding ∨ m = .dec ∨ m = .done
    | .decCheckEnd => m = .done ∧ dir = true
    | .encSym _ | .encEnd | .rcEncBit _ _ | .rcEncEos _ | .rcEncFreq _ _ _ => m = .enc
    | .rcFlush => m = .enc ∨ m = .encEnding
    | .decSym | .rcDecBit _ | .rcDecEos | .rcDecTarget _ | .rcDecNarrow _ _ _ => m = .dec
  ∀ (i : Instr) (s : State), s.regs.mode ≠ .faulted →
    (¬allowed i s.regs.mode s.regs.dir → exec i s = .next (faultedWith s 17#8 (encode i))) ∧
    (allowed i s.regs.mode s.regs.dir → ∀ t, exec i s = .next t → t.regs.mode = .faulted → t.regs.faultCause ≠ 17#8)

/-- The operand values that a legal command refuses with OPERAND_RANGE, before it changes anything; it refuses no others so (R92). -/
def Obligations.OperandRangeTable : Prop :=
  let outside : Instr → Prop := fun i =>
    match i with
    | .rcEncBit _ p | .rcDecBit p => p = 0
    | .rcEncFreq cum freq tot | .rcDecNarrow cum freq tot => tot = 0 ∨ freq = 0 ∨ tot < cum + freq
    | .rcDecTarget tot => tot = 0
    | .nop | .setcfgHi _ | .setcfgLo _ | .setirq _ _ | .initEnc | .initDec | .tblRead _ _ | .decCheckEnd | .encSym _ | .encEnd
    | .decSym | .rcEncEos _ | .rcDecEos | .rcFlush => False
  ∀ (i : Instr) (s : State), s.regs.mode ≠ .faulted → legal i s.regs.mode s.regs.dir = true →
    (outside i → exec i s = .next (faultedWith s 18#8 (encode i))) ∧
    (¬outside i → ∀ t, exec i s = .next t → t.regs.mode = .faulted → t.regs.faultCause ≠ 18#8)

/-- Fault entry (R263): what every command that faults leaves in the registers fault entry writes, and what it leaves alone. -/
def Obligations.FaultEntryRecords : Prop :=
  ∀ (i : Instr) (s t : State), s.regs.mode ≠ .faulted → exec i s = .next t → t.regs.mode = .faulted →
    (∃ c, c ≠ .badMagic ∧ t.regs.faultCause = causeCode c) ∧ t.regs.faultCmd = s.regs.cmdCount ∧ t.regs.faultWord = encode i ∧
    t.regs.irqPend = s.regs.irqPend ||| 1#2 ∧ t.regs.cmdCount = s.regs.cmdCount ∧ t.regs.busy = false ∧
    t.regs.irqEn = s.regs.irqEn ∧ t.stall = none ∧ t.cmdFifo = s.cmdFifo

/-- The precise faults (R265): the state is as before but for the registers of fault entry, and for IN_COUNT and the byte taken where
DEC_CHECK_END finds trailing data. -/
def Obligations.PreciseFaultsKeepTheState : Prop :=
  ∀ (s t : State) (w : Word64) (later : List Word64), s.stall = none → s.cmdFifo = w :: later → s.regs.mode ≠ .faulted →
    step s = .next t → t.regs.mode = .faulted →
    (t.regs.faultCause = 16#8 ∨ t.regs.faultCause = 17#8 ∨ t.regs.faultCause = 18#8 ∨ t.regs.faultCause = 4#8 ∨
      t.regs.faultCause = 5#8 → t = faultedWith { s with cmdFifo := later } t.regs.faultCause w) ∧
    (t.regs.faultCause = 19#8 → (∃ tot, decode w = .ok (.rcDecTarget tot)) → t = faultedWith { s with cmdFifo := later } 19#8 w) ∧
    (t.regs.faultCause = 6#8 → ∃ b p, nextInAnswer { s.inPort with used := [] } = some (.byte b, p) ∧
      t = faultedWith
        { s with cmdFifo := later, inPort := p, regs := { s.regs with inCount := s.regs.inCount + 1#64 } } 6#8 w)

/-- What stays defined after any fault, the imprecise ones too (R266): CONFIG, DIR, IRQ_EN and CMD_COUNT; SCFG and TABLES_VALID, but for
the session start of an INIT_DEC that faults in its priming; and the bytes that crossed the output port. -/
def Obligations.FaultKeepsWhatIsDefined : Prop :=
  ∀ (i : Instr) (s t : State), s.regs.mode ≠ .faulted → exec i s = .next t → t.regs.mode = .faulted →
    t.regs.config = s.regs.config ∧ t.regs.dir = s.regs.dir ∧ t.regs.irqEn = s.regs.irqEn ∧ t.regs.cmdCount = s.regs.cmdCount ∧
    ((t.regs.scfg = s.regs.scfg ∧ t.regs.tablesValid = s.regs.tablesValid) ∨
      (i = .initDec ∧ t.regs.scfg = s.regs.config ∧ t.regs.tablesValid = true)) ∧
    ∃ bs, t.outPort.taken = s.outPort.taken ++ bs

/-- FAULT_CAUSE, FAULT_CMD and FAULT_WORD are written by fault entry alone, never with the cause 0, and cleared by reset alone (R37). -/
def Obligations.FaultRegistersOnlyByFaultEntry : Prop :=
  (∀ (i : Instr) (s t : State), exec i s = .next t → ¬(s.regs.mode ≠ .faulted ∧ t.regs.mode = .faulted) →
    t.regs.faultCause = s.regs.faultCause ∧ t.regs.faultCmd = s.regs.faultCmd ∧ t.regs.faultWord = s.regs.faultWord) ∧
  (∀ (i : Instr) (s t : State), exec i s = .next t → s.regs.mode ≠ .faulted → t.regs.mode = .faulted → t.regs.faultCause ≠ 0#8) ∧
  (∀ (w : Word64) (s : State), (s.regs.mode ≠ .faulted → (executeIllegal w s).regs.faultCause ≠ 0#8) ∧
    (s.regs.mode = .faulted → (executeIllegal w s).regs.faultCause = s.regs.faultCause ∧
      (executeIllegal w s).regs.faultCmd = s.regs.faultCmd ∧ (executeIllegal w s).regs.faultWord = s.regs.faultWord)) ∧
  ∀ s : State, (assertReset s).regs.faultCause = 0#8 ∧ (assertReset s).regs.faultCmd = 0#64 ∧ (assertReset s).regs.faultWord = 0#64

/-- IRQ_EN and IRQ_PEND: what writes them, and the interrupt output (R38). -/
def Obligations.InterruptRegisters : Prop :=
  (∀ (i : Instr) (s t : State), exec i s = .next t → (∀ en clr, i ≠ .setirq en clr) →
    t.regs.irqEn = s.regs.irqEn ∧
    t.regs.irqPend = s.regs.irqPend ||| (if s.regs.mode ≠ .faulted ∧ t.regs.mode = .faulted then 1#2 else 0#2) |||
      (if s.regs.mode ≠ .done ∧ t.regs.mode = .done then 2#2 else 0#2)) ∧
  (∀ (en clr : Nat) (s t : State), exec (.setirq en clr) s = .next t →
    ∀ k, t.regs.irqPend.getLsbD k = (s.regs.irqPend.getLsbD k && !(BitVec.ofNat 2 clr).getLsbD k)) ∧
  (∀ (w : Word64) (s : State), (executeIllegal w s).regs.irqEn = s.regs.irqEn ∧
    (executeIllegal w s).regs.irqPend = s.regs.irqPend ||| (if s.regs.mode ≠ .faulted then 1#2 else 0#2)) ∧
  (∀ s : State, (assertReset s).regs.irqEn = 0#2 ∧ (assertReset s).regs.irqPend = 0#2) ∧
  ∀ s : State, irqOutput s = true ↔
    (s.regs.irqPend.getLsbD 0 = true ∧ s.regs.irqEn.getLsbD 0 = true) ∨ (s.regs.irqPend.getLsbD 1 = true ∧ s.regs.irqEn.getLsbD 1 = true)

/-- Every change of MODE a command can make, the codes MODE holds, reset's (R22); and what writes DIR (R23). -/
def Obligations.ModeAndDirTransitions : Prop :=
  (∀ (i : Instr) (s t : State), exec i s = .next t →
    t.regs.mode = s.regs.mode ∨ t.regs.mode = .faulted ∨
    (i = .initEnc ∧ (s.regs.mode = .idle ∨ s.regs.mode = .done) ∧ t.regs.mode = .enc) ∨
    (i = .initDec ∧ (s.regs.mode = .idle ∨ s.regs.mode = .done) ∧ t.regs.mode = .dec) ∨
    (i = .rcEncEos 1 ∧ s.regs.mode = .enc ∧ t.regs.mode = .encEnding) ∨
    ((i = .encEnd ∨ i = .rcFlush) ∧ s.regs.mode = .enc ∧ t.regs.mode = .done) ∨
    (i = .rcFlush ∧ s.regs.mode = .encEnding ∧ t.regs.mode = .done) ∨
    (i = .decSym ∧ s.regs.mode = .dec ∧ t.regs.mode = .done ∧ t.regs.result = 0x100#32) ∨
    (i = .rcDecEos ∧ s.regs.mode = .dec ∧ t.regs.mode = .done ∧ t.regs.result = 1#32)) ∧
  (∀ (i : Instr) (s t : State), exec i s = .next t →
    t.regs.dir = if i = .initEnc ∧ t.regs.mode = .enc ∧ s.regs.mode ≠ .enc then false
      else if i = .initDec ∧ t.regs.mode = .dec ∧ s.regs.mode ≠ .dec then true else s.regs.dir) ∧
  (∀ (w : Word64) (s : State), (executeIllegal w s).regs.mode = .faulted ∧ (executeIllegal w s).regs.dir = s.regs.dir) ∧
  (modeCode .idle = 0#3 ∧ modeCode .enc = 1#3 ∧ modeCode .encEnding = 2#3 ∧ modeCode .dec = 3#3 ∧ modeCode .done = 4#3 ∧
    modeCode .faulted = 7#3) ∧
  ∀ s : State, (assertReset s).regs.mode = .idle

/-- RESULT is left alone by every command that retires or is discarded but those R36 names, and is 0 after a session start and
DEC_CHECK_END. -/
def Obligations.ResultWriters : Prop :=
  ∀ (i : Instr) (s t : State), exec i s = .next t → t.stall = none → t.regs.mode ≠ .faulted ∨ s.regs.mode = .faulted →
    match i with
    | .tblRead _ _ | .decSym | .rcDecBit _ | .rcDecEos | .rcDecTarget _ =>
      s.regs.mode = .faulted → t.regs.result = s.regs.result
    | .decCheckEnd | .initEnc | .initDec => t.regs.result = if s.regs.mode = .faulted then s.regs.result else 0#32
    | .nop | .setcfgHi _ | .setcfgLo _ | .setirq _ _ | .encSym _ | .encEnd | .rcEncBit _ _ | .rcEncEos _ | .rcEncFreq _ _ _
    | .rcDecNarrow _ _ _ | .rcFlush => t.regs.result = s.regs.result

/-- The counters (R39): CMD_COUNT counts the commands that retire; IN_COUNT and OUT_COUNT the bytes that cross the ports, in every command
but a session start that goes well, also while it waits: the bytes among the answers `l` taken, and the `m` taken of a byte that stands
for every answer after them. That a port can have such a standing answer is the model's choice (log entry 3). -/
def Obligations.CountersCount : Prop :=
  (∀ (i : Instr) (s t : State), exec i s = .next t →
    t.regs.cmdCount = if t.stall ≠ none ∨ (s.regs.mode ≠ .faulted ∧ t.regs.mode = .faulted) ∨
        (s.regs.mode = .faulted ∧ runsWhenFaulted i = false) then s.regs.cmdCount
      else s.regs.cmdCount + 1#64) ∧
  (∀ (i : Instr) (s t : State), exec i s = .next t → i ≠ .initEnc → i ≠ .initDec → t.regs.mode ≠ .faulted ∨ s.regs.mode = .faulted →
    (∃ bs, t.outPort.taken = s.outPort.taken ++ bs ∧ t.regs.outCount = s.regs.outCount + BitVec.ofNat 64 bs.length) ∧
    ∃ l m, s.inPort.answers = l ++ t.inPort.answers ∧ (m ≠ 0 → t.inPort.answers = [] ∧ ∃ b, s.inPort.rest = some (.byte b)) ∧
      t.regs.inCount = s.regs.inCount + BitVec.ofNat 64 (byteCount l + m)) ∧
  ∀ s : State, (assertReset s).regs.cmdCount = 0#64

/-- CONFIG is written by the two SETCFG alone, SCFG and TABLES_VALID by a session start alone, which copies CONFIG (R24, R26, R302); no
step changes a parameter (R6, R65). -/
def Obligations.ConfigurationLatching : Prop :=
  (∀ (i : Instr) (s t : State), exec i s = .next t →
    ((∀ imm, i ≠ .setcfgHi imm ∧ i ≠ .setcfgLo imm) → t.regs.config = s.regs.config) ∧
    ((t.regs.scfg = s.regs.scfg ∧ t.regs.tablesValid = s.regs.tablesValid) ∨
      ((i = .initEnc ∨ i = .initDec) ∧ (s.regs.mode = .idle ∨ s.regs.mode = .done) ∧ t.regs.scfg = s.regs.config ∧
        t.regs.tablesValid = true))) ∧
  ∀ s t : State, step s = .next t → t.params = s.params

/-! ### Reset and the register port -/

/-- Reset (R291): the value of every register, the empty FIFO, the hidden tables, the parameters and the bytes that have crossed the
output port kept; STATUS reads 0x200. -/
def Obligations.ResetState : Prop :=
  (∀ s : State, (assertReset s).regs = State.reset.regs ∧ (assertReset s).cmdFifo = [] ∧ (assertReset s).params = s.params ∧
    (assertReset s).outPort.taken = s.outPort.taken ∧ (assertReset s).stall = none ∧
    ∀ draw, readRegister draw 0x02#6 (assertReset s) = 0x00000200#32) ∧
  State.reset.regs =
    { mode := .idle, dir := false, busy := false, config := 0#64, scfg := 0#64, tablesValid := false, rcBuffer := 0#31
      rcRange := 0x7FFFFFFF#31, carry := false, delayValid := false, delay := 0#8, look := 0#8, ffrun := 0#32, context := 0#64
      histLo := 0#4, histHi := 0#4, cost := 0#32, result := 0#32, faultCause := 0#8, faultCmd := 0#64, faultWord := 0#64, irqEn := 0#2
      irqPend := 0#2, cmdCount := 0#64, inCount := 0#64, outCount := 0#64 } ∧
  State.reset.cmdFifo = []

/-- The register read port (R44): while BUSY = 0, what each number of the map shows; every other number reads as 0 (R45); while
BUSY = 1, STATUS bits 7 and 9 (R46). -/
def Obligations.RegisterMap : Prop :=
  (∀ (s : State) (draw : Nat), s.regs.busy = false →
    (∀ n : BitVec 6, 0x1F ≤ n.toNat → readRegister draw n s = 0#32) ∧
    readRegister draw 0x00#6 s = 0x544C5A50#32 ∧ readRegister draw 0x01#6 s = 0x00000001#32 ∧
    (readRegister draw 0x02#6 s).extractLsb' 0 3 = modeCode s.regs.mode ∧
    (readRegister draw 0x02#6 s).getLsbD 3 = s.regs.dir ∧
    (readRegister draw 0x02#6 s).getLsbD 4 = (s.regs.tablesValid && cfgDual s.regs.scfg) ∧
    (readRegister draw 0x02#6 s).getLsbD 5 = decide (s.params.costThreshold.toNat < s.regs.cost.toNat) ∧
    (readRegister draw 0x02#6 s).getLsbD 6 = irqOutput s ∧ (readRegister draw 0x02#6 s).getLsbD 7 = false ∧
    (readRegister draw 0x02#6 s).getLsbD 8 = s.regs.tablesValid ∧ (readRegister draw 0x02#6 s).getLsbD 9 = s.cmdFifo.isEmpty ∧
    (∀ k, 10 ≤ k → (readRegister draw 0x02#6 s).getLsbD k = false) ∧
    (readRegister draw 0x03#6 s).toNat = s.regs.faultCause.toNat ∧
    readRegister draw 0x05#6 s ++ readRegister draw 0x04#6 s = s.regs.faultCmd ∧
    readRegister draw 0x07#6 s ++ readRegister draw 0x06#6 s = s.regs.faultWord ∧
    readRegister draw 0x09#6 s ++ readRegister draw 0x08#6 s = s.regs.config ∧
    (readRegister draw 0x0A#6 s).toNat = s.regs.rcBuffer.toNat ∧ (readRegister draw 0x0B#6 s).toNat = s.regs.rcRange.toNat ∧
    (readRegister draw 0x0C#6 s).toNat =
      flag s.regs.carry + flag s.regs.delayValid * 2 + s.regs.delay.toNat * 256 + s.regs.look.toNat * 65536 ∧
    readRegister draw 0x0D#6 s = s.regs.ffrun ∧
    readRegister draw 0x0F#6 s ++ readRegister draw 0x0E#6 s = s.regs.context ∧
    (readRegister draw 0x10#6 s).toNat = s.regs.histLo.toNat + s.regs.histHi.toNat * 16 ∧
    readRegister draw 0x11#6 s = s.regs.cost ∧ readRegister draw 0x12#6 s = s.regs.result ∧
    (readRegister draw 0x13#6 s).toNat = s.regs.irqEn.toNat + s.regs.irqPend.toNat * 256 ∧
    readRegister draw 0x15#6 s ++ readRegister draw 0x14#6 s = s.regs.cmdCount ∧
    readRegister draw 0x17#6 s ++ readRegister draw 0x16#6 s = s.regs.inCount ∧
    readRegister draw 0x19#6 s ++ readRegister draw 0x18#6 s = s.regs.outCount ∧
    readRegister draw 0x1B#6 s ++ readRegister draw 0x1A#6 s = s.params.tableMemWords ∧
    readRegister draw 0x1C#6 s = s.params.costThreshold ∧
    readRegister draw 0x1E#6 s ++ readRegister draw 0x1D#6 s = s.regs.scfg) ∧
  ∀ (s : State) (draw : Nat), s.regs.busy = true →
    (readRegister draw 0x02#6 s).getLsbD 7 = true ∧ (readRegister draw 0x02#6 s).getLsbD 9 = s.cmdFifo.isEmpty

/-! ### Control commands -/

/-- The fields of a configuration word (R24) and DUAL (R26), `CfgValid(c)` on them, and the fault of a session start without it (R25). -/
def Obligations.ValidConfigurations : Prop :=
  (∀ c : Word64, cfgLctx c = c.toNat / 2 ^ 56 ∧ cfgLmask c = c.toNat / 2 ^ 48 % 256 ∧ cfgHctx c = c.toNat / 2 ^ 40 % 256 ∧
    cfgHmask c = c.toNat / 2 ^ 32 % 256 ∧ cfgOrder c = c.toNat / 2 ^ 31 % 2 + 1 ∧ cfgInit c = c.toNat / 2 ^ 24 % 128 ∧
    cfgStep c = c.toNat / 2 ^ 16 % 256 ∧ cfgLimit c = c.toNat % 65536 ∧
    (cfgDual c = false ↔ cfgLctx c = cfgHctx c ∧ cfgLmask c = cfgHmask c)) ∧
  (∀ c : Word64, cfgValid c = true ↔
    let lctx := c.toNat / 2 ^ 56
    let lmask := c.toNat / 2 ^ 48 % 256
    let hctx := c.toNat / 2 ^ 40 % 256
    let hmask := c.toNat / 2 ^ 32 % 256
    let order := c.toNat / 2 ^ 31 % 2 + 1
    let start := c.toNat / 2 ^ 24 % 128
    let increment := c.toNat / 2 ^ 16 % 256
    let limit := c.toNat % 65536
    order < lctx ∧ lctx ≤ hctx ∧ hctx ≤ 8 ∧ 15 ≤ lmask ∧ lmask ≤ 30 ∧ 15 ≤ hmask ∧ hmask ≤ 30 ∧ 1 ≤ start ∧ start ≤ 127 ∧
      1 ≤ increment ∧ increment ≤ 127 ∧ start * 256 ≤ limit ∧ limit ≤ 32767 - increment) ∧
  ∀ s : State, s.regs.mode = .idle ∨ s.regs.mode = .done → cfgValid s.regs.config = false →
    exec .initEnc s = .next (faultedWith s 4#8 0x0400000000000000#64) ∧
    exec .initDec s = .next (faultedWith s 4#8 0x0500000000000000#64)

/-- `NeedWords(c)`, the largest a valid configuration asks for, and the fault of a session start that asks for more than the table
memory holds (R61). -/
def Obligations.SessionMemory : Prop :=
  (∀ c : Word64, needWords c = 2 ^ cfgLmask c +
    (if cfgLctx c = cfgHctx c ∧ cfgLmask c = cfgHmask c then 4096 else 2 ^ cfgHmask c + 8192) + 273 * 256 ^ cfgOrder c) ∧
  (∀ c : Word64, cfgValid c = true → needWords c ≤ 2165383168) ∧ (∃ c : Word64, cfgValid c = true ∧ needWords c = 2165383168) ∧
  ∀ s : State, s.regs.mode = .idle ∨ s.regs.mode = .done → cfgValid s.regs.config = true →
    s.params.tableMemWords.toNat < needWords s.regs.config →
    exec .initEnc s = .next (faultedWith s 5#8 0x0400000000000000#64) ∧
    exec .initDec s = .next (faultedWith s 5#8 0x0500000000000000#64)

/-- NOP (R113): in every mode it retires and changes nothing but CMD_COUNT; only the word 0 is NOP, and every other word of opcode 0
raises ILLEGAL_COMMAND outside FAULTED. -/
def Obligations.NopCounts : Prop :=
  (∀ s : State, exec .nop s = .next (countedWith s s.regs)) ∧
  (∀ w : Word64, opcode w = 0 → (decode w = .ok .nop ↔ w = 0#64)) ∧
  ∀ (s : State) (w : Word64) (later : List Word64), s.stall = none → s.cmdFifo = w :: later → s.regs.mode ≠ .faulted →
    opcode w = 0 → w ≠ 0#64 → step s = .next (faultedWith { s with cmdFifo := later } 16#8 w)

/-- SETCFG_HI and SETCFG_LO (R114, R115): each writes its half of CONFIG, keeps the other, and changes nothing else but CMD_COUNT. -/
def Obligations.SetcfgWritesItsHalf : Prop :=
  ∀ (s : State) (imm32 : Nat), imm32 < 2 ^ 32 → s.regs.mode = .idle ∨ s.regs.mode = .done →
    exec (.setcfgHi imm32) s =
      .next (countedWith s { s.regs with config := BitVec.ofNat 64 (imm32 * 2 ^ 32 + s.regs.config.toNat % 2 ^ 32) }) ∧
    exec (.setcfgLo imm32) s =
      .next (countedWith s { s.regs with config := BitVec.ofNat 64 (s.regs.config.toNat / 2 ^ 32 * 2 ^ 32 + imm32) })

/-- SETIRQ (R116): in every mode it writes IRQ_EN, clears the pending bits named, and changes nothing else but CMD_COUNT. -/
def Obligations.SetirqWritesEnables : Prop :=
  ∀ (s : State) (en clr : Nat), en < 4 → clr < 4 → ∃ enable pend : BitVec 2,
    exec (.setirq en clr) s = .next (countedWith s { s.regs with irqEn := enable, irqPend := pend }) ∧ enable.toNat = en ∧
    ∀ k < 2, pend.getLsbD k = (s.regs.irqPend.getLsbD k && !clr.testBit k)

/-- INIT_ENC (R117, R119): every register it writes, every entry of the session's tables, and the input port's end mark, which stands for a
session (R79); nothing else. That a session start clears the end mark is the model's reading (log entry 15). -/
def Obligations.InitEncStartsTheSession : Prop :=
  ∀ s : State, s.regs.mode = .idle ∨ s.regs.mode = .done → cfgValid s.regs.config = true →
    needWords s.regs.config ≤ s.params.tableMemWords.toNat →
    ∃ t, exec .initEnc s = .next t ∧
      t = { countedWith { s with tables := t.tables, inPort := { s.inPort with ended := false } }
        { s.regs with
          mode := .enc, dir := false, scfg := s.regs.config, tablesValid := true, rcBuffer := 0#31, rcRange := 0x7FFFFFFF#31
          carry := false, delayValid := false, delay := 0#8, look := 0#8, ffrun := 0#32, context := 0#64, histLo := 0#4, histHi := 0#4
          cost := 0#32, result := 0#32, inCount := 0#64, outCount := 0#64 } with params := s.params } ∧
      (∀ i < 2 ^ cfgLmask s.regs.config, tblRead t .lzpLo i = 0x0000#16) ∧
      (cfgDual s.regs.config = true → ∀ i < 2 ^ cfgHmask s.regs.config, tblRead t .lzpHi i = 0x0000#16) ∧
      (∀ i < 4096, tblRead t .apmLo i = 0x4000#16) ∧
      (cfgDual s.regs.config = true → ∀ i < 4096, tblRead t .apmHi i = 0x4000#16) ∧
      ∀ c < 256 ^ cfgOrder s.regs.config, (∀ k < 256, singleOf t c k = cfgInit s.regs.config) ∧
        (∀ g < 16, groupOf t c g = 16 * cfgInit s.regs.config) ∧ totalOf t c = 256 * cfgInit s.regs.config

/-- INIT_DEC (R118, R119, R206) where the port gives four bytes, listed or standing: every register it writes, the window's first 31 bits,
every entry of the session's tables, the listed answers it has read, and the input port's end mark, which stands for a session (R79), so
that one given before does not end these reads; nothing else. That a session start clears the end mark is the model's reading (log entry
15); the form of the ports is its choice (log entry 3). -/
def Obligations.InitDecStartsTheSession : Prop :=
  ∀ (s : State) (n1 n2 n3 n4 : Byte), s.regs.mode = .idle ∨ s.regs.mode = .done →
    cfgValid s.regs.config = true → needWords s.regs.config ≤ s.params.tableMemWords.toNat →
    let port : InPort := { s.inPort with ended := false }
    inAnswerAt port 0 = some (.byte n1) → inAnswerAt port 1 = some (.byte n2) → inAnswerAt port 2 = some (.byte n3) →
    inAnswerAt port 3 = some (.byte n4) →
    ∃ t, exec .initDec s = .next t ∧
      t = { countedWith { s with tables := t.tables, inPort := { port with answers := s.inPort.answers.drop 4 } }
        { s.regs with
          mode := .dec, dir := true, scfg := s.regs.config, tablesValid := true
          rcBuffer := BitVec.ofNat 31 ((n1.toNat * 2 ^ 24 + n2.toNat * 2 ^ 16 + n3.toNat * 2 ^ 8 + n4.toNat) / 2)
          rcRange := 0x7FFFFFFF#31, carry := false, delayValid := false, delay := 0#8, look := n4, ffrun := 0#32, context := 0#64
          histLo := 0#4, histHi := 0#4, cost := 0#32, result := 0#32, inCount := 4#64, outCount := 0#64 } with params := s.params } ∧
      (∀ i < 2 ^ cfgLmask s.regs.config, tblRead t .lzpLo i = 0x0000#16) ∧
      (cfgDual s.regs.config = true → ∀ i < 2 ^ cfgHmask s.regs.config, tblRead t .lzpHi i = 0x0000#16) ∧
      (∀ i < 4096, tblRead t .apmLo i = 0x4000#16) ∧
      (cfgDual s.regs.config = true → ∀ i < 4096, tblRead t .apmHi i = 0x4000#16) ∧
      ∀ c < 256 ^ cfgOrder s.regs.config, (∀ k < 256, singleOf t c k = cfgInit s.regs.config) ∧
        (∀ g < 16, groupOf t c g = 16 * cfgInit s.regs.config) ∧ totalOf t c = 256 * cfgInit s.regs.config

/-- INIT_DEC where the port does not give four bytes (R118, R79, R266): at the end mark UNEXPECTED_END_OF_INPUT, at a port error
IO_FAILURE, the session latched, DIR as it was; with no answer it waits. An end mark given before the session stands no longer. That a
session start clears the end mark is the model's reading (log entry 15); the form of the ports and of a wait is its choice (log entries 3
and 4). -/
def Obligations.InitDecTruncated : Prop :=
  ∀ (s : State) (n : Nat), s.regs.mode = .idle ∨ s.regs.mode = .done →
    cfgValid s.regs.config = true → needWords s.regs.config ≤ s.params.tableMemWords.toNat →
    let port : InPort := { s.inPort with ended := false }
    let latched : State → Prop := fun t => t.regs.tablesValid = true ∧ t.regs.scfg = s.regs.config ∧ t.regs.dir = s.regs.dir ∧
      t.outPort.taken = s.outPort.taken ∧ t.inPort.answers = s.inPort.answers.drop (n + 1)
    n < 4 → bytesFirst port n →
      (inAnswerAt port n = some .endMark → faultsWith .initDec s 2#8 latched) ∧
      (inAnswerAt port n = some .error → faultsWith .initDec s 1#8 latched) ∧
      (inAnswerAt port n = none → waitsWith .initDec s fun t => t.outPort.taken = s.outPort.taken ∧ t.inPort.answers = [])

/-- A session start leaves the models and the range as their invariants say (R155, R172, R28), and INIT_ENC the encoder (R200). The clause
`Memory.wf`, the canonical form of the table memory, is no rule of the spec: it is the model's choice (log entry 7). -/
def Obligations.SessionStartMeetsInvariants : Prop :=
  ∀ (i : Instr) (s t : State), i = .initEnc ∨ i = .initDec → s.regs.mode = .idle ∨ s.regs.mode = .done → exec i s = .next t →
    t.regs.mode = .enc ∨ t.regs.mode = .dec →
    SessionOk t ∧ Memory.wf t.regs.scfg t.tables ∧ 2 ^ 23 ≤ t.regs.rcRange.toNat ∧ (t.regs.mode = .enc → CoderInv t.regs)

/-- TBL_READ (R120): RESULT by table id and index, in every mode but FAULTED, where the word is discarded; nothing else changes. -/
def Obligations.TblReadAnswers : Prop :=
  ∀ (s : State) (tid idx : Nat),
    (s.regs.mode = .faulted → exec (.tblRead tid idx) s = .next (discarded s)) ∧
    (s.regs.mode ≠ .faulted → exec (.tblRead tid idx) s = .next (countedWith s { s.regs with
      result := BitVec.ofNat 32 (
        if h : tid = 5 ∧ idx < 512 then (s.params.fsmTable[idx]'h.2).toNat
        else if s.regs.tablesValid = false then 0xFFFFFFFF
        else if tid = 0 ∧ idx < 2 ^ cfgLmask s.regs.scfg then (tblRead s .lzpLo idx).toNat
        else if tid = 1 ∧ cfgDual s.regs.scfg = true ∧ idx < 2 ^ cfgHmask s.regs.scfg then (tblRead s .lzpHi idx).toNat
        else if tid = 2 ∧ idx < 4096 then (tblRead s .apmLo idx).toNat
        else if tid = 3 ∧ cfgDual s.regs.scfg = true ∧ idx < 4096 then (tblRead s .apmHi idx).toNat
        else if tid = 4 ∧ idx < 273 * 256 ^ cfgOrder s.regs.scfg then (tblRead s .lit idx).toNat
        else 0xFFFFFFFF) }))

/-- DEC_CHECK_END (R121) after a decode, by what the port answers: the end mark retires with RESULT 0, a byte is TRAILING_DATA, an error
is IO_FAILURE, and with no answer the command waits (R79, R299). The form of the ports and of a wait, a next state that holds it, is the
model's choice (log entries 3 and 4). That such an IO_FAILURE is imprecise is the model's reading (log entry 20), on which nothing here
rests. -/
def Obligations.DecCheckEndAnswers : Prop :=
  ∀ s : State, s.regs.mode = .done → s.regs.dir = true →
    (∀ p, nextInAnswer { s.inPort with used := [] } = some (.endMark, p) →
      exec .decCheckEnd s = .next (countedWith { s with inPort := p } { s.regs with result := 0#32 })) ∧
    (∀ b p, nextInAnswer { s.inPort with used := [] } = some (.byte b, p) →
      exec .decCheckEnd s = .next (faultedWith
        { s with inPort := p, regs := { s.regs with inCount := s.regs.inCount + 1#64 } } 6#8 0x0700000000000000#64)) ∧
    (∀ p, nextInAnswer { s.inPort with used := [] } = some (.error, p) →
      ∃ t, exec .decCheckEnd s = .next t ∧ t.regs.mode = .faulted ∧ t.regs.faultCause = 1#8) ∧
    (nextInAnswer s.inPort = none →
      ∃ t, exec .decCheckEnd s = .next t ∧ t.stall ≠ none ∧ t.regs.busy = true ∧ t.regs.mode = .done)

/-! ### The raw range coder -/

/-- RC_ENC_BIT (R207, R217): the flag takes the low `h` of the interval or the rest of it; nothing but the coder changes; where the port
or the run stops it, it ends as R80, R299 and R202 say. The form of the ports and of a wait is the model's choice (log entries 3 and 4).
-/
def Obligations.RcEncBitNarrows : Prop :=
  ∀ (s : State) (bit p : Nat), s.regs.mode = .enc → CoderInv s.regs → bit ≤ 1 → 1 ≤ p → p < 2 ^ 15 →
    let h := s.regs.rcRange.toNat / 2 ^ 15 * p
    let v := if bit = 1 then 0 else h
    let r := if bit = 1 then h else s.regs.rcRange.toNat - h
    (GoesOut s s v (normShifts r) →
      ∃ t, exec (.rcEncBit bit p) s = .next t ∧ retiredIn t ∧ encoderErased t = encoderErased (countedWith s s.regs) ∧
        Encoded s t v r) ∧
    EncoderTraps (.rcEncBit bit p) s s v (normShifts r)

/-- RC_ENC_EOS (R209, R219): LAST = 0 takes all of the interval but its last number, LAST = 1 that number alone, which leaves R = 2^24 and
the mode ENC_ENDING; where the port or the run stops it, it ends as R80, R299 and R202 say. The form of the ports and of a wait is the
model's choice (log entries 3 and 4). -/
def Obligations.RcEncEosNarrows : Prop :=
  ∀ s : State, s.regs.mode = .enc → CoderInv s.regs →
    (GoesOut s s 0 (normShifts (s.regs.rcRange.toNat - 1)) →
      ∃ t, exec (.rcEncEos 0) s = .next t ∧ retiredIn t ∧ encoderErased t = encoderErased (countedWith s s.regs) ∧
        Encoded s t 0 (s.regs.rcRange.toNat - 1)) ∧
    EncoderTraps (.rcEncEos 0) s s 0 (normShifts (s.regs.rcRange.toNat - 1)) ∧
    (GoesOut s s (s.regs.rcRange.toNat - 1) 3 →
      ∃ t, exec (.rcEncEos 1) s = .next t ∧ retiredIn t ∧
        encoderErased t = encoderErased (countedWith s { s.regs with mode := .encEnding }) ∧
        Encoded s t (s.regs.rcRange.toNat - 1) 1 ∧ t.regs.rcRange.toNat = 2 ^ 24) ∧
    EncoderTraps (.rcEncEos 1) s s (s.regs.rcRange.toNat - 1) 3

/-- RC_ENC_FREQ (R211, R221): the interval `[cum * r, (cum + freq) * r)` of `r = R / tot`; where the port or the run stops it, it ends as
R80, R299 and R202 say. The form of the ports and of a wait is the model's choice (log entries 3 and 4). -/
def Obligations.RcEncFreqNarrows : Prop :=
  ∀ (s : State) (cum freq tot : Nat), s.regs.mode = .enc → CoderInv s.regs → 1 ≤ freq → cum + freq ≤ tot → tot < 2 ^ 16 →
    let v := cum * (s.regs.rcRange.toNat / tot)
    let r := s.regs.rcRange.toNat / tot * freq
    (GoesOut s s v (normShifts r) →
      ∃ t, exec (.rcEncFreq cum freq tot) s = .next t ∧ retiredIn t ∧ encoderErased t = encoderErased (countedWith s s.regs) ∧
        Encoded s t v r) ∧
    EncoderTraps (.rcEncFreq cum freq tot) s s v (normShifts r)

/-- RC_FLUSH (R214, R215, R224): the session ends; the coder is drained; the bytes emitted spell the code value, four of them after those
shifted out before, and the delayed byte left is 0; where the port or the run stops it, it ends as R80, R299 and R202 say. The form of the
ports and of a wait is the model's choice (log entries 3 and 4). -/
def Obligations.RcFlushDrains : Prop :=
  ∀ s : State, s.regs.mode = .enc ∨ s.regs.mode = .encEnding → CoderInv s.regs →
    (GoesOut s s 0 5 →
      ∃ t, exec .rcFlush s = .next t ∧ retiredIn t ∧
        encoderErased t = encoderErased (countedWith s { s.regs with mode := .done, irqPend := s.regs.irqPend ||| 2#2 }) ∧
        t.regs.rcBuffer = 0#31 ∧ t.regs.carry = false ∧ t.regs.ffrun = 0#32 ∧ t.regs.delayValid = true ∧ t.regs.delay = 0#8 ∧
        t.regs.rcRange = s.regs.rcRange ∧ outSide t = outSideAfter s 0 5 ∧ Sent s t ∧
        t.outPort.taken.length = (shiftedOut s).length + 4 ∧ bytesValue t.outPort.taken = codeValue s * 2) ∧
    EncoderTraps .rcFlush s s 0 5

/-- ENC_END (R209, R214, R243): the end flag 1, then the drain: R = 2^24, seven bytes after those shifted out before; no model changes;
where the port or the run stops it, it ends as R80, R299 and R202 say. The form of the ports and of a wait is the model's choice (log
entries 3 and 4). -/
def Obligations.EncEndDrains : Prop :=
  ∀ s : State, s.regs.mode = .enc → CoderInv s.regs →
    let v := s.regs.rcRange.toNat - 1
    (GoesOut s s v 8 →
      ∃ t, exec .encEnd s = .next t ∧ retiredIn t ∧
        encoderErased t = encoderErased (countedWith s { s.regs with mode := .done, irqPend := s.regs.irqPend ||| 2#2 }) ∧
        t.regs.rcBuffer = 0#31 ∧ t.regs.carry = false ∧ t.regs.ffrun = 0#32 ∧ t.regs.delayValid = true ∧ t.regs.delay = 0#8 ∧
        t.regs.rcRange.toNat = 2 ^ 24 ∧ outSide t = outSideAfter s v 8 ∧ Sent s t ∧
        t.outPort.taken.length = (shiftedOut s).length + 7 ∧ bytesValue t.outPort.taken = (codeValue s + v) * 256 ^ 3 * 2) ∧
    EncoderTraps .encEnd s s v 8

/-- RC_DEC_BIT (R208, R218): RESULT is 1 exactly where the window is below `h`; the decoder takes that part of the interval; where the
port does not give the bytes, it ends as R79 and R299 say. The form of the ports and of a wait is the model's choice (log entries 3 and
4). -/
def Obligations.RcDecBitDecodes : Prop :=
  ∀ (s : State) (p : Nat), s.regs.mode = .dec → 2 ^ 23 ≤ s.regs.rcRange.toNat → 1 ≤ p → p < 2 ^ 15 →
    let h := s.regs.rcRange.toNat / 2 ^ 15 * p
    (s.regs.rcBuffer.toNat < h → givesBytes s.inPort (normShifts h) →
      ∃ t, exec (.rcDecBit p) s = .next t ∧ retiredIn t ∧
        decoderErased t = decoderErased (countedWith s { s.regs with result := 1#32 }) ∧ Decoded s t 0 h) ∧
    (h ≤ s.regs.rcBuffer.toNat → givesBytes s.inPort (normShifts (s.regs.rcRange.toNat - h)) →
      ∃ t, exec (.rcDecBit p) s = .next t ∧ retiredIn t ∧
        decoderErased t = decoderErased (countedWith s { s.regs with result := 0#32 }) ∧ Decoded s t h (s.regs.rcRange.toNat - h)) ∧
    DecoderTraps (.rcDecBit p) s (normShifts (if s.regs.rcBuffer.toNat < h then h else s.regs.rcRange.toNat - h))

/-- RC_DEC_EOS (R210, R220): more follows where the window is below R - 1; else the session ends, three bytes read; where the port does
not give the bytes, it ends as R79 and R299 say. The form of the ports and of a wait is the model's choice (log entries 3 and 4). -/
def Obligations.RcDecEosDecodes : Prop :=
  ∀ s : State, s.regs.mode = .dec → 2 ^ 23 ≤ s.regs.rcRange.toNat →
    (s.regs.rcBuffer.toNat < s.regs.rcRange.toNat - 1 → givesBytes s.inPort (normShifts (s.regs.rcRange.toNat - 1)) →
      ∃ t, exec .rcDecEos s = .next t ∧ retiredIn t ∧
        decoderErased t = decoderErased (countedWith s { s.regs with result := 0#32 }) ∧ Decoded s t 0 (s.regs.rcRange.toNat - 1)) ∧
    (s.regs.rcRange.toNat - 1 ≤ s.regs.rcBuffer.toNat → givesBytes s.inPort 3 →
      ∃ t, exec .rcDecEos s = .next t ∧ retiredIn t ∧
        decoderErased t = decoderErased (countedWith s
          { s.regs with result := 1#32, mode := .done, irqPend := s.regs.irqPend ||| 2#2 }) ∧
        Decoded s t s.regs.rcBuffer.toNat 1 ∧ t.regs.rcRange.toNat = 2 ^ 24 ∧ t.regs.inCount = s.regs.inCount + 3#64) ∧
    DecoderTraps .rcDecEos s
      (if s.regs.rcBuffer.toNat < s.regs.rcRange.toNat - 1 then normShifts (s.regs.rcRange.toNat - 1) else 3)

/-- RC_DEC_TARGET (R212, R222): the target in RESULT and nothing else changed; CORRUPT_PAYLOAD, precisely, where it is not below the
total. -/
def Obligations.RcDecTargetAnswers : Prop :=
  ∀ (s : State) (tot : Nat), s.regs.mode = .dec → 2 ^ 23 ≤ s.regs.rcRange.toNat → 1 ≤ tot → tot < 2 ^ 16 →
    let target := s.regs.rcBuffer.toNat / (s.regs.rcRange.toNat / tot)
    (target < tot → exec (.rcDecTarget tot) s = .next (countedWith s { s.regs with result := BitVec.ofNat 32 target })) ∧
    (tot ≤ target → exec (.rcDecTarget tot) s = .next (faultedWith s 19#8 (encode (.rcDecTarget tot))))

/-- RC_DEC_NARROW (R213, R223): the interval named is taken where it holds the target, or, where the port does not give the bytes, the
command ends as R79 and R299 say; where it does not hold the target, NARROW_MISMATCH. The form of the ports and of a wait is the model's
choice (log entries 3 and 4). -/
def Obligations.RcDecNarrowNarrows : Prop :=
  ∀ (s : State) (cum freq tot : Nat), s.regs.mode = .dec → 2 ^ 23 ≤ s.regs.rcRange.toNat → 1 ≤ freq → cum + freq ≤ tot → tot < 2 ^ 16 →
    let r := s.regs.rcRange.toNat / tot
    (cum ≤ s.regs.rcBuffer.toNat / r → s.regs.rcBuffer.toNat / r < cum + freq →
      (givesBytes s.inPort (normShifts (r * freq)) →
        ∃ t, exec (.rcDecNarrow cum freq tot) s = .next t ∧ retiredIn t ∧
          decoderErased t = decoderErased (countedWith s s.regs) ∧ Decoded s t (cum * r) (r * freq)) ∧
      DecoderTraps (.rcDecNarrow cum freq tot) s (normShifts (r * freq))) ∧
    (¬(cum ≤ s.regs.rcBuffer.toNat / r ∧ s.regs.rcBuffer.toNat / r < cum + freq) →
      ∃ t, exec (.rcDecNarrow cum freq tot) s = .next t ∧ t.regs.mode = .faulted ∧ t.regs.faultCause = 20#8)

/-! ### The models -/

/-- Predict and Choose (R142, R145, R147, R150, R154): each member's index is the fold of R142 over its context bytes, under its mask; what
the member reads there; and that the high member is chosen only in a dual session and on a greater probability. Then what Next reads of the
FSM ROM, entry 2 * state + 1 on a match and 2 * state on a mismatch (R65, R149), and HistUpdate (R152). The fold starts from FNV_BASIS,
2166136261, which the spec marks as general knowledge (R141, log entry 16). -/
def Obligations.PredictReadsTheTables : Prop :=
  ∀ s : State,
    let byte := fun j => s.regs.context.toNat / 256 ^ j % 256
    let fold := fun (h : Nat) (js : List Nat) => js.foldl (fun h j => (h * 16777619 % 2 ^ 32) ^^^ byte j) h
    let low := fold 2166136261 (List.range (cfgLctx s.regs.scfg))
    let high := fold low (List.range' (cfgLctx s.regs.scfg) (cfgHctx s.regs.scfg - cfgLctx s.regs.scfg))
    indexLo s.regs = low % 2 ^ cfgLmask s.regs.scfg ∧ indexHi s.regs = high % 2 ^ cfgHmask s.regs.scfg ∧
    indexLo s.regs < 2 ^ cfgLmask s.regs.scfg ∧ indexHi s.regs < 2 ^ cfgHmask s.regs.scfg ∧
    (predictMember .lo s).state ++ (predictMember .lo s).symbol = tblRead s .lzpLo (indexLo s.regs) ∧
    (predictMember .hi s).state ++ (predictMember .hi s).symbol = tblRead s .lzpHi (indexHi s.regs) ∧
    (predictMember .lo s).prob = (tblRead s .apmLo (s.regs.histLo.toNat * 256 + (predictMember .lo s).state.toNat)).toNat ∧
    (predictMember .hi s).prob = (tblRead s .apmHi (s.regs.histHi.toNat * 256 + (predictMember .hi s).state.toNat)).toNat ∧
    (cfgDual s.regs.scfg = true ∧ (predictMember .lo s).prob < (predictMember .hi s).prob → choose s = predictMember .hi s) ∧
    (¬(cfgDual s.regs.scfg = true ∧ (predictMember .lo s).prob < (predictMember .hi s).prob) → choose s = predictMember .lo s) ∧
    (∀ state : Byte, s.params.fsmTable[2 * state.toNat + 1]? = some (nextState s.params state true) ∧
      s.params.fsmTable[2 * state.toNat]? = some (nextState s.params state false)) ∧
    ∀ h : BitVec 4, (histUpdate h true).toNat = h.toNat * 2 % 16 ∧ (histUpdate h false).toNat = (h.toNat * 2 + 1) % 16

/-- The worked values of the hash, the probability update and the history (R157). The hash values rest on FNV_BASIS, which the spec marks
as general knowledge (R141, log entry 16). -/
def Obligations.HashWorkedValues : Prop :=
  (∀ r : Regs, r.context = 0x41#64 → r.scfg = 0x020F041001100200#64 →
    hashContext r.context fnvBasis 0 1 = 0x050C5D5E#32 ∧ hashLo r = 0x5076FAFA#32 ∧ indexLo r = 0x7AFA ∧
    hashContext r.context (hashLo r) 2 1 = 0xA54D178E#32 ∧ hashHi r = 0xC65C148A#32 ∧ indexHi r = 0x148A) ∧
  (∀ r : Regs, r.context = 0#64 → (r.scfg = 0x020F020F01010100#64 ∨ r.scfg = 0x020F041001100200#64) → indexLo r = 0x17CD) ∧
  (∀ r : Regs, r.context = 0#64 → r.scfg = 0x020F041001100200#64 → indexHi r = 0xF515) ∧
  (∀ r : Regs, r.context = 0x6162636465666768#64 → r.scfg = 0x020F041001100200#64 → indexLo r = 0x2232 ∧ indexHi r = 0x0315) ∧
  (∀ s : State, apmNext 0x4000 true s = .ok 16512 s ∧ apmNext 0x4000 false s = .ok 16256 s) ∧
  histUpdate 0x0#4 false = 0x1#4 ∧ histUpdate 0x1#4 true = 0x2#4 ∧ histUpdate 0xF#4 false = 0xF#4 ∧ histUpdate 0x8#4 true = 0x0#4

/-- The literal context is the low 8 * ORDER bits of CONTEXT (R170), and its singles, groups and total are where R64 says; a literal takes
the fixed path where COST is above COST_THRESHOLD (R180). Then, where the context's sums hold: CumEx by the two-level scan is the sum it
stands for (R174); the excluded total, the frequencies and the intervals of the 255 symbols are as R175 says: disjoint, and covering the
total. -/
def Obligations.LiteralIntervals : Prop :=
  (∀ s : State, litCtx s = s.regs.context.toNat % 256 ^ cfgOrder s.regs.scfg ∧
    (∀ c k, singleOf s c k = (tblRead s .lit (c * 273 + k)).toNat ∧ groupOf s c k = (tblRead s .lit (c * 273 + 256 + k)).toNat ∧
      totalOf s c = (tblRead s .lit (c * 273 + 272)).toNat) ∧
    (∀ k, litSingle s k = singleOf s (litCtx s) k ∧ litGroup s k = groupOf s (litCtx s) k) ∧ litTotal s = totalOf s (litCtx s) ∧
    (useFixed s = true ↔ s.params.costThreshold.toNat < s.regs.cost.toNat)) ∧
  ∀ (s : State) (x : Nat), x < 256 → cfgValid s.regs.scfg = true → LitContextOk s (litCtx s) →
    (∀ sym < 256, cumEx sym x s = .ok (cumWithout s x sym) s ∧
      cumWithout s x sym = ((List.range sym).map (litSingle s)).sum - (if x < sym then litSingle s x else 0)) ∧
    (∀ sym, sym ≠ x → freqEx sym x s = .ok (litSingle s sym) s) ∧
    totEx x s = .ok (totWithout s x) s ∧ 255 ≤ totWithout s x ∧ totWithout s x ≤ 32767 ∧
    (∀ sym < 256, sym ≠ x → 1 ≤ litSingle s sym ∧ cumWithout s x sym + litSingle s sym ≤ totWithout s x) ∧
    ∀ v < totWithout s x, ∃ sym, (sym < 256 ∧ sym ≠ x ∧ cumWithout s x sym ≤ v ∧ v < cumWithout s x sym + litSingle s sym) ∧
      ∀ other, other < 256 → other ≠ x → cumWithout s x other ≤ v → v < cumWithout s x other + litSingle s other → other = sym

/-- LitTrain (R181, R182) writes the context's entries alone, keeps the sums and the frequencies at least 1 (R172), and keeps the total
within U (R187). -/
def Obligations.LitTrainKeepsTheBound : Prop :=
  ∀ (s : State) (sym : Nat), sym < 256 → cfgValid s.regs.scfg = true → Memory.wf s.regs.scfg s.tables → LitContextOk s (litCtx s) →
    ∃ t, litTrain sym s = .ok () t ∧ t = { s with tables := t.tables } ∧ LiteralTrained s t sym ∧
      (∀ id, id ≠ .lit → ∀ i, tblRead t id i = tblRead s id i) ∧
      totalOf t (litCtx s) ≤ max (cfgLimit s.regs.scfg) (cfgStep s.regs.scfg + 256)

/-- The decided default of LOG2_FIX (R184): the floor of 2^14 times the logarithm, non-decreasing, below 2^24, with the values listed. -/
def Obligations.Log2DefaultIsExact : Prop :=
  (∀ n, 1 ≤ n → n ≤ 32767 →
    ∃ v, log2FixValue .exact n = some v ∧ 2 ^ v ≤ n ^ 2 ^ 14 ∧ n ^ 2 ^ 14 < 2 ^ (v + 1) ∧ v < 2 ^ 24) ∧
  (∀ n m v w, n ≤ m → log2FixValue .exact n = some v → log2FixValue .exact m = some w → v ≤ w) ∧
  log2FixValue .exact 1 = some 0 ∧ log2FixValue .exact 2 = some 16384 ∧ log2FixValue .exact 3 = some 25968 ∧
  log2FixValue .exact 16 = some 65536 ∧ log2FixValue .exact 127 = some 114502 ∧ log2FixValue .exact 128 = some 114688 ∧
  log2FixValue .exact 255 = some 130979 ∧ log2FixValue .exact 256 = some 131072 ∧ log2FixValue .exact 257 = some 131164 ∧
  log2FixValue .exact 32767 = some 245759

/-- CostUpdate (R183): the decayed cost and the gain, and nothing else; with the default LOG2_FIX the cost stays within
31457280 = 128 * 245760, with any permitted one below 2^31 (R35). -/
def Obligations.CostStaysBounded : Prop :=
  ∀ (s : State) (te fs : Nat), log2Permitted s.params.log2Fix → 1 ≤ fs → fs ≤ te → te ≤ 32767 → s.regs.cost.toNat < 2 ^ 31 →
    ∃ t logTotal logFreq, costUpdate te fs s = .ok () t ∧ log2FixValue s.params.log2Fix te = some logTotal ∧
      log2FixValue s.params.log2Fix fs = some logFreq ∧ logFreq ≤ logTotal ∧
      t = { s with regs := { s.regs with cost := t.regs.cost } } ∧
      t.regs.cost.toNat = s.regs.cost.toNat - s.regs.cost.toNat / 128 + (logTotal - logFreq) ∧ t.regs.cost.toNat < 2 ^ 31 ∧
      (s.params.log2Fix = .exact → s.regs.cost.toNat ≤ 31457280 → t.regs.cost.toNat ≤ 31457280)

/-! ### The symbol commands -/

/-- ENC_SYM (R241): the end flag 0, the match flag of the chosen prediction, the literal's interval on a mismatch, one after the other on
the coder; then what the models learn (R153, R181 to R183); and nothing else. It completes with an encoder that is ready, and wherever the
bytes of each of the three parts go out; where the port or the run stops it, in any of the three, it ends as R80, R299 and R202 say. The form of the ports and of a wait is the model's choice (log entries 3 and 4). -/
def Obligations.EncSymCodes : Prop :=
  ∀ (s : State) (b : Byte), s.regs.mode = .enc → CoderInv s.regs → SymbolsCodable s →
    let x := (choose s).symbol
    let h := fun (u : State) => u.regs.rcRange.toNat / 2 ^ 15 * (choose s).prob
    let flagLow := fun (u : State) => if b = x then 0 else h u
    let flagWidth := fun (u : State) => if b = x then h u else u.regs.rcRange.toNat - h u
    let low := fun (u : State) => literalLow s u.regs.rcRange.toNat x.toNat b.toNat
    let width := fun (u : State) => literalWidth s u.regs.rcRange.toNat x.toNat b.toNat
    (EncoderReady s →
      ∃ t s1 s2 s3, exec (.encSym b.toNat) s = .next t ∧ SymbolCoded s s3 t x b ∧
        Encoded s s1 0 (s.regs.rcRange.toNat - 1) ∧ Encoded s1 s2 (flagLow s1) (flagWidth s1) ∧
        (b = x → s3 = s2) ∧ (b ≠ x → Encoded s2 s3 (low s2) (width s2))) ∧
    EncoderTraps (.encSym b.toNat) s s 0 (normShifts (s.regs.rcRange.toNat - 1)) ∧
    (GoesOut s s 0 (normShifts (s.regs.rcRange.toNat - 1)) →
      ∃ s1, Encoded s s1 0 (s.regs.rcRange.toNat - 1) ∧
        EncoderTraps (.encSym b.toNat) s s1 (flagLow s1) (normShifts (flagWidth s1)) ∧
        (GoesOut s s1 (flagLow s1) (normShifts (flagWidth s1)) →
          ∃ s2, Encoded s1 s2 (flagLow s1) (flagWidth s1) ∧
            (b = x → ∃ t, exec (.encSym b.toNat) s = .next t ∧ SymbolCoded s s2 t x b) ∧
            (b ≠ x → EncoderTraps (.encSym b.toNat) s s2 (low s2) (normShifts (width s2)) ∧
              (GoesOut s s2 (low s2) (normShifts (width s2)) →
                ∃ s3, Encoded s2 s3 (low s2) (width s2) ∧
                  ∃ t, exec (.encSym b.toNat) s = .next t ∧ SymbolCoded s s3 t x b))))

/-- DEC_SYM (R242) where a symbol follows: the end flag 0 and the match flag taken from the window; a match answers the prediction; on a
mismatch the symbol whose interval holds the window is answered; CORRUPT_PAYLOAD where none does. Where a port stops it, at a byte of any
of the three or at the byte it gives out, it ends as R79, R80 and R299 say. The form of the ports and of a wait is the model's choice (log
entries 3 and 4). -/
def Obligations.DecSymDecodes : Prop :=
  ∀ s : State, s.regs.mode = .dec → SymbolsCodable s → s.regs.rcBuffer.toNat < s.regs.rcRange.toNat - 1 →
    let x := (choose s).symbol
    let h := fun (u : State) => u.regs.rcRange.toNat / 2 ^ 15 * (choose s).prob
    let flagLow := fun (u : State) => if u.regs.rcBuffer.toNat < h u then 0 else h u
    let flagWidth := fun (u : State) => if u.regs.rcBuffer.toNat < h u then h u else u.regs.rcRange.toNat - h u
    let low := fun (u : State) (b : Byte) => literalLow s u.regs.rcRange.toNat x.toNat b.toNat
    let width := fun (u : State) (b : Byte) => literalWidth s u.regs.rcRange.toNat x.toNat b.toNat
    let n := normShifts (s.regs.rcRange.toNat - 1)
    DecoderTraps .decSym s n ∧
    (givesBytes s.inPort n →
      ∃ s1, Decoded s s1 0 (s.regs.rcRange.toNat - 1) ∧
        DecoderTraps .decSym s (n + normShifts (flagWidth s1)) ∧
        (givesBytes s.inPort (n + normShifts (flagWidth s1)) →
          ∃ s2, Decoded s1 s2 (flagLow s1) (flagWidth s1) ∧
            (s1.regs.rcBuffer.toNat < h s1 → SymbolGivenOut s s2 x x) ∧
            (h s1 ≤ s1.regs.rcBuffer.toNat →
              (∀ b : Byte, b ≠ x → low s2 b ≤ s2.regs.rcBuffer.toNat → s2.regs.rcBuffer.toNat < low s2 b + width s2 b →
                DecoderTraps .decSym s (n + normShifts (flagWidth s1) + normShifts (width s2 b)) ∧
                (givesBytes s.inPort (n + normShifts (flagWidth s1) + normShifts (width s2 b)) →
                  ∃ s3, Decoded s2 s3 (low s2 b) (width s2 b) ∧ SymbolGivenOut s s3 x b)) ∧
              ((∀ b : Byte, b ≠ x → ¬(low s2 b ≤ s2.regs.rcBuffer.toNat ∧ s2.regs.rcBuffer.toNat < low s2 b + width s2 b)) →
                ∃ t, exec .decSym s = .next t ∧ t.regs.mode = .faulted ∧ t.regs.faultCause = 19#8))))

/-- DEC_SYM (R242) at the end of the stream: RESULT 0x100, the session over, three bytes read, no model touched; where the port does not
give the bytes, it ends as R79 and R299 say. The form of the ports and of a wait is the model's choice (log entries 3 and 4). -/
def Obligations.DecSymEnds : Prop :=
  ∀ s : State, s.regs.mode = .dec → 2 ^ 23 ≤ s.regs.rcRange.toNat → s.regs.rcRange.toNat - 1 ≤ s.regs.rcBuffer.toNat →
    (givesBytes s.inPort 3 →
      ∃ t, exec .decSym s = .next t ∧ retiredIn t ∧
        decoderErased t = decoderErased (countedWith s
          { s.regs with result := 0x100#32, mode := .done, irqPend := s.regs.irqPend ||| 2#2 }) ∧
        Decoded s t s.regs.rcBuffer.toNat 1 ∧ t.regs.rcRange.toNat = 2 ^ 24 ∧ t.regs.inCount = s.regs.inCount + 3#64) ∧
    DecoderTraps .decSym s 3

/-- Every probability is in [127, 32641] while a session streams, whatever the commands, so that the flag coder's precondition holds
(R155). -/
def Obligations.ApmEntriesStayInRange : Prop :=
  (∀ (s t : State), MachineInv s → step s = .next t → t.stall = none → streaming t.regs.mode →
    ApmOk t ∧ 1 ≤ (choose t).prob ∧ (choose t).prob < 2 ^ 15) ∧
  ∀ p m, 127 ≤ p → p ≤ 32641 → 127 ≤ apmMoved p m ∧ apmMoved p m ≤ 32641

/-! ### Headlines -/

/-- CARRY_OVERFLOW is reached by no command (R216). -/
def Obligations.CarryOverflowUnreachable : Prop :=
  ∀ (i : Instr) (s t : State), i.wellFormed = true → MachineInv s → s.stall = none → s.regs.mode ≠ .faulted →
    exec i s = .next t → t.regs.mode = .faulted → t.regs.faultCause ≠ 21#8

/-- A symbol's round trip (R245): from an encoder and a decoder with the same model and range, where the decoder's stream is inside the
interval ENC_SYM reaches, DEC_SYM answers the byte, gives it out, and leaves the same model, the same range and a stream that spells
the same number, so that the next symbol can follow. The canonical table form in `SymbolsCodable` is the model's choice (log entry 7). -/
def Obligations.SymbolRoundTrip : Prop :=
  ∀ (s s' d : State) (b : Byte) (n : Nat), s.regs.mode = .enc → EncoderReady s → SymbolsCodable s → d.regs.mode = .dec →
    SymbolsCodable d → acceptsAll d.outPort → SameModel s d → s.regs.rcRange = d.regs.rcRange →
    exec (.encSym b.toNat) s = .next s' → (shiftedOut s').length = (shiftedOut s).length + n → givesBytes d.inPort n →
    Inside s' (streamValue s d n) 0 →
    ∃ d', exec .decSym d = .next d' ∧ retiredIn d' ∧ d'.regs.mode = .dec ∧ d'.regs.result = b.setWidth 32 ∧
      d'.outPort.taken = d.outPort.taken ++ [b] ∧ SameModel s' d' ∧ s'.regs.rcRange = d'.regs.rcRange ∧
      streamValue s' d' 0 = streamValue s d n ∧ d'.inPort.answers = d.inPort.answers.drop n ∧
      d'.regs.inCount = d.regs.inCount + BitVec.ofNat 64 n ∧ SymbolsCodable d'

/-- The round trip of a message (R245, R215, R246): a session that encodes it, and a session of the same configuration and parameters
that decodes the bytes given out: it gives out the message, says the end, and has read exactly those bytes. The message is shorter than
2^28 bytes, so that no run of 0xFF can reach FFRUN's bound (R31). -/
def Obligations.MessageRoundTrip : Prop :=
  ∀ (s d : State) (message : List Byte) (later : List InAnswer), CanStart s → CanStart d → s.params = d.params →
    s.regs.config = d.regs.config → message.length < 2 ^ 28 →
    ∃ t bs, runCommands (.initEnc :: (message.map fun b => .encSym b.toNat) ++ [.encEnd]) s = some t ∧ t.regs.mode = .done ∧
      t.outPort.taken = s.outPort.taken ++ bs ∧ t.regs.outCount = BitVec.ofNat 64 bs.length ∧
      (d.inPort.answers = bs.map .byte ++ later →
        ∃ u, runCommands (.initDec :: List.replicate (message.length + 1) .decSym) d = some u ∧ u.regs.mode = .done ∧
          u.regs.result = 0x100#32 ∧ u.outPort.taken = d.outPort.taken ++ message ∧ u.inPort.answers = later ∧
          u.regs.inCount = BitVec.ofNat 64 bs.length)

/-- The machine's invariant (R28, R155, R172, R200; the canonical form of the table memory) is kept by every step from every state that
has it, and such a step always gives a next state: none of the model's own stops (log entries 8 and 9) is reached. The canonical form is
the model's choice (log entry 7). -/
def Obligations.MachineInvariantKept : Prop :=
  ∀ s : State, MachineInv s → ∃ t, step s = .next t ∧ MachineInv t

/-- Every step keeps the canonical form of the table memory, from any state that has it. The form is the model's choice (log entry 7). -/
def Obligations.MemoryFormKept : Prop :=
  ∀ s t : State, MemoryInv s → step s = .next t → MemoryInv t

/-- Reset has the invariants. The canonical form of the table memory is the model's choice (log entries 6 and 7). -/
def Obligations.ResetMeetsInvariants : Prop :=
  MachineInv State.reset ∧ MemoryInv State.reset ∧
    ∀ s : State, MachineInv s → MachineInv (assertReset s) ∧ MemoryInv (assertReset s)
end

