-- ==== Sys2Proof/Laws/Memory.lean ====
section
/-! SUPPORT. The laws of the table memory (R66): a read after a write, what a write leaves alone, and the canonical form that every
write keeps. -/

namespace Sys2Proof.Machine

section Cells
variable {u : Nat → Entry} {cells : List Cell} {i j : Nat} {v : Entry}

/-- Every index a write leaves in the list was there, or is the written one. -/
theorem mem_writeCells {c : Cell} (h : c ∈ writeCells u cells i v) : c ∈ cells ∨ (c = (i, v) ∧ v ≠ u i) := by
  induction cells with
  | nil =>
    simp only [writeCells] at h
    split at h <;> simp_all
  | cons d rest ih =>
    obtain ⟨k, w⟩ := d
    simp only [writeCells] at h
    split at h
    · split at h
      · exact .inl (List.mem_cons_of_mem _ h)
      · rcases List.mem_cons.mp h with rfl | h'
        · exact .inr ⟨rfl, ‹_›⟩
        · exact .inl (List.mem_cons_of_mem _ h')
    · split at h
      · split at h
        · exact .inl h
        · rcases List.mem_cons.mp h with rfl | h'
          · exact .inr ⟨rfl, ‹_›⟩
          · exact .inl h'
      · rcases List.mem_cons.mp h with rfl | h'
        · exact .inl List.mem_cons_self
        · rcases ih h' with h'' | h''
          · exact .inl (List.mem_cons_of_mem _ h'')
          · exact .inr h''

/-- A write keeps the indexes rising. -/
theorem writeCells_rising (h : cells.Pairwise (fun a b => a.1 < b.1)) :
    (writeCells u cells i v).Pairwise (fun a b => a.1 < b.1) := by
  induction cells with
  | nil => simp only [writeCells]; split <;> simp
  | cons d rest ih =>
    obtain ⟨k, w⟩ := d
    obtain ⟨hk, hr⟩ := List.pairwise_cons.mp h
    simp only [writeCells]
    split
    · next hik =>
      subst hik
      split
      · exact hr
      · exact List.pairwise_cons.mpr ⟨hk, hr⟩
    · split
      · split
        · exact h
        · refine List.pairwise_cons.mpr ⟨fun c hc => ?_, h⟩
          rcases List.mem_cons.mp hc with rfl | hc
          · assumption
          · exact lt_trans ‹i < k› (hk c hc)
      · refine List.pairwise_cons.mpr ⟨fun c hc => ?_, ih hr⟩
        rcases mem_writeCells hc with hc | ⟨rfl, -⟩
        · exact hk c hc
        · show k < i; omega

/-- A write keeps the canonical form. -/
theorem writeCells_wf (h : CellsWf u cells) : CellsWf u (writeCells u cells i v) := by
  refine ⟨writeCells_rising h.1, fun c hc => ?_⟩
  rcases mem_writeCells hc with hc | ⟨rfl, hv⟩
  · exact h.2 c hc
  · exact hv

/-- An index below every listed one reads as an unlisted one. -/
theorem readCells_below (h : ∀ c ∈ cells, j < c.1) : readCells u cells j = u j := by
  cases cells with
  | nil => rfl
  | cons d rest =>
    obtain ⟨k, w⟩ := d
    have hj : j < k := h (k, w) List.mem_cons_self
    simp only [readCells]
    rw [if_neg (by omega), if_pos hj]

/-- A read after a write to the same index gives the value written. -/
theorem readCells_writeCells_same (h : cells.Pairwise (fun a b => a.1 < b.1)) : readCells u (writeCells u cells i v) i = v := by
  induction cells with
  | nil => simp only [writeCells]; split <;> simp_all [readCells]
  | cons d rest ih =>
    obtain ⟨k, w⟩ := d
    obtain ⟨hk, hr⟩ := List.pairwise_cons.mp h
    simp only [writeCells]
    split
    · next hik =>
      split
      · next hv => rw [hv]; exact readCells_below fun c hc => hik ▸ hk c hc
      · simp [readCells]
    · next hik =>
      split
      · next hlt =>
        split
        · next hv => simp only [readCells]; rw [if_neg hik, if_pos hlt, hv]
        · simp [readCells]
      · next hlt => simp only [readCells]; rw [if_neg hik, if_neg hlt, ih hr]

/-- A write leaves every other index alone. -/
theorem readCells_writeCells_other (h : cells.Pairwise (fun a b => a.1 < b.1)) (hij : j ≠ i) :
    readCells u (writeCells u cells i v) j = readCells u cells j := by
  induction cells with
  | nil =>
    simp only [writeCells]
    split
    · rfl
    · simp only [readCells]; split <;> simp_all
  | cons d rest ih =>
    obtain ⟨k, w⟩ := d
    obtain ⟨hk, hr⟩ := List.pairwise_cons.mp h
    simp only [writeCells]
    split
    · next hik =>
      subst hik
      split
      · simp only [readCells]
        rw [if_neg hij]
        split
        · exact readCells_below fun c hc => lt_trans ‹_› (hk c hc)
        · rfl
      · simp [readCells, hij]
    · next hik =>
      split
      · next hlt =>
        split
        · rfl
        · simp only [readCells]
          rw [if_neg hij]
          split
          · next hji => rw [if_neg (by omega), if_pos (by omega)]
          · rfl
      · simp only [readCells]
        split
        · rfl
        · split
          · rfl
          · exact ih hr

end Cells

section Tables
variable {c : Word64} {ts : Tables} {t t' : TableId} {i j : Nat} {v : Entry} {cells : List Cell}

@[simp] theorem setTableCells_fill : (setTableCells ts t cells).fill = ts.fill := by cases t <;> rfl

@[simp] theorem tableCells_set_same : tableCells (setTableCells ts t cells) t = cells := by cases t <;> rfl

theorem tableCells_set_other (h : t' ≠ t) : tableCells (setTableCells ts t cells) t' = tableCells ts t' := by
  cases t <;> cases t' <;> first | rfl | exact absurd rfl h

@[simp] theorem tablesWrite_fill : (tablesWrite c ts t i v).fill = ts.fill := setTableCells_fill

/-- The canonical form, table by table. -/
theorem Memory.wf_iff : Memory.wf c ts ↔ ∀ t, CellsWf (unlistedEntry ts.fill c t) (tableCells ts t) := by
  constructor
  · rintro ⟨h1, h2, h3, h4, h5⟩ t
    cases t <;> assumption
  · intro h
    exact ⟨h .lzpLo, h .lzpHi, h .apmLo, h .apmHi, h .lit⟩

/-- TblWrite keeps the canonical form of the table memory. -/
theorem tablesWrite_wf (h : Memory.wf c ts) : Memory.wf c (tablesWrite c ts t i v) := by
  rw [Memory.wf_iff] at h ⊢
  intro t'
  rw [tablesWrite_fill]
  by_cases ht : t' = t
  · subst ht
    simp only [tablesWrite, tableCells_set_same]
    exact writeCells_wf (h t')
  · simp only [tablesWrite, tableCells_set_other ht]
    exact h t'

/-- TblRead of the entry TblWrite wrote (R66). -/
theorem tablesRead_write_same (h : Memory.wf c ts) : tablesRead c (tablesWrite c ts t i v) t i = v := by
  simp only [tablesRead, tablesWrite_fill]
  simp only [tablesWrite, tableCells_set_same]
  exact readCells_writeCells_same ((Memory.wf_iff.mp h t).1)

/-- "TblWrite changes only the entry written" (R73). -/
theorem tablesRead_write_other (h : Memory.wf c ts) (hne : ¬(t' = t ∧ j = i)) :
    tablesRead c (tablesWrite c ts t i v) t' j = tablesRead c ts t' j := by
  simp only [tablesRead, tablesWrite_fill]
  by_cases ht : t' = t
  · subst ht
    simp only [tablesWrite, tableCells_set_same]
    exact readCells_writeCells_other ((Memory.wf_iff.mp h t').1) fun hji => hne ⟨rfl, hji⟩
  · simp only [tablesWrite, tableCells_set_other ht]

/-- A table memory that lists nothing has the canonical form. -/
theorem Memory.wf_unspecified (d : Nat) : Memory.wf c (Tables.unspecified d) := by
  simp [Memory.wf, CellsWf, Tables.unspecified]

end Tables

end Sys2Proof.Machine
end

