-- ==== Sys2Proof/Laws/State.lean ====
section
/-! SUPPORT. One lemma per field per named update of the state, each true by computation. -/

namespace Sys2Proof.Machine

/-! ### takeCommand -/

@[simp] theorem takeCommand_regs (s : State) : (takeCommand s).regs = { s.regs with busy := true } := rfl
@[simp] theorem takeCommand_tables (s : State) : (takeCommand s).tables = s.tables := rfl
@[simp] theorem takeCommand_params (s : State) : (takeCommand s).params = s.params := rfl
@[simp] theorem takeCommand_cmdFifo (s : State) : (takeCommand s).cmdFifo = s.cmdFifo := rfl
@[simp] theorem takeCommand_inPort (s : State) : (takeCommand s).inPort = { s.inPort with used := [] } := rfl
@[simp] theorem takeCommand_outPort (s : State) : (takeCommand s).outPort = { s.outPort with used := [] } := rfl
@[simp] theorem takeCommand_stall (s : State) : (takeCommand s).stall = none := rfl
@[simp] theorem takeCommand_draws (s : State) : (takeCommand s).draws = s.draws := rfl

/-! ### endCommand -/

@[simp] theorem endCommand_regs (s : State) : (endCommand s).regs = { s.regs with busy := false } := rfl
@[simp] theorem endCommand_tables (s : State) : (endCommand s).tables = s.tables := rfl
@[simp] theorem endCommand_params (s : State) : (endCommand s).params = s.params := rfl
@[simp] theorem endCommand_cmdFifo (s : State) : (endCommand s).cmdFifo = s.cmdFifo := rfl
@[simp] theorem endCommand_inPort (s : State) : (endCommand s).inPort = { s.inPort with used := [] } := rfl
@[simp] theorem endCommand_outPort (s : State) : (endCommand s).outPort = { s.outPort with used := [] } := rfl
@[simp] theorem endCommand_stall (s : State) : (endCommand s).stall = none := rfl
@[simp] theorem endCommand_draws (s : State) : (endCommand s).draws = s.draws := rfl

/-! ### retire -/

@[simp] theorem retire_regs (s : State) :
    (retire s).regs =
      { s.regs with cmdCount := s.regs.cmdCount + 1#64, busy := false } := rfl
@[simp] theorem retire_tables (s : State) : (retire s).tables = s.tables := rfl
@[simp] theorem retire_params (s : State) : (retire s).params = s.params := rfl
@[simp] theorem retire_cmdFifo (s : State) : (retire s).cmdFifo = s.cmdFifo := rfl
@[simp] theorem retire_inPort (s : State) : (retire s).inPort = { s.inPort with used := [] } := rfl
@[simp] theorem retire_outPort (s : State) : (retire s).outPort = { s.outPort with used := [] } := rfl
@[simp] theorem retire_stall (s : State) : (retire s).stall = none := rfl
@[simp] theorem retire_draws (s : State) : (retire s).draws = s.draws := rfl

/-! ### faultEntry -/

@[simp] theorem faultEntry_regs (cause : Cause) (word : Word64) (s : State) :
    (faultEntry cause word s).regs =
      { s.regs with
        faultCause := causeCode cause, faultCmd := s.regs.cmdCount, faultWord := word, mode := .faulted,
        irqPend := s.regs.irqPend ||| 1#2, busy := false } := rfl
@[simp] theorem faultEntry_tables (cause : Cause) (word : Word64) (s : State) : (faultEntry cause word s).tables = s.tables := rfl
@[simp] theorem faultEntry_params (cause : Cause) (word : Word64) (s : State) : (faultEntry cause word s).params = s.params := rfl
@[simp] theorem faultEntry_cmdFifo (cause : Cause) (word : Word64) (s : State) :
    (faultEntry cause word s).cmdFifo =
      s.cmdFifo := rfl
@[simp] theorem faultEntry_inPort (cause : Cause) (word : Word64) (s : State) :
    (faultEntry cause word s).inPort =
      { s.inPort with used := [] } := rfl
@[simp] theorem faultEntry_outPort (cause : Cause) (word : Word64) (s : State) :
    (faultEntry cause word s).outPort =
      { s.outPort with used := [] } := rfl
@[simp] theorem faultEntry_stall (cause : Cause) (word : Word64) (s : State) : (faultEntry cause word s).stall = none := rfl
@[simp] theorem faultEntry_draws (cause : Cause) (word : Word64) (s : State) : (faultEntry cause word s).draws = s.draws := rfl

/-! ### undefineAfterFault -/

@[simp] theorem undefineAfterFault_regs (s : State) : (undefineAfterFault s).regs = anyRegs s.draws s.regs := rfl
@[simp] theorem undefineAfterFault_tables (s : State) : (undefineAfterFault s).tables = Tables.unspecified s.draws := rfl
@[simp] theorem undefineAfterFault_params (s : State) : (undefineAfterFault s).params = s.params := rfl
@[simp] theorem undefineAfterFault_cmdFifo (s : State) : (undefineAfterFault s).cmdFifo = s.cmdFifo := rfl
@[simp] theorem undefineAfterFault_inPort (s : State) : (undefineAfterFault s).inPort = s.inPort := rfl
@[simp] theorem undefineAfterFault_outPort (s : State) : (undefineAfterFault s).outPort = s.outPort := rfl
@[simp] theorem undefineAfterFault_stall (s : State) : (undefineAfterFault s).stall = s.stall := rfl
@[simp] theorem undefineAfterFault_draws (s : State) : (undefineAfterFault s).draws = s.draws + 1 := rfl

/-! ### waitOnPort -/

@[simp] theorem waitOnPort_regs (i : Instr) (start s : State) : (waitOnPort i start s).regs = s.regs := rfl
@[simp] theorem waitOnPort_tables (i : Instr) (start s : State) : (waitOnPort i start s).tables = s.tables := rfl
@[simp] theorem waitOnPort_params (i : Instr) (start s : State) : (waitOnPort i start s).params = s.params := rfl
@[simp] theorem waitOnPort_cmdFifo (i : Instr) (start s : State) : (waitOnPort i start s).cmdFifo = s.cmdFifo := rfl
@[simp] theorem waitOnPort_inPort (i : Instr) (start s : State) : (waitOnPort i start s).inPort = s.inPort := rfl
@[simp] theorem waitOnPort_outPort (i : Instr) (start s : State) : (waitOnPort i start s).outPort = s.outPort := rfl
@[simp] theorem waitOnPort_stall (i : Instr) (start s : State) :
    (waitOnPort i start s).stall =
      some
      { word := encode i, regs := start.regs, tables := start.tables, inEnded := start.inPort.ended,
        outTaken := start.outPort.taken } := rfl
@[simp] theorem waitOnPort_draws (i : Instr) (start s : State) : (waitOnPort i start s).draws = s.draws := rfl

/-! ### resumeStalled -/

@[simp] theorem resumeStalled_regs (st : Stall) (s : State) : (resumeStalled st s).regs = st.regs := rfl
@[simp] theorem resumeStalled_tables (st : Stall) (s : State) : (resumeStalled st s).tables = st.tables := rfl
@[simp] theorem resumeStalled_params (st : Stall) (s : State) : (resumeStalled st s).params = s.params := rfl
@[simp] theorem resumeStalled_cmdFifo (st : Stall) (s : State) : (resumeStalled st s).cmdFifo = s.cmdFifo := rfl
@[simp] theorem resumeStalled_inPort (st : Stall) (s : State) :
    (resumeStalled st s).inPort =
      { s.inPort with answers := s.inPort.used ++ s.inPort.answers, ended := st.inEnded, used := [] } := rfl
@[simp] theorem resumeStalled_outPort (st : Stall) (s : State) :
    (resumeStalled st s).outPort =
      { s.outPort with answers := s.outPort.used ++ s.outPort.answers, used := [], taken := st.outTaken } := rfl
@[simp] theorem resumeStalled_stall (st : Stall) (s : State) : (resumeStalled st s).stall = none := rfl
@[simp] theorem resumeStalled_draws (st : Stall) (s : State) : (resumeStalled st s).draws = s.draws := rfl

/-! ### placeCommand -/

@[simp] theorem placeCommand_regs (w : Word64) (s : State) : (placeCommand w s).regs = s.regs := rfl
@[simp] theorem placeCommand_tables (w : Word64) (s : State) : (placeCommand w s).tables = s.tables := rfl
@[simp] theorem placeCommand_params (w : Word64) (s : State) : (placeCommand w s).params = s.params := rfl
@[simp] theorem placeCommand_cmdFifo (w : Word64) (s : State) : (placeCommand w s).cmdFifo = w :: s.cmdFifo.tail := rfl
@[simp] theorem placeCommand_inPort (w : Word64) (s : State) : (placeCommand w s).inPort = s.inPort := rfl
@[simp] theorem placeCommand_outPort (w : Word64) (s : State) : (placeCommand w s).outPort = s.outPort := rfl
@[simp] theorem placeCommand_stall (w : Word64) (s : State) : (placeCommand w s).stall = none := rfl
@[simp] theorem placeCommand_draws (w : Word64) (s : State) : (placeCommand w s).draws = s.draws := rfl

/-! ### assertReset -/

@[simp] theorem assertReset_regs (s : State) : (assertReset s).regs = Regs.reset := rfl
@[simp] theorem assertReset_tables (s : State) : (assertReset s).tables = Tables.unspecified s.draws := rfl
@[simp] theorem assertReset_params (s : State) : (assertReset s).params = s.params := rfl
@[simp] theorem assertReset_cmdFifo (s : State) : (assertReset s).cmdFifo = [] := rfl
@[simp] theorem assertReset_inPort (s : State) : (assertReset s).inPort = { s.inPort with used := [] } := rfl
@[simp] theorem assertReset_outPort (s : State) : (assertReset s).outPort = { s.outPort with used := [] } := rfl
@[simp] theorem assertReset_stall (s : State) : (assertReset s).stall = none := rfl
@[simp] theorem assertReset_draws (s : State) : (assertReset s).draws = s.draws + 1 := rfl

/-! ### giveInput -/

@[simp] theorem giveInput_regs (answers : List InAnswer) (s : State) : (giveInput answers s).regs = s.regs := rfl
@[simp] theorem giveInput_tables (answers : List InAnswer) (s : State) : (giveInput answers s).tables = s.tables := rfl
@[simp] theorem giveInput_params (answers : List InAnswer) (s : State) : (giveInput answers s).params = s.params := rfl
@[simp] theorem giveInput_cmdFifo (answers : List InAnswer) (s : State) : (giveInput answers s).cmdFifo = s.cmdFifo := rfl
@[simp] theorem giveInput_inPort (answers : List InAnswer) (s : State) :
    (giveInput answers s).inPort =
      { s.inPort with answers := s.inPort.answers ++ answers } := rfl
@[simp] theorem giveInput_outPort (answers : List InAnswer) (s : State) : (giveInput answers s).outPort = s.outPort := rfl
@[simp] theorem giveInput_stall (answers : List InAnswer) (s : State) : (giveInput answers s).stall = s.stall := rfl
@[simp] theorem giveInput_draws (answers : List InAnswer) (s : State) : (giveInput answers s).draws = s.draws := rfl

/-! ### giveOutput -/

@[simp] theorem giveOutput_regs (answers : List OutAnswer) (s : State) : (giveOutput answers s).regs = s.regs := rfl
@[simp] theorem giveOutput_tables (answers : List OutAnswer) (s : State) : (giveOutput answers s).tables = s.tables := rfl
@[simp] theorem giveOutput_params (answers : List OutAnswer) (s : State) : (giveOutput answers s).params = s.params := rfl
@[simp] theorem giveOutput_cmdFifo (answers : List OutAnswer) (s : State) : (giveOutput answers s).cmdFifo = s.cmdFifo := rfl
@[simp] theorem giveOutput_inPort (answers : List OutAnswer) (s : State) : (giveOutput answers s).inPort = s.inPort := rfl
@[simp] theorem giveOutput_outPort (answers : List OutAnswer) (s : State) :
    (giveOutput answers s).outPort =
      { s.outPort with answers := s.outPort.answers ++ answers } := rfl
@[simp] theorem giveOutput_stall (answers : List OutAnswer) (s : State) : (giveOutput answers s).stall = s.stall := rfl
@[simp] theorem giveOutput_draws (answers : List OutAnswer) (s : State) : (giveOutput answers s).draws = s.draws := rfl

end Sys2Proof.Machine
end

