-- ==== Sys2Proof/Laws/Ops.lean ====
section
/-! SUPPORT. How a piece of a command's rule ends, said once for each primitive of Machine/Ops.lean. `Ends x s Q E` says: run from `s`,
`x` ends with an answer and a state that meet `Q`, or it ends the command with a reason and a state that meet `E`. -/

namespace Sys2Proof.Machine

/-- How `x` ends from `s`. -/
def Ends {α : Type} (x : Cmd α) (s : State) (Q : α → State → Prop) (E : Abort → State → Prop) : Prop :=
  match x s with
  | .ok a t => Q a t
  | .error e t => E e t

section Combinators
variable {α β : Type} {s : State} {Q Q' : α → State → Prop} {R : β → State → Prop} {E E' : Abort → State → Prop} {x : Cmd α}
  {f : α → Cmd β}

theorem ends_of_ok {a : α} {t : State} (h : x s = .ok a t) (hq : Q a t) : Ends x s Q E := by
  simp only [Ends, h]
  exact hq

theorem Ends.of_ok {a : α} {t : State} (h : Ends x s Q E) (hx : x s = .ok a t) : Q a t := by
  simpa only [Ends, hx] using h

theorem Ends.of_error {e : Abort} {t : State} (h : Ends x s Q E) (hx : x s = .error e t) : E e t := by
  simpa only [Ends, hx] using h

theorem Ends.mono (h : Ends x s Q E) (hq : ∀ a t, Q a t → Q' a t) (he : ∀ e t, E e t → E' e t) : Ends x s Q' E' := by
  unfold Ends at *
  split
  · next heq => rw [heq] at h; exact hq _ _ h
  · next heq => rw [heq] at h; exact he _ _ h

/-- A piece that can end no other way answers. -/
theorem Ends.completes (h : Ends x s Q E) (hn : ∀ e t, x s = .error e t → ¬E e t) : ∃ a t, x s = .ok a t ∧ Q a t := by
  unfold Ends at h
  split at h
  · next heq => exact ⟨_, _, heq, h⟩
  · next heq => exact absurd h (hn _ _ heq)

/-- Two things known of how one piece ends. -/
theorem Ends.and (h : Ends x s Q E) (h' : Ends x s Q' E') :
    Ends x s (fun a t => Q a t ∧ Q' a t) (fun e t => E e t ∧ E' e t) := by
  unfold Ends at *
  split
  · next heq => rw [heq] at h h'; exact ⟨h, h'⟩
  · next heq => rw [heq] at h h'; exact ⟨h, h'⟩

/-- One piece after another. -/
theorem Ends.bind (h : Ends x s Q E) (hf : ∀ a t, Q a t → Ends (f a) t R E) : Ends (x >>= f) s R E := by
  unfold Ends at h ⊢
  show match (EStateM.bind x f) s with | .ok a t => R a t | .error e t => E e t
  unfold EStateM.bind
  split at h
  · next heq => rw [heq]; exact hf _ _ h
  · next heq => rw [heq]; exact h

theorem bind_of_ok {a : α} {t : State} (h : x s = .ok a t) : (x >>= f) s = f a t := by
  show EStateM.bind x f s = _
  simp only [EStateM.bind, h]

theorem bind_of_error {e : Abort} {t : State} (h : x s = .error e t) : (x >>= f) s = .error e t := by
  show EStateM.bind x f s = _
  simp only [EStateM.bind, h]

theorem bind_eq_ok {b : β} {t : State} : (x >>= f) s = .ok b t ↔ ∃ a u, x s = .ok a u ∧ f a u = .ok b t := by
  show EStateM.bind x f s = _ ↔ _
  unfold EStateM.bind
  split
  · next heq => simp [heq]
  · next heq => simp [heq]

theorem bind_eq_error {e : Abort} {t : State} :
    (x >>= f) s = .error e t ↔ x s = .error e t ∨ ∃ a u, x s = .ok a u ∧ f a u = .error e t := by
  show EStateM.bind x f s = _ ↔ _
  unfold EStateM.bind
  split
  · next heq => simp [heq]
  · next heq => simp [heq]

@[simp] theorem pure_run (a : α) (s : State) : (pure a : Cmd α) s = .ok a s := rfl
@[simp] theorem get_run (s : State) : (get : Cmd State) s = .ok s s := rfl
@[simp] theorem getRegs_run (s : State) : getRegs s = .ok s.regs s := rfl
@[simp] theorem modifyRegs_run (g : Regs → Regs) (s : State) : modifyRegs g s = .ok () { s with regs := g s.regs } := rfl
@[simp] theorem raiseFault_run (c : Cause) (s : State) : (raiseFault c : Cmd α) s = .error (.raise c) s := rfl
@[simp] theorem stopFault_run (g : Fault) (s : State) : (stopFault g : Cmd α) s = .error (.stop g) s := rfl
@[simp] theorem setResult_run (v : Nat) (s : State) :
    setResult v s = .ok () { s with regs := { s.regs with result := BitVec.ofNat 32 v } } := rfl
@[simp] theorem enterDone_run (s : State) :
    enterDone s = .ok () { s with regs := { s.regs with mode := .done, irqPend := s.regs.irqPend ||| 2#2 } } := rfl
@[simp] theorem countInput_run (s : State) :
    countInput s = .ok () { s with regs := { s.regs with inCount := s.regs.inCount + 1#64 } } := rfl
@[simp] theorem writeTable_run (t : TableId) (i : Nat) (v : Entry) (s : State) :
    writeTable t i v s = .ok () { s with tables := tablesWrite s.regs.scfg s.tables t i v } := rfl

theorem ends_pure {a : α} (h : Q a s) : Ends (pure a : Cmd α) s Q E := h
theorem ends_get {Q : State → State → Prop} (h : Q s s) : Ends get s Q E := h
theorem ends_getRegs {Q : Regs → State → Prop} (h : Q s.regs s) : Ends getRegs s Q E := h
theorem ends_modifyRegs {Q : Unit → State → Prop} {g : Regs → Regs} (h : Q () { s with regs := g s.regs }) :
    Ends (modifyRegs g) s Q E := h
theorem ends_raise {c : Cause} (h : E (.raise c) s) : Ends (raiseFault c : Cmd α) s Q E := h
theorem ends_stop {g : Fault} (h : E (.stop g) s) : Ends (stopFault g : Cmd α) s Q E := h

theorem ends_whenTrue {c : Bool} {x : Cmd Unit} {Q : Unit → State → Prop} (ht : c = true → Ends x s Q E)
    (hf : c = false → Q () s) : Ends (whenTrue c x) s Q E := by
  cases c with
  | true => exact ht rfl
  | false => exact hf rfl

theorem ends_checkedSub {Q : Nat → State → Prop} {a b : Nat} (h : b ≤ a) (hq : Q (a - b) s) : Ends (checkedSub a b) s Q E := by
  simp only [Ends, checkedSub, if_pos h]
  exact hq

theorem ends_checkedDiv {Q : Nat → State → Prop} {a b : Nat} (h : b ≠ 0) (hq : Q (a / b) s) : Ends (checkedDiv a b) s Q E := by
  simp only [Ends, checkedDiv, if_neg h]
  exact hq

theorem ends_checkedFit {w v : Nat} {Q : BitVec w → State → Prop} (h : v < 2 ^ w) (hq : Q (BitVec.ofNat w v) s) :
    Ends (checkedFit w v) s Q E := by
  simp only [Ends, checkedFit, if_pos h]
  exact hq

theorem checkedSub_of_le {a b : Nat} (h : b ≤ a) (s : State) : checkedSub a b s = .ok (a - b) s := if_pos h
theorem checkedDiv_of_ne {a b : Nat} (h : b ≠ 0) (s : State) : checkedDiv a b s = .ok (a / b) s := if_neg h
theorem checkedFit_of_lt {w v : Nat} (h : v < 2 ^ w) (s : State) : checkedFit w v s = .ok (BitVec.ofNat w v) s := if_pos h

/-- If checkedSub answers, the difference was not negative, and nothing changed. -/
theorem checkedSub_ok {a b d : Nat} {t : State} (h : checkedSub a b s = .ok d t) : b ≤ a ∧ d = a - b ∧ t = s := by
  unfold checkedSub at h
  split at h
  · cases h; exact ⟨‹_›, rfl, rfl⟩
  · cases h

theorem checkedDiv_ok {a b d : Nat} {t : State} (h : checkedDiv a b s = .ok d t) : b ≠ 0 ∧ d = a / b ∧ t = s := by
  unfold checkedDiv at h
  split at h
  · cases h
  · cases h; exact ⟨‹_›, rfl, rfl⟩

theorem checkedFit_ok {w v : Nat} {d : BitVec w} {t : State} (h : checkedFit w v s = .ok d t) :
    v < 2 ^ w ∧ d = BitVec.ofNat w v ∧ t = s := by
  unfold checkedFit at h
  split at h
  · cases h; exact ⟨‹_›, rfl, rfl⟩
  · cases h

end Combinators

/-! ### The ports -/

/-- What the input port can answer (R79): after the end mark, the end mark again, nothing used up; else the next answer, which is
noted, and which may be the end mark. -/
theorem nextInAnswer_cases {p q : InPort} {a : InAnswer} (h : nextInAnswer p = some (a, q)) :
    (p.ended = true ∧ a = .endMark ∧ q = p) ∨
      (p.ended = false ∧ q.used = p.used ++ [a] ∧ q.rest = p.rest ∧ q.ended = (a == .endMark) ∧
        (p.answers = a :: q.answers ∨ (p.answers = [] ∧ q.answers = [] ∧ p.rest = some a))) := by
  unfold nextInAnswer at h
  split at h
  · cases h; exact .inl ⟨‹_›, rfl, rfl⟩
  · next he =>
    refine .inr ⟨by simpa using he, ?_⟩
    split at h
    · next heq => cases h; exact ⟨rfl, rfl, rfl, .inl heq⟩
    · next heq =>
      split at h
      · next hr => cases h; exact ⟨rfl, rfl, rfl, .inr ⟨heq, heq, hr⟩⟩
      · cases h

/-- What the output port can answer (R80). -/
theorem nextOutAnswer_cases {p q : OutPort} {a : OutAnswer} (h : nextOutAnswer p = some (a, q)) :
    q.used = p.used ++ [a] ∧ q.rest = p.rest ∧ q.taken = p.taken ∧
      (p.answers = a :: q.answers ∨ (p.answers = [] ∧ q.answers = [] ∧ p.rest = some a)) := by
  unfold nextOutAnswer at h
  split at h
  · next heq => cases h; exact ⟨rfl, rfl, rfl, .inl heq⟩
  · next heq =>
    split at h
    · next hr => cases h; exact ⟨rfl, rfl, rfl, .inr ⟨heq, heq, hr⟩⟩
    · cases h

/-- How askInput ends: with the port's next answer, or waiting, nothing changed. -/
theorem ends_askInput {s : State} {Q : InAnswer → State → Prop} {E : Abort → State → Prop}
    (hq : ∀ a p, nextInAnswer s.inPort = some (a, p) → Q a { s with inPort := p })
    (hw : nextInAnswer s.inPort = none → E .wait s) : Ends askInput s Q E := by
  unfold Ends askInput
  split
  · next heq =>
    split at heq
    · cases heq
    · next hn => cases heq; exact hq _ _ hn
  · next heq =>
    split at heq
    · next hn => cases heq; exact hw hn
    · cases heq

/-- How InRead ends (R79): a byte, which is counted; or UNEXPECTED_END_OF_INPUT; or IO_FAILURE; or a wait. -/
theorem ends_inRead {s : State} {Q : Byte → State → Prop} {E : Abort → State → Prop}
    (hq : ∀ b p, nextInAnswer s.inPort = some (.byte b, p) →
      Q b { s with inPort := p, regs := { s.regs with inCount := s.regs.inCount + 1#64 } })
    (hend : ∀ p, nextInAnswer s.inPort = some (.endMark, p) → E (.raise .unexpectedEndOfInput) { s with inPort := p })
    (herr : ∀ p, nextInAnswer s.inPort = some (.error, p) → E (.raise .ioFailure) { s with inPort := p })
    (hw : nextInAnswer s.inPort = none → E .wait s) : Ends inRead s Q E := by
  unfold inRead
  refine Ends.bind (Q := fun a t => ∃ p, nextInAnswer s.inPort = some (a, p) ∧ t = { s with inPort := p })
    (ends_askInput (fun a p h => ⟨p, h, rfl⟩) hw) ?_
  rintro a t ⟨p, hp, rfl⟩
  cases a with
  | byte b => exact hq b p hp
  | endMark => exact hend p hp
  | error => exact herr p hp

/-- How OutWrite ends (R80): the byte is taken and counted; or IO_FAILURE; or a wait. -/
theorem ends_outWrite {s : State} {b : Byte} {Q : Unit → State → Prop} {E : Abort → State → Prop}
    (hq : ∀ p, nextOutAnswer s.outPort = some (.accept, p) →
      Q () { s with outPort := { p with taken := p.taken ++ [b] }, regs := { s.regs with outCount := s.regs.outCount + 1#64 } })
    (herr : ∀ p, nextOutAnswer s.outPort = some (.error, p) → E (.raise .ioFailure) { s with outPort := p })
    (hw : nextOutAnswer s.outPort = none → E .wait s) : Ends (outWrite b) s Q E := by
  unfold Ends outWrite
  split
  · next heq =>
    split at heq
    · cases heq
    · next hn => cases heq; exact hq _ hn
    · cases heq
  · next heq =>
    split at heq
    · next hn => cases heq; exact hw hn
    · cases heq
    · next hn => cases heq; exact herr _ hn

/-! ### The envelope (R110) -/

/-- What executing a command can do (R110): it is discarded; it takes BAD_STATE or OPERAND_RANGE before its rule; or its rule is run,
and ends as `concludeCommand` says. -/
theorem executeCommand_cases {i : Instr} {rule : Cmd Unit} {s : State} {o : Host.Outcome State Fault Refusal}
    (h : executeCommand i rule s = o) :
    (s.regs.mode = .faulted ∧ runsWhenFaulted i = false ∧ o = .next (endCommand s)) ∨
      (legal i s.regs.mode s.regs.dir = false ∧ o = .next (faultEntry .badState (encode i) s)) ∨
      (legal i s.regs.mode s.regs.dir = true ∧ operandsInRange i = false ∧
        o = .next (faultEntry .operandRange (encode i) s)) ∨
      (legal i s.regs.mode s.regs.dir = true ∧ operandsInRange i = true ∧ ¬(s.regs.mode = .faulted ∧ runsWhenFaulted i = false) ∧
        o = concludeCommand i s (rule (takeCommand s))) := by
  subst h
  unfold executeCommand
  split
  · next h => exact .inl ⟨h.1, h.2, rfl⟩
  · next h =>
    split
    · next h' => exact .inr (.inl ⟨h', rfl⟩)
    · next h' =>
      split
      · next h'' => exact .inr (.inr (.inl ⟨by simpa using h', h'', rfl⟩))
      · next h'' => exact .inr (.inr (.inr ⟨by simpa using h', by simpa using h'', h, rfl⟩))

/-- A command that may run, run (R110). -/
theorem executeCommand_runs {i : Instr} {rule : Cmd Unit} {s : State} (hf : s.regs.mode ≠ .faulted ∨ runsWhenFaulted i = true)
    (hl : legal i s.regs.mode s.regs.dir = true) (ho : operandsInRange i = true) :
    executeCommand i rule s = concludeCommand i s (rule (takeCommand s)) := by
  unfold executeCommand
  rw [if_neg (by rcases hf with h | h <;> simp [h]), if_neg (by simp [hl]), if_neg (by simp [ho])]

/-- What the block executes next (R72, R299): the waiting command, or the oldest word of the FIFO, or nothing. -/
theorem fetchCommand_cases {s : State} {o : Option (Word64 × State)} (h : fetchCommand s = o) :
    (∃ st, s.stall = some st ∧ o = some (st.word, resumeStalled st s)) ∨
      (s.stall = none ∧ s.cmdFifo = [] ∧ o = none) ∨
      (∃ w later, s.stall = none ∧ s.cmdFifo = w :: later ∧ o = some (w, { s with cmdFifo := later })) := by
  subst h
  unfold fetchCommand
  split
  · next h => exact .inl ⟨_, h, rfl⟩
  · next h =>
    split
    · next h' => exact .inr (.inl ⟨h, h', rfl⟩)
    · next h' => exact .inr (.inr ⟨_, _, h, h', rfl⟩)

end Sys2Proof.Machine
end

