-- ==== Sys2Proof/Laws/Coder.lean ====
section
/-! SUPPORT. What each procedure of the range coder can do (R201 to R214), said once: how it ends, from which state, with what left as
it was. -/

namespace Sys2Proof.Machine

/-! ### Strings of bytes as numbers -/

theorem bytesValue_foldl (bs : List Byte) (v : Nat) :
    bs.foldl (fun v b => v * 256 + b.toNat) v = v * 256 ^ bs.length + bytesValue bs := by
  induction bs generalizing v with
  | nil => simp [bytesValue]
  | cons b bs ih =>
    simp only [bytesValue, List.foldl_cons, List.length_cons]
    rw [ih, ih (0 * 256 + b.toNat)]
    ring

theorem bytesValue_append (as bs : List Byte) : bytesValue (as ++ bs) = bytesValue as * 256 ^ bs.length + bytesValue bs := by
  rw [bytesValue, List.foldl_append, bytesValue_foldl]
  rfl

@[simp] theorem bytesValue_nil : bytesValue [] = 0 := rfl

@[simp] theorem bytesValue_singleton (b : Byte) : bytesValue [b] = b.toNat := by simp [bytesValue]

/-- A run of 0xFF is one less than a run of 0x00 with a 1 above it. -/
theorem bytesValue_run (n : Nat) : bytesValue (List.replicate n 0xFF#8) + 1 = 256 ^ n + bytesValue (List.replicate n 0x00#8) := by
  induction n with
  | zero => simp
  | succ n ih =>
    simp only [List.replicate_succ']
    simp only [bytesValue_append, bytesValue_singleton, List.length_singleton]
    simp only [show (0xFF#8 : Byte).toNat = 255 from rfl, show (0x00#8 : Byte).toNat = 0 from rfl]
    rw [pow_succ]
    omega

/-! ### The output port -/

theorem acceptsAll.at {p : OutPort} (h : acceptsAll p) (k : Nat) : outAnswerAt p k = some .accept := by
  unfold outAnswerAt
  split
  · next a ha => rw [h.1 a (List.mem_of_getElem? ha)]
  · exact h.2

theorem acceptsAll.first {p : OutPort} (h : acceptsAll p) (n : Nat) : acceptsFirst p n := fun m _ => h.at m

theorem acceptsFirst.mono {p : OutPort} {m n : Nat} (h : acceptsFirst p n) (hm : m ≤ n) : acceptsFirst p m :=
  fun k hk => h k (lt_of_lt_of_le hk hm)

/-- The port's next answer, and its answers after that one. -/
theorem outAnswerAt_next {p q : OutPort} {a : OutAnswer} (h : nextOutAnswer p = some (a, q)) :
    outAnswerAt p 0 = some a ∧ ∀ k, outAnswerAt q k = outAnswerAt p (k + 1) := by
  obtain ⟨-, hr, -, ha | ⟨h1, h2, h3⟩⟩ := nextOutAnswer_cases h
  · exact ⟨by simp [outAnswerAt, ha], fun k => by simp [outAnswerAt, ha, hr]⟩
  · exact ⟨by simp [outAnswerAt, h1, h3], fun k => by simp [outAnswerAt, h1, h2, hr]⟩

/-- A port without a next answer. -/
theorem outAnswerAt_none {p : OutPort} (h : nextOutAnswer p = none) : outAnswerAt p 0 = none := by
  unfold nextOutAnswer at h
  split at h
  · cases h
  · next ha =>
    split at h
    · cases h
    · next hr => simp [outAnswerAt, ha, hr]

/-- What a string of bytes written to the output port leaves: nothing but the port and its count changed; each byte was accepted. -/
structure Wrote (s t : State) (bs : List Byte) : Prop where
  state : t = { s with outPort := t.outPort, regs := { s.regs with outCount := s.regs.outCount + BitVec.ofNat 64 bs.length } }
  taken : t.outPort.taken = s.outPort.taken ++ bs
  accepts : acceptsAll s.outPort → acceptsAll t.outPort
  accepted : acceptsFirst s.outPort bs.length
  later : ∀ k, outAnswerAt t.outPort k = outAnswerAt s.outPort (bs.length + k)

theorem Wrote.refl (s : State) : Wrote s s [] := ⟨by simp, by simp, id, fun _ h => absurd h (Nat.not_lt_zero _), by simp⟩

/-- The answers to a string of bytes, then to another. -/
theorem acceptsFirst.append {p q : OutPort} {m n : Nat} (h : acceptsFirst p m) (hq : ∀ k, outAnswerAt q k = outAnswerAt p (m + k))
    (h' : acceptsFirst q n) : acceptsFirst p (m + n) := fun k hk => by
  by_cases hkm : k < m
  · exact h k hkm
  · have := h' (k - m) (by omega)
    rw [hq] at this
    rwa [show m + (k - m) = k by omega] at this

theorem Wrote.trans {s t u : State} {as bs : List Byte} (h : Wrote s t as) (h' : Wrote t u bs) : Wrote s u (as ++ bs) := by
  refine ⟨?_, ?_, h'.accepts ∘ h.accepts, ?_, fun k => ?_⟩
  · have h1 := h.state
    have h2 := h'.state
    rw [h1] at h2
    rw [h2]
    simp [BitVec.add_assoc, BitVec.ofNat_add]
  · rw [h'.taken, h.taken, List.append_assoc]
  · rw [List.length_append]; exact h.accepted.append h.later h'.accepted
  · rw [h'.later, h.later, List.length_append, Nat.add_assoc]

theorem Wrote.erased {s t : State} {bs : List Byte} (h : Wrote s t bs) : encoderErased t = encoderErased s := by
  rw [h.state]
  rfl

/-- How a string of bytes that cannot be written ends: at a byte that the port refuses, or has no answer for, those before it gone. -/
def WriteFails (s : State) (bs : List Byte) (e : Abort) (t : State) : Prop :=
  encoderErased t = encoderErased s ∧
    ∃ n < bs.length, acceptsFirst s.outPort n ∧ t.outPort.taken = s.outPort.taken ++ bs.take n ∧
      (e = .wait ∧ outAnswerAt s.outPort n = none ∨ e = .raise .ioFailure ∧ outAnswerAt s.outPort n = some .error)

theorem WriteFails.after {s t u : State} {as bs : List Byte} {e : Abort} (h : Wrote s t as) (h' : WriteFails t bs e u) :
    WriteFails s (as ++ bs) e u := by
  obtain ⟨he, n, hn, ha, ht, hc⟩ := h'
  refine ⟨he.trans h.erased, as.length + n, by rw [List.length_append]; omega, h.accepted.append h.later ha, ?_, ?_⟩
  · rw [ht, h.taken, List.append_assoc, List.take_append]
    simp
  · rw [h.later] at hc
    exact hc

theorem WriteFails.append {s t : State} {as : List Byte} {e : Abort} (h : WriteFails s as e t) (bs : List Byte) :
    WriteFails s (as ++ bs) e t := by
  obtain ⟨he, n, hn, ha, ht, hc⟩ := h
  exact ⟨he, n, by rw [List.length_append]; omega, ha, by rw [ht, List.take_append_of_le_length hn.le], hc⟩

/-- It does so only where the port does not accept everything. -/
theorem WriteFails.refused {s t : State} {bs : List Byte} {e : Abort} (h : WriteFails s bs e t) :
    (e = .wait ∨ e = .raise .ioFailure) ∧ ¬acceptsAll s.outPort := by
  obtain ⟨-, n, -, -, -, ⟨he, ha⟩ | ⟨he, ha⟩⟩ := h
  · exact ⟨.inl he, fun hacc => by rw [hacc.at] at ha; cases ha⟩
  · exact ⟨.inr he, fun hacc => by rw [hacc.at] at ha; cases ha⟩

/-- OutWrite takes the byte and counts it; or ends as the port makes it. -/
theorem outWrite_wrote (b : Byte) (s : State) : Ends (outWrite b) s (fun _ t => Wrote s t [b]) (WriteFails s [b]) := by
  refine ends_outWrite (fun p h => ?_) (fun p h => ?_) (fun h => ?_)
  · obtain ⟨-, hr, ht, ha⟩ := nextOutAnswer_cases h
    obtain ⟨h0, hk⟩ := outAnswerAt_next h
    refine ⟨rfl, by rw [← ht], fun hacc => ⟨fun a hm => ?_, by simpa [hr] using hacc.2⟩, fun m hm => ?_, fun k => ?_⟩
    · rcases ha with ha | ⟨-, ha, -⟩
      · exact hacc.1 a (by rw [ha]; exact List.mem_cons_of_mem _ hm)
      · simp [ha] at hm
    · obtain rfl : m = 0 := by simpa using hm
      exact h0
    · rw [List.length_singleton, Nat.add_comm]
      exact hk k
  · obtain ⟨-, -, ht, -⟩ := nextOutAnswer_cases h
    exact ⟨rfl, 0, by simp, fun _ h => absurd h (Nat.not_lt_zero _), by simp [ht], .inr ⟨rfl, (outAnswerAt_next h).1⟩⟩
  · exact ⟨rfl, 0, by simp, fun _ h => absurd h (Nat.not_lt_zero _), by simp, .inl ⟨rfl, outAnswerAt_none h⟩⟩

theorem outWriteRun_wrote (b : Byte) (n : Nat) (s : State) :
    Ends (outWriteRun b n) s (fun _ t => Wrote s t (List.replicate n b)) (WriteFails s (List.replicate n b)) := by
  induction n generalizing s with
  | zero => exact ends_pure (Wrote.refl s)
  | succ n ih =>
    unfold outWriteRun
    rw [List.replicate_succ, ← List.singleton_append]
    exact Ends.bind ((outWrite_wrote b s).mono (fun _ _ h => h) fun _ _ h => h.append _) fun _ t ht =>
      (ih t).mono (fun _ u hu => ht.trans hu) fun e u h => h.after ht

theorem Wrote.sent {s t : State} {bs : List Byte} (h : Wrote s t bs) : Sent s t :=
  ⟨bs, h.taken, by rw [h.state], h.accepted, h.later⟩

theorem Sent.refl {s t : State} (hp : t.outPort = s.outPort) (hc : t.regs.outCount = s.regs.outCount) : Sent s t :=
  ⟨[], by simp [hp], by simp [hc], fun _ h => absurd h (Nat.not_lt_zero _), by simp [hp]⟩

theorem Sent.trans {s t u : State} (h : Sent s t) (h' : Sent t u) : Sent s u := by
  obtain ⟨as, ha, ca, fa, la⟩ := h
  obtain ⟨bs, hb, cb, fb, lb⟩ := h'
  refine ⟨as ++ bs, by rw [hb, ha, List.append_assoc], by rw [cb, ca, List.length_append, BitVec.ofNat_add, BitVec.add_assoc], ?_,
    fun k => by rw [lb, la, List.length_append, Nat.add_assoc]⟩
  rw [List.length_append]
  exact fa.append la fb

/-- The bytes gone out, as a count. -/
theorem Sent.written {s t : State} (h : Sent s t) :
    ∃ bs, t.outPort.taken = s.outPort.taken ++ bs ∧ t.regs.outCount = s.regs.outCount + BitVec.ofNat 64 bs.length := by
  obtain ⟨bs, h1, h2, -⟩ := h
  exact ⟨bs, h1, h2⟩

/-- Each of them was accepted, and the answers after them are the port's next. -/
theorem Sent.answers {s t : State} (h : Sent s t) :
    s.outPort.taken.length ≤ t.outPort.taken.length ∧ acceptsFirst s.outPort (t.outPort.taken.length - s.outPort.taken.length) ∧
      ∀ k, outAnswerAt t.outPort k = outAnswerAt s.outPort (t.outPort.taken.length - s.outPort.taken.length + k) := by
  obtain ⟨bs, h1, -, h2, h3⟩ := h
  have hl : t.outPort.taken.length - s.outPort.taken.length = bs.length := by rw [h1, List.length_append]; omega
  rw [hl]
  exact ⟨by rw [h1, List.length_append]; omega, h2, h3⟩

/-! ### The output stage (R202) and the shift (R203) -/

/-- How OutputStage(x) ends that does not end in an answer: the port's failure or wait at a byte of those it sends, the run counter's
bound, or a carry with no place to go, with nothing but the encoder changed. -/
def EncoderFails (x : Byte) (s : State) (e : Abort) (t : State) : Prop :=
  encoderErased t = encoderErased s ∧
    (¬(outSide s).full x ∧ (∃ n, s.outPort.taken.length + n < ((outSide s).stage x).taken.length ∧ acceptsFirst s.outPort n ∧
        t.outPort.taken = ((outSide s).stage x).taken.take (s.outPort.taken.length + n) ∧
        (e = .wait ∧ outAnswerAt s.outPort n = none ∨ e = .raise .ioFailure ∧ outAnswerAt s.outPort n = some .error)) ∨
      e = .raise .ffrunOverflow ∧ (outSide s).full x ∧ t.outPort.taken = s.outPort.taken ∨
      e = .raise .carryOverflow ∧ s.regs.carry = true ∧ (s.regs.delayValid = false ∨ s.regs.delay = 0xFF#8))

theorem flag_le_one (b : Bool) : flag b ≤ 1 := by cases b <;> decide

/-- The code value that the bytes shifted out are, after the flushing branch of OutputStage has taken the carry. -/
theorem shiftedOut_flush {s : State} (hc : s.regs.carry = true → s.regs.delayValid = true ∧ s.regs.delay ≠ 0xFF#8) :
    bytesValue (s.outPort.taken ++ (if s.regs.delayValid then [s.regs.delay + BitVec.ofNat 8 (flag s.regs.carry)] else []) ++
        List.replicate s.regs.ffrun.toNat (if s.regs.carry then 0x00#8 else 0xFF#8)) =
      bytesValue (shiftedOut s) + flag s.regs.carry := by
  unfold shiftedOut
  cases hcar : s.regs.carry with
  | false => simp [flag]
  | true =>
    obtain ⟨hv, hd⟩ := hc hcar
    have hrun := bytesValue_run s.regs.ffrun.toNat
    have hdel : (s.regs.delay + BitVec.ofNat 8 1).toNat = s.regs.delay.toNat + 1 := by
      have := s.regs.delay.isLt
      have hne : s.regs.delay.toNat ≠ 255 := fun h => hd (BitVec.eq_of_toNat_eq (by simpa using h))
      simp only [BitVec.toNat_add, BitVec.toNat_ofNat]
      omega
    simp only [hv, if_true, flag, bytesValue_append, List.length_replicate, bytesValue_singleton, List.length_singleton, hdel]
    have : ∀ a b c d k : Nat, c + 1 = k + d → (a * 256 ^ 1 + (b + 1)) * k + d = (a * 256 ^ 1 + b) * k + c + 1 := by
      intro a b c d k h
      have : (a * 256 ^ 1 + (b + 1)) * k = (a * 256 ^ 1 + b) * k + k := by ring
      omega
    exact this _ _ _ _ _ hrun

/-- What OutputStage(x) leaves (R202): the bytes shifted out now end in x, with the carry added to those before it; CARRY is 0. -/
structure Staged (s t : State) (x : Byte) : Prop where
  erased : encoderErased t = encoderErased s
  buffer : t.regs.rcBuffer = s.regs.rcBuffer
  range : t.regs.rcRange = s.regs.rcRange
  carry : t.regs.carry = false
  value : bytesValue (shiftedOut t) = (bytesValue (shiftedOut s) + flag s.regs.carry) * 256 + x.toNat
  length : (shiftedOut t).length = (shiftedOut s).length + 1
  accepts : acceptsAll s.outPort → acceptsAll t.outPort
  run : t.regs.ffrun.toNat ≤ s.regs.ffrun.toNat + 1
  side : outSide t = (outSide s).stage x
  bounded : ¬(outSide s).full x
  sent : Sent s t
  delayed :
    (t.regs.delayValid = true ∧ t.regs.delay = x ∧ t.regs.ffrun = 0#32 ∧ (x ≠ 0xFF#8 ∨ s.regs.carry = true)) ∨
      (x = 0xFF#8 ∧ s.regs.carry = false ∧ t.regs.delayValid = s.regs.delayValid ∧ t.regs.delay = s.regs.delay ∧
        t.regs.ffrun.toNat = s.regs.ffrun.toNat + 1)

/-- The bytes the flushing branch of OutputStage sends (R202). -/
def flushedBytes (s : State) : List Byte :=
  (if s.regs.delayValid then [s.regs.delay + BitVec.ofNat 8 (flag s.regs.carry)] else []) ++
    List.replicate s.regs.ffrun.toNat (if s.regs.carry then 0x00#8 else 0xFF#8)

/-- OutputStage in its flushing branch, as numbers. -/
theorem stage_flush {s : State} {x : Byte} (hx : x ≠ 0xFF#8 ∨ s.regs.carry = true) :
    (outSide s).stage x = ⟨s.outPort.taken ++ flushedBytes s, false, true, x, 0⟩ := by
  have : ¬(x = 0xFF#8 ∧ s.regs.carry = false) := by
    rintro ⟨h1, h2⟩
    rcases hx with hx | hx
    · exact hx h1
    · rw [hx] at h2; cases h2
  rw [OutSide.stage, if_neg (by exact this)]
  simp only [outSide, flushedBytes, List.append_assoc]
  rfl

theorem flushDelayed_spec (x : Byte) (s : State) (hx : x ≠ 0xFF#8 ∨ s.regs.carry = true)
    (hc : s.regs.carry = true → s.regs.delayValid = true ∧ s.regs.delay ≠ 0xFF#8) :
    Ends (flushDelayed x) s (fun _ t => Staged s t x) (WriteFails s (flushedBytes s)) := by
  unfold flushDelayed flushedBytes
  refine Ends.bind (Q := fun r t => r = s.regs ∧ t = s) (ends_getRegs ⟨rfl, rfl⟩) ?_
  rintro r t ⟨rfl, rfl⟩
  refine Ends.bind (Q := fun _ u => Wrote t u (if t.regs.delayValid then [t.regs.delay + BitVec.ofNat 8 (flag t.regs.carry)] else []))
    ?_ fun _ u hu => ?_
  · refine ends_whenTrue (fun h => ?_) (fun h => ?_)
    · rw [h]; exact (outWrite_wrote _ t).mono (fun _ _ h => h) fun _ _ h => h.append _
    · rw [h]; exact Wrote.refl t
  refine Ends.bind ((outWriteRun_wrote _ _ u).mono (fun _ w hw => hu.trans hw) fun e w h => h.after hu) fun _ w hw => ?_
  refine ends_modifyRegs ?_
  have hst := hw.state
  refine ⟨?_, ?_, ?_, rfl, ?_, ?_, hw.accepts, ?_, ?_, ?_, hw.sent, .inl ⟨rfl, rfl, rfl, hx⟩⟩
  · rw [hst]; rfl
  · rw [hst]
  · rw [hst]
  · show bytesValue (w.outPort.taken ++ [x] ++ List.replicate 0 0xFF#8) = _
    rw [hw.taken, ← shiftedOut_flush hc]
    simp only [List.replicate_zero, List.append_nil]
    rw [bytesValue_append _ [x], bytesValue_singleton, ← List.append_assoc]
    simp
  · show (w.outPort.taken ++ [x] ++ List.replicate 0 0xFF#8).length = _
    rw [hw.taken]
    simp only [shiftedOut, List.length_append, List.length_replicate, List.length_singleton]
    cases t.regs.delayValid <;> simp +arith
  · show (0 : Nat) ≤ _
    omega
  · rw [stage_flush hx]
    simp only [outSide, hw.taken, flushedBytes]
    rfl
  · rintro ⟨h1, h2, -⟩
    rcases hx with hx | hx
    · exact hx h1
    · have : t.regs.carry = false := h2
      rw [hx] at this; cases this

theorem outputStage_spec (x : Byte) (s : State) : Ends (outputStage x) s (fun _ t => Staged s t x) (EncoderFails x s) := by
  unfold outputStage
  refine Ends.bind (Q := fun r t => r = s.regs ∧ t = s) (ends_getRegs ⟨rfl, rfl⟩) ?_
  rintro r t ⟨rfl, rfl⟩
  split
  · next hx =>
    split
    · next hc => exact ends_raise ⟨rfl, .inr (.inr ⟨rfl, hc⟩)⟩
    · next hc =>
      refine (flushDelayed_spec x t hx fun hcar => ?_).mono (fun _ _ h => h) fun e u ⟨hu, n, hn, ha, ht, he⟩ => ⟨hu, .inl ⟨?_, n, ?_⟩⟩
      · rw [not_and_or, not_or] at hc
        rcases hc with hc | ⟨h1, h2⟩
        · exact absurd hcar hc
        · exact ⟨by simpa using h1, h2⟩
      · rintro ⟨h1, h2, -⟩
        rcases hx with hx | hx
        · exact hx h1
        · have : t.regs.carry = false := h2
          rw [hx] at this; cases this
      · rw [stage_flush hx]
        refine ⟨by rw [List.length_append]; omega, ha, ?_, he⟩
        rw [ht, List.take_append]
        simp
  · next hx =>
    rw [not_or, not_not] at hx
    obtain ⟨rfl, hcar⟩ := hx
    have hcar : t.regs.carry = false := by simpa using hcar
    split
    · next hmax => exact ends_raise ⟨rfl, .inr (.inl ⟨rfl, ⟨rfl, hcar, hmax⟩, rfl⟩)⟩
    · next hmax =>
      have hlt := t.regs.ffrun.isLt
      have hsucc : (t.regs.ffrun + 1#32).toNat = t.regs.ffrun.toNat + 1 := by
        simp only [BitVec.toNat_add, BitVec.toNat_ofNat]
        omega
      refine ends_modifyRegs ⟨rfl, rfl, rfl, hcar, ?_, ?_, id, hsucc.le, ?_, fun h => hmax h.2.2, Sent.refl rfl rfl,
        .inr ⟨rfl, hcar, rfl, rfl, hsucc⟩⟩
      · show bytesValue (_ ++ List.replicate (t.regs.ffrun + 1#32).toNat 0xFF#8) = _
        rw [hsucc, List.replicate_succ', ← List.append_assoc, bytesValue_append, bytesValue_singleton]
        simp [hcar, flag, shiftedOut]
      · show (_ ++ List.replicate (t.regs.ffrun + 1#32).toNat 0xFF#8).length = _
        simp only [shiftedOut, List.length_append, List.length_replicate, hsucc, Nat.add_assoc]
      · rw [OutSide.stage, if_pos ⟨rfl, hcar⟩]
        simp only [outSide, hsucc]

end Sys2Proof.Machine
end

