-- ==== Sys2Proof/Laws/OutSide.lean ====
section
/-! SUPPORT. The encoder's output side as numbers (R201 to R204): the bytes that leave a window one after the other, what each does to the
side, and how the sides of two states of one command fit together. -/

namespace Sys2Proof.Machine

theorem OutSide.stages_append (c : OutSide) (xs ys : List Byte) : c.stages (xs ++ ys) = (c.stages xs).stages ys := by
  simp [OutSide.stages, List.foldl_append]

/-- A stage only adds to what has gone out. -/
theorem OutSide.stage_taken (c : OutSide) (x : Byte) : c.taken <+: (c.stage x).taken := by
  unfold OutSide.stage
  split
  · exact List.prefix_rfl
  · rw [List.append_assoc]; exact List.prefix_append _ _

theorem OutSide.stage_run (c : OutSide) (x : Byte) : (c.stage x).run ≤ c.run + 1 := by
  unfold OutSide.stage
  split
  · exact le_rfl
  · exact Nat.zero_le _

theorem leavingBytes_succ (w k : Nat) : leavingBytes w (k + 1) = leavingBytes w k ++ [leavingByte w k] := by
  simp [leavingBytes, List.range_succ]

/-- The top byte of the window leaves first (R203). -/
theorem leavingByte_top (b : BitVec 31) : leavingByte b.toNat 0 = b.extractLsb' 23 8 := by
  apply BitVec.eq_of_toNat_eq
  simp [leavingByte, Nat.shiftRight_eq_div_pow]

/-- The bytes that leave a window `m` bytes on (R203). -/
theorem leavingByte_shift (w m j : Nat) : leavingByte (w * 256 ^ m % 2 ^ 31) j = leavingByte w (m + j) := by
  apply BitVec.eq_of_toNat_eq
  simp only [leavingByte, BitVec.toNat_ofNat]
  rw [pow_add, ← mul_assoc]
  generalize w * 256 ^ m = W
  have h : W * 256 ^ j = 2 ^ 23 * (W / 2 ^ 31 * 256 ^ j * 256) + W % 2 ^ 31 * 256 ^ j := by
    conv_lhs => rw [← Nat.div_add_mod W (2 ^ 31)]
    ring
  rw [h, Nat.mul_add_div (by norm_num)]
  omega

theorem outSideAfter_zero (s : State) (v : Nat) :
    outSideAfter s v 0 = { outSide s with carry := s.regs.carry || decide (2 ^ 31 ≤ s.regs.rcBuffer.toNat + v) } := rfl

theorem outSideAfter_succ (s : State) (v k : Nat) :
    outSideAfter s v (k + 1) = (outSideAfter s v k).stage (leavingByte (s.regs.rcBuffer.toNat + v) k) := by
  rw [outSideAfter, leavingBytes_succ, OutSide.stages_append]
  rfl

/-- Without a sum the side is the state's. -/
theorem outSideAfter_still (s : State) : outSideAfter s 0 0 = outSide s := by
  have := s.regs.rcBuffer.isLt
  have h : decide (2 ^ 31 ≤ s.regs.rcBuffer.toNat + 0) = false := decide_eq_false (by omega)
  rw [outSideAfter_zero, h, Bool.or_false]
  rfl

theorem outSideAfter_taken (s : State) (v : Nat) {m k : Nat} (h : m ≤ k) :
    (outSideAfter s v m).taken <+: (outSideAfter s v k).taken := by
  induction k with
  | zero => obtain rfl : m = 0 := by omega
            exact List.prefix_rfl
  | succ k ih =>
    by_cases hm : m = k + 1
    · rw [hm]
    · rw [outSideAfter_succ]
      exact (ih (by omega)).trans (OutSide.stage_taken _ _)

theorem outSideAfter_start (s : State) (v k : Nat) : s.outPort.taken <+: (outSideAfter s v k).taken :=
  outSideAfter_taken s v (Nat.zero_le k)

theorem outSideAfter_run (s : State) (v k : Nat) : (outSideAfter s v k).run ≤ s.regs.ffrun.toNat + k := by
  induction k with
  | zero => exact le_rfl
  | succ k ih =>
    rw [outSideAfter_succ]
    have := OutSide.stage_run (outSideAfter s v k) (leavingByte (s.regs.rcBuffer.toNat + v) k)
    omega

/-- The run reaches its bound only after that many bytes. -/
theorem runFull_ge {s : State} {v j : Nat} (h : runFull s v j) : 2 ^ 32 ≤ s.regs.ffrun.toNat + (j + 1) := by
  have h1 := h.2.2
  have h2 := outSideAfter_run s v j
  omega

/-- `t` stands where the encoder of `s` has added `v` and shifted `m` bytes out. -/
structure Follows (s t : State) (v m : Nat) : Prop where
  side : outSide t = outSideAfter s v m
  buffer : t.regs.rcBuffer.toNat = (s.regs.rcBuffer.toNat + v) * 256 ^ m % 2 ^ 31

theorem Follows.refl (s : State) : Follows s s 0 0 := by
  have := s.regs.rcBuffer.isLt
  exact ⟨(outSideAfter_still s).symm, by simp; omega⟩

theorem Follows.byte {s t : State} {v m : Nat} (h : Follows s t v m) (j : Nat) :
    leavingByte (t.regs.rcBuffer.toNat + 0) j = leavingByte (s.regs.rcBuffer.toNat + v) (m + j) := by
  rw [Nat.add_zero, h.buffer, leavingByte_shift]

/-- Further bytes from there are further bytes of the same window. -/
theorem Follows.after {s t : State} {v m : Nat} (h : Follows s t v m) (k : Nat) : outSideAfter t 0 k = outSideAfter s v (m + k) := by
  induction k with
  | zero => rw [outSideAfter_still, h.side, Nat.add_zero]
  | succ k ih => rw [outSideAfter_succ, ih, h.byte, ← outSideAfter_succ, Nat.add_assoc]

theorem Follows.full {s t : State} {v m : Nat} (h : Follows s t v m) (j : Nat) : runFull t 0 j ↔ runFull s v (m + j) := by
  unfold runFull
  rw [h.after, h.byte]

theorem Follows.trans {s t u : State} {v m k : Nat} (h : Follows s t v m) (h' : Follows t u 0 k) : Follows s u v (m + k) := by
  refine ⟨by rw [h'.side, h.after], ?_⟩
  rw [h'.buffer, Nat.add_zero, h.buffer, Nat.mod_mul_mod, pow_add, mul_assoc]

/-- No byte of a part finds the run at its bound, nor of the next. -/
theorem Follows.bounded {s t : State} {v m k : Nat} (h : Follows s t v m) (h1 : ∀ j < m, ¬runFull s v j)
    (h2 : ∀ j < k, ¬runFull t 0 j) : ∀ j < m + k, ¬runFull s v j := fun j hj => by
  by_cases hjm : j < m
  · exact h1 j hjm
  · have := h2 (j - m) (by omega)
    rwa [h.full, show m + (j - m) = j by omega] at this

end Sys2Proof.Machine
end

