-- ==== Sys2Proof/Laws/Encoder.lean ====
section
/-! SUPPORT. What the encoder's procedures can do (R201, R203, R204, R207, R209, R211, R214), said once for each: what it leaves, and
how it can end otherwise; the invariants of R200 and their proof (R216). -/

namespace Sys2Proof.Machine

/-! ### The invariants of R200 inside a procedure -/

/-- R200's invariants while a procedure runs, before its normalization: R >= 1, (W) and (D). -/
structure CoderMid (r : Regs) : Prop where
  range : 1 ≤ r.rcRange.toNat
  window : windowLow r + r.rcRange.toNat ≤ 2 ^ 32
  delayed :
    r.delayValid = false ∨ r.delay = 0xFF#8 →
      (2 ^ (8 * r.ffrun.toNat) - 1) * 2 ^ 31 + windowLow r + r.rcRange.toNat ≤ 2 ^ (8 * r.ffrun.toNat + 31)

theorem CoderInv.mid {r : Regs} (h : CoderInv r) : CoderMid r := ⟨le_trans (by norm_num) h.range, h.window, h.delayed⟩

theorem CoderMid.inv {r : Regs} (h : CoderMid r) (hr : 2 ^ 23 ≤ r.rcRange.toNat) : CoderInv r := ⟨hr, h.window, h.delayed⟩

/-- Under (D) a carry never finds its delayed byte missing or 0xFF (R216). -/
theorem CoderMid.no_carry {r : Regs} (h : CoderMid r) (hd : r.delayValid = false ∨ r.delay = 0xFF#8) : r.carry = false := by
  have h1 := h.delayed hd
  have h2 := h.range
  by_contra hc
  have hc : r.carry = true := by simpa using hc
  simp only [windowLow, hc, flag, if_true] at h1
  have : 1 ≤ 2 ^ (8 * r.ffrun.toNat) := Nat.one_le_two_pow
  rw [pow_add, Nat.sub_mul] at h1
  have : 1 * 2 ^ 31 ≤ 2 ^ (8 * r.ffrun.toNat) * 2 ^ 31 := Nat.mul_le_mul_right _ this
  omega

/-- A sub-interval of the interval keeps the invariants. -/
theorem CoderMid.narrow {r u : Regs} {v n : Nat} (h : CoderMid r) (hw : windowLow u = windowLow r + v) (hr : u.rcRange.toNat = n)
    (hn : 1 ≤ n) (hle : v + n ≤ r.rcRange.toNat) (hv : u.delayValid = r.delayValid) (hd : u.delay = r.delay)
    (hf : u.ffrun = r.ffrun) : CoderMid u := by
  refine ⟨hr ▸ hn, ?_, ?_⟩
  · have := h.window; omega
  · rw [hv, hd, hf, hw, hr]
    intro hp
    have := h.delayed hp
    omega

/-- How an encode procedure of at most `n` shifts ends that does not end in an answer. -/
def EncodeFails (n : Nat) (s : State) (e : Abort) (t : State) : Prop :=
  encoderErased t = encoderErased s ∧
    ((e = .wait ∨ e = .raise .ioFailure) ∧ ¬acceptsAll s.outPort ∨
      e = .raise .ffrunOverflow ∧ 2 ^ 32 ≤ s.regs.ffrun.toNat + n ∨ e = .raise .carryOverflow ∧ ¬CoderMid s.regs)

/-- How an encode procedure that adds `v` and shifts at most `k` bytes out ends that does not end in an answer: at byte `j` of those to
leave, the port refuses a byte it sends, or has no answer; or byte `j` finds the run at its bound; or a carry has no place to go. -/
def EncodeStops (s : State) (v k : Nat) (e : Abort) (t : State) : Prop :=
  encoderErased t = encoderErased s ∧
    ((∃ j < k, (∀ i ≤ j, ¬runFull s v i) ∧ ∃ n, s.outPort.taken.length + n < (outSideAfter s v (j + 1)).taken.length ∧
        acceptsFirst s.outPort n ∧ t.outPort.taken = (outSideAfter s v (j + 1)).taken.take (s.outPort.taken.length + n) ∧
        (e = .wait ∧ outAnswerAt s.outPort n = none ∨ e = .raise .ioFailure ∧ outAnswerAt s.outPort n = some .error)) ∨
      (∃ j < k, (∀ i < j, ¬runFull s v i) ∧ runFull s v j ∧ e = .raise .ffrunOverflow ∧
        t.outPort.taken = (outSideAfter s v j).taken) ∨
      e = .raise .carryOverflow ∧ ¬CoderMid s.regs)

theorem EncodeStops.fails {s t : State} {v k n : Nat} {e : Abort} (h : EncodeStops s v k e t) (hkn : k ≤ n) : EncodeFails n s e t := by
  obtain ⟨he, ⟨j, -, -, m, -, -, -, ⟨h1, h2⟩ | ⟨h1, h2⟩⟩ | ⟨j, hj, -, h1, h2, -⟩ | h1⟩ := h
  · exact ⟨he, .inl ⟨.inl h1, fun ha => by rw [ha.at] at h2; cases h2⟩⟩
  · exact ⟨he, .inl ⟨.inr h1, fun ha => by rw [ha.at] at h2; cases h2⟩⟩
  · have := runFull_ge h1
    exact ⟨he, .inr (.inl ⟨h2, by omega⟩)⟩
  · exact ⟨he, .inr (.inr h1)⟩

/-- A procedure that stops after a part of its moves. -/
theorem EncodeStops.after {s t u : State} {v m k : Nat} {e : Abort} (hf : Follows s t v m) (hs : Sent s t)
    (he : encoderErased t = encoderErased s) (hb : ∀ j < m, ¬runFull s v j)
    (hm : e = .raise .carryOverflow → CoderMid s.regs → CoderMid t.regs)
    (h : EncodeStops t 0 k e u) : EncodeStops s v (m + k) e u := by
  obtain ⟨h1, h2⟩ := h
  refine ⟨h1.trans he, ?_⟩
  obtain ⟨hle, hacc, hans⟩ := hs.answers
  rcases h2 with ⟨j, hj, hi, n, hn, ha, ht, hc⟩ | ⟨j, hj, hi, hr, hc, ht⟩ | ⟨hc, hn⟩
  · rw [hf.after, ← Nat.add_assoc] at hn ht
    have hl : t.outPort.taken.length + n = s.outPort.taken.length + (t.outPort.taken.length - s.outPort.taken.length + n) := by omega
    rw [hl] at hn ht
    rw [hans] at hc
    refine .inl ⟨m + j, by omega, fun i hi' => ?_, _, hn, hacc.append hans ha, ht, hc⟩
    by_cases him : i < m
    · exact hb i him
    · have := hi (i - m) (by omega)
      rwa [hf.full, show m + (i - m) = i by omega] at this
  · rw [hf.full] at hr
    rw [hf.after] at ht
    refine .inr (.inl ⟨m + j, by omega, fun i hi' => ?_, hr, hc, ht⟩)
    by_cases him : i < m
    · exact hb i him
    · have := hi (i - m) (by omega)
      rwa [hf.full, show m + (i - m) = i by omega] at this
  · exact .inr (.inr ⟨hc, fun h => hn (hm hc h)⟩)

theorem EncodeStops.mono {s t : State} {v k n : Nat} {e : Abort} (h : EncodeStops s v k e t) (hkn : k ≤ n) : EncodeStops s v n e t := by
  obtain ⟨he, ⟨j, hj, h⟩ | ⟨j, hj, h⟩ | h⟩ := h
  · exact ⟨he, .inl ⟨j, by omega, h⟩⟩
  · exact ⟨he, .inr (.inl ⟨j, by omega, h⟩)⟩
  · exact ⟨he, .inr (.inr h)⟩

/-- What `k` turns of EncNormalize's loop leave: the window and R have moved up 8k bits. -/
structure Shifted (s t : State) (k : Nat) : Prop where
  erased : encoderErased t = encoderErased s
  range : t.regs.rcRange.toNat = s.regs.rcRange.toNat * 256 ^ k
  buffer : t.regs.rcBuffer.toNat = s.regs.rcBuffer.toNat * 256 ^ k % 2 ^ 31
  value : codeValue t = codeValue s * 256 ^ k
  length : (shiftedOut t).length = (shiftedOut s).length + k
  mid : CoderMid s.regs → CoderMid t.regs
  accepts : acceptsAll s.outPort → acceptsAll t.outPort
  run : t.regs.ffrun.toNat ≤ s.regs.ffrun.toNat + k
  side : outSide t = outSideAfter s 0 k
  bounded : ∀ j < k, ¬runFull s 0 j
  sent : Sent s t

theorem Shifted.follows {s t : State} {k : Nat} (h : Shifted s t k) : Follows s t 0 k := ⟨h.side, by rw [Nat.add_zero]; exact h.buffer⟩

theorem Shifted.refl (s : State) : Shifted s s 0 :=
  ⟨rfl, by simp, by simp; omega, by simp, rfl, id, id, le_rfl, (outSideAfter_still s).symm, fun _ h => absurd h (Nat.not_lt_zero _),
    Sent.refl rfl rfl⟩

theorem Shifted.trans {s t u : State} {j k : Nat} (h : Shifted s t j) (h' : Shifted t u k) : Shifted s u (j + k) := by
  refine ⟨h'.erased.trans h.erased, ?_, ?_, ?_, by rw [h'.length, h.length, Nat.add_assoc], h'.mid ∘ h.mid, h'.accepts ∘ h.accepts, ?_,
    (h.follows.trans h'.follows).side, h.follows.bounded h.bounded h'.bounded, h.sent.trans h'.sent⟩
  · rw [h'.range, h.range, pow_add, mul_assoc]
  · rw [h'.buffer, h.buffer, pow_add, ← mul_assoc, Nat.mod_mul_mod]
  · rw [h'.value, h.value, pow_add, mul_assoc]
  · have := h.run; have := h'.run; omega

/-- The top byte of the window and what stays below it. -/
theorem window_split (b : BitVec 31) :
    b.toNat * 256 = (b.extractLsb' 23 8).toNat * 2 ^ 31 + (b <<< 8).toNat := by
  have := b.isLt
  simp only [BitVec.extractLsb'_toNat, BitVec.toNat_shiftLeft, Nat.shiftRight_eq_div_pow, Nat.shiftLeft_eq]
  omega

theorem encShift_spec (s : State) :
    Ends encShift s
      (fun _ t => ∃ u, Staged s u (s.regs.rcBuffer.extractLsb' 23 8) ∧
        t = { u with regs := { u.regs with rcBuffer := u.regs.rcBuffer <<< 8 } })
      (EncoderFails (s.regs.rcBuffer.extractLsb' 23 8) s) := by
  unfold encShift
  refine Ends.bind (Q := fun r t => r = s.regs ∧ t = s) (ends_getRegs ⟨rfl, rfl⟩) ?_
  rintro r t ⟨rfl, rfl⟩
  refine Ends.bind (outputStage_spec _ t) fun _ u hu => ends_modifyRegs ⟨u, hu, rfl⟩

/-- The first byte to leave, as the numbers say it. -/
theorem outSideAfter_one (s : State) : outSideAfter s 0 1 = (outSide s).stage (s.regs.rcBuffer.extractLsb' 23 8) := by
  rw [outSideAfter_succ, outSideAfter_still, Nat.add_zero, leavingByte_top]

theorem runFull_zero (s : State) : runFull s 0 0 ↔ (outSide s).full (s.regs.rcBuffer.extractLsb' 23 8) := by
  rw [runFull, outSideAfter_still, Nat.add_zero, leavingByte_top]

/-- How one shift ends that does not end in an answer, as the first of a procedure's. -/
theorem EncoderFails.stops {s t : State} {e : Abort} (h : EncoderFails (s.regs.rcBuffer.extractLsb' 23 8) s e t) :
    EncodeStops s 0 1 e t := by
  obtain ⟨he, ⟨hf, n, h⟩ | ⟨h1, h2, h3⟩ | ⟨rfl, hc, hd⟩⟩ := h
  · refine ⟨he, .inl ⟨0, Nat.one_pos, fun i hi => ?_, n, ?_⟩⟩
    · obtain rfl : i = 0 := by omega
      rwa [runFull_zero]
    · rwa [outSideAfter_one]
  · refine ⟨he, .inr (.inl ⟨0, Nat.one_pos, fun _ h => absurd h (Nat.not_lt_zero _), (runFull_zero s).mpr h2, h1, ?_⟩)⟩
    rw [h3, outSideAfter_still]; rfl
  · refine ⟨he, .inr (.inr ⟨rfl, fun hm => ?_⟩)⟩
    have := hm.no_carry hd
    rw [hc] at this
    cases this

/-- One turn of EncNormalize's loop (R204, R203). -/
theorem encTurn_spec (s : State) (hr : s.regs.rcRange.toNat < 2 ^ 23) :
    Ends (do encShift; modifyRegs fun regs => { regs with rcRange := regs.rcRange <<< 8 }) s (fun _ t => Shifted s t 1)
      (EncodeStops s 0 1) := by
  refine Ends.bind ((encShift_spec s).mono (fun _ _ h => h) fun _ _ h => h.stops) ?_
  · rintro _ _ ⟨u, hu, rfl⟩
    have hrange : (s.regs.rcRange <<< 8).toNat = s.regs.rcRange.toNat * 256 := by
      simp only [BitVec.toNat_shiftLeft, Nat.shiftLeft_eq]
      omega
    have hsplit := window_split s.regs.rcBuffer
    have hlow : windowLow { u.regs with rcBuffer := u.regs.rcBuffer <<< 8, rcRange := u.regs.rcRange <<< 8 } =
        (s.regs.rcBuffer <<< 8).toNat := by
      simp [windowLow, hu.carry, flag, hu.buffer]
    refine ends_modifyRegs ⟨?_, ?_, ?_, ?_, hu.length, ?_, hu.accepts, hu.run, (outSideAfter_one s).symm ▸ hu.side, fun j hj => ?_, hu.sent⟩
    · rw [← hu.erased]; rfl
    · show (u.regs.rcRange <<< 8).toNat = _
      rw [hu.range, hrange, pow_one]
    · show (u.regs.rcBuffer <<< 8).toNat = _
      rw [hu.buffer]
      simp [BitVec.toNat_shiftLeft, Nat.shiftLeft_eq]
    · have hval := hu.value
      have : codeValue { u with regs := { u.regs with rcBuffer := u.regs.rcBuffer <<< 8, rcRange := u.regs.rcRange <<< 8 } } =
          bytesValue (shiftedOut u) * 2 ^ 31 + (s.regs.rcBuffer <<< 8).toNat := by
        show bytesValue (shiftedOut u) * 2 ^ 31 + windowLow _ = _
        rw [hlow]
      show codeValue { u with regs := { u.regs with rcBuffer := u.regs.rcBuffer <<< 8, rcRange := u.regs.rcRange <<< 8 } } = _
      rw [this, hval]
      unfold codeValue windowLow
      generalize bytesValue (shiftedOut s) = V
      generalize flag s.regs.carry = c
      generalize (s.regs.rcBuffer <<< 8).toNat = L at *
      generalize s.regs.rcBuffer.toNat = B at *
      generalize (s.regs.rcBuffer.extractLsb' 23 8).toNat = T at *
      calc ((V + c) * 256 + T) * 2 ^ 31 + L = (V + c) * 256 * 2 ^ 31 + (T * 2 ^ 31 + L) := by ring
        _ = _ := by rw [← hsplit]; ring
    · intro hm
      have hw := hm.window
      have h1 := hm.range
      have hlt := (s.regs.rcBuffer <<< 8).isLt
      show CoderMid { u.regs with rcBuffer := u.regs.rcBuffer <<< 8, rcRange := u.regs.rcRange <<< 8 }
      have hrw : ({ u.regs with rcBuffer := u.regs.rcBuffer <<< 8, rcRange := u.regs.rcRange <<< 8 } : Regs).rcRange.toNat =
          s.regs.rcRange.toNat * 256 := by rw [← hrange, ← hu.range]
      refine ⟨by rw [hrw]; omega, ?_, ?_⟩
      · rw [hlow, hrw]; omega
      · rw [hlow, hrw]
        show u.regs.delayValid = false ∨ u.regs.delay = 0xFF#8 → (2 ^ (8 * u.regs.ffrun.toNat) - 1) * 2 ^ 31 + _ + _ ≤ _
        rcases hu.delayed with ⟨h2, h3, h4, h5⟩ | ⟨h2, h3, h4, h5, h6⟩
        · rw [h2, h3, h4]
          rintro (h | h)
          · cases h
          · have hcar : s.regs.carry = true := h5.resolve_left (fun h' => h' h)
            rw [h] at hsplit
            simp only [windowLow, hcar, flag, if_true] at hw
            have h255 : (0xFF#8 : Byte).toNat = 255 := rfl
            rw [h255] at hsplit
            simp
            omega
        · rw [h4, h5, h6]
          intro hd
          have hD := hm.delayed hd
          rw [h2] at hsplit
          have h255 : (0xFF#8 : Byte).toNat = 255 := rfl
          rw [h255] at hsplit
          simp only [windowLow, h3, flag, Bool.false_eq_true, if_false] at hD
          have e1 : 2 ^ (8 * (s.regs.ffrun.toNat + 1)) = 2 ^ (8 * s.regs.ffrun.toNat) * 256 := by ring
          have e2 : 2 ^ (8 * (s.regs.ffrun.toNat + 1) + 31) = 2 ^ (8 * s.regs.ffrun.toNat) * 256 * 2147483648 := by ring
          have e3 : 2 ^ (8 * s.regs.ffrun.toNat + 31) = 2 ^ (8 * s.regs.ffrun.toNat) * 2147483648 := by ring
          rw [e1, e2]
          rw [e3] at hD
          have : 1 ≤ 2 ^ (8 * s.regs.ffrun.toNat) := Nat.one_le_two_pow
          clear e1 e2 e3 hlow hrw hrange hm hu hr hw hlt h6
          generalize 2 ^ (8 * s.regs.ffrun.toNat) = P at *
          generalize (s.regs.rcBuffer <<< 8).toNat = L at *
          generalize s.regs.rcBuffer.toNat = B at *
          generalize s.regs.rcRange.toNat = R at *
          obtain ⟨Q, rfl⟩ : ∃ Q, P = Q + 1 := ⟨P - 1, by omega⟩
          rw [Nat.add_sub_cancel] at hD
          have e4 : (Q + 1) * 256 - 1 = Q * 256 + 255 := by omega
          rw [e4]
          linarith
    · obtain rfl : j = 0 := by omega
      rw [runFull_zero]
      exact hu.bounded

/-- EncNormalize's loop with turns enough (R204). -/
theorem encNormalizeWithin_spec (n : Nat) (s : State) (hn : 2 ^ 23 ≤ s.regs.rcRange.toNat * 256 ^ n) :
    Ends (encNormalizeWithin n) s
      (fun _ t => ∃ k, k ≤ n ∧ Shifted s t k ∧ 2 ^ 23 ≤ s.regs.rcRange.toNat * 256 ^ k ∧
        ∀ j < k, s.regs.rcRange.toNat * 256 ^ j < 2 ^ 23)
      (fun e t => ∃ k ≤ n, (∀ j < k, s.regs.rcRange.toNat * 256 ^ j < 2 ^ 23) ∧ EncodeStops s 0 k e t) := by
  induction n generalizing s with
  | zero =>
    unfold encNormalizeWithin
    refine Ends.bind (Q := fun r t => r = s.regs ∧ t = s) (ends_getRegs ⟨rfl, rfl⟩) ?_
    rintro r t ⟨rfl, rfl⟩
    rw [if_neg (by omega)]
    exact ends_pure ⟨0, le_rfl, Shifted.refl t, hn, fun j hj => absurd hj (by omega)⟩
  | succ n ih =>
    unfold encNormalizeWithin
    refine Ends.bind (Q := fun r t => r = s.regs ∧ t = s) (ends_getRegs ⟨rfl, rfl⟩) ?_
    rintro r t ⟨rfl, rfl⟩
    split
    · next hlt =>
      rw [← bind_assoc]
      refine Ends.bind ((encTurn_spec t hlt).mono (fun _ _ h => h) ?_) fun _ u hu => ?_
      · refine fun e w h => ⟨1, by omega, fun j hj => ?_, h⟩
        obtain rfl : j = 0 := by omega
        simpa using hlt
      · have hstep : ∀ k, (∀ j < k, u.regs.rcRange.toNat * 256 ^ j < 2 ^ 23) → ∀ j < 1 + k, t.regs.rcRange.toNat * 256 ^ j < 2 ^ 23 := by
          intro k h2 j hj
          cases j with
          | zero => simpa using hlt
          | succ j =>
            have := h2 j (by omega)
            rw [hu.range] at this
            rw [Nat.add_comm, pow_add, ← mul_assoc]
            exact this
        refine (ih u ?_).mono ?_ ?_
        · rw [hu.range, mul_assoc, ← pow_add, Nat.add_comm]; exact hn
        · rintro _ w ⟨k, hk, hs, h1, h2⟩
          rw [hu.range] at h1
          refine ⟨1 + k, by omega, hu.trans hs, ?_, hstep k h2⟩
          rw [pow_add, ← mul_assoc]; exact h1
        · rintro e w ⟨k, hk, h2, h⟩
          exact ⟨1 + k, by omega, hstep k h2, h.after hu.follows hu.sent hu.erased hu.bounded fun _ => hu.mid⟩
    · next hge =>
      exact ends_pure ⟨0, Nat.zero_le _, Shifted.refl t, by simpa using hge, fun j hj => absurd hj (by omega)⟩

/-- The number of a normalization's turns. -/
theorem normShifts_eq {r k : Nat} (hk : k ≤ 3) (h : 2 ^ 23 ≤ r * 256 ^ k) (hj : ∀ j < k, r * 256 ^ j < 2 ^ 23) :
    k = normShifts r := by
  unfold normShifts
  have h0 := hj 0
  have h1 := hj 1
  have h2 := hj 2
  have : k = 0 ∨ k = 1 ∨ k = 2 ∨ k = 3 := by omega
  rcases this with rfl | rfl | rfl | rfl
  · rw [if_pos (by simpa using h)]
  · rw [if_neg (by simpa using h0 (by omega)), if_pos (by simpa using h)]
  · rw [if_neg (by simpa using h0 (by omega)), if_neg (by simpa using h1 (by omega)), if_pos h]
  · rw [if_neg (by simpa using h0 (by omega)), if_neg (by simpa using h1 (by omega)), if_neg (by simpa using h2 (by omega))]

/-- A normalization takes at least the turns that find R below 2^23. -/
theorem normShifts_ge {r k : Nat} (hk : k ≤ 3) (hj : ∀ j < k, r * 256 ^ j < 2 ^ 23) : k ≤ normShifts r := by
  unfold normShifts
  have : k = 0 ∨ k = 1 ∨ k = 2 ∨ k = 3 := by omega
  rcases this with rfl | rfl | rfl | rfl
  · exact Nat.zero_le _
  · have := hj 0 (by omega)
    split_ifs <;> omega
  · have := hj 0 (by omega); have := hj 1 (by omega)
    split_ifs <;> omega
  · have := hj 0 (by omega); have := hj 1 (by omega); have := hj 2 (by omega)
    split_ifs <;> omega

theorem normRange_ge {r : Nat} (h : 1 ≤ r) : 2 ^ 23 ≤ normRange r := by
  unfold normRange normShifts
  split_ifs <;> omega

theorem normRange_lt {r : Nat} (h : r < 2 ^ 31) : normRange r < 2 ^ 31 := by
  unfold normRange normShifts
  split_ifs <;> omega

theorem normShifts_le (r : Nat) : normShifts r ≤ 3 := by
  unfold normShifts
  split_ifs <;> omega

/-- EncNormalize (R204). -/
theorem encNormalize_spec (s : State) (h : 1 ≤ s.regs.rcRange.toNat) :
    Ends encNormalize s (fun _ t => Shifted s t (normShifts s.regs.rcRange.toNat))
      (EncodeStops s 0 (normShifts s.regs.rcRange.toNat)) := by
  refine (encNormalizeWithin_spec 3 s (by omega)).mono ?_ ?_
  · rintro _ t ⟨k, hk, hs, h1, h2⟩
    rw [← normShifts_eq hk h1 h2]
    exact hs
  · rintro e t ⟨k, hk, h2, h⟩
    exact h.mono (normShifts_ge hk h2)

/-! ### Narrowing and the coding procedures (R201, R207, R209, R211) -/

/-- From `s` to `t` the window low has moved up by `v` and R is `n`; no byte has left. -/
structure Narrowed (s t : State) (v n : Nat) : Prop where
  erased : encoderErased t = encoderErased s
  port : t.outPort = s.outPort
  count : t.regs.outCount = s.regs.outCount
  range : t.regs.rcRange.toNat = n
  buffer : t.regs.rcBuffer.toNat = (s.regs.rcBuffer.toNat + v) % 2 ^ 31
  carry : t.regs.carry = (s.regs.carry || decide (2 ^ 31 ≤ s.regs.rcBuffer.toNat + v))
  low : windowLow t.regs = windowLow s.regs + v
  valid : t.regs.delayValid = s.regs.delayValid
  delay : t.regs.delay = s.regs.delay
  run : t.regs.ffrun = s.regs.ffrun

theorem Narrowed.shiftedOut {s t : State} {v n : Nat} (h : Narrowed s t v n) : shiftedOut t = shiftedOut s := by
  simp only [Machine.shiftedOut, h.port, h.valid, h.delay, h.run]

theorem Narrowed.follows {s t : State} {v n : Nat} (h : Narrowed s t v n) : Follows s t v 0 := by
  refine ⟨?_, by simpa using h.buffer⟩
  simp only [outSide, outSideAfter_zero, h.port, h.carry, h.valid, h.delay, h.run]

theorem Narrowed.value {s t : State} {v n : Nat} (h : Narrowed s t v n) : codeValue t = codeValue s + v := by
  rw [codeValue, codeValue, h.shiftedOut, h.low, Nat.add_assoc]

/-- What CarryAdd leaves (R201). -/
structure Carried (s t : State) (v : Nat) : Prop where
  erased : encoderErased t = encoderErased s
  port : t.outPort = s.outPort
  count : t.regs.outCount = s.regs.outCount
  range : t.regs.rcRange = s.regs.rcRange
  buffer : t.regs.rcBuffer.toNat = (s.regs.rcBuffer.toNat + v) % 2 ^ 31
  carry : t.regs.carry = (s.regs.carry || decide (2 ^ 31 ≤ s.regs.rcBuffer.toNat + v))
  low : windowLow t.regs = windowLow s.regs + v
  valid : t.regs.delayValid = s.regs.delayValid
  delay : t.regs.delay = s.regs.delay
  run : t.regs.ffrun = s.regs.ffrun

theorem carryAdd_spec (v : Nat) (s : State) (hv : v < 2 ^ 31) :
    Ends (carryAdd v) s (fun _ t => Carried s t v)
      (fun e t => t = s ∧ e = .raise .carryOverflow ∧ s.regs.carry = true ∧ 2 ^ 31 ≤ s.regs.rcBuffer.toNat + v) := by
  unfold carryAdd setBuffer
  refine Ends.bind (Q := fun r t => r = s.regs ∧ t = s) (ends_getRegs ⟨rfl, rfl⟩) ?_
  rintro r t ⟨rfl, rfl⟩
  have hB := t.regs.rcBuffer.isLt
  split
  · next h =>
    refine ends_modifyRegs ⟨rfl, rfl, rfl, rfl, ?_, ?_, ?_, rfl, rfl, rfl⟩
    · simp
    · rw [decide_eq_false (by omega), Bool.or_false]
    · simp only [windowLow, BitVec.toNat_ofNat]
      rw [Nat.mod_eq_of_lt (by omega)]
      omega
  · next h =>
    split
    · next hc => exact ends_raise ⟨rfl, rfl, hc, by omega⟩
    · next hc =>
      have hc : t.regs.carry = false := by simpa using hc
      refine ends_modifyRegs ⟨rfl, rfl, rfl, rfl, ?_, ?_, ?_, rfl, rfl, rfl⟩
      · simp
      · rw [decide_eq_true (by omega), Bool.or_true]
      · simp only [windowLow, BitVec.toNat_ofNat, hc, flag, if_true]
        simp
        omega

/-- CarryAdd of what the interval can take does not overflow (R216). -/
theorem CoderMid.no_overflow {r : Regs} {v n : Nat} (h : CoderMid r) (hn : 1 ≤ n) (hle : v + n ≤ r.rcRange.toNat) :
    ¬(r.carry = true ∧ 2 ^ 31 ≤ r.rcBuffer.toNat + v) := by
  rintro ⟨hc, hb⟩
  have := h.window
  simp only [windowLow, hc, flag, if_true] at this
  omega

theorem setRange_spec (n : Nat) (s : State) (hn : n < 2 ^ 31) :
    Ends (setRange n) s (fun _ t => t = { s with regs := { s.regs with rcRange := BitVec.ofNat 31 n } }) (fun _ _ => False) := by
  unfold setRange
  refine Ends.bind (Q := fun r t => r = BitVec.ofNat 31 n ∧ t = s) (ends_checkedFit hn ⟨rfl, rfl⟩) ?_
  rintro _ _ ⟨rfl, rfl⟩
  exact ends_modifyRegs rfl

/-- CarryAdd, then R <- n: the sub-interval of n from v on. -/
theorem narrow_spec {x : Cmd Unit} (v n : Nat) (s : State)
    (hx : Ends x s (fun _ t => Narrowed s t v n)
      (fun e t => t = s ∧ e = .raise .carryOverflow ∧ s.regs.carry = true ∧ 2 ^ 31 ≤ s.regs.rcBuffer.toNat + v))
    (hn : 1 ≤ n) (hle : v + n ≤ s.regs.rcRange.toNat) :
    Ends (do x; encNormalize) s (fun _ t => Encoded s t v n ∧ encoderErased t = encoderErased s)
      (EncodeStops s v (normShifts n)) := by
  refine Ends.bind (hx.mono (fun _ _ h => h) ?_) fun _ u hu => ?_
  · rintro e t ⟨rfl, rfl, h⟩
    exact ⟨rfl, .inr (.inr ⟨rfl, fun hm => hm.no_overflow hn hle h⟩)⟩
  have hmid : CoderMid s.regs → CoderMid u.regs := fun h => h.narrow hu.low hu.range hn hle hu.valid hu.delay hu.run
  have hsent : Sent s u := Sent.refl hu.port hu.count
  refine (encNormalize_spec u (by rw [hu.range]; exact hn)).mono (fun _ t ht => ?_) fun e t h => ?_
  · rw [hu.range] at ht
    refine ⟨⟨?_, ?_, ?_, by rw [ht.length, hu.shiftedOut], fun h => ?_, ?_, ?_, ?_, ?_, hsent.trans ht.sent⟩, ht.erased.trans hu.erased⟩
    · rw [ht.range, hu.range]; rfl
    · rw [ht.buffer, hu.buffer, Nat.mod_mul_mod]
    · rw [ht.value, hu.value]
    · refine (ht.mid (hmid h.mid)).inv ?_
      rw [ht.range, hu.range]
      exact normRange_ge hn
    · rw [← hu.port]; exact ht.accepts
    · rw [← hu.run]; exact ht.run
    · simpa using (hu.follows.trans ht.follows).side
    · simpa using hu.follows.bounded (fun _ h => absurd h (Nat.not_lt_zero _)) ht.bounded
  · rw [hu.range] at h
    simpa using h.after hu.follows hsent hu.erased (fun _ h => absurd h (Nat.not_lt_zero _)) fun _ => hmid

/-- A step that moves the window low by nothing leaves CARRY as it was. -/
theorem carry_still (r : Regs) : (r.carry || decide (2 ^ 31 ≤ r.rcBuffer.toNat + 0)) = r.carry := by
  have := r.rcBuffer.isLt
  rw [decide_eq_false (by omega), Bool.or_false]

/-- A flag's split (R207): `256 <= h < R`. -/
theorem flagSplit_bounds {r : Regs} {p : Nat} (hr : 2 ^ 23 ≤ r.rcRange.toNat) (hp : 1 ≤ p) (hp' : p < 2 ^ 15) :
    256 ≤ flagSplit r p ∧ flagSplit r p < r.rcRange.toNat := by
  unfold flagSplit
  rw [Nat.shiftRight_eq_div_pow]
  have h1 : 256 ≤ r.rcRange.toNat / 2 ^ 15 := by omega
  have h2 : r.rcRange.toNat / 2 ^ 15 * 2 ^ 15 ≤ r.rcRange.toNat := Nat.div_mul_le_self _ _
  constructor
  · exact le_trans h1 (Nat.le_mul_of_pos_right _ hp)
  · have : r.rcRange.toNat / 2 ^ 15 * p < r.rcRange.toNat / 2 ^ 15 * 2 ^ 15 := Nat.mul_lt_mul_of_pos_left hp' (by omega)
    omega

/-- How far EncFlag moves the window low up (R207). -/
def encFlagLow (r : Regs) (p : Nat) (m : Bool) : Nat := if m then 0 else flagSplit r p

/-- R before EncFlag's normalization (R207). -/
def encFlagRange (r : Regs) (p : Nat) (m : Bool) : Nat := if m then flagSplit r p else r.rcRange.toNat - flagSplit r p

/-- EncFlag(p, m) (R207), with the byte at which it can stop. -/
theorem encFlag_stops (p : Nat) (m : Bool) (s : State) (hr : 2 ^ 23 ≤ s.regs.rcRange.toNat) (hp : 1 ≤ p) (hp' : p < 2 ^ 15) :
    Ends (encFlag p m) s
      (fun _ t => Encoded s t (encFlagLow s.regs p m) (encFlagRange s.regs p m) ∧ encoderErased t = encoderErased s)
      (EncodeStops s (encFlagLow s.regs p m) (normShifts (encFlagRange s.regs p m))) := by
  obtain ⟨h1, h2⟩ := flagSplit_bounds hr hp hp'
  have hR := s.regs.rcRange.isLt
  refine narrow_spec _ _ s ?_ ?_ ?_
  · unfold encFlagNarrow
    refine Ends.bind (Q := fun r t => r = s.regs ∧ t = s) (ends_getRegs ⟨rfl, rfl⟩) ?_
    rintro r t ⟨rfl, rfl⟩
    cases m with
    | true =>
      refine (setRange_spec (flagSplit t.regs p) t (by omega)).mono ?_ (fun _ _ h => h.elim)
      rintro _ _ rfl
      refine ⟨rfl, rfl, rfl, ?_, ?_, (carry_still _).symm, by simp [encFlagLow, windowLow], rfl, rfl, rfl⟩
      · simp [encFlagRange]; omega
      · have := t.regs.rcBuffer.isLt
        simp [encFlagLow]; omega
    | false =>
      refine Ends.bind (carryAdd_spec _ t (by omega)) fun _ u hu => ?_
      refine Ends.bind (Q := fun d w => d = t.regs.rcRange.toNat - flagSplit t.regs p ∧ w = u)
        (ends_checkedSub (by omega) ⟨rfl, rfl⟩) ?_
      rintro _ _ ⟨rfl, rfl⟩
      refine (setRange_spec _ _ (by omega)).mono ?_ (fun _ _ h => h.elim)
      rintro _ _ rfl
      refine ⟨hu.erased ▸ rfl, hu.port, hu.count, ?_, hu.buffer, hu.carry, hu.low, hu.valid, hu.delay, hu.run⟩
      simp [encFlagRange]; omega
  · unfold encFlagRange; split <;> omega
  · unfold encFlagLow encFlagRange; split <;> omega

/-- EncFlag(p, m) (R207). -/
theorem encFlag_spec (p : Nat) (m : Bool) (s : State) (hr : 2 ^ 23 ≤ s.regs.rcRange.toNat) (hp : 1 ≤ p) (hp' : p < 2 ^ 15) :
    Ends (encFlag p m) s
      (fun _ t => Encoded s t (encFlagLow s.regs p m) (encFlagRange s.regs p m) ∧ encoderErased t = encoderErased s)
      (EncodeFails 3 s) :=
  (encFlag_stops p m s hr hp hp').mono (fun _ _ h => h) fun _ _ h => h.fails (normShifts_le _)

/-- How far EncEos moves the window low up (R209). -/
def encEosLow (r : Regs) (last : Bool) : Nat := if last then r.rcRange.toNat - 1 else 0

/-- R before EncEos's normalization (R209). -/
def encEosRange (r : Regs) (last : Bool) : Nat := if last then 1 else r.rcRange.toNat - 1

/-- EncEos(last) (R209), with the byte at which it can stop. -/
theorem encEos_stops (last : Bool) (s : State) (hr : 2 ^ 23 ≤ s.regs.rcRange.toNat) :
    Ends (encEos last) s
      (fun _ t => Encoded s t (encEosLow s.regs last) (encEosRange s.regs last) ∧ encoderErased t = encoderErased s)
      (EncodeStops s (encEosLow s.regs last) (normShifts (encEosRange s.regs last))) := by
  have hR := s.regs.rcRange.isLt
  refine narrow_spec _ _ s ?_ ?_ ?_
  · unfold encEosNarrow
    refine Ends.bind (Q := fun r t => r = s.regs ∧ t = s) (ends_getRegs ⟨rfl, rfl⟩) ?_
    rintro r t ⟨rfl, rfl⟩
    refine Ends.bind (Q := fun d w => d = t.regs.rcRange.toNat - 1 ∧ w = t) (ends_checkedSub (by omega) ⟨rfl, rfl⟩) ?_
    rintro _ _ ⟨rfl, rfl⟩
    cases last with
    | true =>
      refine Ends.bind (carryAdd_spec _ _ (by omega)) fun _ u hu => ?_
      refine (setRange_spec _ _ (by omega)).mono ?_ (fun _ _ h => h.elim)
      rintro _ _ rfl
      exact ⟨hu.erased ▸ rfl, hu.port, hu.count, rfl, hu.buffer, hu.carry, hu.low, hu.valid, hu.delay, hu.run⟩
    | false =>
      refine (setRange_spec _ _ (by omega)).mono ?_ (fun _ _ h => h.elim)
      rintro _ _ rfl
      refine ⟨rfl, rfl, rfl, ?_, ?_, (carry_still _).symm, by simp [encEosLow, windowLow], rfl, rfl, rfl⟩
      · simp [encEosRange]; omega
      · rename_i w _
        have := w.regs.rcBuffer.isLt
        simp [encEosLow]; omega
  · unfold encEosRange; split <;> omega
  · unfold encEosLow encEosRange; split <;> omega

/-- EncEos(last) (R209). -/
theorem encEos_spec (last : Bool) (s : State) (hr : 2 ^ 23 ≤ s.regs.rcRange.toNat) :
    Ends (encEos last) s
      (fun _ t => Encoded s t (encEosLow s.regs last) (encEosRange s.regs last) ∧ encoderErased t = encoderErased s)
      (EncodeFails 3 s) :=
  (encEos_stops last s hr).mono (fun _ _ h => h) fun _ _ h => h.fails (normShifts_le _)

/-- The bounds of a scaled interval (R211). -/
theorem interval_bounds {R cum freq tot : Nat} (ht : 1 ≤ tot) (hf : 1 ≤ freq) (hc : cum + freq ≤ tot) (hR : tot ≤ R) :
    1 ≤ R / tot * freq ∧ cum * (R / tot) + R / tot * freq ≤ R := by
  have h1 : 1 ≤ R / tot := Nat.div_pos hR ht
  constructor
  · exact Nat.mul_pos h1 hf
  · calc cum * (R / tot) + R / tot * freq = R / tot * (cum + freq) := by ring
      _ ≤ R / tot * tot := Nat.mul_le_mul_left _ hc
      _ ≤ R := Nat.div_mul_le_self _ _

/-- EncFreq(cum, freq, tot) (R211), with the byte at which it can stop. -/
theorem encFreq_stops (cum freq tot : Nat) (s : State) (ht : 1 ≤ tot) (hf : 1 ≤ freq) (hc : cum + freq ≤ tot)
    (hR : tot ≤ s.regs.rcRange.toNat) :
    Ends (encFreq cum freq tot) s
      (fun _ t => Encoded s t (cum * (s.regs.rcRange.toNat / tot)) (s.regs.rcRange.toNat / tot * freq) ∧
        encoderErased t = encoderErased s)
      (EncodeStops s (cum * (s.regs.rcRange.toNat / tot)) (normShifts (s.regs.rcRange.toNat / tot * freq))) := by
  obtain ⟨h1, h2⟩ := interval_bounds ht hf hc hR
  have hlt := s.regs.rcRange.isLt
  unfold encFreq
  refine Ends.bind (Q := fun r t => r = s.regs ∧ t = s) (ends_getRegs ⟨rfl, rfl⟩) ?_
  rintro r t ⟨rfl, rfl⟩
  refine Ends.bind (Q := fun d w => d = t.regs.rcRange.toNat / tot ∧ w = t) (ends_checkedDiv (by omega) ⟨rfl, rfl⟩) ?_
  rintro _ w ⟨rfl, rfl⟩
  rw [← bind_assoc]
  refine narrow_spec _ _ w ?_ h1 h2
  refine Ends.bind (carryAdd_spec _ _ (by omega)) fun _ u hu => ?_
  refine (setRange_spec _ _ (by omega)).mono ?_ (fun _ _ h => h.elim)
  rintro _ _ rfl
  refine ⟨hu.erased ▸ rfl, hu.port, hu.count, ?_, hu.buffer, hu.carry, hu.low, hu.valid, hu.delay, hu.run⟩
  simp; omega

/-- EncFreq(cum, freq, tot) (R211). -/
theorem encFreq_spec (cum freq tot : Nat) (s : State) (ht : 1 ≤ tot) (hf : 1 ≤ freq) (hc : cum + freq ≤ tot)
    (hR : tot ≤ s.regs.rcRange.toNat) :
    Ends (encFreq cum freq tot) s
      (fun _ t => Encoded s t (cum * (s.regs.rcRange.toNat / tot)) (s.regs.rcRange.toNat / tot * freq) ∧
        encoderErased t = encoderErased s)
      (EncodeFails 3 s) :=
  (encFreq_stops cum freq tot s ht hf hc hR).mono (fun _ _ h => h) fun _ _ h => h.fails (normShifts_le _)

/-! ### The flush (R214) -/

/-- What one EncShift leaves, whatever R is (R203). -/
structure ShiftedOnce (s t : State) : Prop where
  erased : encoderErased t = encoderErased s
  range : t.regs.rcRange = s.regs.rcRange
  buffer : t.regs.rcBuffer.toNat = s.regs.rcBuffer.toNat * 256 % 2 ^ 31
  value : codeValue t = codeValue s * 256
  length : (shiftedOut t).length = (shiftedOut s).length + 1
  carry : t.regs.carry = false
  accepts : acceptsAll s.outPort → acceptsAll t.outPort
  run : t.regs.ffrun.toNat ≤ s.regs.ffrun.toNat + 1
  follows : Follows s t 0 1
  bounded : ¬runFull s 0 0
  sent : Sent s t
  emptied : s.regs.rcBuffer = 0#31 → t.regs.delayValid = true ∧ t.regs.delay = 0#8 ∧ t.regs.ffrun = 0#32

theorem encShift_once (s : State) : Ends encShift s (fun _ t => ShiftedOnce s t) (EncoderFails (s.regs.rcBuffer.extractLsb' 23 8) s) := by
  refine (encShift_spec s).mono ?_ fun _ _ h => h
  rintro _ _ ⟨u, hu, rfl⟩
  have hsplit := window_split s.regs.rcBuffer
  have hbuf : (u.regs.rcBuffer <<< 8).toNat = (s.regs.rcBuffer <<< 8).toNat := by rw [hu.buffer]
  have hlow : windowLow { u.regs with rcBuffer := u.regs.rcBuffer <<< 8 } = (s.regs.rcBuffer <<< 8).toNat := by
    simp [windowLow, hu.carry, flag, hu.buffer]
  have hb : (u.regs.rcBuffer <<< 8).toNat = s.regs.rcBuffer.toNat * 256 % 2 ^ 31 := by
    rw [hbuf]
    simp [BitVec.toNat_shiftLeft, Nat.shiftLeft_eq]
  refine ⟨?_, hu.range, hb, ?_, hu.length, hu.carry, hu.accepts, hu.run, ⟨(outSideAfter_one s).symm ▸ hu.side, by simpa using hb⟩,
    fun h => hu.bounded ((runFull_zero s).mp h), hu.sent, fun h => ?_⟩
  · rw [← hu.erased]; rfl
  · show bytesValue (shiftedOut u) * 2 ^ 31 + windowLow { u.regs with rcBuffer := u.regs.rcBuffer <<< 8 } = _
    rw [hlow, hu.value]
    unfold codeValue windowLow
    generalize bytesValue (shiftedOut s) = V
    generalize flag s.regs.carry = c
    generalize (s.regs.rcBuffer <<< 8).toNat = L at *
    generalize s.regs.rcBuffer.toNat = B at *
    generalize (s.regs.rcBuffer.extractLsb' 23 8).toNat = T at *
    calc ((V + c) * 256 + T) * 2 ^ 31 + L = (V + c) * 256 * 2 ^ 31 + (T * 2 ^ 31 + L) := by ring
      _ = _ := by rw [← hsplit]; ring
  · have hx : s.regs.rcBuffer.extractLsb' 23 8 = 0#8 := by rw [h]; decide
    rcases hu.delayed with ⟨h1, h2, h3, -⟩ | ⟨h1, -⟩
    · exact ⟨h1, h2.trans hx, h3⟩
    · rw [hx] at h1; exact absurd h1 (by decide)

/-- What Flush leaves (R214): the code value, five bytes further up; an empty window; one zero byte delayed. -/
structure Flushed (s t : State) : Prop where
  erased : encoderErased t = encoderErased s
  range : t.regs.rcRange = s.regs.rcRange
  buffer : t.regs.rcBuffer = 0#31
  carry : t.regs.carry = false
  run : t.regs.ffrun = 0#32
  valid : t.regs.delayValid = true
  delay : t.regs.delay = 0#8
  length : t.outPort.taken.length = (shiftedOut s).length + 4
  value : bytesValue t.outPort.taken = codeValue s * 2
  accepts : acceptsAll s.outPort → acceptsAll t.outPort
  follows : Follows s t 0 5
  bounded : ∀ j < 5, ¬runFull s 0 j
  sent : Sent s t

/-- Several shifts of Flush. -/
structure ShiftedBy (s t : State) (k : Nat) : Prop where
  erased : encoderErased t = encoderErased s
  range : t.regs.rcRange = s.regs.rcRange
  buffer : t.regs.rcBuffer.toNat = s.regs.rcBuffer.toNat * 256 ^ k % 2 ^ 31
  value : codeValue t = codeValue s * 256 ^ k
  length : (shiftedOut t).length = (shiftedOut s).length + k
  carry : t.regs.carry = false
  accepts : acceptsAll s.outPort → acceptsAll t.outPort
  run : t.regs.ffrun.toNat ≤ s.regs.ffrun.toNat + k
  follows : Follows s t 0 k
  bounded : ∀ j < k, ¬runFull s 0 j
  sent : Sent s t

theorem ShiftedOnce.none {s t : State} (h : ShiftedOnce s t) : ∀ j < 1, ¬runFull s 0 j := fun j hj => by
  obtain rfl : j = 0 := by omega
  exact h.bounded

theorem ShiftedBy.step {s t u : State} {k : Nat} (h : ShiftedBy s t k) (h' : ShiftedOnce t u) : ShiftedBy s u (k + 1) := by
  refine ⟨h'.erased.trans h.erased, h'.range.trans h.range, ?_, ?_, by rw [h'.length, h.length, Nat.add_assoc], h'.carry,
    h'.accepts ∘ h.accepts, ?_, h.follows.trans h'.follows, h.follows.bounded h.bounded h'.none, h.sent.trans h'.sent⟩
  · rw [h'.buffer, h.buffer, Nat.mod_mul_mod, mul_assoc, ← pow_succ]
  · rw [h'.value, h.value, pow_succ, mul_assoc]
  · have := h.run; have := h'.run; omega

theorem ShiftedOnce.by_one {s t : State} (h : ShiftedOnce s t) : ShiftedBy s t 1 :=
  ⟨h.erased, h.range, by simpa using h.buffer, by simpa using h.value, h.length, h.carry, h.accepts, h.run, h.follows, h.none, h.sent⟩

/-- One more shift of Flush, after one at least: it ends only as the port or the run counter makes it. -/
theorem ShiftedBy.next {s t : State} {k : Nat} (h : ShiftedBy s t k) :
    Ends encShift t (fun _ u => ShiftedBy s u (k + 1) ∧ ShiftedOnce t u) (EncodeStops s 0 (k + 1)) := by
  refine (encShift_once t).mono (fun _ u hu => ⟨h.step hu, hu⟩) fun e u hu => ?_
  refine hu.stops.after h.follows h.sent h.erased h.bounded ?_
  rintro rfl
  rcases hu.2 with ⟨-, n, -, -, -, ⟨h1, -⟩ | ⟨h1, -⟩⟩ | ⟨h1, -⟩ | ⟨-, h1, -⟩
  · cases h1
  · cases h1
  · cases h1
  · rw [h.carry] at h1; cases h1

theorem EncodeFails.mono {m n : Nat} {s t : State} {e : Abort} (h : EncodeFails m s e t) (hmn : m ≤ n) : EncodeFails n s e t :=
  ⟨h.1, h.2.imp id (Or.imp (fun h => ⟨h.1, by have := h.2; omega⟩) id)⟩

/-- Flush (R214), with the byte at which it can stop. -/
theorem flushCoder_stops (s : State) : Ends flushCoder s (fun _ t => Flushed s t) (EncodeStops s 0 5) := by
  unfold flushCoder
  refine Ends.bind ((encShift_once s).mono (fun _ _ h => h.by_one) fun _ _ h => h.stops.mono (by omega)) fun _ t1 h1 => ?_
  refine Ends.bind (h1.next.mono (fun _ _ h => h.1) fun _ _ h => h.mono (by omega)) fun _ t2 h2 => ?_
  refine Ends.bind (h2.next.mono (fun _ _ h => h.1) fun _ _ h => h.mono (by omega)) fun _ t3 h3 => ?_
  refine Ends.bind (h3.next.mono (fun _ _ h => h.1) fun _ _ h => h.mono (by omega)) fun _ t4 h4 => ?_
  refine h4.next.mono ?_ fun _ _ h => h
  rintro _ t ⟨h5, h5'⟩
  have hb4 : t4.regs.rcBuffer = 0#31 := by
    apply BitVec.eq_of_toNat_eq
    rw [h4.buffer]
    have : s.regs.rcBuffer.toNat * 256 ^ 4 = s.regs.rcBuffer.toNat * 2 * 2 ^ 31 := by ring
    rw [this, Nat.mul_mod_left]
    rfl
  obtain ⟨hv, hd, hr⟩ := h5'.emptied hb4
  have hb : t.regs.rcBuffer = 0#31 := by
    apply BitVec.eq_of_toNat_eq
    rw [h5'.buffer, hb4]
    rfl
  have hs : shiftedOut t = t.outPort.taken ++ [0#8] := by simp [shiftedOut, hv, hd, hr]
  refine ⟨h5.erased, h5.range, hb, h5.carry, hr, hv, hd, ?_, ?_, h5.accepts, h5.follows, h5.bounded, h5.sent⟩
  · have := h5.length
    rw [hs, List.length_append, List.length_singleton] at this
    omega
  · have := h5.value
    rw [codeValue, hs, bytesValue_append, windowLow, hb, h5.carry] at this
    simp [flag] at this
    generalize bytesValue t.outPort.taken = X at *
    generalize codeValue s = Y at *
    omega

/-- Flush (R214). -/
theorem flushCoder_spec (s : State) : Ends flushCoder s (fun _ t => Flushed s t) (EncodeFails 5 s) :=
  (flushCoder_stops s).mono (fun _ _ h => h) fun _ _ h => h.fails le_rfl

end Sys2Proof.Machine
end

