-- ==== Sys2Proof/Laws/Decoder.lean ====
section
/-! SUPPORT. What the decoder's procedures can do (R205, R206, R208, R210, R212, R213), said once for each: what it leaves, and how it
can end otherwise. -/

namespace Sys2Proof.Machine

/-! ### The input port -/

theorem givesBytes.mono {p : InPort} {m n : Nat} (h : givesBytes p n) (hm : m ≤ n) : givesBytes p m := by
  obtain ⟨h1, h2, h3⟩ := h
  refine ⟨h1, by omega, fun a ha => h3 a ?_⟩
  rw [← List.take_append_drop m (p.answers.take n), List.take_take, Nat.min_eq_left hm]
  exact List.mem_append_left _ ha

/-- What a port that has answered answers then. -/
theorem inAnswerAt_next {p q : InPort} {a : InAnswer} (h : nextInAnswer p = some (a, q)) :
    inAnswerAt p 0 = some a ∧ (∀ b, a = .byte b → ∀ k, inAnswerAt q k = inAnswerAt p (1 + k)) := by
  unfold nextInAnswer at h
  split at h
  · next he =>
    simp only [Option.some.injEq, Prod.mk.injEq] at h
    obtain ⟨rfl, rfl⟩ := h
    exact ⟨by simp [inAnswerAt, he], fun b hb => by cases hb⟩
  · next he =>
    split at h
    · next a' l ha =>
      simp only [Option.some.injEq, Prod.mk.injEq] at h
      obtain ⟨rfl, rfl⟩ := h
      exact ⟨by simp [inAnswerAt, he, ha], fun b hb k => by subst hb; simp [inAnswerAt, he, ha, Nat.add_comm 1 k]⟩
    · next ha =>
      split at h
      · next a' hr =>
        simp only [Option.some.injEq, Prod.mk.injEq] at h
        obtain ⟨rfl, rfl⟩ := h
        exact ⟨by simp [inAnswerAt, he, ha, hr], fun b hb k => by subst hb; simp [inAnswerAt, he, ha, hr]⟩
      · cases h

/-- A port without a next answer. -/
theorem inAnswerAt_none {p : InPort} (h : nextInAnswer p = none) : inAnswerAt p 0 = none := by
  unfold nextInAnswer at h
  split at h
  · cases h
  · next he =>
    split at h
    · cases h
    · next ha =>
      split at h
      · cases h
      · next hr => simp [inAnswerAt, he, ha, hr]

/-- A port about to give bytes answers with them. -/
theorem givesBytes.answered {p : InPort} {n m : Nat} (h : givesBytes p n) (hm : m < n) : ∃ b, inAnswerAt p m = some (.byte b) := by
  obtain ⟨h1, h2, h3⟩ := h
  have hl : m < p.answers.length := by omega
  obtain ⟨b, hb⟩ := h3 p.answers[m] (List.mem_take_iff_getElem.mpr ⟨m, by omega, rfl⟩)
  exact ⟨b, by simp [inAnswerAt, h1, hl, hb]⟩

/-- From `s` to `t` the input port has answered `k` requests with bytes, and goes on from there. -/
structure Asked (s t : State) (k : Nat) : Prop where
  bytes : bytesFirst s.inPort k
  later : ∀ j, inAnswerAt t.inPort j = inAnswerAt s.inPort (k + j)

theorem Asked.refl {s t : State} (h : t.inPort = s.inPort) : Asked s t 0 :=
  ⟨fun _ h => absurd h (Nat.not_lt_zero _), fun j => by rw [h, Nat.zero_add]⟩

theorem Asked.more {s t : State} {j k : Nat} (h : Asked s t j) (h' : bytesFirst t.inPort k) : bytesFirst s.inPort (j + k) := by
  intro m hm
  by_cases hj : m < j
  · exact h.bytes m hj
  · obtain ⟨b, hb⟩ := h' (m - j) (by omega)
    rw [h.later, show j + (m - j) = m by omega] at hb
    exact ⟨b, hb⟩

theorem Asked.trans {s t u : State} {j k : Nat} (h : Asked s t j) (h' : Asked t u k) : Asked s u (j + k) :=
  ⟨h.more h'.bytes, fun m => by rw [h'.later, h.later, Nat.add_assoc]⟩

/-- What InRead leaves when it returns `b` (R79). -/
structure Read (s t : State) (b : Byte) : Prop where
  state : t = { s with inPort := t.inPort, regs := { s.regs with inCount := s.regs.inCount + 1#64 } }
  answers : givesBytes s.inPort 1 → t.inPort.answers = s.inPort.answers.drop 1
  coming : ∀ n, givesBytes s.inPort (n + 1) →
    givesBytes t.inPort n ∧ comingBytes s.inPort (n + 1) = b :: comingBytes t.inPort n
  asked : Asked s t 1

/-- How a decode procedure that reads at most `n` bytes ends that does not end in an answer: one request is answered with the end mark,
or a port error, or not answered yet, those before it with bytes. -/
def ReadFails (n : Nat) (s : State) (e : Abort) (t : State) : Prop :=
  decoderErased t = decoderErased s ∧
    ∃ m < n, bytesFirst s.inPort m ∧
      (e = .wait ∧ inAnswerAt s.inPort m = none ∨ e = .raise .unexpectedEndOfInput ∧ inAnswerAt s.inPort m = some .endMark ∨
        e = .raise .ioFailure ∧ inAnswerAt s.inPort m = some .error)

theorem ReadFails.mono {m n : Nat} {s t : State} {e : Abort} (h : ReadFails m s e t) (hmn : m ≤ n) : ReadFails n s e t := by
  obtain ⟨h1, k, hk, h2⟩ := h
  exact ⟨h1, k, by omega, h2⟩

theorem ReadFails.cause {n : Nat} {s t : State} {e : Abort} (h : ReadFails n s e t) :
    e = .wait ∨ e = .raise .unexpectedEndOfInput ∨ e = .raise .ioFailure := by
  obtain ⟨-, m, -, -, ⟨h, -⟩ | ⟨h, -⟩ | ⟨h, -⟩⟩ := h
  · exact .inl h
  · exact .inr (.inl h)
  · exact .inr (.inr h)

/-- It does not end so where the port is about to give the bytes. -/
theorem ReadFails.short {n : Nat} {s t : State} {e : Abort} (h : ReadFails n s e t) : ¬givesBytes s.inPort n := by
  obtain ⟨-, m, hm, -, h⟩ := h
  intro hg
  obtain ⟨b, hb⟩ := hg.answered hm
  rcases h with ⟨-, h⟩ | ⟨-, h⟩ | ⟨-, h⟩ <;> rw [hb] at h <;> cases h

/-- A procedure that stops after it has read some bytes. -/
theorem ReadFails.from {k n : Nat} {s t u : State} {e : Abort} (h : ReadFails n t e u) (he : decoderErased t = decoderErased s)
    (ha : Asked s t k) : ReadFails (k + n) s e u := by
  obtain ⟨h1, m, hm, h2, h3⟩ := h
  exact ⟨h1.trans he, k + m, by omega, ha.more h2, by simpa only [← ha.later] using h3⟩

/-- A port about to give a byte gives it. -/
theorem nextInAnswer_of_gives {p : InPort} (h : givesBytes p 1) :
    ∃ b q, nextInAnswer p = some (.byte b, q) ∧ p.answers = .byte b :: q.answers ∧ q.ended = false := by
  obtain ⟨h1, h2, h3⟩ := h
  cases ha : p.answers with
  | nil => simp [ha] at h2
  | cons a rest =>
    obtain ⟨b, rfl⟩ := h3 a (by simp [ha])
    exact ⟨b, { p with answers := rest, used := p.used ++ [.byte b], ended := false }, by simp [nextInAnswer, h1, ha], rfl, rfl⟩

theorem inRead_spec (s : State) : Ends inRead s (fun b t => Read s t b) (ReadFails 1 s) := by
  refine ends_inRead (fun b p h => ?_) (fun p h => ?_) (fun p h => ?_) (fun h => ?_)
  · have hall : ∀ n, givesBytes s.inPort (n + 1) → s.inPort.answers = .byte b :: p.answers ∧ p.ended = false := by
      intro n hg
      obtain ⟨b', q, h1, h2, h3⟩ := nextInAnswer_of_gives (hg.mono (Nat.le_add_left 1 n))
      rw [h] at h1
      simp only [Option.some.injEq, Prod.mk.injEq, InAnswer.byte.injEq] at h1
      obtain ⟨rfl, rfl⟩ := h1
      exact ⟨h2, h3⟩
    obtain ⟨h0, hk⟩ := inAnswerAt_next h
    refine ⟨rfl, fun hg => ?_, fun n hg => ?_, ⟨fun m hm => ?_, hk b rfl⟩⟩
    · rw [(hall 0 hg).1]; rfl
    · obtain ⟨ha, he⟩ := hall n hg
      obtain ⟨-, h2, h3⟩ := hg
      rw [ha] at h2 h3
      refine ⟨⟨he, by simpa using h2, fun a ha => h3 a ?_⟩, ?_⟩
      · rw [List.take_succ_cons]; exact List.mem_cons_of_mem _ ha
      · simp only [comingBytes, ha, List.take_succ_cons, List.filterMap_cons, answerByte]
    · obtain rfl : m = 0 := by omega
      exact ⟨b, h0⟩
  · exact ⟨rfl, 0, Nat.one_pos, fun _ h => absurd h (Nat.not_lt_zero _), .inr (.inl ⟨rfl, (inAnswerAt_next h).1⟩)⟩
  · exact ⟨rfl, 0, Nat.one_pos, fun _ h => absurd h (Nat.not_lt_zero _), .inr (.inr ⟨rfl, (inAnswerAt_next h).1⟩)⟩
  · exact ⟨rfl, 0, Nat.one_pos, fun _ h => absurd h (Nat.not_lt_zero _), .inl ⟨rfl, inAnswerAt_none h⟩⟩

/-! ### Normalization (R205) -/

/-- The window with LOOK's bit, after one byte has entered it (R205). -/
theorem decShift_window (B : BitVec 31) (look n : Byte) :
    (BitVec.ofNat 31 (B.toNat <<< 8 ||| (look.toNat % 2) <<< 7 ||| n.toNat >>> 1)).toNat * 2 + n.toNat % 2 =
      ((B.toNat * 2 + look.toNat % 2) * 256 + n.toNat) % 2 ^ 32 := by
  have hn := n.isLt
  have h1 : (look.toNat % 2) <<< 7 ||| n.toNat >>> 1 = (look.toNat % 2) * 128 + n.toNat / 2 := by
    rw [Nat.shiftRight_eq_div_pow, ← Nat.shiftLeft_add_eq_or_of_lt (by omega : n.toNat / 2 ^ 1 < 2 ^ 7), Nat.shiftLeft_eq]
    rfl
  have h2 : B.toNat <<< 8 ||| (look.toNat % 2) <<< 7 ||| n.toNat >>> 1 = B.toNat * 256 + ((look.toNat % 2) * 128 + n.toNat / 2) := by
    rw [Nat.or_assoc, h1, ← Nat.shiftLeft_add_eq_or_of_lt (by omega : _ < 2 ^ 8), Nat.shiftLeft_eq]
  rw [h2, BitVec.toNat_ofNat]
  omega

/-- What `k` turns of DecNormalize's loop leave. -/
structure Shifting (s t : State) (k : Nat) : Prop where
  erased : decoderErased t = decoderErased s
  range : t.regs.rcRange.toNat = s.regs.rcRange.toNat * 256 ^ k
  count : t.regs.inCount = s.regs.inCount + BitVec.ofNat 64 k
  gives : ∀ n, givesBytes s.inPort (k + n) → givesBytes t.inPort n ∧ comingBytes s.inPort (k + n) = comingBytes s.inPort k ++ comingBytes t.inPort n
  answers : givesBytes s.inPort k → t.inPort.answers = s.inPort.answers.drop k
  window : givesBytes s.inPort k → decoderWindow t.regs =
    (decoderWindow s.regs * 256 ^ k + bytesValue (comingBytes s.inPort k)) % 2 ^ 32
  look : givesBytes s.inPort k → t.regs.look = (comingBytes s.inPort k).getLastD s.regs.look
  asked : Asked s t k

theorem Shifting.refl (s : State) : Shifting s s 0 := by
  refine ⟨rfl, by simp, by simp, fun n h => ⟨by simpa using h, by simp [comingBytes]⟩, fun _ => by simp, fun _ => ?_,
    fun _ => by simp [comingBytes], Asked.refl rfl⟩
  have := s.regs.rcBuffer.isLt
  simp only [decoderWindow, comingBytes, List.take_zero, List.filterMap_nil, bytesValue_nil, pow_zero]
  omega

theorem comingBytes_length {p : InPort} {n : Nat} (h : givesBytes p n) : (comingBytes p n).length = n := by
  obtain ⟨-, h2, h3⟩ := h
  have : ∀ l : List InAnswer, (∀ a ∈ l, ∃ b, a = .byte b) →
      (l.filterMap answerByte).length = l.length := by
    intro l hl
    induction l with
    | nil => rfl
    | cons a l ih =>
      obtain ⟨b, rfl⟩ := hl a List.mem_cons_self
      simp [answerByte, ih fun a ha => hl a (List.mem_cons_of_mem _ ha)]
  rw [comingBytes, this _ h3, List.length_take, Nat.min_eq_left h2]

/-- One turn of DecNormalize's loop, and more after it. -/
theorem Shifting.cons {s t u v : State} {k : Nat} {n : Byte} (hr : Read s t n) (hlt : s.regs.rcRange.toNat < 2 ^ 23)
    (hu : u = { t with regs := { t.regs with
      rcBuffer := BitVec.ofNat 31 (t.regs.rcBuffer.toNat <<< 8 ||| (t.regs.look.toNat % 2) <<< 7 ||| n.toNat >>> 1)
      look := n
      rcRange := t.regs.rcRange <<< 8 } }) (h : Shifting u v k) : Shifting s v (k + 1) := by
  have hregs : t.regs = { s.regs with inCount := s.regs.inCount + 1#64 } := by rw [hr.state]
  have hup : u.inPort = t.inPort := by rw [hu]
  have hrange : u.regs.rcRange.toNat = s.regs.rcRange.toNat * 256 := by
    rw [hu, hregs]
    simp only [BitVec.toNat_shiftLeft, Nat.shiftLeft_eq]
    omega
  have hwin : decoderWindow u.regs = (decoderWindow s.regs * 256 + n.toNat) % 2 ^ 32 := by
    rw [hu, hregs]
    exact decShift_window _ _ _
  have hcoming : ∀ m, givesBytes s.inPort (m + 1) → givesBytes u.inPort m ∧ comingBytes s.inPort (m + 1) = n :: comingBytes u.inPort m := by
    rw [hup]; exact hr.coming
  have ha : Asked s u 1 := ⟨hr.asked.bytes, fun j => by rw [hup]; exact hr.asked.later j⟩
  refine ⟨?_, ?_, ?_, fun m hg => ?_, fun hg => ?_, fun hg => ?_, fun hg => ?_, Nat.add_comm 1 k ▸ ha.trans h.asked⟩
  · rw [h.erased, hu, hr.state]; rfl
  · rw [h.range, hrange, pow_succ, mul_assoc, mul_comm 256]
  · rw [h.count, hu, hregs]
    show s.regs.inCount + 1#64 + BitVec.ofNat 64 k = _
    rw [BitVec.add_assoc, Nat.add_comm k 1, BitVec.ofNat_add]
  · rw [Nat.add_right_comm] at hg ⊢
    obtain ⟨h1, h2⟩ := hcoming _ hg
    obtain ⟨h3, h4⟩ := h.gives m h1
    obtain ⟨-, h5⟩ := hcoming k (hg.mono (by omega))
    exact ⟨h3, by rw [h2, h4, h5, List.cons_append]⟩
  · rw [h.answers (hcoming k hg).1, hup, hr.answers (hg.mono (by omega)), List.drop_drop, Nat.add_comm]
  · obtain ⟨h1, h2⟩ := hcoming k hg
    rw [h.window h1, hwin, h2]
    have hlen := comingBytes_length h1
    have : bytesValue (n :: comingBytes u.inPort k) = n.toNat * 256 ^ k + bytesValue (comingBytes u.inPort k) := by
      rw [← List.singleton_append, bytesValue_append, bytesValue_singleton, hlen]
    rw [this, ← Nat.mod_add_mod, Nat.mod_mul_mod, Nat.mod_add_mod]
    congr 1
    ring
  · obtain ⟨h1, h2⟩ := hcoming k hg
    rw [h.look h1, h2, List.getLastD_cons, hu]

/-- A normalization below 2^23 takes one turn and then those of R << 8. -/
theorem normShifts_succ {r : Nat} (h1 : 1 ≤ r) (h : r < 2 ^ 23) : normShifts r = normShifts (r * 256) + 1 := by
  unfold normShifts
  split_ifs <;> omega

theorem normShifts_zero {r : Nat} (h : 2 ^ 23 ≤ r) : normShifts r = 0 := if_pos h

theorem decNormalizeWithin_spec (n : Nat) (s : State) (h1 : 1 ≤ s.regs.rcRange.toNat)
    (hn : 2 ^ 23 ≤ s.regs.rcRange.toNat * 256 ^ n) :
    Ends (decNormalizeWithin n) s (fun _ t => Shifting s t (normShifts s.regs.rcRange.toNat))
      (ReadFails (normShifts s.regs.rcRange.toNat) s) := by
  induction n generalizing s with
  | zero =>
    unfold decNormalizeWithin
    refine Ends.bind (Q := fun r t => r = s.regs ∧ t = s) (ends_getRegs ⟨rfl, rfl⟩) ?_
    rintro r t ⟨rfl, rfl⟩
    rw [if_neg (by omega), normShifts_zero (by omega)]
    exact ends_pure (Shifting.refl t)
  | succ n ih =>
    unfold decNormalizeWithin
    refine Ends.bind (Q := fun r t => r = s.regs ∧ t = s) (ends_getRegs ⟨rfl, rfl⟩) ?_
    rintro r t ⟨rfl, rfl⟩
    split
    · next hlt =>
      rw [normShifts_succ h1 hlt]
      refine Ends.bind ((inRead_spec t).mono (fun _ _ h => h) fun _ _ h => h.mono (by omega)) fun b u hu => ?_
      refine Ends.bind (Q := fun _ w => w = { u with regs := { u.regs with
        rcBuffer := BitVec.ofNat 31 (u.regs.rcBuffer.toNat <<< 8 ||| (u.regs.look.toNat % 2) <<< 7 ||| b.toNat >>> 1)
        look := b
        rcRange := u.regs.rcRange <<< 8 } }) (ends_modifyRegs rfl) fun _ w hw => ?_
      have hrange : w.regs.rcRange.toNat = t.regs.rcRange.toNat * 256 := by
        have hregs : u.regs = { t.regs with inCount := t.regs.inCount + 1#64 } := by rw [hu.state]
        rw [hw, hregs]
        simp only [BitVec.toNat_shiftLeft, Nat.shiftLeft_eq]
        omega
      have := ih w (by omega) (by rw [hrange, mul_assoc, ← pow_succ']; exact hn)
      rw [hrange] at this
      refine this.mono (fun _ v hv => Shifting.cons hu hlt hw hv) ?_
      intro e v h
      rw [Nat.add_comm]
      refine h.from (by rw [hw, hu.state]; rfl) ⟨hu.asked.bytes, fun j => ?_⟩
      rw [hw]
      exact hu.asked.later j
    · next hge =>
      rw [normShifts_zero (by omega)]
      exact ends_pure (Shifting.refl t)

/-- DecNormalize (R205). -/
theorem decNormalize_spec (s : State) (h : 1 ≤ s.regs.rcRange.toNat) :
    Ends decNormalize s (fun _ t => Shifting s t (normShifts s.regs.rcRange.toNat))
      (ReadFails (normShifts s.regs.rcRange.toNat) s) :=
  decNormalizeWithin_spec 3 s h (by omega)

/-! ### The decoding procedures (R208, R210, R212, R213) -/

/-- From `s` to `t` the decoder has taken `v` from its window, made R `n`, and normalized. -/
structure Taken (s t : State) (v n : Nat) : Prop where
  erased : decoderErased t = decoderErased s
  range : t.regs.rcRange.toNat = normRange n
  count : t.regs.inCount = s.regs.inCount + BitVec.ofNat 64 (normShifts n)
  gives : ∀ m, givesBytes s.inPort (normShifts n + m) → givesBytes t.inPort m ∧
    comingBytes s.inPort (normShifts n + m) = comingBytes s.inPort (normShifts n) ++ comingBytes t.inPort m
  decoded : givesBytes s.inPort (normShifts n) → Decoded s t v n
  asked : Asked s t (normShifts n)

/-- The window once `v` has been taken from it, R made `n`, then normalized. -/
theorem taken_of_shifting {s u : State} {v n : Nat} (hv : v ≤ s.regs.rcBuffer.toNat) (hn : 1 ≤ n) (hn' : n < 2 ^ 31)
    (hu : u = { s with regs := { s.regs with rcBuffer := BitVec.ofNat 31 (s.regs.rcBuffer.toNat - v), rcRange := BitVec.ofNat 31 n } }) :
    Ends decNormalize u (fun _ t => Taken s t v n) (ReadFails (normShifts n) s) := by
  have hrange : u.regs.rcRange.toNat = n := by rw [hu, BitVec.toNat_ofNat, Nat.mod_eq_of_lt hn']
  have hB := s.regs.rcBuffer.isLt
  have hwin : decoderWindow u.regs = decoderWindow s.regs - 2 * v := by
    rw [hu, decoderWindow, decoderWindow, BitVec.toNat_ofNat, Nat.mod_eq_of_lt (by omega)]
    show (s.regs.rcBuffer.toNat - v) * 2 + s.regs.look.toNat % 2 = _
    omega
  have h := decNormalize_spec u (by rw [hrange]; exact hn)
  rw [hrange] at h
  refine h.mono (fun _ t ht => ?_) fun e t ⟨he, h⟩ => ⟨by rw [he, hu]; rfl, by rw [hu] at h; exact h⟩
  have hport : u.inPort = s.inPort := by rw [hu]
  have hr : t.regs.rcRange.toNat = normRange n := by rw [ht.range, hrange]; rfl
  have hc : t.regs.inCount = s.regs.inCount + BitVec.ofNat 64 (normShifts n) := by rw [ht.count, hu]
  have hg := ht.gives
  have ha := ht.answers
  have hw := ht.window
  have hl := ht.look
  rw [hport] at hg ha hw hl
  rw [hwin] at hw
  exact ⟨by rw [ht.erased, hu]; rfl, hr, hc, hg, fun h => ⟨hr, hw h, by rw [hl h, hu], hc, ha h⟩,
    ⟨hport ▸ ht.asked.bytes, fun j => by rw [ht.asked.later, hport]⟩⟩

/-- What DecFlag takes from the window (R208). -/
def decFlagLow (r : Regs) (p : Nat) : Nat := if r.rcBuffer.toNat < flagSplit r p then 0 else flagSplit r p

/-- R before DecFlag's normalization (R208). -/
def decFlagRange (r : Regs) (p : Nat) : Nat :=
  if r.rcBuffer.toNat < flagSplit r p then flagSplit r p else r.rcRange.toNat - flagSplit r p

/-- DecFlag(p) (R208). -/
theorem decFlag_spec (p : Nat) (s : State) (hr : 2 ^ 23 ≤ s.regs.rcRange.toNat) (hp : 1 ≤ p) (hp' : p < 2 ^ 15) :
    Ends (decFlag p) s
      (fun m t => m = decide (s.regs.rcBuffer.toNat < flagSplit s.regs p) ∧
        Taken s t (decFlagLow s.regs p) (decFlagRange s.regs p))
      (ReadFails (normShifts (decFlagRange s.regs p)) s) := by
  obtain ⟨h1, h2⟩ := flagSplit_bounds hr hp hp'
  have hR := s.regs.rcRange.isLt
  unfold decFlag decFlagLow decFlagRange
  refine Ends.bind (Q := fun r t => r = s.regs ∧ t = s) (ends_getRegs ⟨rfl, rfl⟩) ?_
  rintro r t ⟨rfl, rfl⟩
  by_cases h : t.regs.rcBuffer.toNat < flagSplit t.regs p
  · simp only [if_pos h, decide_eq_true h]
    refine Ends.bind ((setRange_spec _ t (by omega)).mono (fun _ _ h => h) (fun _ _ h => h.elim)) fun _ u hu => ?_
    refine Ends.bind (taken_of_shifting (s := t) (v := 0) (Nat.zero_le _) (by omega) (by omega) ?_) fun _ w hw => ends_pure ⟨rfl, hw⟩
    rw [hu]
    simp
  · simp only [if_neg h, decide_eq_false h]
    refine Ends.bind (Q := fun d w => d = t.regs.rcRange.toNat - flagSplit t.regs p ∧ w = t)
      (ends_checkedSub (by omega) ⟨rfl, rfl⟩) ?_
    rintro _ t ⟨rfl, rfl⟩
    unfold setBuffer
    refine Ends.bind (Q := fun _ w => w = { t with regs := { t.regs with
      rcBuffer := BitVec.ofNat 31 (t.regs.rcBuffer.toNat - flagSplit t.regs p) } }) (ends_modifyRegs rfl) fun _ u hu => ?_
    refine Ends.bind ((setRange_spec _ u (by omega)).mono (fun _ _ h => h) (fun _ _ h => h.elim)) fun _ v hv => ?_
    refine Ends.bind (taken_of_shifting (s := t) (v := flagSplit t.regs p) (by omega) (by omega) (by omega) ?_) fun _ w hw =>
      ends_pure ⟨rfl, hw⟩
    rw [hv, hu]

/-- What DecEos takes from the window (R210): all of B at the end of the stream. -/
def decEosLow (r : Regs) : Nat := if r.rcBuffer.toNat < r.rcRange.toNat - 1 then 0 else r.rcBuffer.toNat

/-- R before DecEos's normalization (R210). -/
def decEosRange (r : Regs) : Nat := if r.rcBuffer.toNat < r.rcRange.toNat - 1 then r.rcRange.toNat - 1 else 1

/-- DecEos() (R210). -/
theorem decEos_spec (s : State) (hr : 2 ^ 23 ≤ s.regs.rcRange.toNat) :
    Ends decEos s
      (fun last t => last = !decide (s.regs.rcBuffer.toNat < s.regs.rcRange.toNat - 1) ∧
        Taken s t (decEosLow s.regs) (decEosRange s.regs))
      (ReadFails (normShifts (decEosRange s.regs)) s) := by
  have hR := s.regs.rcRange.isLt
  unfold decEos decEosLow decEosRange
  refine Ends.bind (Q := fun r t => r = s.regs ∧ t = s) (ends_getRegs ⟨rfl, rfl⟩) ?_
  rintro r t ⟨rfl, rfl⟩
  refine Ends.bind (Q := fun d w => d = t.regs.rcRange.toNat - 1 ∧ w = t) (ends_checkedSub (by omega) ⟨rfl, rfl⟩) ?_
  rintro _ w ⟨rfl, rfl⟩
  by_cases h : w.regs.rcBuffer.toNat < w.regs.rcRange.toNat - 1
  · simp only [if_pos h, decide_eq_true h]
    refine Ends.bind ((setRange_spec _ w (by omega)).mono (fun _ _ h => h) (fun _ _ h => h.elim)) fun _ u hu => ?_
    refine Ends.bind (taken_of_shifting (s := w) (v := 0) (Nat.zero_le _) (by omega) (by omega) ?_) fun _ v hv => ends_pure ⟨rfl, hv⟩
    rw [hu]
    simp
  · simp only [if_neg h, decide_eq_false h]
    unfold setBuffer
    refine Ends.bind (Q := fun _ u => u = { w with regs := { w.regs with rcBuffer := BitVec.ofNat 31 0 } }) (ends_modifyRegs rfl)
      fun _ u hu => ?_
    refine Ends.bind ((setRange_spec _ u (by omega)).mono (fun _ _ h => h) (fun _ _ h => h.elim)) fun _ v hv => ?_
    refine Ends.bind (taken_of_shifting (s := w) (v := w.regs.rcBuffer.toNat) le_rfl le_rfl (by omega) ?_) fun _ x hx =>
      ends_pure ⟨rfl, hx⟩
    rw [hv, hu, Nat.sub_self]

/-- DecTarget(tot) (R212): it changes no state. -/
theorem decTarget_spec (tot : Nat) (s : State) (ht : 1 ≤ tot) (hR : tot ≤ s.regs.rcRange.toNat) :
    Ends (decTarget tot) s
      (fun t u => u = s ∧ t = s.regs.rcBuffer.toNat / (s.regs.rcRange.toNat / tot) ∧ t < tot)
      (fun e u => u = s ∧ e = .raise .corruptPayload ∧ tot ≤ s.regs.rcBuffer.toNat / (s.regs.rcRange.toNat / tot)) := by
  have h1 : 1 ≤ s.regs.rcRange.toNat / tot := Nat.div_pos hR ht
  unfold decTarget
  refine Ends.bind (Q := fun r t => r = s.regs ∧ t = s) (ends_getRegs ⟨rfl, rfl⟩) ?_
  rintro r t ⟨rfl, rfl⟩
  refine Ends.bind (Q := fun d w => d = t.regs.rcRange.toNat / tot ∧ w = t) (ends_checkedDiv (by omega) ⟨rfl, rfl⟩) ?_
  rintro _ w ⟨rfl, rfl⟩
  refine Ends.bind (Q := fun d u => d = w.regs.rcBuffer.toNat / (w.regs.rcRange.toNat / tot) ∧ u = w)
    (ends_checkedDiv (by omega) ⟨rfl, rfl⟩) ?_
  rintro _ u ⟨rfl, rfl⟩
  split
  · next h => exact ends_raise ⟨rfl, rfl, h⟩
  · next h => exact ends_pure ⟨rfl, rfl, by omega⟩

/-- The interval's low end is inside the window (R213). -/
theorem base_le_window {B r base : Nat} (h : base ≤ B / r) : base * r ≤ B :=
  le_trans (Nat.mul_le_mul_right r h) (Nat.div_mul_le_self B r)

/-- B <- B - base * r, R <- r * freq, and the normalization. -/
theorem decTakeInterval_spec (base freq r : Nat) (s : State) (hb : base * r ≤ s.regs.rcBuffer.toNat) (h1 : 1 ≤ r * freq)
    (h2 : r * freq < 2 ^ 31) :
    Ends (decTakeInterval base freq r) s (fun _ t => Taken s t (base * r) (r * freq)) (ReadFails (normShifts (r * freq)) s) := by
  unfold decTakeInterval
  refine Ends.bind (Q := fun r t => r = s.regs ∧ t = s) (ends_getRegs ⟨rfl, rfl⟩) ?_
  rintro _ t ⟨rfl, rfl⟩
  refine Ends.bind (Q := fun d w => d = t.regs.rcBuffer.toNat - base * r ∧ w = t) (ends_checkedSub hb ⟨rfl, rfl⟩) ?_
  rintro _ w ⟨rfl, rfl⟩
  unfold setBuffer
  refine Ends.bind (Q := fun _ u => u = { w with regs := { w.regs with
    rcBuffer := BitVec.ofNat 31 (w.regs.rcBuffer.toNat - base * r) } }) (ends_modifyRegs rfl) fun _ u hu => ?_
  refine Ends.bind ((setRange_spec _ u h2).mono (fun _ _ h => h) (fun _ _ h => h.elim)) fun _ v hv => ?_
  exact taken_of_shifting hb h1 h2 (by rw [hv, hu])

/-- DecNarrow(cum, freq, tot) (R213). -/
theorem decNarrow_spec (cum freq tot : Nat) (s : State) (ht : 1 ≤ tot) (hf : 1 ≤ freq) (hc : cum + freq ≤ tot)
    (hR : tot ≤ s.regs.rcRange.toNat) :
    Ends (decNarrow cum freq tot) s
      (fun _ t =>
        (cum ≤ s.regs.rcBuffer.toNat / (s.regs.rcRange.toNat / tot) ∧
          s.regs.rcBuffer.toNat / (s.regs.rcRange.toNat / tot) < cum + freq) ∧
        Taken s t (cum * (s.regs.rcRange.toNat / tot)) (s.regs.rcRange.toNat / tot * freq))
      (fun e t =>
        (e = .raise .narrowMismatch ∧ t = s ∧ ¬(cum ≤ s.regs.rcBuffer.toNat / (s.regs.rcRange.toNat / tot) ∧
          s.regs.rcBuffer.toNat / (s.regs.rcRange.toNat / tot) < cum + freq)) ∨
        (cum ≤ s.regs.rcBuffer.toNat / (s.regs.rcRange.toNat / tot) ∧
          s.regs.rcBuffer.toNat / (s.regs.rcRange.toNat / tot) < cum + freq) ∧
          ReadFails (normShifts (s.regs.rcRange.toNat / tot * freq)) s e t) := by
  obtain ⟨h1, h2⟩ := interval_bounds ht hf hc hR
  have hlt := s.regs.rcRange.isLt
  have h3 : 1 ≤ s.regs.rcRange.toNat / tot := Nat.div_pos hR ht
  unfold decNarrow
  refine Ends.bind (Q := fun r t => r = s.regs ∧ t = s) (ends_getRegs ⟨rfl, rfl⟩) ?_
  rintro r t ⟨rfl, rfl⟩
  refine Ends.bind (Q := fun d w => d = t.regs.rcRange.toNat / tot ∧ w = t) (ends_checkedDiv (by omega) ⟨rfl, rfl⟩) ?_
  rintro _ w ⟨rfl, rfl⟩
  refine Ends.bind (Q := fun d u => d = w.regs.rcBuffer.toNat / (w.regs.rcRange.toNat / tot) ∧ u = w)
    (ends_checkedDiv (by omega) ⟨rfl, rfl⟩) ?_
  rintro _ u ⟨rfl, rfl⟩
  split
  · next h =>
    exact (decTakeInterval_spec cum freq _ u (base_le_window h.1) h1 (by omega)).mono (fun _ _ ht => ⟨h, ht⟩)
      fun _ _ he => .inr ⟨h, he⟩
  · next h => exact ends_raise (.inl ⟨rfl, rfl, h⟩)

/-- What DecPrime leaves (R206): the first four bytes in the window, the last of them in LOOK. -/
theorem decPrime_spec (s : State) :
    Ends decPrime s
      (fun _ t => ∃ n1 n2 n3 n4 : Byte,
        t = { s with
          inPort := t.inPort
          regs := { s.regs with
            inCount := s.regs.inCount + 4#64
            rcBuffer := BitVec.ofNat 31 (n1.toNat <<< 23 ||| n2.toNat <<< 15 ||| n3.toNat <<< 7 ||| n4.toNat >>> 1)
            look := n4 } } ∧
          (givesBytes s.inPort 4 → comingBytes s.inPort 4 = [n1, n2, n3, n4] ∧ t.inPort.answers = s.inPort.answers.drop 4) ∧
          ∀ m, givesBytes s.inPort (4 + m) → givesBytes t.inPort m)
      (ReadFails 4 s) := by
  unfold decPrime
  refine Ends.bind ((inRead_spec s).mono (fun _ _ h => h) fun _ _ h => h.mono (by omega)) fun n1 t1 h1 => ?_
  refine Ends.bind ((inRead_spec t1).mono (E' := ReadFails 4 s) (fun _ _ h => h) ?_) fun n2 t2 h2 => ?_
  · exact fun e t h => (h.from (by rw [h1.state]; rfl) h1.asked).mono (by omega)
  have a2 := h1.asked.trans h2.asked
  refine Ends.bind ((inRead_spec t2).mono (fun _ _ h => h) ?_) fun n3 t3 h3 => ?_
  · exact fun e t h => (h.from (by rw [h2.state, h1.state]; rfl) a2).mono (by omega)
  have a3 := a2.trans h3.asked
  refine Ends.bind ((inRead_spec t3).mono (fun _ _ h => h) ?_) fun n4 t4 h4 => ?_
  · exact fun e t h => (h.from (by rw [h3.state, h2.state, h1.state]; rfl) a3).mono (by omega)
  refine ends_modifyRegs ⟨n1, n2, n3, n4, ?_, fun h => ?_, fun m h => ?_⟩
  · have e1 := h1.state
    have e2 := h2.state
    have e3 := h3.state
    have e4 := h4.state
    have hr1 : t1.regs = { s.regs with inCount := s.regs.inCount + 1#64 } := by rw [e1]
    have hr2 : t2.regs = { s.regs with inCount := s.regs.inCount + 1#64 + 1#64 } := by rw [e2, hr1]
    have hr3 : t3.regs = { s.regs with inCount := s.regs.inCount + 1#64 + 1#64 + 1#64 } := by rw [e3, hr2]
    have hc : s.regs.inCount + 1#64 + 1#64 + 1#64 + 1#64 = s.regs.inCount + 4#64 := by
      simp only [BitVec.add_assoc]; rfl
    rw [e1] at e2
    rw [e2] at e3
    rw [e3] at e4
    rw [e4, ← hc]
  · obtain ⟨g1, c1⟩ := h1.coming 3 h
    obtain ⟨g2, c2⟩ := h2.coming 2 g1
    obtain ⟨g3, c3⟩ := h3.coming 1 g2
    obtain ⟨g4, c4⟩ := h4.coming 0 g3
    refine ⟨by rw [c1, c2, c3, c4]; simp [comingBytes], ?_⟩
    show t4.inPort.answers = _
    rw [h4.answers g3, h3.answers (g2.mono (by omega)), h2.answers (g1.mono (by omega)), h1.answers (h.mono (by omega))]
    simp [List.drop_drop]
  · obtain ⟨g1, -⟩ := h1.coming (3 + m) (by rw [show 3 + m + 1 = 4 + m by omega]; exact h)
    obtain ⟨g2, -⟩ := h2.coming (2 + m) (by rw [show 2 + m + 1 = 3 + m by omega]; exact g1)
    obtain ⟨g3, -⟩ := h3.coming (1 + m) (by rw [show 1 + m + 1 = 2 + m by omega]; exact g2)
    exact (h4.coming m (by rw [show m + 1 = 1 + m by omega]; exact g3)).1

end Sys2Proof.Machine
end

