-- ==== Sys2Proof/Laws/Predictor.lean ====
section
/-! SUPPORT. What the predictor's procedures compute and leave (R142 to R155): the bounds of every index, the values of the probability
maps, and Observe. -/

namespace Sys2Proof.Machine

/-! ### The configuration's bounds -/

/-- CfgValid (R25), in numbers. -/
structure CfgBounds (c : Word64) : Prop where
  order : cfgOrder c < cfgLctx c
  lctx : cfgLctx c ≤ cfgHctx c
  hctx : cfgHctx c ≤ 8
  lmask : 15 ≤ cfgLmask c ∧ cfgLmask c ≤ 30
  hmask : 15 ≤ cfgHmask c ∧ cfgHmask c ≤ 30
  init : 1 ≤ cfgInit c ∧ cfgInit c ≤ 127
  step : 1 ≤ cfgStep c ∧ cfgStep c ≤ 127
  limit : cfgInit c * 256 ≤ cfgLimit c ∧ cfgLimit c + cfgStep c ≤ 32767

theorem cfgValid_iff {c : Word64} : cfgValid c = true ↔ CfgBounds c := by
  simp only [cfgValid, Bool.and_eq_true, decide_eq_true_eq]
  constructor
  · rintro ⟨⟨⟨⟨⟨⟨⟨⟨⟨⟨⟨⟨h1, h2⟩, h3⟩, h4⟩, h5⟩, h6⟩, h7⟩, h8⟩, h9⟩, h10⟩, h11⟩, h12⟩, h13⟩
    exact ⟨h1, h2, h3, ⟨h4, h5⟩, ⟨h6, h7⟩, ⟨h8, h9⟩, ⟨h10, h11⟩, ⟨h12, h13⟩⟩
  · rintro ⟨h1, h2, h3, ⟨h4, h5⟩, ⟨h6, h7⟩, ⟨h8, h9⟩, ⟨h10, h11⟩, ⟨h12, h13⟩⟩
    exact ⟨⟨⟨⟨⟨⟨⟨⟨⟨⟨⟨⟨h1, h2⟩, h3⟩, h4⟩, h5⟩, h6⟩, h7⟩, h8⟩, h9⟩, h10⟩, h11⟩, h12⟩, h13⟩

theorem cfgOrder_cases (c : Word64) : cfgOrder c = 1 ∨ cfgOrder c = 2 := by
  have := (c.extractLsb' 31 1).isLt
  unfold cfgOrder
  omega

/-! ### Indexes (R143) -/

/-- IDX_LO is inside its table (R143). -/
theorem indexLo_lt (r : Regs) : indexLo r < 2 ^ cfgLmask r.scfg := by
  unfold indexLo
  rw [Nat.and_two_pow_sub_one_eq_mod]
  exact Nat.mod_lt _ (Nat.two_pow_pos _)

/-- IDX_HI is inside its table (R143). -/
theorem indexHi_lt (r : Regs) : indexHi r < 2 ^ cfgHmask r.scfg := by
  unfold indexHi
  rw [Nat.and_two_pow_sub_one_eq_mod]
  exact Nat.mod_lt _ (Nat.two_pow_pos _)

/-- The place of a probability is inside its table (R63). -/
theorem apmIndex_lt (h : BitVec 4) (st : Byte) : apmIndex h st < 4096 := by
  have := h.isLt
  have := st.isLt
  unfold apmIndex
  omega

/-! ### What a read depends on -/

/-- A table read sees the session's configuration and the table memory, nothing else. -/
theorem tblRead_congr {s t : State} (hc : s.regs.scfg = t.regs.scfg) (ht : s.tables = t.tables) (id : TableId) (i : Nat) :
    tblRead s id i = tblRead t id i := by
  unfold tblRead
  rw [hc, ht]

theorem SameModel.tblRead {s t : State} (h : SameModel s t) (id : TableId) (i : Nat) :
    tblRead s id i = Machine.tblRead t id i := tblRead_congr h.scfg h.tables id i

theorem SameModel.refl (s : State) : SameModel s s := ⟨rfl, rfl, rfl, rfl, rfl, rfl, rfl⟩

theorem SameModel.symm {s t : State} (h : SameModel s t) : SameModel t s :=
  ⟨h.params.symm, h.tables.symm, h.scfg.symm, h.context.symm, h.histLo.symm, h.histHi.symm, h.cost.symm⟩

theorem SameModel.trans {s t u : State} (h : SameModel s t) (h' : SameModel t u) : SameModel s u :=
  ⟨h.params.trans h'.params, h.tables.trans h'.tables, h.scfg.trans h'.scfg, h.context.trans h'.context,
    h.histLo.trans h'.histLo, h.histHi.trans h'.histHi, h.cost.trans h'.cost⟩

theorem SameModel.memberIndex {s t : State} (h : SameModel s t) (m : Member) : memberIndex m s.regs = Machine.memberIndex m t.regs := by
  cases m <;> simp only [Machine.memberIndex, indexLo, indexHi, hashHi, hashLo, h.scfg, h.context]

theorem SameModel.memberHist {s t : State} (h : SameModel s t) (m : Member) : memberHist m s.regs = Machine.memberHist m t.regs := by
  cases m
  · exact h.histLo
  · exact h.histHi

/-- Predict sees the model, nothing else (R147). -/
theorem SameModel.predictMember {s t : State} (h : SameModel s t) (m : Member) : predictMember m s = Machine.predictMember m t := by
  simp only [Machine.predictMember, h.tblRead, h.memberIndex, h.memberHist]

theorem SameModel.dual {s t : State} (h : SameModel s t) : dual s = Machine.dual t := by
  simp only [Machine.dual, h.scfg]

/-- Choose sees the model, nothing else (R154). -/
theorem SameModel.choose {s t : State} (h : SameModel s t) : choose s = Machine.choose t := by
  simp only [Machine.choose, h.predictMember, h.dual]

theorem SameModel.useFixed {s t : State} (h : SameModel s t) : useFixed s = Machine.useFixed t := by
  simp only [Machine.useFixed, h.params, h.cost]

/-! ### The probability maps (R151, R155) -/

/-- The value ApmUpdate writes over `p` (R151). -/
def apmValue (p : Nat) (matched : Bool) : Nat := if matched then p + (32768 - p) >>> 7 else p - p >>> 7

/-- ApmUpdate's arithmetic on an entry of the interval of R155. -/
theorem apmNext_eq {p : Nat} (hp : p ≤ 32768) (matched : Bool) (s : State) : apmNext p matched s = .ok (apmValue p matched) s := by
  unfold apmNext apmValue
  cases matched with
  | true =>
    simp only [if_true]
    rw [bind_of_ok (checkedSub_of_le hp s)]
    rfl
  | false =>
    simp only [Bool.false_eq_true, if_false]
    exact checkedSub_of_le (by rw [Nat.shiftRight_eq_div_pow]; omega) s

/-- The interval of R155 is kept. -/
theorem apmValue_bounds {p : Nat} (h1 : 127 ≤ p) (h2 : p ≤ 32641) (matched : Bool) :
    127 ≤ apmValue p matched ∧ apmValue p matched ≤ 32641 := by
  unfold apmValue
  simp only [Nat.shiftRight_eq_div_pow]
  split <;> omega

/-- ApmUpdate (R151), on an entry of R155's interval: it writes that entry. -/
theorem apmUpdate_eq {s : State} {t : TableId} {h : BitVec 4} {st : Byte} (matched : Bool)
    (hp : (tblRead s t (apmIndex h st)).toNat ≤ 32768) :
    apmUpdate t h st matched s =
      .ok ()
        { s with
          tables :=
            tablesWrite s.regs.scfg s.tables t (apmIndex h st)
              (BitVec.ofNat 16 (apmValue (tblRead s t (apmIndex h st)).toNat matched)) } := by
  unfold apmUpdate
  rw [bind_of_ok (get_run s), bind_of_ok (apmNext_eq hp matched s)]
  have : apmValue (tblRead s t (apmIndex h st)).toNat matched < 2 ^ 16 := by
    unfold apmValue
    simp only [Nat.shiftRight_eq_div_pow]
    split <;> omega
  rw [bind_of_ok (checkedFit_of_lt this s)]
  rfl

/-! ### Observe (R153) -/

/-- The tables one member's part of Observe leaves. -/
def observedTables (m : Member) (q : Prediction) (b : Byte) (s : State) : Tables :=
  tablesWrite s.regs.scfg
    (tablesWrite s.regs.scfg s.tables (memberLzp m) q.index (packSlot (nextState s.params q.state (b == q.symbol)) b))
    (memberApm m) (apmIndex (memberHist m s.regs) q.state)
    (BitVec.ofNat 16 (apmValue (tblRead s (memberApm m) (apmIndex (memberHist m s.regs) q.state)).toNat (b == q.symbol)))

/-- What one member's part of Observe leaves. -/
def observedMember (m : Member) (q : Prediction) (b : Byte) (s : State) : State :=
  { s with
    tables := observedTables m q b s
    regs := setMemberHist m (histUpdate (memberHist m s.regs) (b == q.symbol)) s.regs }

theorem memberLzp_ne_apm (m : Member) : ¬memberApm m = memberLzp m := by cases m <;> decide

/-- One member's part of Observe (R153). -/
theorem observeMember_eq {s : State} {m : Member} {q : Prediction} {b : Byte} (hwf : Memory.wf s.regs.scfg s.tables)
    (hp : (tblRead s (memberApm m) (apmIndex (memberHist m s.regs) q.state)).toNat ≤ 32768) :
    observeMember m q b s = .ok () (observedMember m q b s) := by
  unfold observeMember
  rw [bind_of_ok (get_run s), bind_of_ok (writeTable_run _ _ _ s)]
  have hread : ∀ v, tblRead { s with tables := tablesWrite s.regs.scfg s.tables (memberLzp m) q.index v } (memberApm m)
      (apmIndex (memberHist m s.regs) q.state) = tblRead s (memberApm m) (apmIndex (memberHist m s.regs) q.state) := fun v =>
    tablesRead_write_other hwf fun h => memberLzp_ne_apm m h.1
  rw [bind_of_ok (apmUpdate_eq (b == q.symbol) (by rw [hread]; exact hp))]
  rw [hread]
  rfl

theorem observedTables_wf {s : State} {m : Member} {q : Prediction} {b : Byte} (hwf : Memory.wf s.regs.scfg s.tables) :
    Memory.wf s.regs.scfg (observedTables m q b s) := tablesWrite_wf (tablesWrite_wf hwf)

@[simp] theorem setMemberHist_scfg (m : Member) (h : BitVec 4) (r : Regs) : (setMemberHist m h r).scfg = r.scfg := by cases m <;> rfl

@[simp] theorem observedMember_scfg (m : Member) (q : Prediction) (b : Byte) (s : State) :
    (observedMember m q b s).regs.scfg = s.regs.scfg := setMemberHist_scfg _ _ _

@[simp] theorem observedMember_tables (m : Member) (q : Prediction) (b : Byte) (s : State) :
    (observedMember m q b s).tables = observedTables m q b s := rfl

/-- What one member's part of Observe writes in the tables (R247): its slot and its probability. -/
theorem tblRead_observedMember {s : State} {m : Member} {q : Prediction} {b : Byte} (hwf : Memory.wf s.regs.scfg s.tables)
    (t : TableId) (i : Nat) :
    tblRead (observedMember m q b s) t i =
      if t = memberApm m ∧ i = apmIndex (memberHist m s.regs) q.state then
        BitVec.ofNat 16 (apmValue (tblRead s (memberApm m) (apmIndex (memberHist m s.regs) q.state)).toNat (b == q.symbol))
      else if t = memberLzp m ∧ i = q.index then packSlot (nextState s.params q.state (b == q.symbol)) b
      else tblRead s t i := by
  unfold tblRead
  rw [observedMember_scfg, observedMember_tables, observedTables]
  split
  · next h =>
    obtain ⟨rfl, rfl⟩ := h
    exact tablesRead_write_same (tablesWrite_wf hwf)
  · next h =>
    rw [tablesRead_write_other (tablesWrite_wf hwf) h]
    split
    · next h' =>
      obtain ⟨rfl, rfl⟩ := h'
      exact tablesRead_write_same hwf
    · next h' => exact tablesRead_write_other hwf h'

/-- What UpdateContext leaves (R140). -/
def withContext (b : Byte) (s : State) : State :=
  { s with regs := { s.regs with context := (s.regs.context <<< 8) ||| b.setWidth 64 } }

/-- What Observe leaves (R153). -/
def observed (lo hi : Prediction) (b : Byte) (s : State) : State :=
  withContext b (if dual s then observedMember .hi hi b (observedMember .lo lo b s) else observedMember .lo lo b s)

@[simp] theorem observedMember_lo_histHi (q : Prediction) (b : Byte) (s : State) :
    (observedMember .lo q b s).regs.histHi = s.regs.histHi := rfl

theorem dual_observedMember (m : Member) (q : Prediction) (b : Byte) (s : State) : dual (observedMember m q b s) = dual s := by
  simp only [dual, observedMember_scfg]

/-- LO's part of Observe leaves HI's tables alone (R153). -/
theorem tblRead_observed_lo_apmHi {s : State} {q : Prediction} {b : Byte} (hwf : Memory.wf s.regs.scfg s.tables) (i : Nat) :
    tblRead (observedMember .lo q b s) .apmHi i = tblRead s .apmHi i := by
  rw [tblRead_observedMember hwf, if_neg (by simp [memberApm]), if_neg (by simp [memberLzp])]

/-- Observe (R153). -/
theorem observe_eq {s : State} {lo hi : Prediction} {b : Byte} (hwf : Memory.wf s.regs.scfg s.tables)
    (hlo : (tblRead s .apmLo (apmIndex s.regs.histLo lo.state)).toNat ≤ 32768)
    (hhi : dual s = true → (tblRead s .apmHi (apmIndex s.regs.histHi hi.state)).toNat ≤ 32768) :
    observe lo hi b s = .ok () (observed lo hi b s) := by
  unfold observe observed
  have h1 : observeMember .lo lo b s = .ok () (observedMember .lo lo b s) := observeMember_eq (m := .lo) hwf hlo
  rw [bind_of_ok h1, bind_of_ok (get_run _), dual_observedMember]
  cases hd : dual s with
  | false => rfl
  | true =>
    have hwf' : Memory.wf (observedMember .lo lo b s).regs.scfg (observedMember .lo lo b s).tables := by
      rw [observedMember_scfg]; exact observedTables_wf hwf
    have := observeMember_eq (m := .hi) (q := hi) (b := b) hwf' (by
      show (tblRead (observedMember .lo lo b s) .apmHi (apmIndex s.regs.histHi hi.state)).toNat ≤ 32768
      rw [tblRead_observed_lo_apmHi hwf]
      exact hhi hd)
    simp only [whenTrue, if_true]
    rw [bind_of_ok this]
    rfl

theorem observed_wf {s : State} {lo hi : Prediction} {b : Byte} (hwf : Memory.wf s.regs.scfg s.tables) :
    Memory.wf (observed lo hi b s).regs.scfg (observed lo hi b s).tables := by
  have h1 : Memory.wf (observedMember .lo lo b s).regs.scfg (observedMember .lo lo b s).tables := by
    rw [observedMember_scfg]; exact observedTables_wf hwf
  unfold observed withContext
  split
  · show Memory.wf (observedMember .hi hi b (observedMember .lo lo b s)).regs.scfg _
    rw [observedMember_scfg]
    exact observedTables_wf h1
  · exact h1

/-- What Observe writes in the tables (R247, R153). -/
theorem tblRead_observed {s : State} {lo hi : Prediction} {b : Byte} (hwf : Memory.wf s.regs.scfg s.tables) (t : TableId) (i : Nat) :
    tblRead (observed lo hi b s) t i =
      if t = .apmLo ∧ i = apmIndex s.regs.histLo lo.state then
        BitVec.ofNat 16 (apmValue (tblRead s .apmLo (apmIndex s.regs.histLo lo.state)).toNat (b == lo.symbol))
      else if t = .lzpLo ∧ i = lo.index then packSlot (nextState s.params lo.state (b == lo.symbol)) b
      else if dual s = true ∧ t = .apmHi ∧ i = apmIndex s.regs.histHi hi.state then
        BitVec.ofNat 16 (apmValue (tblRead s .apmHi (apmIndex s.regs.histHi hi.state)).toNat (b == hi.symbol))
      else if dual s = true ∧ t = .lzpHi ∧ i = hi.index then packSlot (nextState s.params hi.state (b == hi.symbol)) b
      else tblRead s t i := by
  have hctx : ∀ u, tblRead (withContext b u) t i = tblRead u t i := fun u => rfl
  have h1 : Memory.wf (observedMember .lo lo b s).regs.scfg (observedMember .lo lo b s).tables := by
    rw [observedMember_scfg]; exact observedTables_wf hwf
  unfold observed
  rw [hctx]
  cases hd : dual s with
  | false =>
    simp only [Bool.false_eq_true, if_false, false_and]
    exact tblRead_observedMember hwf t i
  | true =>
    simp only [if_true, true_and]
    rw [tblRead_observedMember h1, tblRead_observedMember hwf, tblRead_observedMember hwf]
    simp only [memberApm, memberLzp, memberHist, observedMember_lo_histHi]
    have hp : (observedMember .lo lo b s).params = s.params := rfl
    rw [hp]
    cases t <;> simp

end Sys2Proof.Machine
end

