-- ==== Sys2Proof/Laws/Literal.lean ====
section
/-! SUPPORT. What the literal model's procedures compute and leave (R170 to R187): exclusion and its sums, the two walks, the coding
paths, training and rescale, the cost tracker. -/

namespace Sys2Proof.Machine

open Finset

/-! ### Sums -/

theorem list_sum_range (f : Nat → Nat) (n : Nat) : ((List.range n).map f).sum = ∑ i ∈ range n, f i := by
  induction n with
  | zero => rfl
  | succ n ih => rw [List.range_succ, List.map_append, List.sum_append, ih, sum_range_succ]; simp

/-- A sum of blocks of 16. -/
theorem sum_blocks (f : Nat → Nat) (n : Nat) : ∑ g ∈ range n, ∑ k ∈ range 16, f (16 * g + k) = ∑ t ∈ range (16 * n), f t := by
  induction n with
  | zero => simp
  | succ n ih => rw [sum_range_succ, ih, Nat.mul_succ, sum_range_add]

/-- A sum over consecutive numbers, in a rule (R174, R182). -/
theorem sumOver_eq {value : Nat → Cmd Nat} {v : Nat → Nat} {s : State} {a n : Nat} (acc : Nat)
    (h : ∀ k < n, value (a + k) s = .ok (v (a + k)) s) :
    sumOver value (List.range' a n) acc s = .ok (acc + ∑ k ∈ range n, v (a + k)) s := by
  induction n generalizing a acc with
  | zero => rfl
  | succ n ih =>
    rw [List.range'_succ]
    unfold sumOver
    have h0 := h 0 (Nat.zero_lt_succ n)
    rw [Nat.add_zero] at h0
    rw [bind_of_ok h0, ih (acc + v a) fun k hk => by
      rw [Nat.add_assoc, Nat.add_comm 1 k]; exact h (k + 1) (by omega)]
    rw [sum_range_succ' (fun k => v (a + k)), Nat.add_zero]
    have : ∀ k, v (a + 1 + k) = v (a + (k + 1)) := fun k => by rw [Nat.add_assoc, Nat.add_comm 1 k]
    simp only [this, Nat.add_zero]
    congr 1
    omega

/-! ### Exclusion (R173, R174, R175) -/

/-- FreqEx(sym, x), as a number. -/
def freqExOf (s : State) (x sym : Nat) : Nat := if sym = x then 0 else litSingle s sym

/-- GroupEx(g, x), as a number. -/
def groupExOf (s : State) (x g : Nat) : Nat := litGroup s g - (if x >>> 4 = g then litSingle s x else 0)

/-- The cumulative excluded frequency below a symbol, as a sum. -/
@[irreducible] def cumBelow (s : State) (x sym : Nat) : Nat := ∑ t ∈ range sym, freqExOf s x t

section Exclusion
variable {s : State} {x : Nat}

/-- The literal context of the state is as R172 says. -/
abbrev CtxOk (s : State) : Prop := LitContextOk s (litCtx s)

theorem CtxOk.group (h : CtxOk s) {g : Nat} (hg : g < 16) : litGroup s g = ∑ k ∈ range 16, litSingle s (16 * g + k) := by
  have := h.groups g hg
  rw [list_sum_range] at this
  exact this

theorem CtxOk.total' (h : CtxOk s) : litTotal s = ∑ t ∈ range 256, litSingle s t := by
  have := h.total
  rw [list_sum_range] at this
  rw [show (256 : Nat) = 16 * 16 from rfl, ← sum_blocks (litSingle s) 16]
  refine this.trans (sum_congr rfl fun g hg => ?_)
  exact CtxOk.group h (mem_range.mp hg)

theorem sum_freqEx (f : Nat → Nat) (x n : Nat) :
    ∑ t ∈ range n, (if t = x then 0 else f t) = ∑ t ∈ range n, f t - (if x < n then f x else 0) := by
  induction n with
  | zero => simp
  | succ n ih =>
    rw [sum_range_succ, sum_range_succ, ih]
    by_cases h : n = x
    · subst h; simp
    · have hle : (if x < n then f x else 0) ≤ ∑ t ∈ range n, f t := by
        split
        · next hx => exact single_le_sum (f := f) (fun _ _ => Nat.zero_le _) (mem_range.mpr hx)
        · exact Nat.zero_le _
      have : (x < n + 1) = (x < n) := by apply propext; omega
      simp only [h, if_false, this]
      omega

/-- The CumEx formula of R174. -/
theorem cumBelow_eq (sym : Nat) : cumBelow s x sym = ∑ t ∈ range sym, litSingle s t - (if x < sym then litSingle s x else 0) := by
  unfold cumBelow
  exact sum_freqEx (litSingle s) x sym

@[simp] theorem cumBelow_zero : cumBelow s x 0 = 0 := by simp [cumBelow]

theorem CtxOk.groupEx_sum (h : CtxOk s) {g : Nat} (hg : g < 16) :
    groupExOf s x g = ∑ k ∈ range 16, freqExOf s x (16 * g + k) ∧
      (if x >>> 4 = g then litSingle s x else 0) ≤ litGroup s g := by
  have hxg : x >>> 4 = x / 16 := by rw [Nat.shiftRight_eq_div_pow]
  unfold groupExOf freqExOf
  rw [h.group hg, hxg]
  have hshift := sum_freqEx (fun k => litSingle s (16 * g + k)) (x - 16 * g) 16
  by_cases hc : x / 16 = g
  · have h16 : 16 * g + (x - 16 * g) = x := by omega
    have hlt : x - 16 * g < 16 := by omega
    simp only [hc, if_true]
    simp only [hlt, if_true, h16] at hshift
    constructor
    · rw [← hshift]
      refine sum_congr rfl fun k _ => ?_
      have : (k = x - 16 * g) = (16 * g + k = x) := by apply propext; omega
      simp only [this]
    · have := single_le_sum (f := fun k => litSingle s (16 * g + k)) (fun _ _ => Nat.zero_le _) (mem_range.mpr hlt)
      simp only [h16] at this
      exact this
  · simp only [hc, if_false, Nat.sub_zero, Nat.zero_le, and_true]
    refine sum_congr rfl fun k hk => ?_
    have := mem_range.mp hk
    rw [if_neg (by omega)]

theorem CtxOk.groupEx_run (h : CtxOk s) {g : Nat} (hg : g < 16) : groupEx g x s = .ok (groupExOf s x g) s := by
  unfold groupEx
  rw [bind_of_ok (get_run s), checkedSub_of_le (h.groupEx_sum hg).2]
  rfl

theorem freqEx_run (sym : Nat) : freqEx sym x s = .ok (freqExOf s x sym) s := rfl

/-- The sum of GroupEx below a group is the sum of FreqEx below its first symbol. -/
theorem CtxOk.groups_below (h : CtxOk s) {g : Nat} (hg : g ≤ 16) :
    ∑ j ∈ range g, groupExOf s x j = cumBelow s x (16 * g) := by
  unfold cumBelow
  rw [← sum_blocks]
  exact sum_congr rfl fun j hj => (h.groupEx_sum (by have := mem_range.mp hj; omega)).1

/-- CumEx (R174) is the sum below the symbol. -/
theorem CtxOk.cumEx_run (h : CtxOk s) {sym : Nat} (hs : sym < 256) : cumEx sym x s = .ok (cumBelow s x sym) s := by
  have hsg : sym >>> 4 = sym / 16 := by rw [Nat.shiftRight_eq_div_pow]
  unfold cumEx
  rw [hsg, List.range_eq_range']
  have h1 := sumOver_eq (value := fun j => groupEx j x) (v := groupExOf s x) (s := s) (a := 0) (n := sym / 16) 0 fun k hk =>
    h.groupEx_run (by omega)
  simp only [Nat.zero_add] at h1
  rw [bind_of_ok h1, h.groups_below (by omega)]
  rw [sumOver_eq (v := freqExOf s x) _ fun k _ => freqEx_run _]
  unfold cumBelow
  rw [← sum_range_add]
  congr 3
  omega

/-- The excluded total is the sum over the alphabet. -/
theorem CtxOk.totEx_run (h : CtxOk s) (hx : x < 256) : totEx x s = .ok (cumBelow s x 256) s := by
  unfold totEx
  have hle : litSingle s x ≤ litTotal s := by
    rw [h.total']
    exact single_le_sum (f := litSingle s) (fun _ _ => Nat.zero_le _) (mem_range.mpr hx)
  rw [bind_of_ok (get_run s), checkedSub_of_le hle, h.total', cumBelow_eq, if_pos hx]

theorem CtxOk.totEx_eq (h : CtxOk s) (hx : x < 256) : cumBelow s x 256 = litTotal s - litSingle s x := by
  rw [cumBelow_eq, if_pos hx, h.total']

theorem CtxOk.freq_pos (h : CtxOk s) {sym : Nat} (hs : sym < 256) (hne : sym ≠ x) : 1 ≤ freqExOf s x sym := by
  unfold freqExOf
  rw [if_neg hne]
  exact h.positive sym hs

theorem cumBelow_succ (sym : Nat) : cumBelow s x (sym + 1) = cumBelow s x sym + freqExOf s x sym := by
  unfold cumBelow
  exact sum_range_succ _ _

theorem cumBelow_mono {m n : Nat} (h : m ≤ n) : cumBelow s x m ≤ cumBelow s x n := by
  unfold cumBelow
  exact sum_le_sum_of_subset (range_subset_range.mpr h)

/-- Every symbol's interval is inside the excluded total (R175). -/
theorem interval_le {sym : Nat} (hs : sym < 256) : cumBelow s x sym + freqExOf s x sym ≤ cumBelow s x 256 := by
  rw [← cumBelow_succ]
  exact cumBelow_mono hs

/-- Two symbols whose intervals hold the same number are the same (R175). -/
theorem interval_unique {a b t : Nat} (ha : cumBelow s x a ≤ t) (ha' : t < cumBelow s x a + freqExOf s x a)
    (hb : cumBelow s x b ≤ t) (hb' : t < cumBelow s x b + freqExOf s x b) : a = b := by
  rw [← cumBelow_succ] at ha' hb'
  by_contra hne
  rcases Nat.lt_or_gt_of_ne hne with h | h
  · have := cumBelow_mono (s := s) (x := x) (show a + 1 ≤ b from h)
    omega
  · have := cumBelow_mono (s := s) (x := x) (show b + 1 ≤ a from h)
    omega

/-- The excluded total is at least 255 (R175). -/
theorem CtxOk.totEx_ge (h : CtxOk s) (hx : x < 256) : 255 ≤ cumBelow s x 256 := by
  have h1 : ∑ t ∈ range 256, (if t = x then 0 else 1) = 255 := by
    rw [sum_freqEx (fun _ => 1) x 256, if_pos hx]
    simp
  unfold cumBelow
  rw [← h1]
  refine sum_le_sum fun t ht => ?_
  split
  · exact Nat.zero_le _
  · next hne => exact h.freq_pos (mem_range.mp ht) hne

/-- The total is at most 32767 (R172, R187). -/
theorem CtxOk.total_le (h : CtxOk s) (hc : CfgBounds s.regs.scfg) : litTotal s + cfgStep s.regs.scfg ≤ 32767 := by
  have h1 : litTotal s ≤ _ := h.bound
  have := hc.limit
  have := hc.step
  omega

end Exclusion

/-! ### The walks (R177) -/

theorem walkGroups_spec {s : State} {x t : Nat} (h : CtxOk s) (ht : t < cumBelow s x 256) (left g : Nat)
    (hg : left + g = 16) (hacc : cumBelow s x (16 * g) ≤ t) :
    ∃ g', g' < 16 ∧ walkGroups x t left g (cumBelow s x (16 * g)) s = .ok (g', cumBelow s x (16 * g')) s ∧
      cumBelow s x (16 * g') ≤ t ∧ t < cumBelow s x (16 * (g' + 1)) := by
  induction left generalizing g with
  | zero =>
    obtain rfl : g = 16 := by omega
    exact absurd ht (Nat.not_lt.mpr hacc)
  | succ left ih =>
    have hg16 : g < 16 := by omega
    unfold walkGroups
    rw [bind_of_ok (h.groupEx_run hg16)]
    have hsucc : cumBelow s x (16 * g) + groupExOf s x g = cumBelow s x (16 * (g + 1)) := by
      rw [← h.groups_below (by omega), ← h.groups_below (by omega), sum_range_succ]
    rw [hsucc]
    split
    · next hle => exact ih (g + 1) (by omega) hle
    · next hlt => exact ⟨g, hg16, rfl, hacc, by omega⟩

theorem walkSingles_spec {s : State} {x t : Nat} (ht : t < cumBelow s x 256) (left sym : Nat) (hs : left + sym = 256)
    (hacc : cumBelow s x sym ≤ t) :
    ∃ sym', sym ≤ sym' ∧ sym' < 256 ∧ walkSingles x t left sym (cumBelow s x sym) s = .ok (sym', cumBelow s x sym') s ∧
      cumBelow s x sym' ≤ t ∧ t < cumBelow s x sym' + freqExOf s x sym' := by
  induction left generalizing sym with
  | zero =>
    obtain rfl : sym = 256 := by omega
    omega
  | succ left ih =>
    unfold walkSingles
    rw [bind_of_ok (freqEx_run sym), ← cumBelow_succ]
    split
    · next hle =>
      obtain ⟨sym', h1, h2, h3, h4, h5⟩ := ih (sym + 1) (by omega) hle
      exact ⟨sym', by omega, h2, h3, h4, h5⟩
    · next hlt => exact ⟨sym, le_rfl, by omega, rfl, hacc, by rw [cumBelow_succ] at hlt; omega⟩

/-- The symbol whose excluded interval holds `t`. -/
def FoundAt (s : State) (x t sym : Nat) : Prop :=
  sym < 256 ∧ sym ≠ x ∧ cumBelow s x sym ≤ t ∧ t < cumBelow s x sym + litSingle s sym

theorem foundAt_of_walk {s : State} {x t sym : Nat} (h : sym < 256) (h1 : cumBelow s x sym ≤ t)
    (h2 : t < cumBelow s x sym + freqExOf s x sym) : FoundAt s x t sym ∧ freqExOf s x sym = litSingle s sym := by
  have hne : sym ≠ x := by
    rintro rfl
    simp only [freqExOf, if_true, Nat.add_zero] at h2
    omega
  have : freqExOf s x sym = litSingle s sym := if_neg hne
  exact ⟨⟨h, hne, h1, this ▸ h2⟩, this⟩

theorem FoundAt.unique {s : State} {x t a b : Nat} (ha : FoundAt s x t a) (hb : FoundAt s x t b) : a = b := by
  obtain ⟨-, h2, h3, h4⟩ := ha
  obtain ⟨-, h6, h7, h8⟩ := hb
  exact interval_unique h3 (by rw [freqExOf, if_neg h2]; exact h4) h7 (by rw [freqExOf, if_neg h6]; exact h8)

/-! ### The coding paths (R176 to R179) -/

/-- LitEncAdaptive (R176). -/
theorem litEncAdaptive_spec {s : State} {sym x : Nat} (h : CtxOk s) (hc : CfgBounds s.regs.scfg) (hx : x < 256) (hs : sym < 256)
    (hne : sym ≠ x) (hr : 2 ^ 23 ≤ s.regs.rcRange.toNat) :
    Ends (litEncAdaptive sym x) s
      (fun _ t => Encoded s t (cumBelow s x sym * (s.regs.rcRange.toNat / cumBelow s x 256))
        (s.regs.rcRange.toNat / cumBelow s x 256 * litSingle s sym) ∧ encoderErased t = encoderErased s)
      (EncodeStops s (cumBelow s x sym * (s.regs.rcRange.toNat / cumBelow s x 256))
        (normShifts (s.regs.rcRange.toNat / cumBelow s x 256 * litSingle s sym))) := by
  unfold litEncAdaptive
  have hte := h.totEx_ge hx
  have htl := h.totEx_eq hx
  have hle := h.total_le hc
  have hf : freqExOf s x sym = litSingle s sym := if_neg hne
  have hi := interval_le (s := s) (x := x) hs
  have hp := h.freq_pos hs hne
  rw [hf] at hi hp
  have := encFreq_stops (cumBelow s x sym) (litSingle s sym) (cumBelow s x 256) s (by omega) hp hi (by omega)
  unfold Ends
  rw [bind_of_ok (h.totEx_run hx), bind_of_ok (h.cumEx_run hs), bind_of_ok (show readSingle sym s = .ok (litSingle s sym) s from rfl)]
  exact this

/-- LitDecAdaptive (R177): it answers the symbol whose interval holds the target, and narrows to it. -/
theorem litDecAdaptive_spec {s : State} {x : Nat} (h : CtxOk s) (hc : CfgBounds s.regs.scfg) (hx : x < 256)
    (hr : 2 ^ 23 ≤ s.regs.rcRange.toNat) :
    Ends (litDecAdaptive x) s
      (fun sym t => FoundAt s x (s.regs.rcBuffer.toNat / (s.regs.rcRange.toNat / cumBelow s x 256)) sym ∧
        Taken s t (cumBelow s x sym * (s.regs.rcRange.toNat / cumBelow s x 256))
          (s.regs.rcRange.toNat / cumBelow s x 256 * litSingle s sym))
      (fun e t =>
        (e = .raise .corruptPayload ∧ t = s ∧
          cumBelow s x 256 ≤ s.regs.rcBuffer.toNat / (s.regs.rcRange.toNat / cumBelow s x 256)) ∨
        ∃ sym, FoundAt s x (s.regs.rcBuffer.toNat / (s.regs.rcRange.toNat / cumBelow s x 256)) sym ∧
          ReadFails (normShifts (s.regs.rcRange.toNat / cumBelow s x 256 * litSingle s sym)) s e t) := by
  have hte := h.totEx_ge hx
  have htl := h.totEx_eq hx
  have hle := h.total_le hc
  have hR := s.regs.rcRange.isLt
  have hr1 : 1 ≤ s.regs.rcRange.toNat / cumBelow s x 256 := Nat.div_pos (by omega) (by omega)
  unfold litDecAdaptive Ends
  rw [bind_of_ok (getRegs_run s), bind_of_ok (h.totEx_run hx), bind_of_ok (checkedDiv_of_ne (by omega) s),
    bind_of_ok (checkedDiv_of_ne (by omega) s)]
  by_cases hcor : cumBelow s x 256 ≤ s.regs.rcBuffer.toNat / (s.regs.rcRange.toNat / cumBelow s x 256)
  · rw [if_pos hcor]
    exact .inl ⟨rfl, rfl, hcor⟩
  · rw [if_neg hcor]
    have hlt := Nat.lt_of_not_le hcor
    obtain ⟨g, hg, hw, hgl, -⟩ := walkGroups_spec h hlt 16 0 rfl (by simp)
    rw [bind_of_ok (show walkGroups x _ 16 0 0 s = _ by simpa using hw)]
    obtain ⟨sym, -, hs, hw', h1, h2⟩ := walkSingles_spec hlt (256 - 16 * g) (16 * g) (by omega) hgl
    obtain ⟨hfound, hfreq⟩ := foundAt_of_walk hs h1 h2
    rw [bind_of_ok hw', bind_of_ok (show readSingle sym s = .ok (litSingle s sym) s from rfl)]
    have hpos := h.freq_pos hs hfound.2.1
    have hi := interval_le (s := s) (x := x) hs
    rw [hfreq] at hpos hi
    obtain ⟨hb1, hb2⟩ := interval_bounds (by omega) hpos hi (show cumBelow s x 256 ≤ s.regs.rcRange.toNat by omega)
    exact Ends.bind ((decTakeInterval_spec (cumBelow s x sym) (litSingle s sym) _ s (base_le_window h1) hb1 (by omega)).mono
      (fun _ _ h => h) fun _ _ he => .inr ⟨sym, hfound, he⟩) fun _ t ht => ends_pure ⟨hfound, ht⟩

/-- LitEncFixed's rank (R178). -/
def fixedRank (sym x : Nat) : Nat := sym - (if x < sym then 1 else 0)

theorem fixedRank_lt {sym x : Nat} (hs : sym < 256) (hx : x < 256) (hne : sym ≠ x) : fixedRank sym x < 255 := by
  unfold fixedRank
  split <;> omega

/-- The symbol of a rank is the one that has it (R179). -/
theorem fixedRank_symbol {sym x : Nat} (hne : sym ≠ x) :
    fixedRank sym x + (if x ≤ fixedRank sym x then 1 else 0) = sym := by
  unfold fixedRank
  split_ifs <;> omega

/-- LitEncFixed (R178). -/
theorem litEncFixed_spec {s : State} {sym x : Nat} (hx : x < 256) (hs : sym < 256) (hne : sym ≠ x)
    (hr : 2 ^ 23 ≤ s.regs.rcRange.toNat) :
    Ends (litEncFixed sym x) s
      (fun _ t => Encoded s t (fixedRank sym x * (s.regs.rcRange.toNat / 255)) (s.regs.rcRange.toNat / 255) ∧
        encoderErased t = encoderErased s)
      (EncodeStops s (fixedRank sym x * (s.regs.rcRange.toNat / 255)) (normShifts (s.regs.rcRange.toNat / 255))) := by
  have hrank := fixedRank_lt hs hx hne
  obtain ⟨h1, h2⟩ := interval_bounds (R := s.regs.rcRange.toNat) (cum := fixedRank sym x) (freq := 1) (tot := 255) (by omega) le_rfl
    (by omega) (by omega)
  rw [Nat.mul_one] at h1 h2
  have hlt := s.regs.rcRange.isLt
  unfold litEncFixed Ends
  rw [bind_of_ok (getRegs_run s), bind_of_ok (checkedDiv_of_ne (by omega) s),
    bind_of_ok (checkedSub_of_le (show (if x < sym then 1 else 0) ≤ sym by split <;> omega) s)]
  show Ends (do carryAdd (fixedRank sym x * _); setRange _; encNormalize) s _ _
  rw [← bind_assoc]
  refine narrow_spec _ _ s ?_ h1 h2
  refine Ends.bind (carryAdd_spec _ _ (by omega)) fun _ u hu => ?_
  refine (setRange_spec _ _ (by omega)).mono ?_ (fun _ _ h => h.elim)
  rintro _ _ rfl
  refine ⟨hu.erased ▸ rfl, hu.port, hu.count, ?_, hu.buffer, hu.carry, hu.low, hu.valid, hu.delay, hu.run⟩
  simp; omega

/-- LitDecFixed (R179). -/
theorem litDecFixed_spec {s : State} {x : Nat} (hr : 2 ^ 23 ≤ s.regs.rcRange.toNat) :
    Ends (litDecFixed x) s
      (fun sym t => s.regs.rcBuffer.toNat / (s.regs.rcRange.toNat / 255) < 255 ∧
        sym = s.regs.rcBuffer.toNat / (s.regs.rcRange.toNat / 255) +
          (if x ≤ s.regs.rcBuffer.toNat / (s.regs.rcRange.toNat / 255) then 1 else 0) ∧
        Taken s t (s.regs.rcBuffer.toNat / (s.regs.rcRange.toNat / 255) * (s.regs.rcRange.toNat / 255))
          (s.regs.rcRange.toNat / 255))
      (fun e t =>
        (e = .raise .corruptPayload ∧ t = s ∧ 255 ≤ s.regs.rcBuffer.toNat / (s.regs.rcRange.toNat / 255)) ∨
        s.regs.rcBuffer.toNat / (s.regs.rcRange.toNat / 255) < 255 ∧ ReadFails (normShifts (s.regs.rcRange.toNat / 255)) s e t) := by
  have hR := s.regs.rcRange.isLt
  have hr1 : 1 ≤ s.regs.rcRange.toNat / 255 := Nat.div_pos (by omega) (by omega)
  unfold litDecFixed Ends
  rw [bind_of_ok (getRegs_run s), bind_of_ok (checkedDiv_of_ne (by omega) s), bind_of_ok (checkedDiv_of_ne (by omega) s)]
  by_cases hcor : 255 ≤ s.regs.rcBuffer.toNat / (s.regs.rcRange.toNat / 255)
  · rw [if_pos hcor]
    exact .inl ⟨rfl, rfl, hcor⟩
  · rw [if_neg hcor]
    have hb : s.regs.rcRange.toNat / 255 * 1 < 2 ^ 31 := by
      rw [Nat.mul_one]; exact lt_of_le_of_lt (Nat.div_le_self _ _) hR
    have := decTakeInterval_spec (s.regs.rcBuffer.toNat / (s.regs.rcRange.toNat / 255)) 1 (s.regs.rcRange.toNat / 255) s
      (Nat.div_mul_le_self _ _) (by omega) hb
    rw [Nat.mul_one] at this
    have hlt := Nat.lt_of_not_le hcor
    exact Ends.bind (this.mono (fun _ _ h => h) fun _ _ he => Or.inr ⟨hlt, he⟩) fun _ t ht => ends_pure ⟨hlt, rfl, ht⟩

end Sys2Proof.Machine
end

