-- ==== Sys2Proof/Laws/Training.lean ====
section
/-! SUPPORT. Training and rescale (R181, R182, R187), and the cost tracker (R183, R184): what they write, and that they keep the
invariant of R172. -/

namespace Sys2Proof.Machine

open Finset

/-! ### Entries of one context (R64) -/

theorem singleIndex_inj {c a b : Nat} : singleIndex c a = singleIndex c b ↔ a = b := by unfold singleIndex; omega

/-- An entry of another context, or of another table, is no entry of context `c`. -/
def OutsideContext (c : Nat) (t : TableId) (i : Nat) : Prop := ¬(t = .lit ∧ c * 273 ≤ i ∧ i < c * 273 + 273)

/-- What a training step of context `c` leaves as it was: everything but the tables, and in them all but that context. -/
structure OnlyContext (c : Nat) (s t : State) : Prop where
  state : t = { s with tables := t.tables }
  wf : Memory.wf s.regs.scfg t.tables
  fill : t.tables.fill = s.tables.fill
  other : ∀ id i, OutsideContext c id i → tblRead t id i = tblRead s id i

theorem OnlyContext.refl {c : Nat} {s : State} (h : Memory.wf s.regs.scfg s.tables) : OnlyContext c s s := ⟨rfl, h, rfl, fun _ _ _ => rfl⟩

theorem OnlyContext.scfg {c : Nat} {s t : State} (h : OnlyContext c s t) : t.regs.scfg = s.regs.scfg := by rw [h.state]

theorem OnlyContext.regs {c : Nat} {s t : State} (h : OnlyContext c s t) : t.regs = s.regs := by rw [h.state]

theorem OnlyContext.trans {c : Nat} {s t u : State} (h : OnlyContext c s t) (h' : OnlyContext c t u) : OnlyContext c s u := by
  refine ⟨?_, by rw [← h.scfg]; exact h'.wf, h'.fill.trans h.fill, fun id i ho => (h'.other id i ho).trans (h.other id i ho)⟩
  have h1 := h.state
  have h2 := h'.state
  rw [h1] at h2
  exact h2

/-- One write of an entry of a context. -/
theorem write_onlyContext {s : State} {c i : Nat} (v : Entry) (hwf : Memory.wf s.regs.scfg s.tables) (h1 : c * 273 ≤ i)
    (h2 : i < c * 273 + 273) :
    OnlyContext c s { s with tables := tablesWrite s.regs.scfg s.tables .lit i v } ∧
      ∀ j, tblRead { s with tables := tablesWrite s.regs.scfg s.tables .lit i v } .lit j =
        if j = i then v else tblRead s .lit j := by
  refine ⟨⟨rfl, tablesWrite_wf hwf, tablesWrite_fill, fun id j ho => ?_⟩, fun j => ?_⟩
  · refine tablesRead_write_other hwf fun h => ho ⟨h.1, ?_⟩
    omega
  · split
    · next h => rw [h]; exact tablesRead_write_same hwf
    · next h => exact tablesRead_write_other hwf fun h' => h h'.2

/-- Entry `i` <- its value + step, where it fits. -/
theorem addToLit_spec {s : State} {c i step : Nat} (hwf : Memory.wf s.regs.scfg s.tables) (h1 : c * 273 ≤ i)
    (h2 : i < c * 273 + 273) (hfit : (tblRead s .lit i).toNat + step < 2 ^ 16) :
    ∃ t, addToLit i step s = .ok () t ∧ OnlyContext c s t ∧
      ∀ j, (tblRead t .lit j).toNat = if j = i then (tblRead s .lit j).toNat + step else (tblRead s .lit j).toNat := by
  unfold addToLit
  rw [bind_of_ok (get_run s), bind_of_ok (checkedFit_of_lt hfit s)]
  obtain ⟨ho, hr⟩ := write_onlyContext (BitVec.ofNat 16 ((tblRead s .lit i).toNat + step)) hwf h1 h2
  refine ⟨_, rfl, ho, fun j => ?_⟩
  rw [hr]
  split
  · next h => rw [h, BitVec.toNat_ofNat, Nat.mod_eq_of_lt hfit]
  · rfl

/-! ### Rescale (R182) -/

/-- `max(1, f >> 1)`. -/
def halved (f : Nat) : Nat := max 1 (f / 2)

theorem halve_all {s : State} {c : Nat} (hwf : Memory.wf s.regs.scfg s.tables) (a n : Nat) (hn : a + n ≤ 256) :
    ∃ t, forEach (halveSingle c) (List.range' a n) s = .ok () t ∧ OnlyContext c s t ∧
      ∀ k, (tblRead t .lit (c * 273 + k)).toNat =
        if a ≤ k ∧ k < a + n then halved (tblRead s .lit (c * 273 + k)).toNat else (tblRead s .lit (c * 273 + k)).toNat := by
  induction n generalizing a s with
  | zero => exact ⟨s, rfl, OnlyContext.refl hwf, fun k => by rw [if_neg (by omega)]⟩
  | succ n ih =>
    rw [List.range'_succ]
    unfold forEach
    have hi1 : c * 273 ≤ singleIndex c a := by unfold singleIndex; omega
    have hi2 : singleIndex c a < c * 273 + 273 := by unfold singleIndex; omega
    obtain ⟨ho, hr⟩ := write_onlyContext (BitVec.ofNat 16 (max 1 ((tblRead s .lit (singleIndex c a)).toNat >>> 1))) hwf hi1 hi2
    have hrun : halveSingle c a s = .ok () { s with
        tables := tablesWrite s.regs.scfg s.tables .lit (singleIndex c a)
          (BitVec.ofNat 16 (max 1 ((tblRead s .lit (singleIndex c a)).toNat >>> 1))) } := rfl
    rw [bind_of_ok hrun]
    obtain ⟨t, ht, hot, hrt⟩ := ih (s := { s with
        tables := tablesWrite s.regs.scfg s.tables .lit (singleIndex c a)
          (BitVec.ofNat 16 (max 1 ((tblRead s .lit (singleIndex c a)).toNat >>> 1))) }) ho.wf (a + 1) (by omega)
    refine ⟨t, ht, ho.trans hot, fun k => ?_⟩
    rw [hrt, hr]
    have hlt := (tblRead s .lit (c * 273 + k)).isLt
    by_cases hk : k = a
    · subst hk
      rw [if_neg (by omega), if_pos (by unfold singleIndex; rfl), if_pos (by omega)]
      rw [BitVec.toNat_ofNat, Nat.shiftRight_eq_div_pow]
      unfold halved singleIndex
      rw [Nat.mod_eq_of_lt]
      omega
    · rw [if_neg (show ¬c * 273 + k = singleIndex c a by unfold singleIndex; omega)]
      have : (a + 1 ≤ k ∧ k < a + 1 + n) = (a ≤ k ∧ k < a + (n + 1)) := by apply propext; omega
      simp only [this]

/-- G[g] <- the sum of its singles, for groups `a` to `a + n - 1`, where the sums fit. -/
theorem regroup_all {s : State} {c : Nat} (hwf : Memory.wf s.regs.scfg s.tables) (a n : Nat) (hn : a + n ≤ 16)
    (hfit : ∀ g < 16, ∑ k ∈ range 16, singleOf s c (16 * g + k) < 2 ^ 16) :
    ∃ t, forEach (regroup c) (List.range' a n) s = .ok () t ∧ OnlyContext c s t ∧
      ∀ k, (tblRead t .lit (c * 273 + k)).toNat =
        if 256 + a ≤ k ∧ k < 256 + a + n then ∑ j ∈ range 16, singleOf s c (16 * (k - 256) + j)
        else (tblRead s .lit (c * 273 + k)).toNat := by
  induction n generalizing a s with
  | zero => exact ⟨s, rfl, OnlyContext.refl hwf, fun k => by rw [if_neg (by omega)]⟩
  | succ n ih =>
    rw [List.range'_succ]
    unfold forEach
    have hi1 : c * 273 ≤ groupIndex c a := by unfold groupIndex; omega
    have hi2 : groupIndex c a < c * 273 + 273 := by unfold groupIndex; omega
    have hsum : sumOver (fun sym => readLit (singleIndex c sym)) (List.range' (16 * a) 16) 0 s =
        .ok (∑ j ∈ range 16, singleOf s c (16 * a + j)) s := by
      rw [sumOver_eq (v := fun sym => singleOf s c sym) _ fun k _ => rfl, Nat.zero_add]
    obtain ⟨ho, hr⟩ := write_onlyContext (BitVec.ofNat 16 (∑ j ∈ range 16, singleOf s c (16 * a + j))) hwf hi1 hi2
    have hrun : regroup c a s = .ok () { s with
        tables := tablesWrite s.regs.scfg s.tables .lit (groupIndex c a)
          (BitVec.ofNat 16 (∑ j ∈ range 16, singleOf s c (16 * a + j))) } := by
      unfold regroup
      rw [bind_of_ok hsum, bind_of_ok (checkedFit_of_lt (hfit a (by omega)) s)]
      rfl
    rw [bind_of_ok hrun]
    have hsingle : ∀ sym < 256, singleOf { s with
        tables := tablesWrite s.regs.scfg s.tables .lit (groupIndex c a)
          (BitVec.ofNat 16 (∑ j ∈ range 16, singleOf s c (16 * a + j))) } c sym = singleOf s c sym := by
      intro sym hs
      have := hr (singleIndex c sym)
      rw [if_neg (by unfold singleIndex groupIndex; omega)] at this
      exact congrArg BitVec.toNat this
    have hsums : ∀ g < 16, ∑ k ∈ range 16, singleOf { s with
        tables := tablesWrite s.regs.scfg s.tables .lit (groupIndex c a)
          (BitVec.ofNat 16 (∑ j ∈ range 16, singleOf s c (16 * a + j))) } c (16 * g + k) =
        ∑ k ∈ range 16, singleOf s c (16 * g + k) := fun g hg =>
      sum_congr rfl fun k hk => hsingle _ (by have := mem_range.mp hk; omega)
    obtain ⟨t, ht, hot, hrt⟩ := ih (s := { s with
        tables := tablesWrite s.regs.scfg s.tables .lit (groupIndex c a)
          (BitVec.ofNat 16 (∑ j ∈ range 16, singleOf s c (16 * a + j))) }) ho.wf (a + 1) (by omega)
      (fun g hg => by rw [hsums g hg]; exact hfit g hg)
    refine ⟨t, ht, ho.trans hot, fun k => ?_⟩
    rw [hrt, hr]
    by_cases hk : k = 256 + a
    · subst hk
      rw [if_neg (by omega), if_pos (by unfold groupIndex; rfl), if_pos (by omega), BitVec.toNat_ofNat,
        Nat.mod_eq_of_lt (hfit a (by omega)), Nat.add_sub_cancel_left]
    · rw [if_neg (show ¬c * 273 + k = groupIndex c a by unfold groupIndex; omega)]
      by_cases hk' : 256 + (a + 1) ≤ k ∧ k < 256 + (a + 1) + n
      · rw [if_pos hk', if_pos (by omega), hsums _ (by omega)]
      · rw [if_neg hk', if_neg (by omega)]

/-- What Rescale leaves of context `c` (R182): every single halved but kept at 1, the groups and the total the sums. -/
theorem rescale_spec {s : State} {c : Nat} (hwf : Memory.wf s.regs.scfg s.tables)
    (hfit : ∑ sym ∈ range 256, halved (singleOf s c sym) < 2 ^ 16) :
    ∃ t, rescale c s = .ok () t ∧ OnlyContext c s t ∧
      (∀ sym < 256, singleOf t c sym = halved (singleOf s c sym)) ∧
      (∀ g < 16, groupOf t c g = ∑ k ∈ range 16, halved (singleOf s c (16 * g + k))) ∧
      totalOf t c = ∑ sym ∈ range 256, halved (singleOf s c sym) := by
  obtain ⟨t1, h1, o1, r1⟩ := halve_all (c := c) hwf 0 256 (by omega)
  have hs1 : ∀ sym < 256, singleOf t1 c sym = halved (singleOf s c sym) := by
    intro sym hs
    have := r1 sym
    rw [if_pos (by omega)] at this
    exact this
  have hg1 : ∀ g < 16, ∑ k ∈ range 16, singleOf t1 c (16 * g + k) = ∑ k ∈ range 16, halved (singleOf s c (16 * g + k)) :=
    fun g hg => sum_congr rfl fun k hk => hs1 _ (by have := mem_range.mp hk; omega)
  have hgle : ∀ g < 16, ∑ k ∈ range 16, halved (singleOf s c (16 * g + k)) ≤ ∑ sym ∈ range 256, halved (singleOf s c sym) := by
    intro g hg
    have := sum_blocks (fun sym => halved (singleOf s c sym)) 16
    rw [show 16 * 16 = 256 from rfl] at this
    rw [← this]
    exact single_le_sum (f := fun g => ∑ k ∈ range 16, halved (singleOf s c (16 * g + k))) (fun _ _ => Nat.zero_le _)
      (mem_range.mpr hg)
  have w1 : Memory.wf t1.regs.scfg t1.tables := by rw [o1.scfg]; exact o1.wf
  obtain ⟨t2, h2, o2, r2⟩ := regroup_all (c := c) w1 0 16 (by omega) (fun g hg => by
    rw [hg1 g hg]; exact lt_of_le_of_lt (hgle g hg) hfit)
  have hs2 : ∀ sym < 256, singleOf t2 c sym = halved (singleOf s c sym) := by
    intro sym hs
    have := r2 sym
    rw [if_neg (by omega)] at this
    exact this.trans (hs1 sym hs)
  have hg2 : ∀ g < 16, groupOf t2 c g = ∑ k ∈ range 16, halved (singleOf s c (16 * g + k)) := by
    intro g hg
    have := r2 (256 + g)
    rw [if_pos (by omega), Nat.add_sub_cancel_left, hg1 g hg] at this
    exact this
  have hsum : sumOver (fun g => readLit (groupIndex c g)) (List.range 16) 0 t2 = .ok (∑ sym ∈ range 256, halved (singleOf s c sym)) t2 := by
    have hb := sum_blocks (fun sym => halved (singleOf s c sym)) 16
    rw [show 16 * 16 = 256 from rfl] at hb
    have he : ∑ g ∈ range 16, groupOf t2 c (0 + g) = ∑ sym ∈ range 256, halved (singleOf s c sym) := by
      rw [← hb]
      refine sum_congr rfl fun g hg => ?_
      rw [Nat.zero_add]
      exact hg2 g (mem_range.mp hg)
    rw [List.range_eq_range', sumOver_eq (v := fun g => groupOf t2 c g) _ fun k _ => rfl, Nat.zero_add, he]
  have w2 : Memory.wf t2.regs.scfg t2.tables := by rw [o2.scfg]; exact o2.wf
  obtain ⟨o3, r3⟩ := write_onlyContext (i := totalIndex c) (c := c)
    (BitVec.ofNat 16 (∑ sym ∈ range 256, halved (singleOf s c sym))) w2 (by unfold totalIndex; omega) (by unfold totalIndex; omega)
  refine ⟨{ t2 with
    tables := tablesWrite t2.regs.scfg t2.tables .lit (totalIndex c)
      (BitVec.ofNat 16 (∑ sym ∈ range 256, halved (singleOf s c sym))) }, ?_, o1.trans (o2.trans o3), fun sym hs => ?_, fun g hg => ?_, ?_⟩
  · unfold rescale
    rw [List.range_eq_range', bind_of_ok h1, List.range_eq_range', bind_of_ok h2, ← List.range_eq_range', bind_of_ok hsum,
      bind_of_ok (checkedFit_of_lt hfit t2)]
    rfl
  · have := r3 (singleIndex c sym)
    rw [if_neg (by unfold singleIndex totalIndex; omega)] at this
    rw [← hs2 sym hs, singleOf, this]
    rfl
  · have := r3 (groupIndex c g)
    rw [if_neg (by unfold groupIndex totalIndex; omega)] at this
    rw [← hg2 g hg, groupOf, this]
    rfl
  · have := r3 (totalIndex c)
    rw [if_pos rfl] at this
    rw [totalOf, this, BitVec.toNat_ofNat, Nat.mod_eq_of_lt hfit]

/-! ### LitTrain (R181, R187) -/

/-- A single after the three additions of LitTrain(sym). -/
def addedSingle (s : State) (c sym k : Nat) : Nat := singleOf s c k + (if k = sym then cfgStep s.regs.scfg else 0)

/-- A single after LitTrain(sym) (R181, R182). -/
def trainedSingle (s : State) (c sym k : Nat) : Nat :=
  if cfgLimit s.regs.scfg < totalOf s c + cfgStep s.regs.scfg then halved (addedSingle s c sym k) else addedSingle s c sym k

theorem sum_add_at (f : Nat → Nat) (d sym n : Nat) :
    ∑ k ∈ range n, (f k + if k = sym then d else 0) = ∑ k ∈ range n, f k + (if sym < n then d else 0) := by
  rw [sum_add_distrib]
  congr 1
  rw [sum_ite_eq']
  simp only [mem_range]

/-- Halving but keeping 1 takes half of the sum off, up to the number of singles (R187). -/
theorem halved_sum_le (f : Nat → Nat) (n : Nat) (h : ∀ k < n, 1 ≤ f k) : 2 * ∑ k ∈ range n, halved (f k) ≤ ∑ k ∈ range n, f k + n := by
  induction n with
  | zero => simp
  | succ n ih =>
    rw [sum_range_succ, sum_range_succ]
    have := ih fun k hk => h k (by omega)
    have h1 := h n (by omega)
    have : 2 * halved (f n) ≤ f n + 1 := by unfold halved; omega
    omega

theorem LitContextOk.total_sum {s : State} {c : Nat} (h : LitContextOk s c) : totalOf s c = ∑ k ∈ range 256, singleOf s c k := by
  rw [h.total, list_sum_range, show (256 : Nat) = 16 * 16 from rfl, ← sum_blocks (singleOf s c) 16]
  refine sum_congr rfl fun g hg => ?_
  rw [h.groups g (mem_range.mp hg), list_sum_range]

/-- The total's bound leaves room for one step more (R187). -/
theorem LitContextOk.total_room {s : State} {c : Nat} (h : LitContextOk s c) (hc : CfgBounds s.regs.scfg) :
    totalOf s c + cfgStep s.regs.scfg ≤ 32767 := by
  have := h.bound
  have := hc.limit
  have := hc.step
  omega

/-- LitTrain(sym) (R181): what it leaves of the context, and that the invariant of R172 holds of it still (R187). -/
theorem litTrain_spec {s : State} {sym : Nat} (hwf : Memory.wf s.regs.scfg s.tables) (hc : CfgBounds s.regs.scfg)
    (h : LitContextOk s (litCtx s)) (hs : sym < 256) :
    ∃ t, litTrain sym s = .ok () t ∧ OnlyContext (litCtx s) s t ∧ LitContextOk t (litCtx s) ∧
      ∀ k < 256, singleOf t (litCtx s) k = trainedSingle s (litCtx s) sym k := by
  generalize hcx : litCtx s = c at h
  have hroom := h.total_room hc
  have hsum := h.total_sum
  have hgs : sym >>> 4 = sym / 16 := by rw [Nat.shiftRight_eq_div_pow]
  have hsl : singleOf s c sym ≤ totalOf s c := by
    rw [hsum]; exact single_le_sum (f := singleOf s c) (fun _ _ => Nat.zero_le _) (mem_range.mpr hs)
  have hgl : groupOf s c (sym / 16) ≤ totalOf s c := by
    rw [h.total, list_sum_range]
    exact single_le_sum (f := groupOf s c) (fun _ _ => Nat.zero_le _) (mem_range.mpr (by omega))
  obtain ⟨t1, h1, o1, r1⟩ := addToLit_spec (c := c) (i := singleIndex c sym) (step := cfgStep s.regs.scfg) hwf
    (by unfold singleIndex; omega) (by unfold singleIndex; omega) (by change singleOf s c sym + _ < _; omega)
  have w1 : Memory.wf t1.regs.scfg t1.tables := by rw [o1.scfg]; exact o1.wf
  have g1 : (tblRead t1 .lit (groupIndex c (sym / 16))).toNat = groupOf s c (sym / 16) := by
    rw [r1, if_neg (by unfold singleIndex groupIndex; omega)]; rfl
  obtain ⟨t2, h2, o2, r2⟩ := addToLit_spec (c := c) (i := groupIndex c (sym / 16)) (step := cfgStep s.regs.scfg) w1
    (by unfold groupIndex; omega) (by unfold groupIndex; omega) (by rw [g1]; omega)
  have w2 : Memory.wf t2.regs.scfg t2.tables := by rw [o2.scfg]; exact o2.wf
  have g2 : (tblRead t2 .lit (totalIndex c)).toNat = totalOf s c := by
    rw [r2, if_neg (by unfold totalIndex groupIndex; omega), r1, if_neg (by unfold totalIndex singleIndex; omega)]; rfl
  obtain ⟨t3, h3, o3, r3⟩ := addToLit_spec (c := c) (i := totalIndex c) (step := cfgStep s.regs.scfg) w2
    (by unfold totalIndex; omega) (by unfold totalIndex; omega) (by rw [g2]; omega)
  have o : OnlyContext c s t3 := o1.trans (o2.trans o3)
  have w3 : Memory.wf t3.regs.scfg t3.tables := by rw [o.scfg]; exact o.wf
  have hs3 : ∀ k < 256, singleOf t3 c k = addedSingle s c sym k := by
    intro k hk
    unfold singleOf addedSingle
    rw [r3, if_neg (by unfold singleIndex totalIndex; omega), r2, if_neg (by unfold singleIndex groupIndex; omega), r1]
    simp only [singleIndex_inj]
    split
    · rfl
    · rfl
  have hg3 : ∀ g < 16, groupOf t3 c g = groupOf s c g + (if g = sym / 16 then cfgStep s.regs.scfg else 0) := by
    intro g hg
    unfold groupOf
    have hne : groupIndex c g ≠ singleIndex c sym := by unfold singleIndex groupIndex; omega
    rw [r3, if_neg (by unfold groupIndex totalIndex; omega), r2, r1, if_neg hne]
    by_cases hgg : g = sym / 16
    · rw [if_pos (by rw [hgg]), if_pos hgg]
    · rw [if_neg (by unfold groupIndex; omega), if_neg hgg, Nat.add_zero]
  have ht3 : totalOf t3 c = totalOf s c + cfgStep s.regs.scfg := by
    unfold totalOf
    rw [r3, if_pos rfl, g2]
    rfl
  have hcx3 : litCtx t3 = c := by rw [← hcx]; unfold litCtx; rw [o.regs]
  have hrun : litTrain sym s =
      (whenTrue (decide (cfgLimit s.regs.scfg < litTotal t3)) (rescale c)) t3 := by
    unfold litTrain
    rw [bind_of_ok (get_run s), hcx, hgs, bind_of_ok h1, bind_of_ok h2, bind_of_ok h3, bind_of_ok (get_run t3)]
  have htot3 : litTotal t3 = totalOf s c + cfgStep s.regs.scfg := by
    unfold litTotal; rw [hcx3]; exact ht3
  have hsumadd : ∑ k ∈ range 256, addedSingle s c sym k = totalOf s c + cfgStep s.regs.scfg := by
    unfold addedSingle
    rw [sum_add_at, if_pos hs, hsum]
  have hpos : ∀ k < 256, 1 ≤ addedSingle s c sym k := fun k hk => by
    have := h.positive k hk
    unfold addedSingle
    omega
  by_cases hlim : cfgLimit s.regs.scfg < totalOf s c + cfgStep s.regs.scfg
  · have hle := halved_sum_le (addedSingle s c sym) 256 hpos
    rw [hsumadd] at hle
    have hhs : ∑ k ∈ range 256, halved (singleOf t3 c k) = ∑ k ∈ range 256, halved (addedSingle s c sym k) :=
      sum_congr rfl fun k hk => by rw [hs3 k (mem_range.mp hk)]
    obtain ⟨t, ht, ot, hst, hgt, htt⟩ := rescale_spec (s := t3) (c := c) w3 (by rw [hhs]; omega)
    refine ⟨t, ?_, o.trans ot, ⟨fun g hg => ?_, ?_, fun k hk => ?_, ?_⟩, fun k hk => ?_⟩
    · rw [hrun, htot3, decide_eq_true hlim]
      exact ht
    · rw [hgt g hg, list_sum_range]
      exact sum_congr rfl fun k hk => (hst _ (by have := mem_range.mp hk; omega)).symm
    · rw [htt, list_sum_range, show (256 : Nat) = 16 * 16 from rfl, ← sum_blocks (fun k => halved (singleOf t3 c k)) 16]
      exact sum_congr rfl fun g hg => (hgt g (mem_range.mp hg)).symm
    · rw [hst k hk]; unfold halved; omega
    · rw [ot.scfg, o.scfg, htt, hhs]
      have := h.bound
      omega
    · rw [hst k hk, hs3 k hk, trainedSingle, if_pos hlim]
  · refine ⟨t3, ?_, o, ⟨fun g hg => ?_, ?_, fun k hk => ?_, ?_⟩, fun k hk => ?_⟩
    · rw [hrun, htot3, decide_eq_false hlim]
      rfl
    · rw [hg3 g hg, h.groups g hg, list_sum_range, list_sum_range]
      have : ∀ k ∈ range 16, singleOf t3 c (16 * g + k) =
          singleOf s c (16 * g + k) + if k = sym - 16 * g ∧ 16 * g ≤ sym then cfgStep s.regs.scfg else 0 := by
        intro k hk
        have := mem_range.mp hk
        rw [hs3 _ (by omega), addedSingle]
        have hiff : (16 * g + k = sym) = (k = sym - 16 * g ∧ 16 * g ≤ sym) := by
          clear * -
          apply propext
          omega
        simp only [hiff]
      rw [sum_congr rfl this]
      by_cases hgg : g = sym / 16
      · have h16 : 16 * g ≤ sym := by omega
        simp only [h16, and_true]
        rw [sum_add_at (fun k => singleOf s c (16 * g + k)), if_pos hgg, if_pos (by omega)]
      · rw [if_neg hgg, Nat.add_zero]
        refine sum_congr rfl fun k hk => ?_
        have := mem_range.mp hk
        rw [if_neg (by omega), Nat.add_zero]
    · rw [ht3, h.total, list_sum_range, list_sum_range, ← sum_congr rfl fun g hg => (hg3 g (mem_range.mp hg)).symm,
        sum_add_at (groupOf s c), if_pos (by omega)]
    · rw [hs3 k hk]; exact hpos k hk
    · rw [ht3, o.scfg]; exact le_max_of_le_left (Nat.le_of_not_lt hlim)
    · rw [hs3 k hk, trainedSingle, if_neg hlim]

end Sys2Proof.Machine
end

