-- ==== Sys2Proof/Laws/Cost.lean ====
section
/-! SUPPORT. LOG2_FIX and the cost tracker (R183, R184): the decided default is permitted, and COST stays below 2^31. -/

namespace Sys2Proof.Machine

/-- `floorLog2Below` is the floor of the logarithm. -/
theorem floorLog2Below_spec (k : Nat) : ∀ n, 1 ≤ n → n < 2 ^ 2 ^ k → 2 ^ floorLog2Below n k ≤ n ∧ n < 2 ^ (floorLog2Below n k + 1) := by
  induction k with
  | zero =>
    intro n h1 h2
    have : n = 1 := by
      have : (2 : Nat) ^ 2 ^ 0 = 2 := rfl
      omega
    subst this
    exact ⟨le_rfl, by decide⟩
  | succ k ih =>
    intro n h1 h2
    unfold floorLog2Below
    rw [Nat.shiftRight_eq_div_pow]
    have hpos : 0 < 2 ^ 2 ^ k := Nat.two_pow_pos _
    split
    · next h =>
      refine ih n h1 ?_
      by_contra hge
      have := Nat.div_pos (Nat.le_of_not_lt hge) hpos
      omega
    · next h =>
      have hlt : n / 2 ^ 2 ^ k < 2 ^ 2 ^ k := by
        rw [Nat.div_lt_iff_lt_mul hpos, ← pow_add, ← two_mul, ← pow_succ']
        exact h2
      obtain ⟨h3, h4⟩ := ih (n / 2 ^ 2 ^ k) (Nat.pos_of_ne_zero h) hlt
      constructor
      · rw [pow_add, mul_comm]
        exact le_trans (Nat.mul_le_mul_right _ h3) (Nat.div_mul_le_self _ _)
      · rw [Nat.add_assoc, pow_add]
        calc n < (n / 2 ^ 2 ^ k + 1) * 2 ^ 2 ^ k := (Nat.div_lt_iff_lt_mul hpos).mp (Nat.lt_succ_self _)
          _ ≤ 2 ^ (floorLog2Below (n / 2 ^ 2 ^ k) k + 1) * 2 ^ 2 ^ k := Nat.mul_le_mul_right _ h4
          _ = _ := mul_comm _ _

/-- A power of a 15-bit number. -/
theorem pow_lt_of_15 {n e : Nat} (h : n ≤ 32767) (he : e ≠ 0) : n ^ e < 2 ^ (15 * e) := by
  rw [pow_mul]
  exact Nat.pow_lt_pow_left (by norm_num; omega) he

/-- The decided default of LOG2_FIX: `floor(2^14 * log2 n)` (R184). -/
theorem log2FixExact_spec {n : Nat} (h1 : 1 ≤ n) (h2 : n ≤ 32767) :
    2 ^ log2FixExact n ≤ n ^ log2Scale ∧ n ^ log2Scale < 2 ^ (log2FixExact n + 1) := by
  unfold log2FixExact
  refine floorLog2Below_spec 18 _ (Nat.one_le_pow _ _ h1) ?_
  exact lt_of_lt_of_le (pow_lt_of_15 h2 (by decide)) (Nat.pow_le_pow_right (by decide) (by decide))

theorem log2FixExact_mono {n m : Nat} (h1 : 1 ≤ n) (h : n ≤ m) (h2 : m ≤ 32767) : log2FixExact n ≤ log2FixExact m := by
  obtain ⟨h3, -⟩ := log2FixExact_spec h1 (le_trans h h2)
  obtain ⟨-, h4⟩ := log2FixExact_spec (le_trans h1 h) h2
  have : 2 ^ log2FixExact n < 2 ^ (log2FixExact m + 1) :=
    lt_of_le_of_lt h3 (lt_of_le_of_lt (Nat.pow_le_pow_left h log2Scale) h4)
  have := (Nat.pow_lt_pow_iff_right (by decide : 1 < 2)).mp this
  omega

theorem log2FixExact_lt {n : Nat} (h1 : 1 ≤ n) (h2 : n ≤ 32767) : log2FixExact n < 15 * log2Scale := by
  obtain ⟨h3, -⟩ := log2FixExact_spec h1 h2
  exact (Nat.pow_lt_pow_iff_right (by decide : 1 < 2)).mp (lt_of_le_of_lt h3 (pow_lt_of_15 h2 (by decide)))

/-- The decided default is a permitted LOG2_FIX (R184). -/
theorem log2Permitted_exact : log2Permitted .exact := by
  intro n m h1 h h2
  refine ⟨log2FixExact n, log2FixExact m, ?_, ?_, log2FixExact_mono h1 h h2, ?_⟩
  · unfold log2FixValue; rw [if_pos ⟨h1, by omega⟩]
  · unfold log2FixValue; rw [if_pos ⟨by omega, h2⟩]
  · have := log2FixExact_lt (le_trans h1 h) h2
    have : 15 * log2Scale = 245760 := rfl
    omega

/-- LOG2_FIX in a rule. -/
theorem log2Fix_run {n v : Nat} {s : State} (h : log2FixValue s.params.log2Fix n = some v) : log2Fix n s = .ok v s := by
  unfold log2Fix
  rw [h]

/-- COST after CostUpdate (R183). -/
def costAfter (cost logTotal logFreq : Nat) : Nat := cost - cost >>> 7 + logTotal - logFreq

/-- COST stays below 2^31 (R35, R184). -/
theorem costAfter_lt {cost lt lf : Nat} (hc : cost < 2 ^ 31) (hl : lt < 2 ^ 24) : costAfter cost lt lf < 2 ^ 31 := by
  unfold costAfter
  rw [Nat.shiftRight_eq_div_pow]
  omega

/-- CostUpdate(te, fs) (R183). -/
theorem costUpdate_spec {s : State} {te fs : Nat} (hp : log2Permitted s.params.log2Fix) (h1 : 1 ≤ fs) (h2 : fs ≤ te)
    (h3 : te ≤ 32767) (hc : s.regs.cost.toNat < 2 ^ 31) :
    ∃ lt lf, log2FixValue s.params.log2Fix te = some lt ∧ log2FixValue s.params.log2Fix fs = some lf ∧ lf ≤ lt ∧ lt < 2 ^ 24 ∧
      costUpdate te fs s =
        .ok () { s with regs := { s.regs with cost := BitVec.ofNat 32 (costAfter s.regs.cost.toNat lt lf) } } := by
  obtain ⟨lf, lt, hf, ht, hle, hlt⟩ := hp fs te h1 h2 h3
  refine ⟨lt, lf, ht, hf, hle, hlt, ?_⟩
  have hsub : s.regs.cost.toNat >>> 7 ≤ s.regs.cost.toNat := by rw [Nat.shiftRight_eq_div_pow]; omega
  unfold costUpdate
  rw [bind_of_ok (getRegs_run s), bind_of_ok (checkedSub_of_le hsub s), bind_of_ok (log2Fix_run ht), bind_of_ok (log2Fix_run hf),
    bind_of_ok (checkedSub_of_le (by omega) s)]
  have := costAfter_lt (lf := lf) hc hlt
  unfold costAfter at this
  rw [bind_of_ok (checkedFit_of_lt (by omega) s)]
  rfl

end Sys2Proof.Machine
end

