-- ==== Sys2Proof/Laws/Frame.lean ====
section
/-! SUPPORT. What no coding rule touches, from any state and however it ends: every register but the coder's, the model's and the stream
counters; the FIFO, the parameters, the draws; and the record that the ports keep of what crossed them. -/

namespace Sys2Proof.Machine

/-- A state without what the coder's and the model's procedures may write. -/
def ruleErased (s : State) : State :=
  { s with
    regs :=
      { s.regs with
        rcBuffer := 0#31, rcRange := 0#31, carry := false, delayValid := false, delay := 0#8, ffrun := 0#32, look := 0#8,
        context := 0#64, histLo := 0#4, histHi := 0#4, cost := 0#32, inCount := 0#64, outCount := 0#64 }
    tables := Tables.unspecified 0
    inPort := { answers := [], rest := s.inPort.rest, ended := false, used := [] }
    outPort := { answers := [], rest := s.outPort.rest, used := [], taken := [] } }

/-- IN_COUNT from `s` to `t` counts the bytes among the answers taken, and the `m` taken of a byte that stands for every answer after
them. -/
def CountsRead (s t : State) : Prop :=
  ∃ l m, s.inPort.answers = l ++ t.inPort.answers ∧ (m ≠ 0 → t.inPort.answers = [] ∧ ∃ b, s.inPort.rest = some (.byte b)) ∧
    t.regs.inCount = s.regs.inCount + BitVec.ofNat 64 (byteCount l + m)

/-- No answer taken, no byte counted. -/
theorem CountsRead.still {s t : State} (ha : t.inPort.answers = s.inPort.answers) (hc : t.regs.inCount = s.regs.inCount) :
    CountsRead s t :=
  ⟨[], 0, by simp [ha], fun h => absurd rfl h, by simp [hc, byteCount]⟩

/-- From `s` to `t` only what a coding procedure may write has changed; the answers taken are in the ports' records, every byte taken
is counted, and every byte read. -/
structure RuleFrame (s t : State) : Prop where
  erased : ruleErased t = ruleErased s
  inUsed : s.inPort.rest = none → t.inPort.used ++ t.inPort.answers = s.inPort.used ++ s.inPort.answers
  outUsed : s.outPort.rest = none → t.outPort.used ++ t.outPort.answers = s.outPort.used ++ s.outPort.answers
  written : ∃ bs, t.outPort.taken = s.outPort.taken ++ bs ∧ t.regs.outCount = s.regs.outCount + BitVec.ofNat 64 bs.length
  read : CountsRead s t

theorem byteCount_append (l m : List InAnswer) : byteCount (l ++ m) = byteCount l + byteCount m := by
  simp [byteCount, List.filterMap_append]

theorem RuleFrame.refl (s : State) : RuleFrame s s :=
  ⟨rfl, fun _ => rfl, fun _ => rfl, ⟨[], by simp⟩, .still rfl rfl⟩

theorem RuleFrame.inRest {s t : State} (h : RuleFrame s t) : t.inPort.rest = s.inPort.rest := by
  have := congrArg (fun u : State => u.inPort.rest) h.erased
  exact this

theorem RuleFrame.outRest {s t : State} (h : RuleFrame s t) : t.outPort.rest = s.outPort.rest := by
  have := congrArg (fun u : State => u.outPort.rest) h.erased
  exact this

theorem RuleFrame.trans {s t u : State} (h : RuleFrame s t) (h' : RuleFrame t u) : RuleFrame s u := by
  refine ⟨h'.erased.trans h.erased, fun hr => ?_, fun hr => ?_, ?_, ?_⟩
  · rw [h'.inUsed (h.inRest.trans hr), h.inUsed hr]
  · rw [h'.outUsed (h.outRest.trans hr), h.outUsed hr]
  · obtain ⟨as, ha, hca⟩ := h.written
    obtain ⟨bs, hb, hcb⟩ := h'.written
    exact ⟨as ++ bs, by rw [hb, ha, List.append_assoc], by rw [hcb, hca, List.length_append, BitVec.ofNat_add, BitVec.add_assoc]⟩
  · obtain ⟨l, m, ha, hm, hca⟩ := h.read
    obtain ⟨l', m', hb, hm', hcb⟩ := h'.read
    refine ⟨l ++ l', m + m', by rw [ha, hb, List.append_assoc], fun hne => ?_, ?_⟩
    · by_cases h0 : m = 0
      · obtain ⟨h1, h2⟩ := hm' (by omega)
        exact ⟨h1, by rw [← h.inRest]; exact h2⟩
      · obtain ⟨h1, h2⟩ := hm h0
        rw [h1] at hb
        exact ⟨(List.append_eq_nil_iff.mp hb.symm).2, h2⟩
    · rw [hcb, hca, byteCount_append, BitVec.add_assoc, ← BitVec.ofNat_add]
      congr 2
      omega

/-- The causes a coding procedure raises (R261). -/
def codingCause : Cause → Bool
  | .ioFailure | .unexpectedEndOfInput | .corruptPayload | .narrowMismatch | .carryOverflow | .ffrunOverflow => true
  | .badMagic | .invalidConfiguration | .allocationFailure | .trailingData | .illegalCommand | .badState | .operandRange => false

/-- However it ends, `x` keeps the frame, and it raises no cause but a coding procedure's. -/
structure Framed {α : Type} (x : Cmd α) : Prop where
  ends : ∀ s, Ends x s (fun _ t => RuleFrame s t) (fun e t => RuleFrame s t ∧ ∀ c, e = .raise c → codingCause c = true)

section Framed
variable {α β : Type}

theorem framed_bind {x : Cmd α} {f : α → Cmd β} (hx : Framed x) (hf : ∀ a, Framed (f a)) : Framed (x >>= f) := ⟨fun s =>
  Ends.bind (hx.ends s) fun a t ht => ((hf a).ends t).mono (fun _ _ h => ht.trans h) fun _ _ h => ⟨ht.trans h.1, h.2⟩⟩

/-- A piece that changes no state. -/
theorem framed_still {x : Cmd α} (h : ∀ s, Ends x s (fun _ t => t = s) (fun e t => t = s ∧ ∀ c, e ≠ .raise c)) : Framed x := ⟨fun s =>
  (h s).mono (fun _ _ h => h ▸ RuleFrame.refl s) fun _ _ h => ⟨h.1 ▸ RuleFrame.refl s, fun c hc => absurd hc (h.2 c)⟩⟩

theorem framed_pure (a : α) : Framed (pure a : Cmd α) := ⟨fun s => RuleFrame.refl s⟩
theorem framed_get : Framed (get : Cmd State) := ⟨fun s => RuleFrame.refl s⟩
theorem framed_getRegs : Framed getRegs := ⟨fun s => RuleFrame.refl s⟩
theorem framed_raise {c : Cause} (hc : codingCause c = true) : Framed (raiseFault c : Cmd α) :=
  ⟨fun s => ⟨RuleFrame.refl s, fun d hd => by cases hd; exact hc⟩⟩
theorem framed_stop (f : Fault) : Framed (stopFault f : Cmd α) := ⟨fun s => ⟨RuleFrame.refl s, fun c hc => by cases hc⟩⟩

theorem framed_checkedSub (a b : Nat) : Framed (checkedSub a b) := framed_still fun s => by
  unfold checkedSub Ends; split <;> rename_i h <;> split at h <;> cases h <;> simp

theorem framed_checkedDiv (a b : Nat) : Framed (checkedDiv a b) := framed_still fun s => by
  unfold checkedDiv Ends; split <;> rename_i h <;> split at h <;> cases h <;> simp

theorem framed_checkedFit (w v : Nat) : Framed (checkedFit w v) := framed_still fun s => by
  unfold checkedFit Ends; split <;> rename_i h <;> split at h <;> cases h <;> simp

theorem framed_log2Fix (n : Nat) : Framed (log2Fix n) := framed_still fun s => by
  unfold Ends
  cases h : log2FixValue s.params.log2Fix n <;> simp [log2Fix, h]

/-- A write of the coder's or the model's registers. -/
theorem framed_modifyRegs {f : Regs → Regs} (h : ∀ r, f r = { r with
      rcBuffer := (f r).rcBuffer, rcRange := (f r).rcRange, carry := (f r).carry, delayValid := (f r).delayValid, delay := (f r).delay
      ffrun := (f r).ffrun, look := (f r).look, context := (f r).context, histLo := (f r).histLo, histHi := (f r).histHi
      cost := (f r).cost }) : Framed (modifyRegs f) := by
  refine ⟨fun s => ?_⟩
  show RuleFrame s { s with regs := f s.regs }
  rw [h]
  exact ⟨rfl, fun _ => rfl, fun _ => rfl, ⟨[], by simp⟩, .still rfl rfl⟩

theorem framed_writeTable (t : TableId) (i : Nat) (v : Entry) : Framed (writeTable t i v) := by
  refine ⟨fun s => ?_⟩
  show RuleFrame s { s with tables := tablesWrite s.regs.scfg s.tables t i v }
  exact ⟨rfl, fun _ => rfl, fun _ => rfl, ⟨[], by simp⟩, .still rfl rfl⟩

theorem framed_whenTrue {c : Bool} {x : Cmd Unit} (h : Framed x) : Framed (whenTrue c x) := by
  cases c
  · exact framed_pure ()
  · exact h

theorem framed_ite {c : Prop} [Decidable c] {x y : Cmd α} (hx : Framed x) (hy : Framed y) : Framed (if c then x else y) := by
  split
  · exact hx
  · exact hy

theorem framed_forEach {body : Nat → Cmd Unit} (h : ∀ j, Framed (body j)) (js : List Nat) : Framed (forEach body js) := by
  induction js with
  | nil => exact framed_pure ()
  | cons j js ih => exact framed_bind (h j) fun _ => ih

theorem framed_sumOver {value : Nat → Cmd Nat} (h : ∀ j, Framed (value j)) (js : List Nat) (acc : Nat) : Framed (sumOver value js acc) := by
  induction js generalizing acc with
  | nil => exact framed_pure acc
  | cons j js ih => exact framed_bind (h j) fun v => ih (acc + v)

end Framed

/-- An answer taken from the input port. -/
theorem ruleFrame_answer {s : State} {a : InAnswer} {p : InPort} (h : nextInAnswer s.inPort = some (a, p)) (ha : answerByte a = none) :
    RuleFrame s { s with inPort := p } := by
  rcases nextInAnswer_cases h with ⟨-, -, rfl⟩ | ⟨-, h1, h2, -, h3⟩
  · exact RuleFrame.refl s
  · refine ⟨by simp [ruleErased, h2], fun hr => ?_, fun _ => rfl, ⟨[], by simp⟩, ?_⟩
    · rcases h3 with h3 | ⟨-, -, h3⟩
      · rw [h1, h3]; simp
      · rw [hr] at h3; cases h3
    · rcases h3 with h3 | ⟨h3, h4, -⟩
      · exact ⟨[a], 0, h3, fun h => absurd rfl h, by simp [byteCount, ha]⟩
      · exact .still (by rw [h3, h4]) rfl

/-- A byte taken from the input port, and counted. -/
theorem ruleFrame_byte {s : State} {b : Byte} {p : InPort} (h : nextInAnswer s.inPort = some (.byte b, p)) :
    RuleFrame s { s with inPort := p, regs := { s.regs with inCount := s.regs.inCount + 1#64 } } := by
  rcases nextInAnswer_cases h with ⟨-, h0, -⟩ | ⟨-, h1, h2, -, h3⟩
  · cases h0
  · refine ⟨by simp [ruleErased, h2], fun hr => ?_, fun _ => rfl, ⟨[], by simp⟩, ?_⟩
    · rcases h3 with h3 | ⟨-, -, h3⟩
      · rw [h1, h3]; simp
      · rw [hr] at h3; cases h3
    · rcases h3 with h3 | ⟨h3, h4, h5⟩
      · exact ⟨[.byte b], 0, h3, fun h => absurd rfl h, by simp [byteCount, answerByte]⟩
      · exact ⟨[], 1, by simp [h3, h4], fun _ => ⟨h4, b, h5⟩, by simp [byteCount]⟩

theorem framed_inRead : Framed inRead := ⟨fun s =>
  ends_inRead (fun _ _ h => ruleFrame_byte h) (fun _ h => ⟨ruleFrame_answer h rfl, fun c hc => by cases hc; rfl⟩)
    (fun _ h => ⟨ruleFrame_answer h rfl, fun c hc => by cases hc; rfl⟩) fun _ => ⟨RuleFrame.refl s, fun c hc => by cases hc⟩⟩

/-- An answer taken from the output port. -/
theorem ruleFrame_outAnswer {s : State} {a : OutAnswer} {p : OutPort} {bs : List Byte} (h : nextOutAnswer s.outPort = some (a, p)) :
    RuleFrame s { s with
      outPort := { p with taken := p.taken ++ bs }
      regs := { s.regs with outCount := s.regs.outCount + BitVec.ofNat 64 bs.length } } := by
  obtain ⟨h1, h2, h3, h4⟩ := nextOutAnswer_cases h
  refine ⟨by simp [ruleErased, h2], fun _ => rfl, fun hr => ?_, ⟨bs, by rw [h3], rfl⟩, .still rfl rfl⟩
  rcases h4 with h4 | ⟨-, -, h4⟩
  · show p.used ++ p.answers = _
    rw [h1, h4]; simp
  · rw [hr] at h4; cases h4

theorem framed_outWrite (b : Byte) : Framed (outWrite b) := by
  refine ⟨fun s => ?_⟩
  refine ends_outWrite (fun p h => ruleFrame_outAnswer (bs := [b]) h) (fun p h => ⟨?_, fun c hc => by cases hc; rfl⟩)
    fun _ => ⟨RuleFrame.refl s, fun c hc => by cases hc⟩
  have := ruleFrame_outAnswer (bs := []) h
  simpa using this

/-! ### The procedures -/

theorem framed_setRange (v : Nat) : Framed (setRange v) :=
  framed_bind (framed_checkedFit _ _) fun _ => framed_modifyRegs fun _ => rfl

theorem framed_setBuffer (v : Nat) : Framed (setBuffer v) := framed_modifyRegs fun _ => rfl

theorem framed_carryAdd (v : Nat) : Framed (carryAdd v) :=
  framed_bind framed_getRegs fun _ => framed_ite (framed_setBuffer _) (framed_ite (framed_raise rfl) (framed_modifyRegs fun _ => rfl))

theorem framed_outWriteRun (b : Byte) (n : Nat) : Framed (outWriteRun b n) := by
  induction n with
  | zero => exact framed_pure ()
  | succ n ih => exact framed_bind (framed_outWrite b) fun _ => ih

theorem framed_flushDelayed (x : Byte) : Framed (flushDelayed x) :=
  framed_bind framed_getRegs fun _ => framed_bind (framed_whenTrue (framed_outWrite _)) fun _ =>
    framed_bind (framed_outWriteRun _ _) fun _ => framed_modifyRegs fun _ => rfl

theorem framed_outputStage (x : Byte) : Framed (outputStage x) :=
  framed_bind framed_getRegs fun _ => framed_ite (framed_ite (framed_raise rfl) (framed_flushDelayed x))
    (framed_ite (framed_raise rfl) (framed_modifyRegs fun _ => rfl))

theorem framed_encShift : Framed encShift :=
  framed_bind framed_getRegs fun _ => framed_bind (framed_outputStage _) fun _ => framed_modifyRegs fun _ => rfl

theorem framed_encNormalizeWithin (n : Nat) : Framed (encNormalizeWithin n) := by
  induction n with
  | zero => exact framed_bind framed_getRegs fun _ => framed_ite (framed_stop _) (framed_pure ())
  | succ n ih =>
    exact framed_bind framed_getRegs fun _ => framed_ite
      (framed_bind framed_encShift fun _ => framed_bind (framed_modifyRegs fun _ => rfl) fun _ => ih) (framed_pure ())

theorem framed_decNormalizeWithin (n : Nat) : Framed (decNormalizeWithin n) := by
  induction n with
  | zero => exact framed_bind framed_getRegs fun _ => framed_ite (framed_stop _) (framed_pure ())
  | succ n ih =>
    exact framed_bind framed_getRegs fun _ => framed_ite
      (framed_bind framed_inRead fun _ => framed_bind (framed_modifyRegs fun _ => rfl) fun _ => ih) (framed_pure ())

theorem framed_decPrime : Framed decPrime :=
  framed_bind framed_inRead fun _ => framed_bind framed_inRead fun _ => framed_bind framed_inRead fun _ =>
    framed_bind framed_inRead fun _ => framed_modifyRegs fun _ => rfl

theorem framed_encFlag (p : Nat) (m : Bool) : Framed (encFlag p m) :=
  framed_bind (framed_bind framed_getRegs fun _ => framed_ite (framed_setRange _) (framed_bind (framed_carryAdd _) fun _ =>
    framed_bind (framed_checkedSub _ _) fun _ => framed_setRange _)) fun _ => framed_encNormalizeWithin 3

theorem framed_decFlag (p : Nat) : Framed (decFlag p) :=
  framed_bind framed_getRegs fun _ => framed_ite
    (framed_bind (framed_setRange _) fun _ => framed_bind (framed_decNormalizeWithin 3) fun _ => framed_pure _)
    (framed_bind (framed_checkedSub _ _) fun _ => framed_bind (framed_setBuffer _) fun _ => framed_bind (framed_setRange _) fun _ =>
      framed_bind (framed_decNormalizeWithin 3) fun _ => framed_pure _)

theorem framed_encEos (last : Bool) : Framed (encEos last) :=
  framed_bind (framed_bind framed_getRegs fun _ => framed_bind (framed_checkedSub _ _) fun _ => framed_ite
    (framed_bind (framed_carryAdd _) fun _ => framed_setRange _) (framed_setRange _)) fun _ => framed_encNormalizeWithin 3

theorem framed_decEos : Framed decEos :=
  framed_bind framed_getRegs fun _ => framed_bind (framed_checkedSub _ _) fun _ => framed_ite
    (framed_bind (framed_setRange _) fun _ => framed_bind (framed_decNormalizeWithin 3) fun _ => framed_pure _)
    (framed_bind (framed_setBuffer _) fun _ => framed_bind (framed_setRange _) fun _ =>
      framed_bind (framed_decNormalizeWithin 3) fun _ => framed_pure _)

theorem framed_encFreq (cum freq tot : Nat) : Framed (encFreq cum freq tot) :=
  framed_bind framed_getRegs fun _ => framed_bind (framed_checkedDiv _ _) fun _ => framed_bind (framed_carryAdd _) fun _ =>
    framed_bind (framed_setRange _) fun _ => framed_encNormalizeWithin 3

theorem framed_decTarget (tot : Nat) : Framed (decTarget tot) :=
  framed_bind framed_getRegs fun _ => framed_bind (framed_checkedDiv _ _) fun _ => framed_bind (framed_checkedDiv _ _) fun _ =>
    framed_ite (framed_raise rfl) (framed_pure _)

theorem framed_decTakeInterval (base freq r : Nat) : Framed (decTakeInterval base freq r) :=
  framed_bind framed_getRegs fun _ => framed_bind (framed_checkedSub _ _) fun _ => framed_bind (framed_setBuffer _) fun _ =>
    framed_bind (framed_setRange _) fun _ => framed_decNormalizeWithin 3

theorem framed_decNarrow (cum freq tot : Nat) : Framed (decNarrow cum freq tot) :=
  framed_bind framed_getRegs fun _ => framed_bind (framed_checkedDiv _ _) fun _ => framed_bind (framed_checkedDiv _ _) fun _ =>
    framed_ite (framed_decTakeInterval _ _ _) (framed_raise rfl)

theorem framed_flushCoder : Framed flushCoder :=
  framed_bind framed_encShift fun _ => framed_bind framed_encShift fun _ => framed_bind framed_encShift fun _ =>
    framed_bind framed_encShift fun _ => framed_encShift

theorem framed_totEx (x : Nat) : Framed (totEx x) := framed_bind framed_get fun _ => framed_checkedSub _ _
theorem framed_groupEx (g x : Nat) : Framed (groupEx g x) := framed_bind framed_get fun _ => framed_checkedSub _ _
theorem framed_freqEx (sym x : Nat) : Framed (freqEx sym x) := framed_bind framed_get fun _ => framed_pure _
theorem framed_readSingle (sym : Nat) : Framed (readSingle sym) := framed_still fun _ => rfl
theorem framed_readLit (i : Nat) : Framed (readLit i) := framed_still fun _ => rfl

theorem framed_cumEx (sym x : Nat) : Framed (cumEx sym x) :=
  framed_bind (framed_sumOver (fun _ => framed_groupEx _ _) _ _) fun _ => framed_sumOver (fun _ => framed_freqEx _ _) _ _

theorem framed_walkGroups (x t left g acc : Nat) : Framed (walkGroups x t left g acc) := by
  induction left generalizing g acc with
  | zero => exact framed_stop _
  | succ left ih => exact framed_bind (framed_groupEx _ _) fun _ => framed_ite (ih _ _) (framed_pure _)

theorem framed_walkSingles (x t left sym acc : Nat) : Framed (walkSingles x t left sym acc) := by
  induction left generalizing sym acc with
  | zero => exact framed_stop _
  | succ left ih => exact framed_bind (framed_freqEx _ _) fun _ => framed_ite (ih _ _) (framed_pure _)

theorem framed_litEncPath (fixed : Bool) (sym x : Nat) : Framed (litEncPath fixed sym x) := by
  refine framed_ite ?_ ?_
  · exact framed_bind framed_getRegs fun _ => framed_bind (framed_checkedDiv _ _) fun _ => framed_bind (framed_checkedSub _ _) fun _ =>
      framed_bind (framed_carryAdd _) fun _ => framed_bind (framed_setRange _) fun _ => framed_encNormalizeWithin 3
  · exact framed_bind (framed_totEx _) fun _ => framed_bind (framed_cumEx _ _) fun _ => framed_bind (framed_readSingle _) fun _ =>
      framed_encFreq _ _ _

theorem framed_litDecPath (fixed : Bool) (x : Nat) : Framed (litDecPath fixed x) := by
  refine framed_ite ?_ ?_
  · exact framed_bind framed_getRegs fun _ => framed_bind (framed_checkedDiv _ _) fun _ => framed_bind (framed_checkedDiv _ _) fun _ =>
      framed_ite (framed_raise rfl) (framed_bind (framed_decTakeInterval _ _ _) fun _ => framed_pure _)
  · exact framed_bind framed_getRegs fun _ => framed_bind (framed_totEx _) fun _ => framed_bind (framed_checkedDiv _ _) fun _ =>
      framed_bind (framed_checkedDiv _ _) fun _ => framed_ite (framed_raise rfl) (framed_bind (framed_walkGroups _ _ _ _ _) fun _ =>
        framed_bind (framed_walkSingles _ _ _ _ _) fun _ => framed_bind (framed_readSingle _) fun _ =>
          framed_bind (framed_decTakeInterval _ _ _) fun _ => framed_pure _)

theorem framed_costUpdate (te fs : Nat) : Framed (costUpdate te fs) :=
  framed_bind framed_getRegs fun _ => framed_bind (framed_checkedSub _ _) fun _ => framed_bind (framed_log2Fix _) fun _ =>
    framed_bind (framed_log2Fix _) fun _ => framed_bind (framed_checkedSub _ _) fun _ => framed_bind (framed_checkedFit _ _) fun _ =>
      framed_modifyRegs fun _ => rfl

theorem framed_addToLit (i step : Nat) : Framed (addToLit i step) :=
  framed_bind framed_get fun _ => framed_bind (framed_checkedFit _ _) fun _ => framed_writeTable _ _ _

theorem framed_halveSingle (c sym : Nat) : Framed (halveSingle c sym) := framed_bind framed_get fun _ => framed_writeTable _ _ _

theorem framed_writeFit (t : TableId) (i v : Nat) : Framed (do let w ← checkedFit 16 v; writeTable t i w) :=
  framed_bind (framed_checkedFit _ _) fun _ => framed_writeTable _ _ _

theorem framed_regroup (c g : Nat) : Framed (regroup c g) := by
  unfold regroup
  refine framed_bind ?_ fun sum => ?_
  · exact framed_sumOver (fun j => framed_readLit _) _ _
  · exact framed_writeFit _ _ _

theorem framed_rescale (c : Nat) : Framed (rescale c) := by
  unfold rescale
  generalize List.range 256 = singles
  generalize List.range 16 = groups
  refine framed_bind (framed_forEach (framed_halveSingle c) singles) fun _ => framed_bind (framed_forEach (framed_regroup c) groups) fun _ =>
    framed_bind (framed_sumOver (fun g => framed_readLit (groupIndex c g)) groups 0) fun sum => ?_
  exact framed_writeFit _ _ _

theorem framed_litTrain (sym : Nat) : Framed (litTrain sym) := by
  unfold litTrain
  refine framed_bind framed_get fun s => framed_bind (framed_addToLit _ _) fun _ => framed_bind (framed_addToLit _ _) fun _ =>
    framed_bind (framed_addToLit _ _) fun _ => framed_bind framed_get fun t => ?_
  have h : Framed (rescale (litCtx s)) := framed_rescale (litCtx s)
  exact framed_whenTrue h

/-- What a literal does after its coding (R183, R181). -/
theorem framed_learn (te fs sym : Nat) {α : Type} (a : α) : Framed (do costUpdate te fs; litTrain sym; pure a) := by
  refine framed_bind (framed_costUpdate te fs) fun _ => ?_
  exact framed_bind (framed_litTrain sym) fun _ => framed_pure a

theorem framed_litEncode (sym x : Nat) : Framed (litEncode sym x) := by
  unfold litEncode
  refine framed_bind framed_get fun s => framed_bind (framed_totEx x) fun te => framed_bind (framed_readSingle sym) fun fs => ?_
  refine framed_bind (framed_litEncPath _ sym x) fun _ => ?_
  exact framed_bind (framed_costUpdate te fs) fun _ => framed_litTrain sym

theorem framed_litDecode (x : Nat) : Framed (litDecode x) := by
  unfold litDecode
  refine framed_bind framed_get fun s => framed_bind (framed_totEx x) fun te => framed_bind (framed_litDecPath _ x) fun sym => ?_
  exact framed_bind (framed_readSingle sym) fun fs => framed_learn te fs sym sym

theorem framed_observeMember (m : Member) (q : Prediction) (b : Byte) : Framed (observeMember m q b) :=
  framed_bind framed_get fun _ => framed_bind (framed_writeTable _ _ _) fun _ => framed_bind
    (framed_bind framed_get fun _ => framed_bind (framed_ite (framed_bind (framed_checkedSub _ _) fun _ => framed_pure _)
      (framed_checkedSub _ _)) fun _ => framed_bind (framed_checkedFit _ _) fun _ => framed_writeTable _ _ _) fun _ =>
    framed_modifyRegs fun _ => by cases m <;> rfl

theorem framed_observe (lo hi : Prediction) (b : Byte) : Framed (observe lo hi b) :=
  framed_bind (framed_observeMember _ _ _) fun _ => framed_bind framed_get fun _ =>
    framed_bind (framed_whenTrue (framed_observeMember _ _ _)) fun _ => framed_modifyRegs fun _ => rfl

/-- ENC_SYM's rule (R241). -/
theorem framed_encodeSymbol (b : Byte) : Framed (encodeSymbol b) :=
  framed_bind (framed_encEos _) fun _ => framed_bind framed_get fun _ => framed_bind (framed_encFlag _ _) fun _ =>
    framed_bind (framed_whenTrue (framed_litEncode _ _)) fun _ => framed_observe _ _ _

/-- DEC_SYM's byte (R242). -/
theorem framed_decodeByte (x : Prediction) : Framed (decodeByte x) :=
  framed_bind (framed_decFlag _) fun _ => framed_ite (framed_pure _) (framed_bind (framed_litDecode _) fun _ => framed_pure _)

end Sys2Proof.Machine
end

