-- ==== Sys2Proof/Laws/Local.lean ====
section
/-! SUPPORT. The procedures that touch the model alone (R247): from two states with the same model they do the same to it, and nothing
else. -/

namespace Sys2Proof.Machine

/-- What one run of a model procedure from `s`, and one from `s'` with the same model, have in common. -/
def AgreeOn {α : Type} (s s' : State) : EStateM.Result Abort State α → EStateM.Result Abort State α → Prop
  | .ok a t, .ok a' t' => a = a' ∧ SameModel t t' ∧ modelErased t = modelErased s ∧ modelErased t' = modelErased s'
  | .error e t, .error e' t' => e = e' ∧ modelErased t = modelErased s ∧ modelErased t' = modelErased s'
  | .ok _ _, .error _ _ => False
  | .error _ _, .ok _ _ => False

/-- A procedure that reads the model alone and changes the model alone. -/
structure Local {α : Type} (x : Cmd α) : Prop where
  agree : ∀ s s', SameModel s s' → AgreeOn s s' (x s) (x s')

section
variable {α β : Type} {x : Cmd α} {f : α → Cmd β}

theorem local_pure (a : α) : Local (pure a : Cmd α) := ⟨fun _ _ h => ⟨rfl, h, rfl, rfl⟩⟩

theorem local_stop (g : Fault) : Local (stopFault g : Cmd α) := ⟨fun _ _ _ => ⟨rfl, rfl, rfl⟩⟩

theorem Local.bind (h : Local x) (hf : ∀ a, Local (f a)) : Local (x >>= f) := by
  refine ⟨fun s s' hs => ?_⟩
  have h1 := h.agree s s' hs
  cases hx : x s with
  | ok a t =>
    cases hx' : x s' with
    | ok a' t' =>
      rw [hx, hx'] at h1
      obtain ⟨rfl, hm, he, he'⟩ := h1
      rw [bind_of_ok hx, bind_of_ok hx']
      have h2 := (hf a).agree t t' hm
      cases hy : f a t <;> cases hy' : f a t' <;> rw [hy, hy'] at h2
      · obtain ⟨e1, e2, e3, e4⟩ := h2; exact ⟨e1, e2, e3.trans he, e4.trans he'⟩
      · exact h2.elim
      · exact h2.elim
      · obtain ⟨e1, e2, e3⟩ := h2; exact ⟨e1, e2.trans he, e3.trans he'⟩
    | error e t' => rw [hx, hx'] at h1; exact h1.elim
  | error e t =>
    cases hx' : x s' with
    | ok a' t' => rw [hx, hx'] at h1; exact h1.elim
    | error e' t' =>
      rw [hx, hx'] at h1
      rw [bind_of_error hx, bind_of_error hx']
      exact h1

/-- A procedure that looks at the state, but only at its model. -/
theorem local_get {f : State → Cmd β} (h : ∀ s s', SameModel s s' → f s = f s') (hf : ∀ s, Local (f s)) :
    Local ((get : Cmd State) >>= f) := by
  refine ⟨fun s s' hs => ?_⟩
  rw [bind_of_ok (get_run s), bind_of_ok (get_run s'), ← h s s' hs]
  exact (hf s).agree s s' hs

theorem local_checkedSub (a b : Nat) : Local (checkedSub a b) := by
  refine ⟨fun s s' h => ?_⟩
  unfold checkedSub
  split
  · exact ⟨rfl, h, rfl, rfl⟩
  · exact ⟨rfl, rfl, rfl⟩

theorem local_checkedFit (w v : Nat) : Local (checkedFit w v) := by
  refine ⟨fun s s' h => ?_⟩
  unfold checkedFit
  split
  · exact ⟨rfl, h, rfl, rfl⟩
  · exact ⟨rfl, rfl, rfl⟩

theorem local_writeTable (t : TableId) (i : Nat) (v : Entry) : Local (writeTable t i v) := by
  refine ⟨fun s s' h => ?_⟩
  refine ⟨rfl, ⟨h.params, ?_, h.scfg, h.context, h.histLo, h.histHi, h.cost⟩, rfl, rfl⟩
  show tablesWrite s.regs.scfg s.tables t i v = tablesWrite s'.regs.scfg s'.tables t i v
  rw [h.scfg, h.tables]

theorem local_whenTrue {c : Bool} {x : Cmd Unit} (h : Local x) : Local (whenTrue c x) := by
  cases c
  · exact local_pure ()
  · exact h

theorem local_forEach {body : Nat → Cmd Unit} (h : ∀ j, Local (body j)) (js : List Nat) : Local (forEach body js) := by
  induction js with
  | nil => exact local_pure ()
  | cons j js ih => exact (h j).bind fun _ => ih

theorem local_sumOver {value : Nat → Cmd Nat} (h : ∀ j, Local (value j)) (js : List Nat) (acc : Nat) : Local (sumOver value js acc) := by
  induction js generalizing acc with
  | nil => exact local_pure acc
  | cons j js ih => exact (h j).bind fun v => ih (acc + v)

end

theorem SameModel.litCtx {s t : State} (h : SameModel s t) : litCtx s = Machine.litCtx t := by
  simp only [Machine.litCtx, h.context, h.scfg]

theorem SameModel.litSingle {s t : State} (h : SameModel s t) (sym : Nat) : litSingle s sym = Machine.litSingle t sym := by
  simp only [Machine.litSingle, h.litCtx, h.tblRead]

theorem SameModel.litGroup {s t : State} (h : SameModel s t) (g : Nat) : litGroup s g = Machine.litGroup t g := by
  simp only [Machine.litGroup, h.litCtx, h.tblRead]

theorem SameModel.litTotal {s t : State} (h : SameModel s t) : litTotal s = Machine.litTotal t := by
  simp only [Machine.litTotal, h.litCtx, h.tblRead]

theorem local_readSingle (sym : Nat) : Local (readSingle sym) := ⟨fun _ _ h => ⟨h.litSingle sym, h, rfl, rfl⟩⟩

theorem local_readLit (i : Nat) : Local (readLit i) := ⟨fun _ _ h => ⟨by rw [h.tblRead], h, rfl, rfl⟩⟩

theorem local_addToLit (i step : Nat) : Local (addToLit i step) :=
  local_get (fun s s' h => by rw [h.tblRead]) fun s => (local_checkedFit _ _).bind fun v => local_writeTable _ _ _

theorem local_halveSingle (c sym : Nat) : Local (halveSingle c sym) :=
  local_get (fun s s' h => by rw [h.tblRead]) fun s => local_writeTable _ _ _

theorem local_regroup (c g : Nat) : Local (regroup c g) :=
  (local_sumOver (fun _ => local_readLit _) _ _).bind fun _ => (local_checkedFit _ _).bind fun _ => local_writeTable _ _ _

theorem local_rescale (c : Nat) : Local (rescale c) := by
  unfold rescale
  apply Local.bind (local_forEach (local_halveSingle c) _)
  intro _
  apply Local.bind (local_forEach (local_regroup c) _)
  intro _
  apply Local.bind (local_sumOver (fun g => local_readLit (groupIndex c g)) _ 0)
  intro _
  exact (local_checkedFit 16 _).bind fun _ => local_writeTable _ _ _

/-- LitTrain touches the model alone. -/
theorem local_litTrain (sym : Nat) : Local (litTrain sym) := by
  unfold litTrain
  apply local_get
  · intro s s' h
    rw [h.litCtx, h.scfg]
  · intro s
    apply Local.bind (local_addToLit _ _)
    intro _
    apply Local.bind (local_addToLit _ _)
    intro _
    apply Local.bind (local_addToLit _ _)
    intro _
    apply local_get
    · intro t t' h
      rw [h.litTotal]
    · exact fun _ => local_whenTrue (local_rescale _)

theorem local_log2Fix (n : Nat) : Local (log2Fix n) := by
  refine ⟨fun s s' h => ?_⟩
  unfold log2Fix
  rw [← h.params]
  split
  · exact ⟨rfl, h, rfl, rfl⟩
  · exact ⟨rfl, rfl, rfl⟩

/-- CostUpdate touches the model alone. -/
theorem local_costUpdate (te fs : Nat) : Local (costUpdate te fs) := by
  refine ⟨fun s s' h => ?_⟩
  unfold costUpdate
  rw [bind_of_ok (getRegs_run s), bind_of_ok (getRegs_run s'), ← h.cost]
  refine Local.agree ((local_checkedSub _ _).bind fun _ => (local_log2Fix te).bind fun _ => (local_log2Fix fs).bind fun _ =>
    (local_checkedSub _ _).bind fun _ => (local_checkedFit 32 _).bind fun cost => ?_) s s' h
  exact ⟨fun t t' h => ⟨rfl, ⟨h.params, h.tables, h.scfg, h.context, h.histLo, h.histHi, rfl⟩, rfl, rfl⟩⟩

theorem local_apmNext (p : Nat) (m : Bool) : Local (apmNext p m) := by
  unfold apmNext
  split
  · exact (local_checkedSub _ _).bind fun _ => local_pure _
  · exact local_checkedSub _ _

theorem local_apmUpdate (t : TableId) (h : BitVec 4) (st : Byte) (m : Bool) : Local (apmUpdate t h st m) :=
  local_get (fun s s' h => by rw [h.tblRead]) fun _ => (local_apmNext _ _).bind fun _ => (local_checkedFit _ _).bind fun _ =>
    local_writeTable _ _ _

theorem local_observeMember (m : Member) (q : Prediction) (b : Byte) : Local (observeMember m q b) := by
  refine local_get (fun s s' h => by rw [h.params, h.memberHist]) fun s => (local_writeTable _ _ _).bind fun _ =>
    (local_apmUpdate _ _ _ _).bind fun _ => ?_
  refine ⟨fun t t' h => ?_⟩
  cases m
  · exact ⟨rfl, ⟨h.params, h.tables, h.scfg, h.context, by simp only [setMemberHist, memberHist, h.histLo], h.histHi, h.cost⟩, rfl, rfl⟩
  · exact ⟨rfl, ⟨h.params, h.tables, h.scfg, h.context, h.histLo, by simp only [setMemberHist, memberHist, h.histHi], h.cost⟩, rfl, rfl⟩

/-- Observe touches the model alone. -/
theorem local_observe (lo hi : Prediction) (b : Byte) : Local (observe lo hi b) := by
  refine (local_observeMember _ _ _).bind fun _ => local_get (fun s s' h => by rw [h.dual]) fun _ =>
    (local_whenTrue (local_observeMember _ _ _)).bind fun _ => ?_
  exact ⟨fun t t' h => ⟨rfl, ⟨h.params, h.tables, h.scfg, by simp only [h.context], h.histLo, h.histHi, h.cost⟩, rfl, rfl⟩⟩

end Sys2Proof.Machine
end

