-- ==== Sys2Proof/Laws/LiteralCoding.lean ====
section
/-! SUPPORT. LitEncode and LitDecode whole (R186): the sub-interval of a symbol, the same on both sides, and what both leave of the
model. -/

namespace Sys2Proof.Machine

/-- The low end of a literal's sub-interval above the window low (R176, R178). -/
def litLow (s : State) (x sym : Nat) : Nat :=
  if useFixed s then fixedRank sym x * (s.regs.rcRange.toNat / 255)
  else cumBelow s x sym * (s.regs.rcRange.toNat / cumBelow s x 256)

/-- The width of a literal's sub-interval (R176, R178). -/
def litWidth (s : State) (x sym : Nat) : Nat :=
  if useFixed s then s.regs.rcRange.toNat / 255 else s.regs.rcRange.toNat / cumBelow s x 256 * litSingle s sym

/-- A state in which a literal can be coded: its context as R172 says, and the session's bounds. -/
structure LitReady (s : State) : Prop where
  wf : Memory.wf s.regs.scfg s.tables
  cfg : CfgBounds s.regs.scfg
  ctx : CtxOk s
  log : log2Permitted s.params.log2Fix
  cost : s.regs.cost.toNat < 2 ^ 31
  range : 2 ^ 23 ≤ s.regs.rcRange.toNat

/-- A literal's sub-interval is not empty and is inside the interval (R176, R178). -/
theorem LitReady.interval {s : State} {x sym : Nat} (h : LitReady s) (hx : x < 256) (hs : sym < 256) (hne : sym ≠ x) :
    1 ≤ litWidth s x sym ∧ litLow s x sym + litWidth s x sym ≤ s.regs.rcRange.toNat := by
  have hr := h.range
  unfold litLow litWidth
  split
  · have hrank := fixedRank_lt hs hx hne
    have := interval_bounds (R := s.regs.rcRange.toNat) (cum := fixedRank sym x) (freq := 1) (tot := 255) (by omega) le_rfl (by omega)
      (by omega)
    rwa [Nat.mul_one] at this
  · have hte := h.ctx.totEx_ge hx
    have htl := h.ctx.totEx_eq hx
    have hle := h.ctx.total_le h.cfg
    have hf : freqExOf s x sym = litSingle s sym := if_neg hne
    have hi := interval_le (s := s) (x := x) hs
    have hp := h.ctx.freq_pos hs hne
    rw [hf] at hi hp
    exact interval_bounds (by omega) hp hi (by omega)

/-- The window's value is in a literal's sub-interval exactly where the target is in the symbol's own (R177, R179). -/
theorem mul_div_interval {B r a f : Nat} (hr : 1 ≤ r) : (a * r ≤ B ∧ B < a * r + r * f) ↔ (a ≤ B / r ∧ B / r < a + f) := by
  rw [Nat.le_div_iff_mul_le hr, Nat.div_lt_iff_lt_mul hr]
  have : a * r + r * f = (a + f) * r := by ring
  rw [this]

/-- Two symbols whose sub-intervals hold the same value are the same. -/
theorem LitReady.unique {s : State} {x a b B : Nat} (h : LitReady s) (hx : x < 256) (ha : a < 256) (hb : b < 256) (hax : a ≠ x)
    (hbx : b ≠ x) (h1 : litLow s x a ≤ B) (h2 : B < litLow s x a + litWidth s x a) (h3 : litLow s x b ≤ B)
    (h4 : B < litLow s x b + litWidth s x b) : a = b := by
  have hr := h.range
  unfold litLow litWidth at *
  cases hfix : useFixed s with
  | true =>
    simp only [hfix, if_true] at *
    have hr1 : 1 ≤ s.regs.rcRange.toNat / 255 := Nat.div_pos (by omega) (by omega)
    obtain ⟨h5, h6⟩ := (mul_div_interval (f := 1) hr1).mp ⟨h1, by rw [Nat.mul_one]; exact h2⟩
    obtain ⟨h7, h8⟩ := (mul_div_interval (f := 1) hr1).mp ⟨h3, by rw [Nat.mul_one]; exact h4⟩
    have hrank : fixedRank a x = fixedRank b x := by omega
    rw [← fixedRank_symbol hax, ← fixedRank_symbol hbx, hrank]
  | false =>
    simp only [hfix, Bool.false_eq_true, if_false] at *
    have htl := h.ctx.totEx_eq hx
    have hle := h.ctx.total_le h.cfg
    have hte := h.ctx.totEx_ge hx
    have hr1 : 1 ≤ s.regs.rcRange.toNat / cumBelow s x 256 := Nat.div_pos (by omega) (by omega)
    obtain ⟨h5, h6⟩ := (mul_div_interval hr1).mp ⟨h1, h2⟩
    obtain ⟨h7, h8⟩ := (mul_div_interval hr1).mp ⟨h3, h4⟩
    exact FoundAt.unique (s := s) (x := x) ⟨ha, hax, h5, h6⟩ ⟨hb, hbx, h7, h8⟩

/-- What both directions do to the model after a literal's coding (R186): CostUpdate, then LitTrain. -/
def Learned (s : State) (x sym : Nat) (u t : State) : Prop :=
  ∃ w, costUpdate (cumBelow s x 256) (litSingle s sym) u = .ok () w ∧ litTrain sym w = .ok () t

theorem sameModel_of_encoderErased {s t : State} (h : encoderErased t = encoderErased s) : SameModel s t := by
  have hr : (encoderErased t).regs = (encoderErased s).regs := by rw [h]
  simp only [encoderErased, Regs.mk.injEq] at hr
  have ht : (encoderErased t).tables = (encoderErased s).tables := by rw [h]
  have hp : (encoderErased t).params = (encoderErased s).params := by rw [h]
  exact ⟨hp.symm, ht.symm, by simp_all, by simp_all, by simp_all, by simp_all, by simp_all⟩

theorem sameModel_of_decoderErased {s t : State} (h : decoderErased t = decoderErased s) : SameModel s t := by
  have hr : (decoderErased t).regs = (decoderErased s).regs := by rw [h]
  simp only [decoderErased, Regs.mk.injEq] at hr
  have ht : (decoderErased t).tables = (decoderErased s).tables := by rw [h]
  have hp : (decoderErased t).params = (decoderErased s).params := by rw [h]
  exact ⟨hp.symm, ht.symm, by simp_all, by simp_all, by simp_all, by simp_all, by simp_all⟩

theorem LitReady.of_same {s t : State} (h : LitReady s) (hm : SameModel s t) (hr : 2 ^ 23 ≤ t.regs.rcRange.toNat) : LitReady t := by
  have hs : ∀ c k, singleOf t c k = singleOf s c k := fun c k => by simp only [singleOf, hm.tblRead]
  have hg : ∀ c k, groupOf t c k = groupOf s c k := fun c k => by simp only [groupOf, hm.tblRead]
  have ht : ∀ c, totalOf t c = totalOf s c := fun c => by simp only [totalOf, hm.tblRead]
  refine ⟨?_, ?_, ?_, ?_, ?_, hr⟩
  · rw [← hm.scfg, ← hm.tables]; exact h.wf
  · rw [← hm.scfg]; exact h.cfg
  · have hc := h.ctx
    unfold CtxOk at *
    rw [← hm.litCtx]
    refine ⟨fun g hgl => ?_, ?_, fun k hk => ?_, ?_⟩
    · rw [hg, hc.groups g hgl]; simp only [hs]
    · rw [ht, hc.total]; simp only [hg]
    · rw [hs]; exact hc.positive k hk
    · rw [ht, ← hm.scfg]; exact hc.bound
  · rw [← hm.params]; exact h.log
  · rw [← hm.cost]; exact h.cost

/-- What a literal leaves of the model and of the rest (R181, R183, R186). -/
structure LearnedOk (s u t : State) (x sym : Nat) : Prop where
  erased : modelErased t = modelErased u
  params : t.params = u.params
  scfg : t.regs.scfg = u.regs.scfg
  context : t.regs.context = u.regs.context
  histLo : t.regs.histLo = u.regs.histLo
  histHi : t.regs.histHi = u.regs.histHi
  cost : t.regs.cost.toNat < 2 ^ 31
  wf : Memory.wf u.regs.scfg t.tables
  fill : t.tables.fill = u.tables.fill
  other : ∀ id i, OutsideContext (litCtx s) id i → tblRead t id i = tblRead u id i
  ctx : LitContextOk t (litCtx s)
  singles : ∀ k < 256, singleOf t (litCtx s) k = trainedSingle s (litCtx s) sym k
  costs : ∃ lt lf, log2FixValue s.params.log2Fix (cumBelow s x 256) = some lt ∧
    log2FixValue s.params.log2Fix (litSingle s sym) = some lf ∧ t.regs.cost = BitVec.ofNat 32 (costAfter s.regs.cost.toNat lt lf)

/-- CostUpdate and LitTrain after a literal, from a state with the model the literal was coded with. -/
theorem LitReady.learn {s u : State} {x sym : Nat} (h : LitReady s) (hm : SameModel s u) (hx : x < 256) (hs : sym < 256) (hne : sym ≠ x) :
    ∃ t, (do costUpdate (cumBelow s x 256) (litSingle s sym); litTrain sym) u = .ok () t ∧ Learned s x sym u t ∧
      LearnedOk s u t x sym := by
  have hfx : freqExOf s x sym = litSingle s sym := if_neg hne
  have hp := h.ctx.freq_pos hs hne
  have hi := interval_le (s := s) (x := x) hs
  rw [hfx] at hp hi
  have htl := h.ctx.totEx_eq hx
  have hle := h.ctx.total_le h.cfg
  have hte : cumBelow s x 256 ≤ 32767 := by omega
  obtain ⟨lt, lf, h1, h2, h3, h4, hrun⟩ := costUpdate_spec (s := u) (te := cumBelow s x 256) (fs := litSingle s sym)
    (by rw [← hm.params]; exact h.log) hp (by omega) hte (by rw [← hm.cost]; exact h.cost)
  have hcost : costAfter u.regs.cost.toNat lt lf < 2 ^ 31 := costAfter_lt (by rw [← hm.cost]; exact h.cost) h4
  generalize hw : ({ u with regs := { u.regs with cost := BitVec.ofNat 32 (costAfter u.regs.cost.toNat lt lf) } } : State) = w at hrun
  have hread : ∀ id i, tblRead w id i = tblRead s id i := fun id i => by rw [hm.tblRead, ← hw]; rfl
  have hctx : litCtx w = litCtx s := by rw [hm.litCtx, ← hw]; rfl
  have hscfg : w.regs.scfg = s.regs.scfg := by rw [hm.scfg, ← hw]
  have hwctx : LitContextOk w (litCtx w) := by
    have hc := h.ctx
    rw [hctx]
    have e1 : ∀ c k, singleOf w c k = singleOf s c k := fun c k => by simp only [singleOf, hread]
    have e2 : ∀ c k, groupOf w c k = groupOf s c k := fun c k => by simp only [groupOf, hread]
    have e3 : ∀ c, totalOf w c = totalOf s c := fun c => by simp only [totalOf, hread]
    refine ⟨fun g hgl => ?_, ?_, fun k hk => ?_, ?_⟩
    · rw [e2, hc.groups g hgl]; simp only [e1]
    · rw [e3, hc.total]; simp only [e2]
    · rw [e1]; exact hc.positive k hk
    · rw [e3, hscfg]; exact hc.bound
  have hwwf : Memory.wf w.regs.scfg w.tables := by rw [← hw, ← hm.scfg, ← hm.tables]; exact h.wf
  obtain ⟨t, ht, ho, hok, hsing⟩ := litTrain_spec (sym := sym) hwwf (by rw [hscfg]; exact h.cfg) hwctx hs
  have hregs : t.regs = w.regs := ho.regs
  refine ⟨t, by rw [bind_of_ok hrun]; exact ht, ⟨w, hrun, ht⟩, ?_⟩
  rw [hctx] at ho hok hsing
  have hwr : w.regs = { u.regs with cost := BitVec.ofNat 32 (costAfter u.regs.cost.toNat lt lf) } := by rw [← hw]
  refine ⟨?_, ?_, ?_, ?_, ?_, ?_, ?_, ?_, ?_, ?_, hok, fun k hk => ?_, ⟨lt, lf, ?_, ?_, ?_⟩⟩
  · rw [ho.state, ← hw]; rfl
  · rw [ho.state, ← hw]
  · rw [hregs, hwr]
  · rw [hregs, hwr]
  · rw [hregs, hwr]
  · rw [hregs, hwr]
  · rw [hregs, hwr]
    show (BitVec.ofNat 32 (costAfter u.regs.cost.toNat lt lf)).toNat < 2 ^ 31
    rw [BitVec.toNat_ofNat, Nat.mod_eq_of_lt (by omega)]
    exact hcost
  · have := ho.wf
    rw [hscfg, hm.scfg] at this
    exact this
  · rw [ho.fill, ← hw]
  · intro id i hout
    rw [ho.other id i hout, hread, hm.tblRead]
  · rw [hsing k hk]
    unfold trainedSingle addedSingle totalOf singleOf
    simp only [hread, hscfg]
  · rw [hm.params]; exact h1
  · rw [hm.params]; exact h2
  · rw [hregs, hwr, hm.cost]

/-- LitEncode (R186). -/
theorem litEncode_spec {s : State} {sym x : Nat} (h : LitReady s) (hx : x < 256) (hs : sym < 256) (hne : sym ≠ x) :
    Ends (litEncode sym x) s
      (fun _ t => ∃ u, Encoded s u (litLow s x sym) (litWidth s x sym) ∧ encoderErased u = encoderErased s ∧ Learned s x sym u t ∧
        LearnedOk s u t x sym)
      (EncodeStops s (litLow s x sym) (normShifts (litWidth s x sym))) := by
  have hpath : Ends (litEncPath (useFixed s) sym x) s
      (fun _ u => Encoded s u (litLow s x sym) (litWidth s x sym) ∧ encoderErased u = encoderErased s)
      (EncodeStops s (litLow s x sym) (normShifts (litWidth s x sym))) := by
    unfold litLow litWidth litEncPath
    cases useFixed s with
    | true => exact litEncFixed_spec hx hs hne h.range
    | false => exact litEncAdaptive_spec h.ctx h.cfg hx hs hne h.range
  unfold litEncode Ends
  rw [bind_of_ok (get_run s), bind_of_ok (h.ctx.totEx_run hx), bind_of_ok (show readSingle sym s = .ok (litSingle s sym) s from rfl)]
  refine Ends.bind hpath fun _ u ⟨hu, he⟩ => ?_
  obtain ⟨t, ht, hl, hok⟩ := h.learn (sameModel_of_encoderErased he) hx hs hne
  exact ends_of_ok ht ⟨u, hu, he, hl, hok⟩

/-- LitDecode (R186): it answers the symbol whose sub-interval holds the window's value, takes that sub-interval, and learns. -/
theorem litDecode_spec {s : State} {x : Nat} (h : LitReady s) (hx : x < 256) :
    Ends (litDecode x) s
      (fun sym t => (sym < 256 ∧ sym ≠ x ∧ litLow s x sym ≤ s.regs.rcBuffer.toNat ∧
          s.regs.rcBuffer.toNat < litLow s x sym + litWidth s x sym) ∧
        ∃ u, Taken s u (litLow s x sym) (litWidth s x sym) ∧ Learned s x sym u t ∧ LearnedOk s u t x sym)
      (fun e t =>
        (e = .raise .corruptPayload ∧ t = s ∧ ∀ sym < 256, sym ≠ x → litLow s x sym + litWidth s x sym ≤ s.regs.rcBuffer.toNat) ∨
        ∃ sym, (sym < 256 ∧ sym ≠ x ∧ litLow s x sym ≤ s.regs.rcBuffer.toNat ∧
          s.regs.rcBuffer.toNat < litLow s x sym + litWidth s x sym) ∧ ReadFails (normShifts (litWidth s x sym)) s e t) := by
  have hr := h.range
  have hpath : Ends (litDecPath (useFixed s) x) s
      (fun sym u => (sym < 256 ∧ sym ≠ x ∧ litLow s x sym ≤ s.regs.rcBuffer.toNat ∧
          s.regs.rcBuffer.toNat < litLow s x sym + litWidth s x sym) ∧ Taken s u (litLow s x sym) (litWidth s x sym))
      (fun e t =>
        (e = .raise .corruptPayload ∧ t = s ∧ ∀ sym < 256, sym ≠ x → litLow s x sym + litWidth s x sym ≤ s.regs.rcBuffer.toNat) ∨
        ∃ sym, (sym < 256 ∧ sym ≠ x ∧ litLow s x sym ≤ s.regs.rcBuffer.toNat ∧
          s.regs.rcBuffer.toNat < litLow s x sym + litWidth s x sym) ∧ ReadFails (normShifts (litWidth s x sym)) s e t) := by
    unfold litLow litWidth litDecPath
    cases useFixed s with
    | true =>
      simp only [if_true]
      have hr1 : 1 ≤ s.regs.rcRange.toNat / 255 := Nat.div_pos (by omega) (by omega)
      have key : ∀ B, B / (s.regs.rcRange.toNat / 255) < 255 →
          let sym := B / (s.regs.rcRange.toNat / 255) + (if x ≤ B / (s.regs.rcRange.toNat / 255) then 1 else 0)
          fixedRank sym x = B / (s.regs.rcRange.toNat / 255) ∧ sym < 256 ∧ sym ≠ x ∧
            fixedRank sym x * (s.regs.rcRange.toNat / 255) ≤ B ∧
            B < fixedRank sym x * (s.regs.rcRange.toNat / 255) + s.regs.rcRange.toNat / 255 := by
        intro B hB
        have hrank : fixedRank (B / (s.regs.rcRange.toNat / 255) + (if x ≤ B / (s.regs.rcRange.toNat / 255) then 1 else 0)) x =
            B / (s.regs.rcRange.toNat / 255) := by
          generalize B / (s.regs.rcRange.toNat / 255) = t
          unfold fixedRank
          split_ifs <;> omega
        refine ⟨hrank, ?_, ?_, ?_, ?_⟩
        · split <;> omega
        · split <;> omega
        · rw [hrank]; exact Nat.div_mul_le_self _ _
        · have := (mul_div_interval (B := B) (a := B / (s.regs.rcRange.toNat / 255)) (f := 1) hr1).mpr ⟨le_rfl, by omega⟩
          rw [hrank]
          rw [Nat.mul_one] at this
          exact this.2
      refine (litDecFixed_spec hr).mono ?_ ?_
      · rintro sym u ⟨hlt, rfl, ht⟩
        obtain ⟨k1, k2, k3, k4, k5⟩ := key _ hlt
        exact ⟨⟨k2, k3, k4, k5⟩, by rw [k1]; exact ht⟩
      · rintro e t (⟨h1, h2, h3⟩ | ⟨hlt, hf⟩)
        · refine .inl ⟨h1, h2, fun sym hs hne => ?_⟩
          have hrank := fixedRank_lt hs hx hne
          rw [Nat.le_div_iff_mul_le hr1] at h3
          calc fixedRank sym x * (s.regs.rcRange.toNat / 255) + s.regs.rcRange.toNat / 255
              = (fixedRank sym x + 1) * (s.regs.rcRange.toNat / 255) := by ring
            _ ≤ 255 * (s.regs.rcRange.toNat / 255) := Nat.mul_le_mul_right _ hrank
            _ ≤ _ := h3
        · obtain ⟨-, k2, k3, k4, k5⟩ := key _ hlt
          exact .inr ⟨_, ⟨k2, k3, k4, k5⟩, hf⟩
    | false =>
      simp only [Bool.false_eq_true, if_false]
      have hte := h.ctx.totEx_ge hx
      have htl := h.ctx.totEx_eq hx
      have hle := h.ctx.total_le h.cfg
      have hr1 : 1 ≤ s.regs.rcRange.toNat / cumBelow s x 256 := Nat.div_pos (by omega) (by omega)
      refine (litDecAdaptive_spec h.ctx h.cfg hx hr).mono ?_ ?_
      · rintro sym u ⟨⟨h1, h2, h3, h4⟩, ht⟩
        obtain ⟨h5, h6⟩ := (mul_div_interval hr1).mpr ⟨h3, h4⟩
        exact ⟨⟨h1, h2, h5, h6⟩, ht⟩
      · rintro e t (⟨h1, h2, h3⟩ | ⟨sym, ⟨h1, h2, h3, h4⟩, hf⟩)
        · refine .inl ⟨h1, h2, fun sym hs hne => ?_⟩
          have hi := interval_le (s := s) (x := x) hs
          rw [freqExOf, if_neg hne] at hi
          rw [Nat.le_div_iff_mul_le hr1] at h3
          calc cumBelow s x sym * (s.regs.rcRange.toNat / cumBelow s x 256) + s.regs.rcRange.toNat / cumBelow s x 256 * litSingle s sym
              = (cumBelow s x sym + litSingle s sym) * (s.regs.rcRange.toNat / cumBelow s x 256) := by ring
            _ ≤ cumBelow s x 256 * (s.regs.rcRange.toNat / cumBelow s x 256) := Nat.mul_le_mul_right _ hi
            _ ≤ _ := h3
        · obtain ⟨h5, h6⟩ := (mul_div_interval hr1).mpr ⟨h3, h4⟩
          exact .inr ⟨sym, ⟨h1, h2, h5, h6⟩, hf⟩
  unfold litDecode Ends
  rw [bind_of_ok (get_run s), bind_of_ok (h.ctx.totEx_run hx)]
  refine Ends.bind hpath fun sym u ⟨hin, hu⟩ => ?_
  have hm := sameModel_of_decoderErased hu.erased
  have hread : readSingle sym u = .ok (litSingle s sym) u := by rw [hm.litSingle]; rfl
  obtain ⟨t, ht, hl, hok⟩ := h.learn hm hx hin.1 hin.2.1
  unfold Ends
  rw [bind_of_ok hread, ← bind_assoc, bind_of_ok ht]
  exact ⟨hin, u, hu, hl, hok⟩

end Sys2Proof.Machine
end

