-- ==== Sys2Proof/Laws/Symbol.lean ====
section
/-! SUPPORT. The symbol commands' rules whole (R241, R242): the sub-intervals a symbol takes, what its step leaves of the model, and that
decoding makes the same moves as encoding (R245). -/

namespace Sys2Proof.Machine

/-- A state in which a symbol can be coded. -/
structure SymbolReady (s : State) : Prop where
  session : SessionOk s
  wf : Memory.wf s.regs.scfg s.tables
  log : log2Permitted s.params.log2Fix
  range : 2 ^ 23 ≤ s.regs.rcRange.toNat

/-- LitCtx is inside the literal context space (R170). -/
theorem litCtx_lt (s : State) : litCtx s < cfgContexts s.regs.scfg := by
  unfold litCtx cfgContexts
  rcases cfgOrder_cases s.regs.scfg with h | h <;> rw [h]
  · exact lt_of_le_of_lt Nat.and_le_right (by decide)
  · exact lt_of_le_of_lt Nat.and_le_right (by decide)

theorem SymbolReady.lit {s : State} (h : SymbolReady s) : LitReady s :=
  ⟨h.wf, cfgValid_iff.mp h.session.config, h.session.lit _ (litCtx_lt s), h.log, h.session.cost, h.range⟩

/-- A session's models, in another state with the same model. -/
theorem SessionOk.of_same {s t : State} (h : SessionOk s) (hm : SameModel s t) (hv : t.regs.tablesValid = s.regs.tablesValid) :
    SessionOk t := by
  have hs : ∀ c k, singleOf t c k = singleOf s c k := fun c k => by simp only [singleOf, hm.tblRead]
  have hg : ∀ c k, groupOf t c k = groupOf s c k := fun c k => by simp only [groupOf, hm.tblRead]
  have ht : ∀ c, totalOf t c = totalOf s c := fun c => by simp only [totalOf, hm.tblRead]
  refine ⟨?_, ?_, ?_, fun c hc => ?_, fun id hid i hi => ?_, ?_⟩
  · rw [← hm.scfg]; exact h.config
  · rw [hv]; exact h.valid
  · rw [← hm.tables]; exact h.fill
  · rw [← hm.scfg] at hc
    have hc := h.lit c hc
    refine ⟨fun g hgl => ?_, ?_, fun k hk => ?_, ?_⟩
    · rw [hg, hc.groups g hgl]; simp only [hs]
    · rw [ht, hc.total]; simp only [hg]
    · rw [hs]; exact hc.positive k hk
    · rw [ht, ← hm.scfg]; exact hc.bound
  · rw [← hm.tblRead]; exact h.apm id hid i hi
  · rw [← hm.cost]; exact h.cost

theorem SymbolReady.of_same {s t : State} (h : SymbolReady s) (hm : SameModel s t) (hv : t.regs.tablesValid = s.regs.tablesValid)
    (hr : 2 ^ 23 ≤ t.regs.rcRange.toNat) : SymbolReady t :=
  ⟨h.session.of_same hm hv, by rw [← hm.scfg, ← hm.tables]; exact h.wf, by rw [← hm.params]; exact h.log, hr⟩

/-- The probability handed to the flag coder is in R155's interval. -/
theorem SymbolReady.prob {s : State} (h : SymbolReady s) : 127 ≤ (choose s).prob ∧ (choose s).prob ≤ 32641 := by
  have hlo := h.session.apm .apmLo (.inl rfl) _ (apmIndex_lt s.regs.histLo (predictMember .lo s).state)
  have hhi := h.session.apm .apmHi (.inr rfl) _ (apmIndex_lt s.regs.histHi (predictMember .hi s).state)
  unfold choose
  split
  · exact hhi
  · exact hlo

/-- Observe leaves what a further symbol needs (R153, R155). -/
theorem SymbolReady.observed {s : State} {lo hi : Prediction} {b : Byte} (h : SymbolReady s) : SymbolReady (observed lo hi b s) := by
  have hscfg : (Machine.observed lo hi b s).regs.scfg = s.regs.scfg := by
    unfold Machine.observed withContext
    split
    · show (observedMember .hi hi b (observedMember .lo lo b s)).regs.scfg = _
      rw [observedMember_scfg, observedMember_scfg]
    · exact observedMember_scfg _ _ _ _
  have hregs : (Machine.observed lo hi b s).regs.tablesValid = s.regs.tablesValid ∧
      (Machine.observed lo hi b s).regs.cost = s.regs.cost ∧ (Machine.observed lo hi b s).regs.rcRange = s.regs.rcRange ∧
      (Machine.observed lo hi b s).params = s.params := by
    unfold Machine.observed
    split <;> exact ⟨rfl, rfl, rfl, rfl⟩
  have hfill : (Machine.observed lo hi b s).tables.fill = s.tables.fill := by
    unfold Machine.observed withContext
    split <;> simp [observedTables]
  obtain ⟨hv, hcost, hrange, hparams⟩ := hregs
  have hread := tblRead_observed (lo := lo) (hi := hi) (b := b) h.wf
  have hlit : ∀ i, tblRead (Machine.observed lo hi b s) .lit i = tblRead s .lit i := fun i => by
    rw [hread]; simp
  refine ⟨⟨?_, ?_, ?_, fun c hc => ?_, fun id hid i hi' => ?_, ?_⟩, ?_, ?_, ?_⟩
  · rw [hscfg]; exact h.session.config
  · rw [hv]; exact h.session.valid
  · rw [hfill]; exact h.session.fill
  · rw [hscfg] at hc
    have hc := h.session.lit c hc
    refine ⟨fun g hgl => ?_, ?_, fun k hk => ?_, ?_⟩
    · simp only [groupOf, singleOf, hlit]; exact hc.groups g hgl
    · simp only [groupOf, totalOf, hlit]; exact hc.total
    · simp only [singleOf, hlit]; exact hc.positive k hk
    · simp only [totalOf, hlit, hscfg]; exact hc.bound
  · have hval : ∀ p m, 127 ≤ p → p ≤ 32641 →
        127 ≤ (BitVec.ofNat 16 (apmValue p m)).toNat ∧ (BitVec.ofNat 16 (apmValue p m)).toNat ≤ 32641 := by
      intro p m h1 h2
      have := apmValue_bounds h1 h2 m
      rw [BitVec.toNat_ofNat, Nat.mod_eq_of_lt (by omega)]
      exact this
    have hlo := h.session.apm .apmLo (.inl rfl) _ (apmIndex_lt s.regs.histLo lo.state)
    have hhi := h.session.apm .apmHi (.inr rfl) _ (apmIndex_lt s.regs.histHi hi.state)
    have hold := h.session.apm id hid i hi'
    rw [hread]
    rcases hid with rfl | rfl
    · split
      · exact hval _ _ hlo.1 hlo.2
      · simpa using hold
    · rw [if_neg (by simp), if_neg (by simp)]
      split
      · exact hval _ _ hhi.1 hhi.2
      · simpa using hold
  · rw [hcost]; exact h.session.cost
  · exact observed_wf h.wf
  · rw [hparams]; exact h.log
  · rw [hrange]; exact h.range

theorem SymbolReady.observe_run {s : State} {b : Byte} (h : SymbolReady s) (lo hi : Prediction) :
    observe lo hi b s = .ok () (Machine.observed lo hi b s) := by
  refine observe_eq h.wf ?_ fun _ => ?_
  · have := h.session.apm .apmLo (.inl rfl) _ (apmIndex_lt s.regs.histLo lo.state); omega
  · have := h.session.apm .apmHi (.inr rfl) _ (apmIndex_lt s.regs.histHi hi.state); omega

theorem tablesValid_of_encoderErased {s t : State} (h : encoderErased t = encoderErased s) : t.regs.tablesValid = s.regs.tablesValid := by
  have hr : (encoderErased t).regs.tablesValid = (encoderErased s).regs.tablesValid := by rw [h]
  exact hr

theorem tablesValid_of_decoderErased {s t : State} (h : decoderErased t = decoderErased s) : t.regs.tablesValid = s.regs.tablesValid := by
  have hr : (decoderErased t).regs.tablesValid = (decoderErased s).regs.tablesValid := by rw [h]
  exact hr

theorem tablesValid_of_modelErased {s t : State} (h : modelErased t = modelErased s) : t.regs.tablesValid = s.regs.tablesValid := by
  have hr : (modelErased t).regs.tablesValid = (modelErased s).regs.tablesValid := by rw [h]
  exact hr

theorem rcRange_of_modelErased {s t : State} (h : modelErased t = modelErased s) : t.regs.rcRange = s.regs.rcRange := by
  have hr : (modelErased t).regs.rcRange = (modelErased s).regs.rcRange := by rw [h]
  exact hr

/-- A literal leaves what a further symbol needs (R172, R187). -/
theorem SymbolReady.learned {s u t : State} {x sym : Nat} (hu : SymbolReady u)
    (hl : LearnedOk s u t x sym) : SymbolReady t := by
  have hout : ∀ c, c ≠ litCtx s → ∀ k < 273, tblRead t .lit (c * 273 + k) = tblRead u .lit (c * 273 + k) := by
    intro c hc k hk
    refine hl.other _ _ fun ⟨_, h1, h2⟩ => hc ?_
    omega
  refine ⟨⟨?_, ?_, ?_, fun c hc => ?_, fun id hid i hi => ?_, hl.cost⟩, ?_, ?_, ?_⟩
  · rw [hl.scfg]; exact hu.session.config
  · rw [tablesValid_of_modelErased hl.erased]; exact hu.session.valid
  · rw [hl.fill]; exact hu.session.fill
  · by_cases hcc : c = litCtx s
    · rw [hcc]; exact hl.ctx
    · rw [hl.scfg] at hc
      have hok := hu.session.lit c hc
      have hs : ∀ k < 256, singleOf t c k = singleOf u c k := fun k hk => by
        unfold singleOf singleIndex; rw [hout c hcc k (by omega)]
      have hg : ∀ g < 16, groupOf t c g = groupOf u c g := fun g hg => by
        unfold groupOf groupIndex; rw [hout c hcc (256 + g) (by omega)]
      have ht : totalOf t c = totalOf u c := by
        unfold totalOf totalIndex; rw [hout c hcc 272 (by omega)]
      refine ⟨fun g hgl => ?_, ?_, fun k hk => ?_, ?_⟩
      · rw [hg g hgl, hok.groups g hgl]
        congr 1
        refine List.map_congr_left fun k hk => ?_
        rw [hs _ (by have := List.mem_range.mp hk; omega)]
      · rw [ht, hok.total]
        congr 1
        exact List.map_congr_left fun g hgm => (hg _ (List.mem_range.mp hgm)).symm
      · rw [hs k hk]; exact hok.positive k hk
      · rw [ht, hl.scfg]; exact hok.bound
  · rw [hl.other id i fun h' => by rcases hid with rfl | rfl <;> simp at h']
    exact hu.session.apm id hid i hi
  · rw [hl.scfg]; exact hl.wf
  · rw [hl.params]; exact hu.log
  · rw [rcRange_of_modelErased hl.erased]; exact hu.range

/-! ### ENC_SYM's rule (R241) -/

/-- What ENC_SYM's rule does, part by part, up to Observe: the end flag, the match flag, the literal on a mismatch. -/
structure SymbolEncoded (s : State) (b : Byte) (s1 s2 s3 : State) : Prop where
  eos : Encoded s s1 (encEosLow s.regs false) (encEosRange s.regs false)
  eosErased : encoderErased s1 = encoderErased s
  flag : Encoded s1 s2 (encFlagLow s1.regs (choose s).prob (b == (choose s).symbol))
    (encFlagRange s1.regs (choose s).prob (b == (choose s).symbol))
  flagErased : encoderErased s2 = encoderErased s1
  hit : b = (choose s).symbol → s3 = s2
  literal : b ≠ (choose s).symbol → ∃ u, Encoded s2 u (litLow s2 (choose s).symbol.toNat b.toNat)
    (litWidth s2 (choose s).symbol.toNat b.toNat) ∧ encoderErased u = encoderErased s2 ∧
    Learned s2 (choose s).symbol.toNat b.toNat u s3 ∧ LearnedOk s2 u s3 (choose s).symbol.toNat b.toNat
  ready1 : SymbolReady s1
  ready2 : SymbolReady s2
  ready3 : SymbolReady s3

theorem EncodeFails.chain {m n : Nat} {s t u : State} {e : Abort} {v r : Nat} (ht : Encoded s t v r)
    (he : encoderErased t = encoderErased s) (hr : CoderMid s.regs → CoderMid t.regs) (h : EncodeFails n t e u) (hm : normShifts r + n ≤ m) :
    EncodeFails m s e u := by
  obtain ⟨h1, h2⟩ := h
  refine ⟨h1.trans he, ?_⟩
  rcases h2 with ⟨h3, h4⟩ | ⟨h3, h4⟩ | ⟨h3, h4⟩
  · exact .inl ⟨h3, fun ha => h4 (ht.accepts ha)⟩
  · have := ht.run
    exact .inr (.inl ⟨h3, by omega⟩)
  · exact .inr (.inr ⟨h3, fun hm => h4 (hr hm)⟩)

/-- Every encoded range is at least 2^23 (R204). -/
theorem Encoded.range_ge {s t : State} {v n : Nat} (h : Encoded s t v n) (hn : 1 ≤ n) : 2 ^ 23 ≤ t.regs.rcRange.toNat := by
  rw [h.range]; exact normRange_ge hn

theorem coderMid_of_encoded {s t : State} {v n : Nat} (h : Encoded s t v n) (hr : 2 ^ 23 ≤ s.regs.rcRange.toNat) :
    CoderMid s.regs → CoderMid t.regs := fun hm => (h.inv (hm.inv hr)).mid

theorem encFlagRange_pos {r : Regs} {p : Nat} {m : Bool} (hr : 2 ^ 23 ≤ r.rcRange.toNat) (hp : 1 ≤ p) (hp' : p < 2 ^ 15) :
    1 ≤ encFlagRange r p m ∧ encFlagLow r p m + encFlagRange r p m ≤ r.rcRange.toNat := by
  obtain ⟨h1, h2⟩ := flagSplit_bounds hr hp hp'
  unfold encFlagRange encFlagLow
  split <;> omega

theorem encodeSymbol_spec {s : State} (b : Byte) (h : SymbolReady s) :
    Ends (encodeSymbol b) s
      (fun _ t => ∃ s1 s2 s3, SymbolEncoded s b s1 s2 s3 ∧
        t = observed (predictMember .lo s) (predictMember .hi s) b s3)
      (EncodeFails 9 s) := by
  unfold encodeSymbol
  refine Ends.bind ((encEos_spec false s h.range).mono (fun _ _ h => h) fun _ _ h => h.mono (by omega)) fun _ s1 ⟨h1, e1⟩ => ?_
  have hr0 := h.range
  have hpos1 : 1 ≤ encEosRange s.regs false := by simp [encEosRange]; omega
  have hm1 := sameModel_of_encoderErased e1
  have r1 : SymbolReady s1 := h.of_same hm1 (tablesValid_of_encoderErased e1) (h1.range_ge hpos1)
  have mid1 := coderMid_of_encoded h1 h.range
  have hp := h.prob
  refine Ends.bind (Q := fun a t => a = s1 ∧ t = s1) (ends_get ⟨rfl, rfl⟩) ?_
  rintro _ s1 ⟨rfl, rfl⟩
  rw [← hm1.choose, ← hm1.predictMember, ← hm1.predictMember]
  refine Ends.bind ((encFlag_spec (choose s).prob (b == (choose s).symbol) _ r1.range (by omega) (by omega)).mono (fun _ _ h => h)
    fun _ _ hf => hf.chain h1 e1 mid1 (by have := normShifts_le (encEosRange s.regs false); omega)) fun _ s2 ⟨h2, e2⟩ => ?_
  have hpos2 := (encFlagRange_pos (m := b == (choose s).symbol) r1.range (show 1 ≤ (choose s).prob by omega) (by omega)).1
  have hm2 := sameModel_of_encoderErased e2
  have r2 : SymbolReady s2 := r1.of_same hm2 (tablesValid_of_encoderErased e2) (h2.range_ge hpos2)
  have mid2 := coderMid_of_encoded h2 r1.range
  by_cases hb : b = (choose s).symbol
  · have hb' : (!(b == (choose s).symbol)) = false := by simp [hb]
    rw [hb']
    unfold Ends
    rw [bind_of_ok (show whenTrue false _ s2 = .ok () s2 from rfl), r2.observe_run]
    exact ⟨s1, s2, s2, ⟨h1, e1, h2, e2, fun _ => rfl, fun h => absurd hb h, r1, r2, r2⟩, rfl⟩
  · have hb' : (!(b == (choose s).symbol)) = true := by simpa using hb
    rw [hb']
    have hne : b.toNat ≠ (choose s).symbol.toNat := fun h => hb (BitVec.eq_of_toNat_eq h)
    refine Ends.bind ((litEncode_spec r2.lit (choose s).symbol.isLt b.isLt hne).mono (fun _ _ h => h) fun _ _ hf => ?_)
      fun _ s3 ⟨u, hu, eu, hl, hok⟩ => ?_
    · refine ((hf.fails (normShifts_le _)).chain (m := 6) h2 e2 mid2 ?_).chain h1 e1 mid1 ?_
      · have := normShifts_le (encFlagRange s1.regs (choose s).prob (b == (choose s).symbol)); omega
      · have := normShifts_le (encEosRange s.regs false); omega
    have hint := r2.lit.interval (choose s).symbol.isLt b.isLt hne
    have hmu := sameModel_of_encoderErased eu
    have ru : SymbolReady u := r2.of_same hmu (tablesValid_of_encoderErased eu) (hu.range_ge hint.1)
    have r3 := ru.learned hok
    unfold Ends
    rw [r3.observe_run]
    exact ⟨s1, s2, s3, ⟨h1, e1, h2, e2, fun h => absurd h hb, fun _ => ⟨u, hu, eu, hl, hok⟩, r1, r2, r3⟩, rfl⟩

/-! ### DEC_SYM's rule (R242) -/

/-- What DEC_SYM's rule does, part by part, up to Observe, where a byte follows. -/
structure SymbolDecoded (s : State) (b : Byte) (s1 s2 s3 : State) : Prop where
  more : s.regs.rcBuffer.toNat < s.regs.rcRange.toNat - 1
  eos : Taken s s1 0 (s.regs.rcRange.toNat - 1)
  flag : Taken s1 s2 (decFlagLow s1.regs (choose s).prob) (decFlagRange s1.regs (choose s).prob)
  hit : s1.regs.rcBuffer.toNat < flagSplit s1.regs (choose s).prob → b = (choose s).symbol ∧ s3 = s2
  literal : flagSplit s1.regs (choose s).prob ≤ s1.regs.rcBuffer.toNat →
    (b ≠ (choose s).symbol ∧ litLow s2 (choose s).symbol.toNat b.toNat ≤ s2.regs.rcBuffer.toNat ∧
      s2.regs.rcBuffer.toNat < litLow s2 (choose s).symbol.toNat b.toNat + litWidth s2 (choose s).symbol.toNat b.toNat) ∧
    ∃ u, Taken s2 u (litLow s2 (choose s).symbol.toNat b.toNat) (litWidth s2 (choose s).symbol.toNat b.toNat) ∧
      Learned s2 (choose s).symbol.toNat b.toNat u s3 ∧ LearnedOk s2 u s3 (choose s).symbol.toNat b.toNat
  ready3 : SymbolReady s3

/-- How DEC_SYM's rule ends that does not end in an answer: with a symbol's parts alone changed, for want of input, of a symbol in the
stream, or of room in the output. -/
def DecodeFails (s : State) (e : Abort) (t : State) : Prop :=
  symbolErased t = symbolErased s ∧
    (e = .wait ∨ e = .raise .corruptPayload ∨ e = .raise .ioFailure ∨ e = .raise .unexpectedEndOfInput) ∧
    (e = .raise .corruptPayload ∨ ¬givesBytes s.inPort 9 ∨ ¬acceptsAll s.outPort)

theorem symbolErased_of_decoder {s t : State} (h : decoderErased t = decoderErased s) : symbolErased t = symbolErased s := by
  have : ∀ u, symbolErased u = symbolErased (decoderErased u) := fun _ => rfl
  rw [this t, h, ← this s]

theorem symbolErased_of_encoder {s t : State} (h : encoderErased t = encoderErased s) : symbolErased t = symbolErased s := by
  have : ∀ u, symbolErased u = symbolErased (encoderErased u) := fun _ => rfl
  rw [this t, h, ← this s]

theorem symbolErased_of_model {s t : State} (h : modelErased t = modelErased s) : symbolErased t = symbolErased s := by
  have : ∀ u, symbolErased u = symbolErased (modelErased u) := fun _ => rfl
  rw [this t, h, ← this s]

theorem outPort_of_decoderErased {s t : State} (h : decoderErased t = decoderErased s) : t.outPort = s.outPort := by
  have hr : (decoderErased t).outPort = (decoderErased s).outPort := by rw [h]
  exact hr

theorem inPort_of_modelErased {s t : State} (h : modelErased t = modelErased s) : t.inPort = s.inPort := by
  have hr : (modelErased t).inPort = (modelErased s).inPort := by rw [h]
  exact hr

theorem outPort_of_modelErased {s t : State} (h : modelErased t = modelErased s) : t.outPort = s.outPort := by
  have hr : (modelErased t).outPort = (modelErased s).outPort := by rw [h]
  exact hr

theorem observed_erased (lo hi : Prediction) (b : Byte) (s : State) : modelErased (observed lo hi b s) = modelErased s := by
  unfold observed
  split <;> rfl

theorem ReadFails.decodeFails {n : Nat} {s t : State} {e : Abort} (h : ReadFails n s e t) (hn : n ≤ 9) : DecodeFails s e t := by
  refine ⟨symbolErased_of_decoder h.1, ?_, .inr (.inl fun hg => h.short (hg.mono hn))⟩
  rcases h.cause with rfl | rfl | rfl <;> simp

/-- A later reading that fails, after an earlier one that did not. -/
theorem ReadFails.after {m n : Nat} {s t u : State} {e : Abort} {v r : Nat} (ht : Taken s t v r) (h : ReadFails n t e u)
    (hm : normShifts r + n ≤ m) : ReadFails m s e u :=
  (h.from ht.erased ht.asked).mono hm

theorem Taken.range_ge {s t : State} {v n : Nat} (h : Taken s t v n) (hn : 1 ≤ n) : 2 ^ 23 ≤ t.regs.rcRange.toNat := by
  rw [h.range]; exact normRange_ge hn

theorem decFlagRange_pos {r : Regs} {p : Nat} (hr : 2 ^ 23 ≤ r.rcRange.toNat) (hp : 1 ≤ p) (hp' : p < 2 ^ 15) :
    1 ≤ decFlagRange r p := by
  obtain ⟨h1, h2⟩ := flagSplit_bounds hr hp hp'
  unfold decFlagRange
  split <;> omega

/-- DEC_SYM's byte, decoded (R242): the predicted symbol, or the literal. -/
theorem decodeByte_spec {s : State} {x : Prediction} (h : SymbolReady s) (hp : 127 ≤ x.prob ∧ x.prob ≤ 32641) :
    Ends (decodeByte x) s
      (fun b s3 => ∃ s2, Taken s s2 (decFlagLow s.regs x.prob) (decFlagRange s.regs x.prob) ∧ SymbolReady s3 ∧
        (s.regs.rcBuffer.toNat < flagSplit s.regs x.prob → b = x.symbol ∧ s3 = s2) ∧
        (flagSplit s.regs x.prob ≤ s.regs.rcBuffer.toNat →
          (b ≠ x.symbol ∧ litLow s2 x.symbol.toNat b.toNat ≤ s2.regs.rcBuffer.toNat ∧
            s2.regs.rcBuffer.toNat < litLow s2 x.symbol.toNat b.toNat + litWidth s2 x.symbol.toNat b.toNat) ∧
          ∃ u, Taken s2 u (litLow s2 x.symbol.toNat b.toNat) (litWidth s2 x.symbol.toNat b.toNat) ∧
            Learned s2 x.symbol.toNat b.toNat u s3 ∧ LearnedOk s2 u s3 x.symbol.toNat b.toNat))
      (fun e t => (e = .raise .corruptPayload ∧ decoderErased t = decoderErased s) ∨ ReadFails 6 s e t) := by
  unfold decodeByte
  refine Ends.bind ((decFlag_spec x.prob s h.range (by omega) (by omega)).mono (fun _ _ h => h)
    fun _ _ hf => .inr (hf.mono (by have := normShifts_le (decFlagRange s.regs x.prob); omega))) ?_
  rintro m s2 ⟨hm, h2⟩
  have hm2 := sameModel_of_decoderErased h2.erased
  have r2 : SymbolReady s2 := h.of_same hm2 (tablesValid_of_decoderErased h2.erased)
    (h2.range_ge (decFlagRange_pos h.range (by omega) (by omega)))
  by_cases hlt : s.regs.rcBuffer.toNat < flagSplit s.regs x.prob
  · rw [hm, decide_eq_true hlt]
    exact ends_pure ⟨s2, h2, r2, fun _ => ⟨rfl, rfl⟩, fun hge => absurd hlt (Nat.not_lt.mpr hge)⟩
  · rw [hm, decide_eq_false hlt]
    refine Ends.bind ((litDecode_spec r2.lit x.symbol.isLt).mono (fun _ _ h => h) ?_) ?_
    · rintro e t (⟨h3, rfl, -⟩ | ⟨sym, -, hf⟩)
      · exact .inl ⟨h3, h2.erased⟩
      · refine .inr (hf.after h2 ?_)
        have := normShifts_le (decFlagRange s.regs x.prob)
        have := normShifts_le (litWidth s2 x.symbol.toNat sym)
        omega
    · rintro sym s3 ⟨⟨hs, hne, hl1, hl2⟩, u, hu, hl, hok⟩
      have hint := r2.lit.interval x.symbol.isLt hs hne
      have ru : SymbolReady u := r2.of_same (sameModel_of_decoderErased hu.erased) (tablesValid_of_decoderErased hu.erased)
        (hu.range_ge hint.1)
      have r3 : SymbolReady s3 := ru.learned hok
      have hb : (BitVec.ofNat 8 sym).toNat = sym := by rw [BitVec.toNat_ofNat, Nat.mod_eq_of_lt hs]
      refine ends_pure ⟨s2, h2, r3, fun h => absurd h hlt, fun _ => ?_⟩
      rw [hb]
      exact ⟨⟨fun h => hne (by rw [← hb, h]), hl1, hl2⟩, u, hu, hl, hok⟩

theorem decodeSymbol_spec {s : State} (h : SymbolReady s) :
    Ends decodeSymbol s
      (fun _ t =>
        (s.regs.rcRange.toNat - 1 ≤ s.regs.rcBuffer.toNat ∧ ∃ t1, Taken s t1 s.regs.rcBuffer.toNat 1 ∧
          t = { t1 with regs := { t1.regs with
            result := BitVec.ofNat 32 endOfStreamResult, mode := .done, irqPend := t1.regs.irqPend ||| 2#2 } }) ∨
        ∃ b s1 s2 s3 s4, SymbolDecoded s b s1 s2 s3 ∧
          Wrote (observed (predictMember .lo s) (predictMember .hi s) b s3) s4 [b] ∧
          t = { s4 with regs := { s4.regs with result := BitVec.ofNat 32 b.toNat } })
      (DecodeFails s) := by
  have hr0 := h.range
  unfold decodeSymbol
  refine Ends.bind ((decEos_spec s h.range).mono (fun _ _ h => h) fun _ _ hf => hf.decodeFails ?_) ?_
  · have := normShifts_le (decEosRange s.regs); omega
  rintro last s1 ⟨hlast, h1⟩
  by_cases hmore : s.regs.rcBuffer.toNat < s.regs.rcRange.toNat - 1
  · rw [hlast, decide_eq_true hmore]
    simp only [decEosLow, decEosRange, if_pos hmore] at h1
    have hm1 := sameModel_of_decoderErased h1.erased
    have r1 : SymbolReady s1 := h.of_same hm1 (tablesValid_of_decoderErased h1.erased) (h1.range_ge (by omega))
    simp only [Bool.not_true, Bool.false_eq_true, if_false]
    refine Ends.bind (Q := fun a t => a = s1 ∧ t = s1) (ends_get ⟨rfl, rfl⟩) ?_
    rintro _ s1 ⟨rfl, rfl⟩
    rw [← hm1.choose, ← hm1.predictMember, ← hm1.predictMember]
    refine Ends.bind ((decodeByte_spec r1 h.prob).mono (fun _ _ h => h) ?_) ?_
    · rintro e t (⟨rfl, he⟩ | hf)
      · exact ⟨symbolErased_of_decoder (he.trans h1.erased), (.inr (.inl rfl)), .inl rfl⟩
      · exact (hf.after (m := 9) h1 (by have := normShifts_le (s.regs.rcRange.toNat - 1); omega)).decodeFails le_rfl
    · rintro b s3 ⟨s2, h2, r3, hhit, hlit⟩
      have he3 : symbolErased s3 = symbolErased s ∧ s3.outPort = s.outPort := by
        have e2 : symbolErased s2 = symbolErased s := symbolErased_of_decoder (h2.erased.trans h1.erased)
        have o2 : s2.outPort = s.outPort := outPort_of_decoderErased (h2.erased.trans h1.erased)
        by_cases hlt : s1.regs.rcBuffer.toNat < flagSplit s1.regs (choose s).prob
        · rw [(hhit hlt).2]; exact ⟨e2, o2⟩
        · obtain ⟨-, u, hu, -, hok⟩ := hlit (Nat.le_of_not_lt hlt)
          exact ⟨(symbolErased_of_model hok.erased).trans ((symbolErased_of_decoder hu.erased).trans e2),
            (outPort_of_modelErased hok.erased).trans ((outPort_of_decoderErased hu.erased).trans o2)⟩
      refine Ends.bind (Q := fun _ t => t = observed (predictMember .lo s) (predictMember .hi s) b s3)
        (ends_of_ok (r3.observe_run _ _) rfl) ?_
      rintro _ t rfl
      have hobs := observed_erased (predictMember .lo s) (predictMember .hi s) b s3
      refine Ends.bind ((outWrite_wrote b _).mono (fun _ _ h => h) ?_) fun _ s4 h4 => ?_
      · intro e t hf
        refine ⟨?_, ?_, .inr (.inr fun ha => hf.refused.2 ?_)⟩
        · exact (symbolErased_of_encoder hf.1).trans ((symbolErased_of_model hobs).trans he3.1)
        · obtain ⟨-, _, -, -, -, ⟨rfl, -⟩ | ⟨rfl, -⟩⟩ := hf <;> simp
        · rw [outPort_of_modelErased hobs, he3.2]; exact ha
      · exact ends_of_ok (setResult_run _ _) (.inr ⟨b, s1, s2, s3, s4, ⟨hmore, h1, h2, hhit, hlit, r3⟩, h4, rfl⟩)
  · rw [hlast, decide_eq_false hmore]
    simp only [decEosLow, decEosRange, if_neg hmore] at h1
    simp only [Bool.not_false, if_true]
    unfold Ends
    rw [bind_of_ok (setResult_run _ _), enterDone_run]
    exact .inl ⟨by omega, s1, h1, rfl⟩

end Sys2Proof.Machine
end

