-- ==== Sys2Proof/Laws/Mirror.lean ====
section
/-! SUPPORT. Decoding undoes encoding (R200, R245): where the decoder's stream holds a number inside the interval the encoder reached, each
decoding procedure makes the move its encoding procedure made. -/

namespace Sys2Proof.Machine

theorem bytesValue_lt (bs : List Byte) : bytesValue bs < 256 ^ bs.length := by
  induction bs with
  | nil => simp
  | cons b bs ih =>
    rw [← List.singleton_append, bytesValue_append, bytesValue_singleton, List.length_append, List.length_singleton, pow_add, pow_one]
    have := b.isLt
    have : b.toNat * 256 ^ bs.length + 256 ^ bs.length ≤ 256 * 256 ^ bs.length := by
      rw [← Nat.succ_mul]; exact Nat.mul_le_mul_right _ (by omega)
    omega

/-- Inside the sub-interval before it was normalized. -/
theorem Encoded.inside {s s' : State} {v n y m : Nat} (h : Encoded s s' v n) (hi : Inside s' y m) :
    2 * (codeValue s + v) * 256 ^ (normShifts n + m) ≤ y ∧ y < 2 * (codeValue s + v + n) * 256 ^ (normShifts n + m) := by
  obtain ⟨h1, h2⟩ := hi
  rw [h.value] at h1 h2
  rw [h.range, normRange] at h2
  rw [pow_add]
  constructor
  · calc 2 * (codeValue s + v) * (256 ^ normShifts n * 256 ^ m) = 2 * ((codeValue s + v) * 256 ^ normShifts n) * 256 ^ m := by ring
      _ ≤ y := h1
  · calc y < 2 * ((codeValue s + v) * 256 ^ normShifts n + n * 256 ^ normShifts n) * 256 ^ m := h2
      _ = 2 * (codeValue s + v + n) * (256 ^ normShifts n * 256 ^ m) := by ring

/-- Inside a sub-interval is inside the interval. -/
theorem Encoded.inside_before {s s' : State} {v n y m : Nat} (h : Encoded s s' v n) (hle : v + n ≤ s.regs.rcRange.toNat)
    (hi : Inside s' y m) : Inside s y (normShifts n + m) := by
  obtain ⟨h1, h2⟩ := h.inside hi
  refine ⟨le_trans (Nat.mul_le_mul_right _ (by omega)) h1, lt_of_lt_of_le h2 (Nat.mul_le_mul_right _ (by omega))⟩

/-- The decoder's window is in the sub-interval the encoder took. -/
theorem Encoded.window {s s' d : State} {v n m : Nat} (h : Encoded s s' v n) (hg : givesBytes d.inPort (normShifts n + m))
    (hi : Inside s' (streamValue s d (normShifts n + m)) m) :
    2 * v ≤ decoderWindow d.regs ∧ decoderWindow d.regs < 2 * (v + n) := by
  obtain ⟨h1, h2⟩ := h.inside hi
  have hlow := bytesValue_lt (comingBytes d.inPort (normShifts n + m))
  rw [comingBytes_length hg] at hlow
  unfold streamValue at h1 h2
  generalize 256 ^ (normShifts n + m) = P at *
  generalize bytesValue (comingBytes d.inPort (normShifts n + m)) = L at *
  generalize codeValue s = C at *
  generalize decoderWindow d.regs = W at *
  constructor
  · by_contra hlt
    have : (2 * C + W + 1) * P ≤ 2 * (C + v) * P := Nat.mul_le_mul_right _ (by omega)
    have : (2 * C + W + 1) * P = (2 * C + W) * P + P := by ring
    omega
  · by_contra hge
    have : 2 * (C + v + n) * P ≤ (2 * C + W) * P := Nat.mul_le_mul_right _ (by omega)
    omega

/-- B is the window without LOOK's bit. -/
theorem window_bounds {r : Regs} {a b : Nat} (h : 2 * a ≤ decoderWindow r ∧ decoderWindow r < 2 * b) :
    a ≤ r.rcBuffer.toNat ∧ r.rcBuffer.toNat < b := by
  unfold decoderWindow at h
  omega

/-- After both have taken the same sub-interval, the stream spells the same number (R200). -/
theorem Encoded.stream {s s' d d' : State} {v n m : Nat} (h : Encoded s s' v n) (ht : Taken d d' v n) (hn : n < 2 ^ 31)
    (hg : givesBytes d.inPort (normShifts n + m)) (hi : Inside s' (streamValue s d (normShifts n + m)) m) :
    streamValue s' d' m = streamValue s d (normShifts n + m) ∧ givesBytes d'.inPort m := by
  obtain ⟨hw1, hw2⟩ := h.window hg hi
  obtain ⟨hg', hc⟩ := ht.gives m hg
  have hg1 : givesBytes d.inPort (normShifts n) := hg.mono (Nat.le_add_right _ _)
  have hwin := (ht.decoded hg1).window
  have hlow := bytesValue_lt (comingBytes d.inPort (normShifts n))
  rw [comingBytes_length hg1] at hlow
  have hrange := normRange_lt hn
  unfold normRange at hrange
  have hmod : (decoderWindow d.regs - 2 * v) * 256 ^ normShifts n + bytesValue (comingBytes d.inPort (normShifts n)) < 2 ^ 32 := by
    have : (decoderWindow d.regs - 2 * v + 1) * 256 ^ normShifts n ≤ 2 * n * 256 ^ normShifts n := Nat.mul_le_mul_right _ (by omega)
    have h1 : (decoderWindow d.regs - 2 * v + 1) * 256 ^ normShifts n =
        (decoderWindow d.regs - 2 * v) * 256 ^ normShifts n + 256 ^ normShifts n := by ring
    have h2 : 2 * n * 256 ^ normShifts n = 2 * (n * 256 ^ normShifts n) := by ring
    omega
  rw [Nat.mod_eq_of_lt hmod] at hwin
  refine ⟨?_, hg'⟩
  unfold streamValue
  rw [hwin, hc, bytesValue_append, comingBytes_length hg', h.value, pow_add]
  generalize bytesValue (comingBytes d.inPort (normShifts n)) = L1
  generalize bytesValue (comingBytes d'.inPort m) = L2
  generalize 256 ^ normShifts n = P
  generalize 256 ^ m = Q
  obtain ⟨w, hw⟩ : ∃ w, decoderWindow d.regs = 2 * v + w := ⟨decoderWindow d.regs - 2 * v, by omega⟩
  rw [hw, Nat.add_sub_cancel_left]
  ring

/-- The end flag 0, decoded (R209, R210). -/
theorem mirror_eos {s s' d : State} {m : Nat} (h : Encoded s s' (encEosLow s.regs false) (encEosRange s.regs false))
    (hr : 2 ^ 23 ≤ s.regs.rcRange.toNat) (heq : s.regs.rcRange = d.regs.rcRange)
    (hg : givesBytes d.inPort (normShifts (encEosRange s.regs false) + m))
    (hi : Inside s' (streamValue s d (normShifts (encEosRange s.regs false) + m)) m) :
    ∃ d', decEos d = .ok false d' ∧ Taken d d' (encEosLow s.regs false) (encEosRange s.regs false) := by
  have hb := window_bounds (h.window hg hi)
  simp only [encEosLow, encEosRange, Bool.false_eq_true, if_false, Nat.zero_add] at hb hg ⊢
  have hlt : d.regs.rcBuffer.toNat < d.regs.rcRange.toNat - 1 := by rw [← heq]; exact hb.2
  have hspec := decEos_spec d (by rw [← heq]; exact hr)
  simp only [decEosLow, decEosRange, if_pos hlt, decide_eq_true hlt] at hspec
  rw [← heq] at hspec
  obtain ⟨last, d', hrun, hl, ht⟩ := hspec.completes fun e t _ hf => hf.short (hg.mono (Nat.le_add_right _ _))
  exact ⟨d', by rw [hrun, hl]; rfl, ht⟩

/-- The match flag, decoded (R207, R208). -/
theorem mirror_flag {s s' d : State} {p m : Nat} {b : Bool} (h : Encoded s s' (encFlagLow s.regs p b) (encFlagRange s.regs p b))
    (hr : 2 ^ 23 ≤ s.regs.rcRange.toNat) (hp : 1 ≤ p) (hp' : p < 2 ^ 15) (heq : s.regs.rcRange = d.regs.rcRange)
    (hg : givesBytes d.inPort (normShifts (encFlagRange s.regs p b) + m))
    (hi : Inside s' (streamValue s d (normShifts (encFlagRange s.regs p b) + m)) m) :
    ∃ d', decFlag p d = .ok b d' ∧ Taken d d' (encFlagLow s.regs p b) (encFlagRange s.regs p b) := by
  have hb := window_bounds (h.window hg hi)
  have hsplit : flagSplit s.regs p = flagSplit d.regs p := by unfold flagSplit; rw [heq]
  have hspec := decFlag_spec p d (by rw [← heq]; exact hr) hp hp'
  rw [← hsplit] at hspec
  have hm : decide (d.regs.rcBuffer.toNat < flagSplit s.regs p) = b ∧ decFlagLow d.regs p = encFlagLow s.regs p b ∧
      decFlagRange d.regs p = encFlagRange s.regs p b := by
    unfold decFlagLow decFlagRange
    rw [← hsplit, ← heq]
    cases b with
    | true =>
      simp only [encFlagLow, encFlagRange, if_true, Nat.zero_add] at hb ⊢
      simp [hb.2]
    | false =>
      simp only [encFlagLow, encFlagRange, Bool.false_eq_true, if_false] at hb ⊢
      have : ¬d.regs.rcBuffer.toNat < flagSplit s.regs p := by omega
      simp [this]
  obtain ⟨hm1, hm2, hm3⟩ := hm
  rw [hm1, hm2, hm3] at hspec
  obtain ⟨last, d', hrun, hl, ht⟩ := hspec.completes fun e t _ hf => hf.short (hg.mono (Nat.le_add_right _ _))
  exact ⟨d', by rw [hrun, hl], ht⟩

theorem sameModel_litLow {s d : State} (hm : SameModel s d) (heq : s.regs.rcRange = d.regs.rcRange) (x sym : Nat) :
    litLow d x sym = litLow s x sym ∧ litWidth d x sym = litWidth s x sym := by
  have hc : ∀ k, cumBelow d x k = cumBelow s x k := fun k => by
    unfold cumBelow freqExOf
    simp only [hm.litSingle]
  unfold litLow litWidth
  rw [← hm.useFixed, hc, hc, ← heq, ← hm.litSingle]
  exact ⟨rfl, rfl⟩

/-- What two runs of LitTrain's and CostUpdate's moves leave from the same model (R186). -/
theorem Learned.same {s d u u' t t' : State} {x sym : Nat} (h : Learned s x sym u t) (h' : Learned d x sym u' t') (hsd : SameModel s d)
    (hm : SameModel u u') : SameModel t t' := by
  have hc : ∀ k, cumBelow d x k = cumBelow s x k := fun k => by
    unfold cumBelow freqExOf
    simp only [hsd.litSingle]
  obtain ⟨w, h1, h2⟩ := h
  obtain ⟨w', h1', h2'⟩ := h'
  rw [hc, ← hsd.litSingle] at h1'
  have a1 := (local_costUpdate (cumBelow s x 256) (litSingle s sym)).agree u u' hm
  rw [h1, h1'] at a1
  have a2 := (local_litTrain sym).agree w w' a1.2.1
  rw [h2, h2'] at a2
  exact a2.2.1

theorem SameModel.observed {s d t t' : State} {lo hi : Prediction} {b : Byte} (h : observe lo hi b s = .ok () t)
    (h' : observe lo hi b d = .ok () t') (hm : SameModel s d) : SameModel t t' := by
  have := (local_observe lo hi b).agree s d hm
  rw [h, h'] at this
  exact this.2.1

/-- The bytes that come after two takings. -/
theorem taken_twice {s t u : State} {v n w m : Nat} (h : Taken s t v n) (h' : Taken t u w m) (k : Nat)
    (hg : givesBytes s.inPort (normShifts n + normShifts m + k)) : givesBytes u.inPort k ∧
      comingBytes s.inPort (normShifts n + normShifts m + k) = comingBytes s.inPort (normShifts n + normShifts m) ++ comingBytes u.inPort k := by
  have hg' : givesBytes s.inPort (normShifts n + (normShifts m + k)) := by rw [← Nat.add_assoc]; exact hg
  obtain ⟨h1, h2⟩ := h.gives _ hg'
  obtain ⟨h3, h4⟩ := h'.gives _ h1
  have h5 := (h.gives _ (hg.mono (Nat.le_add_right _ _))).2
  exact ⟨h3, by rw [Nat.add_assoc, h2, h4, h5, List.append_assoc]⟩

/-- A symbol, decoded (R245): from a decoder with the encoder's model and range, over a stream inside the interval that ENC_SYM reached,
DEC_SYM's rule up to Observe answers the symbol, and leaves the encoder's model and range. -/
theorem symbol_mirror {s d s1 s2 s3 : State} {b : Byte} {m : Nat} (hs : SymbolReady s) (hd : SymbolReady d) (hm : SameModel s d)
    (heq : s.regs.rcRange = d.regs.rcRange) (h : SymbolEncoded s b s1 s2 s3)
    (hn : (shiftedOut s3).length = (shiftedOut s).length + m) (hg : givesBytes d.inPort m) (hi : Inside s3 (streamValue s d m) 0) :
    ∃ d1 d3, decEos d = .ok false d1 ∧ decodeByte (choose s) d1 = .ok b d3 ∧ SymbolReady d3 ∧ SameModel s3 d3 ∧
      s3.regs.rcRange = d3.regs.rcRange ∧ streamValue s3 d3 0 = streamValue s d m ∧ symbolErased d3 = symbolErased d ∧
      d3.outPort = d.outPort ∧ d3.inPort.answers = d.inPort.answers.drop m ∧ d3.regs.inCount = d.regs.inCount + BitVec.ofNat 64 m ∧
      ∀ k, givesBytes d.inPort (m + k) → givesBytes d3.inPort k ∧
        comingBytes d.inPort (m + k) = comingBytes d.inPort m ++ comingBytes d3.inPort k := by
  have hp := hs.prob
  have hr0 := hs.range
  have hpos1 : 1 ≤ encEosRange s.regs false := by simp [encEosRange]; omega
  have hle1 : encEosLow s.regs false + encEosRange s.regs false ≤ s.regs.rcRange.toNat := by simp [encEosLow, encEosRange]
  obtain ⟨hpos2, hle2⟩ := encFlagRange_pos (m := b == (choose s).symbol) h.ready1.range (show 1 ≤ (choose s).prob by omega) (by omega)
  have hlt1 : encEosRange s.regs false < 2 ^ 31 := by have := s.regs.rcRange.isLt; omega
  have hlt2 : encFlagRange s1.regs (choose s).prob (b == (choose s).symbol) < 2 ^ 31 := by have := s1.regs.rcRange.isLt; omega
  have hms2 : SameModel s1 s2 := sameModel_of_encoderErased h.flagErased
  have hms1 : SameModel s s1 := sameModel_of_encoderErased h.eosErased
  by_cases hb : b = (choose s).symbol
  · have h32 := h.hit hb
    subst h32
    have hlen : m = normShifts (encEosRange s.regs false) + (normShifts (encFlagRange s1.regs (choose s).prob (b == (choose s).symbol)) + 0) := by
      have := h.flag.length; have := h.eos.length; omega
    rw [hlen] at hg hi
    have hi1 := h.flag.inside_before hle2 hi
    obtain ⟨d1, hd1, ht1⟩ := mirror_eos h.eos hs.range heq hg hi1
    obtain ⟨hst1, hg1⟩ := h.eos.stream ht1 hlt1 hg hi1
    have heq1 : s1.regs.rcRange = d1.regs.rcRange := BitVec.eq_of_toNat_eq (by rw [h.eos.range, ht1.range])
    rw [← hst1] at hi
    obtain ⟨d2, hd2, ht2⟩ := mirror_flag h.flag h.ready1.range (by omega) (by omega) heq1 hg1 hi
    obtain ⟨hst2, -⟩ := h.flag.stream ht2 hlt2 hg1 hi
    have heq2 : s3.regs.rcRange = d2.regs.rcRange := BitVec.eq_of_toNat_eq (by rw [h.flag.range, ht2.range])
    have hmd1 : SameModel d d1 := sameModel_of_decoderErased ht1.erased
    have hmd2 : SameModel d1 d2 := sameModel_of_decoderErased ht2.erased
    have hmm : SameModel s3 d2 := (hms1.trans hms2).symm.trans (hm.trans (hmd1.trans hmd2))
    refine ⟨d1, d2, hd1, ?_, ?_, hmm, heq2, ?_, ?_, ?_, ?_, ?_, fun k hk => ?_⟩
    · unfold decodeByte
      rw [bind_of_ok hd2, hb]
      simp
    · refine h.ready2.of_same hmm ?_ (by rw [← heq2]; exact h.ready2.range)
      rw [tablesValid_of_decoderErased ht2.erased, tablesValid_of_decoderErased ht1.erased, hd.session.valid, h.ready2.session.valid]
    · rw [hst2, hst1, ← hlen]
    · exact symbolErased_of_decoder (ht2.erased.trans ht1.erased)
    · exact outPort_of_decoderErased (ht2.erased.trans ht1.erased)
    · rw [(ht2.decoded (hg1.mono (by omega))).answers, (ht1.decoded (hg.mono (by omega))).answers, List.drop_drop, hlen, Nat.add_zero]
    · rw [ht2.count, ht1.count, BitVec.add_assoc, ← BitVec.ofNat_add, hlen, Nat.add_zero]
    · have := taken_twice ht1 ht2 k (by rw [hlen, Nat.add_zero] at hk; exact hk)
      rw [hlen, Nat.add_zero]
      exact this
  · obtain ⟨u, hu, hue, hl, hok⟩ := h.literal hb
    have hne : b.toNat ≠ (choose s).symbol.toNat := fun h => hb (BitVec.eq_of_toNat_eq h)
    obtain ⟨hpos3, hle3⟩ := h.ready2.lit.interval (choose s).symbol.isLt b.isLt hne
    have hlt3 : litWidth s2 (choose s).symbol.toNat b.toNat < 2 ^ 31 := by have := s2.regs.rcRange.isLt; omega
    have hport : s3.outPort = u.outPort := outPort_of_modelErased hok.erased
    have hregs : (modelErased s3).regs = (modelErased u).regs := by rw [hok.erased]
    simp only [modelErased, Regs.mk.injEq] at hregs
    have hso : shiftedOut s3 = shiftedOut u := by
      unfold shiftedOut
      rw [hport]
      simp only [hregs]
    have hcv : codeValue s3 = codeValue u := by
      unfold codeValue windowLow
      rw [hso]
      simp only [hregs]
    have hrr : s3.regs.rcRange = u.regs.rcRange := rcRange_of_modelErased hok.erased
    have hlen : m = normShifts (encEosRange s.regs false) + (normShifts (encFlagRange s1.regs (choose s).prob (b == (choose s).symbol)) +
        (normShifts (litWidth s2 (choose s).symbol.toNat b.toNat) + 0)) := by
      have := h.flag.length; have := h.eos.length; have := hu.length; rw [← hso] at this; omega
    rw [hlen] at hg hi
    have hi3 := hi
    unfold Inside at hi3
    rw [hcv, hrr] at hi3
    change Inside u _ 0 at hi3
    have hi2 := hu.inside_before hle3 hi3
    have hi1 := h.flag.inside_before hle2 hi2
    obtain ⟨d1, hd1, ht1⟩ := mirror_eos h.eos hs.range heq hg hi1
    obtain ⟨hst1, hg1⟩ := h.eos.stream ht1 hlt1 hg hi1
    have heq1 : s1.regs.rcRange = d1.regs.rcRange := BitVec.eq_of_toNat_eq (by rw [h.eos.range, ht1.range])
    rw [← hst1] at hi2 hi3
    obtain ⟨d2, hd2, ht2⟩ := mirror_flag h.flag h.ready1.range (by omega) (by omega) heq1 hg1 hi2
    obtain ⟨hst2, hg2⟩ := h.flag.stream ht2 hlt2 hg1 hi2
    have heq2 : s2.regs.rcRange = d2.regs.rcRange := BitVec.eq_of_toNat_eq (by rw [h.flag.range, ht2.range])
    have hmd1 : SameModel d d1 := sameModel_of_decoderErased ht1.erased
    have hmd2 : SameModel d1 d2 := sameModel_of_decoderErased ht2.erased
    have hmm : SameModel s2 d2 := (hms1.trans hms2).symm.trans (hm.trans (hmd1.trans hmd2))
    have hv2 : d2.regs.tablesValid = s2.regs.tablesValid := by
      rw [tablesValid_of_decoderErased ht2.erased, tablesValid_of_decoderErased ht1.erased, hd.session.valid, h.ready2.session.valid]
    have rd2 : SymbolReady d2 := h.ready2.of_same hmm hv2 (by rw [← heq2]; exact h.ready2.range)
    rw [← hst2] at hi3
    have hwin := window_bounds (hu.window hg2 hi3)
    obtain ⟨hlow, hwid⟩ := sameModel_litLow hmm heq2 (choose s).symbol.toNat b.toNat
    rw [← hlow, ← hwid] at hwin
    -- the literal decodes as b
    have huniq : ∀ sym, sym < 256 → sym ≠ (choose s).symbol.toNat → litLow d2 (choose s).symbol.toNat sym ≤ d2.regs.rcBuffer.toNat →
        d2.regs.rcBuffer.toNat < litLow d2 (choose s).symbol.toNat sym + litWidth d2 (choose s).symbol.toNat sym → sym = b.toNat :=
      fun sym h1 h2 h3 h4 => rd2.lit.unique (choose s).symbol.isLt h1 b.isLt h2 hne h3 h4 hwin.1 hwin.2
    obtain ⟨sym, d3, hd3, ⟨hs1, hs2, hs3, hs4⟩, ud, hud, hld, hokd⟩ := (litDecode_spec rd2.lit (choose s).symbol.isLt).completes (by
      rintro e t - (⟨-, -, hall⟩ | ⟨sym, ⟨h1, h2, h3, h4⟩, hf⟩)
      · have := hall b.toNat b.isLt hne; omega
      · obtain rfl := huniq sym h1 h2 h3 h4
        rw [hwid] at hf
        exact hf.short (hg2.mono (by omega)))
    obtain rfl := huniq sym hs1 hs2 hs3 hs4
    rw [hlow, hwid] at hud
    obtain ⟨hst3, -⟩ := hu.stream hud hlt3 hg2 hi3
    have heq3 : u.regs.rcRange = ud.regs.rcRange := BitVec.eq_of_toNat_eq (by rw [hu.range, hud.range])
    have hmud : SameModel d2 ud := sameModel_of_decoderErased hud.erased
    have hmu : SameModel s2 u := sameModel_of_encoderErased hue
    have hm3 : SameModel s3 d3 := hl.same hld hmm (hmu.symm.trans (hmm.trans hmud))
    have hregsd : (modelErased d3).regs = (modelErased ud).regs := by rw [hokd.erased]
    simp only [modelErased, Regs.mk.injEq] at hregsd
    have hwd : decoderWindow d3.regs = decoderWindow ud.regs := by unfold decoderWindow; simp only [hregsd]
    have rr3 : s3.regs.rcRange = d3.regs.rcRange := by rw [hrr, heq3, rcRange_of_modelErased hokd.erased]
    refine ⟨d1, d3, hd1, ?_, ?_, hm3, rr3, ?_, ?_, ?_, ?_, ?_, fun k hk => ?_⟩
    · unfold decodeByte
      rw [bind_of_ok hd2]
      simp only [beq_eq_false_iff_ne.mpr hb, Bool.false_eq_true, if_false]
      rw [bind_of_ok hd3, pure_run, BitVec.ofNat_toNat, BitVec.setWidth_eq]
    · refine h.ready3.of_same hm3 ?_ (by rw [← rr3]; exact h.ready3.range)
      rw [tablesValid_of_modelErased hokd.erased, tablesValid_of_decoderErased hud.erased, hv2, h.ready2.session.valid,
        h.ready3.session.valid]
    · have : streamValue s3 d3 0 = streamValue u ud 0 := by
        unfold streamValue
        rw [hcv, hwd]
        simp [comingBytes]
      rw [this, hst3, hst2, hst1, ← hlen]
    · exact (symbolErased_of_model hokd.erased).trans (symbolErased_of_decoder (hud.erased.trans (ht2.erased.trans ht1.erased)))
    · exact (outPort_of_modelErased hokd.erased).trans (outPort_of_decoderErased (hud.erased.trans (ht2.erased.trans ht1.erased)))
    · rw [inPort_of_modelErased hokd.erased, (hud.decoded (hg2.mono (by omega))).answers, (ht2.decoded (hg1.mono (by omega))).answers,
        (ht1.decoded (hg.mono (by omega))).answers, List.drop_drop, List.drop_drop, hlen]
      congr 1
    · have hcount : d3.regs.inCount = ud.regs.inCount := by simp only [hregsd]
      rw [hcount, hud.count, ht2.count, ht1.count, BitVec.add_assoc, BitVec.add_assoc, ← BitVec.ofNat_add, ← BitVec.ofNat_add, hlen,
        Nat.add_zero]
    · rw [inPort_of_modelErased hokd.erased]
      rw [hlen, Nat.add_zero] at hk ⊢
      rw [Nat.add_assoc] at hk
      obtain ⟨h1, h2⟩ := ht1.gives _ hk
      obtain ⟨h3, h4⟩ := taken_twice ht2 hud k h1
      have h5 := (ht1.gives _ (hk.mono (by omega) : givesBytes d.inPort (normShifts (encEosRange s.regs false) +
        (normShifts (encFlagRange s1.regs (choose s).prob (b == (choose s).symbol)) +
          normShifts (litWidth s2 (choose s).symbol.toNat b.toNat))))).2
      exact ⟨h3, by rw [Nat.add_assoc, h2, h4, h5, List.append_assoc]⟩

end Sys2Proof.Machine
end

