-- ==== Sys2Proof/Laws/Session.lean ====
section
/-! SUPPORT. What the session start leaves (R119): every entry of the tables, the models and the coder as the invariants say they are. -/

namespace Sys2Proof.Machine

open Finset

/-- The state a session start that passes its checks leaves (R119). -/
def sessionStarted (s : State) : State :=
  { s with regs := sessionStartRegs s.regs, tables := sessionStartTables, inPort := { s.inPort with ended := false } }

/-- SessionInit (R119): the two checks, then the start. -/
theorem sessionInit_cases (s : State) :
    (cfgValid s.regs.config = false ∧ sessionInit s = .error (.raise .invalidConfiguration) s) ∨
      (cfgValid s.regs.config = true ∧ s.params.tableMemWords.toNat < needWords s.regs.config ∧
        sessionInit s = .error (.raise .allocationFailure) s) ∨
      (cfgValid s.regs.config = true ∧ needWords s.regs.config ≤ s.params.tableMemWords.toNat ∧
        sessionInit s = .ok () (sessionStarted s)) := by
  unfold sessionInit
  split
  · next h => exact .inl ⟨h, rfl⟩
  · next h =>
    have h : cfgValid s.regs.config = true := by simpa using h
    split
    · next h' => exact .inr (.inl ⟨h, h', rfl⟩)
    · next h' => exact .inr (.inr ⟨h, by omega, rfl⟩)

/-- Every entry after a session start (R119). -/
theorem tblRead_sessionStarted (s : State) (t : TableId) (i : Nat) :
    tblRead (sessionStarted s) t i = sessionStartEntry s.regs.config t i := by
  cases t <;> rfl

theorem tblRead_start {t : State} {c : Word64} (h : t.tables = sessionStartTables) (hc : t.regs.scfg = c) (id : TableId) (i : Nat) :
    tblRead t id i = sessionStartEntry c id i := by
  unfold tblRead
  rw [h, hc]
  cases id <;> rfl

/-- The literal model at a session start is as R172 says. -/
theorem litContextOk_start {t : State} {c : Word64} (h : t.tables = sessionStartTables) (hc : t.regs.scfg = c) (hb : CfgBounds c) (ctx : Nat) :
    LitContextOk t ctx := by
  have hi := hb.init
  have hl := hb.limit
  have h1 : ∀ k < 256, singleOf t ctx k = cfgInit c := by
    intro k hk
    unfold singleOf singleIndex
    rw [tblRead_start h hc]
    have : (ctx * 273 + k) % 273 < 256 := by omega
    simp only [sessionStartEntry, if_pos this, BitVec.toNat_ofNat]
    omega
  have h2 : ∀ g < 16, groupOf t ctx g = 16 * cfgInit c := by
    intro g hg
    unfold groupOf groupIndex
    rw [tblRead_start h hc]
    have hn : ¬(ctx * 273 + (256 + g)) % 273 < 256 := by omega
    have hp : (ctx * 273 + (256 + g)) % 273 < 272 := by omega
    simp only [sessionStartEntry, if_neg hn, if_pos hp, BitVec.toNat_ofNat]
    omega
  have h3 : totalOf t ctx = 256 * cfgInit c := by
    unfold totalOf totalIndex
    rw [tblRead_start h hc]
    have hn : ¬(ctx * 273 + 272) % 273 < 256 := by omega
    have hp : ¬(ctx * 273 + 272) % 273 < 272 := by omega
    simp only [sessionStartEntry, if_neg hn, if_neg hp, BitVec.toNat_ofNat]
    omega
  refine ⟨fun g hg => ?_, ?_, fun k hk => ?_, ?_⟩
  · rw [h2 g hg, list_sum_range, sum_congr rfl fun k hk => h1 _ (by have := mem_range.mp hk; omega)]
    simp
  · rw [h3, list_sum_range, sum_congr rfl fun g hg => h2 g (mem_range.mp hg)]
    simp
    omega
  · rw [h1 k hk]; exact hi.1
  · rw [h3, hc]
    exact le_trans (by omega) (le_max_left _ _)

/-- A session's models right after its start (R119, R155, R172). -/
theorem sessionOk_start {t : State} {c : Word64} (h : t.tables = sessionStartTables) (hc : t.regs.scfg = c) (hv : cfgValid c = true)
    (htv : t.regs.tablesValid = true) (hcost : t.regs.cost = 0#32) : SessionOk t := by
  refine ⟨by rw [hc]; exact hv, htv, by rw [h]; rfl, fun ctx _ => litContextOk_start h hc (cfgValid_iff.mp hv) ctx, ?_, by rw [hcost]; decide⟩
  rintro id (rfl | rfl) i - <;> rw [tblRead_start h hc] <;> exact (by decide : 127 ≤ (0x4000#16).toNat ∧ (0x4000#16).toNat ≤ 32641)

/-- The coder right after a session start is as R200 says. -/
theorem coderInv_start {r : Regs} (h1 : r.rcBuffer = 0#31) (h2 : r.rcRange = 0x7FFFFFFF#31) (h3 : r.carry = false)
    (h4 : r.ffrun = 0#32) : CoderInv r := by
  refine ⟨by rw [h2]; decide, ?_, fun _ => ?_⟩
  · simp only [windowLow, h1, h2, h3]; decide
  · simp only [windowLow, h1, h2, h3, h4]; decide

theorem memoryWf_start (c : Word64) : Memory.wf c sessionStartTables := by
  simp [Memory.wf, CellsWf, sessionStartTables]

end Sys2Proof.Machine
end

