-- ==== Sys2Proof/Laws/Exec.lean ====
section
/-! SUPPORT. Everything one command can do, said once for all commands from any state: it is discarded, it is refused before its rule, or
its rule runs, and then it retires, faults or waits. -/

namespace Sys2Proof.Machine

/-- The rule of each command. -/
def ruleOf : Instr → Cmd Unit
  | .nop => pure ()
  | .setcfgHi imm32 => modifyRegs fun r => { r with config := BitVec.ofNat 32 imm32 ++ r.config.extractLsb' 0 32 }
  | .setcfgLo imm32 => modifyRegs fun r => { r with config := r.config.extractLsb' 32 32 ++ BitVec.ofNat 32 imm32 }
  | .setirq en clr => modifyRegs fun r =>
      { r with irqEn := BitVec.ofNat 2 en, irqPend := r.irqPend &&& ~~~(BitVec.ofNat 2 clr) }
  | .initEnc => do
      sessionInit
      modifyRegs fun r => { r with mode := .enc, dir := false }
  | .initDec => do
      sessionInit
      decPrime
      modifyRegs fun r => { r with mode := .dec, dir := true }
  | .tblRead tid idx => do
      let now ← get
      setResult (tableReadValue tid idx now)
  | .decCheckEnd => do
      let answer ← askInput
      match answer with
      | .endMark => setResult 0
      | .byte _ =>
        countInput
        raiseFault .trailingData
      | .error => raiseFault .ioFailure
  | .encSym byte => encodeSymbol (BitVec.ofNat 8 byte)
  | .encEnd => do
      encEos true
      flushCoder
      enterDone
  | .decSym => decodeSymbol
  | .rcEncBit bit p => encFlag p (bit == 1)
  | .rcDecBit p => do
      let m ← decFlag p
      setResult (flag m)
  | .rcEncEos last => do
      encEos (last == 1)
      whenTrue (last == 1) (modifyRegs fun r => { r with mode := .encEnding })
  | .rcDecEos => do
      let last ← decEos
      setResult (flag last)
      whenTrue last enterDone
  | .rcEncFreq cum freq tot => encFreq cum freq tot
  | .rcDecTarget tot => do
      let t ← decTarget tot
      setResult t
  | .rcDecNarrow cum freq tot => decNarrow cum freq tot
  | .rcFlush => do
      flushCoder
      enterDone

theorem exec_eq (i : Instr) (s : State) : exec i s = executeCommand i (ruleOf i) s := by cases i <;> rfl

/-- What a command's rule has done to the state before its coding procedures run: nothing, or a session start (R119). -/
def Began (i : Instr) (s v : State) : Prop :=
  v = s ∨ ((i = .initEnc ∨ i = .initDec) ∧ cfgValid s.regs.config = true ∧ needWords s.regs.config ≤ s.params.tableMemWords.toNat ∧
    v = sessionStarted s)

/-- What a command's rule does to the registers last, after its coding procedures. -/
def Concluded (i : Instr) (r u : Regs) : Prop :=
  match i with
  | .nop => u = r
  | .setcfgHi imm32 => u = { r with config := BitVec.ofNat 32 imm32 ++ r.config.extractLsb' 0 32 }
  | .setcfgLo imm32 => u = { r with config := r.config.extractLsb' 32 32 ++ BitVec.ofNat 32 imm32 }
  | .setirq en clr => u = { r with irqEn := BitVec.ofNat 2 en, irqPend := r.irqPend &&& ~~~(BitVec.ofNat 2 clr) }
  | .initEnc => u = { r with mode := .enc, dir := false }
  | .initDec => u = { r with mode := .dec, dir := true }
  | .tblRead _ _ => ∃ v, u = { r with result := v }
  | .decCheckEnd => u = { r with result := 0#32 }
  | .encSym _ => u = r
  | .encEnd => u = { r with mode := .done, irqPend := r.irqPend ||| 2#2 }
  | .decSym => (∃ v, u = { r with result := v }) ∨
      u = { r with result := BitVec.ofNat 32 endOfStreamResult, mode := .done, irqPend := r.irqPend ||| 2#2 }
  | .rcEncBit _ _ => u = r
  | .rcDecBit _ => ∃ v, u = { r with result := v }
  | .rcEncEos last => u = if last = 1 then { r with mode := .encEnding } else r
  | .rcDecEos => u = { r with result := 0#32 } ∨ u = { r with result := 1#32, mode := .done, irqPend := r.irqPend ||| 2#2 }
  | .rcEncFreq _ _ _ => u = r
  | .rcDecTarget _ => ∃ v, u = { r with result := v }
  | .rcDecNarrow _ _ _ => u = r
  | .rcFlush => u = { r with mode := .done, irqPend := r.irqPend ||| 2#2 }

/-- The rule of a command that ends well: a beginning (a session start for INIT_ENC and INIT_DEC), the coding procedures, a
conclusion. -/
structure RuleDone (i : Instr) (s t : State) : Prop where
  whole : ∃ v w, Began i s v ∧ (i = .initEnc ∨ i = .initDec → v = sessionStarted s) ∧ RuleFrame v w ∧ Concluded i w.regs t.regs ∧
    t = { w with regs := t.regs }

/-- The rule of a command that raises or waits: the same, broken off; a precise cause only where nothing has been written (R265). -/
structure RuleBroken (i : Instr) (s : State) (e : Abort) (t : State) : Prop where
  whole : ∃ v, Began i s v ∧ RuleFrame v t
  raised : ∀ c, e = .raise c →
    codingCause c = true ∨ ((i = .initEnc ∨ i = .initDec) ∧ (c = .invalidConfiguration ∨ c = .allocationFailure) ∧ t = s)
  target : ∀ tot, i = .rcDecTarget tot → t = s

/-- How the rule of a command breaks off (R265): as above, or with the byte DEC_CHECK_END finds. -/
def BrokenOff (i : Instr) (s : State) (e : Abort) (t : State) : Prop :=
  RuleBroken i s e t ∨
    (i = .decCheckEnd ∧ e = .raise .trailingData ∧ ∃ b p, nextInAnswer s.inPort = some (.byte b, p) ∧
      t = { s with inPort := p, regs := { s.regs with inCount := s.regs.inCount + 1#64 } })

theorem brokenOff_frame {i : Instr} {s : State} {e : Abort} {t : State} (ht : ∀ tot, i ≠ .rcDecTarget tot) (h : RuleFrame s t)
    (hc : ∀ c, e = .raise c → codingCause c = true) : BrokenOff i s e t :=
  .inl ⟨⟨s, .inl rfl, h⟩, fun c h' => .inl (hc c h'), fun tot h' => absurd h' (ht tot)⟩

/-- A rule of coding procedures and a last register write. -/
theorem ends_framed {i : Instr} {s : State} {α : Type} {x : Cmd α} {f : α → Cmd Unit} (hi : ¬(i = .initEnc ∨ i = .initDec))
    (ht : ∀ tot, i ≠ .rcDecTarget tot) (hx : Framed x)
    (hf : ∀ a w, ∃ r, f a w = .ok () { w with regs := r } ∧ Concluded i w.regs r) :
    Ends (x >>= f) s (fun _ t => RuleDone i s t) (BrokenOff i s) := by
  refine Ends.bind ((hx.ends s).mono (fun _ _ h => h) fun _ _ h => brokenOff_frame ht h.1 h.2) fun a w hw => ?_
  obtain ⟨r, hr, hc⟩ := hf a w
  exact ends_of_ok hr ⟨⟨s, w, .inl rfl, fun h => absurd h hi, hw, hc, rfl⟩⟩

theorem ends_framed_alone {i : Instr} {s : State} {x : Cmd Unit} (hi : ¬(i = .initEnc ∨ i = .initDec))
    (ht : ∀ tot, i ≠ .rcDecTarget tot) (hx : Framed x) (hc : ∀ r, Concluded i r r) :
    Ends x s (fun _ t => RuleDone i s t) (BrokenOff i s) :=
  (hx.ends s).mono (fun _ t h => ⟨⟨s, t, .inl rfl, fun h => absurd h hi, h, hc _, rfl⟩⟩) fun _ _ h => brokenOff_frame ht h.1 h.2

/-- A rule that only writes registers. -/
theorem ends_register {i : Instr} {s : State} {f : Regs → Regs} (hi : ¬(i = .initEnc ∨ i = .initDec))
    (hc : ∀ r, Concluded i r (f r)) : Ends (modifyRegs f) s (fun _ t => RuleDone i s t) (BrokenOff i s) :=
  ends_modifyRegs ⟨⟨s, s, .inl rfl, fun h => absurd h hi, RuleFrame.refl s, hc _, rfl⟩⟩

/-- A session start, and what follows it. -/
theorem ends_session {i : Instr} {s : State} {f : Cmd Unit} (hi : i = .initEnc ∨ i = .initDec)
    (hf : Began i s (sessionStarted s) → Ends f (sessionStarted s) (fun _ t => RuleDone i s t) (BrokenOff i s)) :
    Ends (sessionInit >>= fun _ => f) s (fun _ t => RuleDone i s t) (BrokenOff i s) := by
  have hbad : ∀ c, c = .invalidConfiguration ∨ c = .allocationFailure → BrokenOff i s (.raise c) s := fun c hc =>
    .inl ⟨⟨s, .inl rfl, RuleFrame.refl s⟩, fun d hd => by cases hd; exact .inr ⟨hi, hc, rfl⟩, fun _ _ => rfl⟩
  rcases sessionInit_cases s with ⟨-, h⟩ | ⟨-, -, h⟩ | ⟨h1, h2, h⟩
  · unfold Ends; rw [bind_of_error h]; exact hbad _ (.inl rfl)
  · unfold Ends; rw [bind_of_error h]; exact hbad _ (.inr rfl)
  · have := hf (.inr ⟨hi, h1, h2, rfl⟩)
    unfold Ends at this ⊢
    rw [bind_of_ok h]; exact this

/-- DecTarget changes no state (R212). -/
theorem decTarget_still (tot : Nat) (s : State) : Ends (decTarget tot) s (fun _ t => t = s) (fun _ t => t = s) := by
  have hdiv : ∀ a b (u : State), Ends (checkedDiv a b) u (fun _ t => t = u) (fun _ t => t = u) := fun a b u => by
    by_cases h : b = 0 <;> simp [Ends, checkedDiv, h]
  refine Ends.bind (Q := fun r t => t = s) (ends_of_ok rfl rfl) fun r u hu => ?_
  refine Ends.bind (Q := fun _ t => t = s) ((hdiv _ _ u).mono (fun _ _ h => h.trans hu) fun _ _ h => h.trans hu) fun a v hv => ?_
  refine Ends.bind (Q := fun _ t => t = s) ((hdiv _ _ v).mono (fun _ _ h => h.trans hv) fun _ _ h => h.trans hv) fun b w hw => ?_
  by_cases h : tot ≤ b
  · rw [if_pos h]; exact hw
  · rw [if_neg h]; exact hw

/-- What every command's rule does, from any state. -/
theorem ruleOf_ends (i : Instr) (s : State) : Ends (ruleOf i) s (fun _ t => RuleDone i s t) (BrokenOff i s) := by
  cases i with
  | nop => exact ends_framed_alone (by simp) (by simp) (framed_pure ()) fun _ => rfl
  | setcfgHi imm32 => exact ends_register (i := .setcfgHi imm32) (by simp) fun _ => rfl
  | setcfgLo imm32 => exact ends_register (i := .setcfgLo imm32) (by simp) fun _ => rfl
  | setirq en clr => exact ends_register (i := .setirq en clr) (by simp) fun _ => rfl
  | initEnc =>
    exact ends_session (.inl rfl) fun hb => ends_modifyRegs ⟨⟨_, _, hb, fun _ => rfl, RuleFrame.refl _, rfl, rfl⟩⟩
  | initDec =>
    refine ends_session (.inr rfl) fun hb => ?_
    refine Ends.bind ((framed_decPrime.ends _).mono (fun _ _ h => h) fun e t h => ?_) fun _ w hw =>
      ends_modifyRegs ⟨⟨_, w, hb, fun _ => rfl, hw, rfl, rfl⟩⟩
    exact .inl ⟨⟨_, hb, h.1⟩, fun c hc => .inl (h.2 c hc), fun tot h' => by cases h'⟩
  | tblRead tid idx => exact ends_register (i := .tblRead tid idx) (f := fun r => { r with result := BitVec.ofNat 32 (tableReadValue tid idx s) }) (by simp) fun _ => ⟨_, rfl⟩
  | decCheckEnd =>
    refine Ends.bind (Q := fun a t => ∃ p, nextInAnswer s.inPort = some (a, p) ∧ t = { s with inPort := p })
      (ends_askInput (fun a p h => ⟨p, h, rfl⟩) fun _ =>
        .inl ⟨⟨s, .inl rfl, RuleFrame.refl s⟩, (fun c hc => by cases hc), fun _ h => by cases h⟩) ?_
    rintro a _ ⟨p, hp, rfl⟩
    cases a with
    | endMark => exact ends_of_ok (setResult_run _ _) ⟨⟨s, _, .inl rfl, by simp, ruleFrame_answer hp rfl, rfl, rfl⟩⟩
    | byte b => exact .inr ⟨rfl, rfl, b, p, hp, rfl⟩
    | error =>
      exact .inl ⟨⟨s, .inl rfl, ruleFrame_answer hp rfl⟩, fun c hc => by cases hc; exact .inl rfl, fun _ h => by cases h⟩
  | encSym byte => exact ends_framed_alone (by simp) (by simp) (framed_encodeSymbol _) fun _ => rfl
  | encEnd =>
    refine Ends.bind (((framed_encEos true).ends s).mono (fun _ _ h => h) fun _ _ h => brokenOff_frame (by simp) h.1 h.2) fun _ v hv => ?_
    refine Ends.bind ((framed_flushCoder.ends v).mono (fun _ _ h => hv.trans h) fun _ _ h =>
      brokenOff_frame (by simp) (hv.trans h.1) h.2) fun _ w hw => ?_
    exact ends_of_ok (a := ()) rfl ⟨⟨s, w, .inl rfl, by simp, hw, rfl, rfl⟩⟩
  | decSym =>
    refine Ends.bind ((framed_decEos.ends s).mono (fun _ _ h => h) fun _ _ h => brokenOff_frame (by simp) h.1 h.2) fun last w hw => ?_
    cases last with
    | true => exact ends_of_ok (a := ()) rfl ⟨⟨s, w, .inl rfl, by simp, hw, .inr rfl, rfl⟩⟩
    | false =>
      refine Ends.bind (Q := fun u t => t = w) (ends_of_ok rfl rfl) ?_
      rintro u _ rfl
      refine Ends.bind (((framed_decodeByte (choose u)).ends _).mono (fun _ _ h => hw.trans h) fun _ _ h =>
        brokenOff_frame (by simp) (hw.trans h.1) h.2) fun b v hv => ?_
      refine Ends.bind (((framed_observe _ _ b).ends _).mono (fun _ _ h => hv.trans h) fun _ _ h =>
        brokenOff_frame (by simp) (hv.trans h.1) h.2) fun _ x hx => ?_
      refine Ends.bind (((framed_outWrite b).ends _).mono (fun _ _ h => hx.trans h) fun _ _ h =>
        brokenOff_frame (by simp) (hx.trans h.1) h.2) fun _ y hy => ?_
      exact ends_of_ok (setResult_run _ _) ⟨⟨s, y, .inl rfl, by simp, hy, .inl ⟨_, rfl⟩, rfl⟩⟩
  | rcEncBit bit p => exact ends_framed_alone (by simp) (by simp) (framed_encFlag _ _) fun _ => rfl
  | rcDecBit p => exact ends_framed (by simp) (by simp) (framed_decFlag _) fun m w => ⟨_, rfl, _, rfl⟩
  | rcEncEos last =>
    refine ends_framed (by simp) (by simp) (framed_encEos _) fun _ w => ?_
    by_cases h : last = 1
    · subst h; exact ⟨_, rfl, rfl⟩
    · have : (last == 1) = false := by simpa using h
      rw [this]
      exact ⟨w.regs, rfl, by simp [Concluded, h]⟩
  | rcDecEos =>
    refine ends_framed (by simp) (by simp) framed_decEos fun last w => ?_
    cases last
    · exact ⟨_, rfl, .inl rfl⟩
    · exact ⟨_, rfl, .inr rfl⟩
  | rcEncFreq cum freq tot => exact ends_framed_alone (by simp) (by simp) (framed_encFreq _ _ _) fun _ => rfl
  | rcDecTarget tot =>
    have hraised : ∀ c t, decTarget tot s = .error (.raise c) t → codingCause c = true := fun c t h => by
      have := (framed_decTarget tot).ends s
      unfold Ends at this
      rw [h] at this
      exact this.2 c rfl
    refine Ends.bind (Q := fun _ t => t = s) ?_ ?_
    · have := decTarget_still tot s
      unfold Ends at this ⊢
      cases h : decTarget tot s with
      | ok a t => rw [h] at this; exact this
      | error e t =>
        rw [h] at this
        subst this
        exact .inl ⟨⟨_, .inl rfl, RuleFrame.refl _⟩, fun c hc => .inl (by subst hc; exact hraised c _ h), fun _ _ => rfl⟩
    rintro a _ rfl
    exact ends_of_ok (setResult_run _ _) ⟨⟨_, _, .inl rfl, by simp, RuleFrame.refl _, ⟨_, rfl⟩, rfl⟩⟩
  | rcDecNarrow cum freq tot => exact ends_framed_alone (by simp) (by simp) (framed_decNarrow _ _ _) fun _ => rfl
  | rcFlush => exact ends_framed (by simp) (by simp) framed_flushCoder fun _ w => ⟨_, rfl, rfl⟩

/-- Everything a command that gives a next state can have done. -/
inductive Executed (i : Instr) (s t : State) : Prop where
  /-- discarded in FAULTED (R112) -/
  | discarded (mode : s.regs.mode = .faulted) (runs : runsWhenFaulted i = false) (ends : t = endCommand s)
  /-- refused for its mode (R111) -/
  | illegal (mode : ¬(s.regs.mode = .faulted ∧ runsWhenFaulted i = false)) (legality : legal i s.regs.mode s.regs.dir = false)
      (ends : t = faultEntry .badState (encode i) s)
  /-- refused for its operands (R92) -/
  | outOfRange (legality : legal i s.regs.mode s.regs.dir = true) (range : operandsInRange i = false)
      (ends : t = faultEntry .operandRange (encode i) s)
  /-- retired (R110) -/
  | retired (legality : legal i s.regs.mode s.regs.dir = true) (range : operandsInRange i = true) (u : State)
      (done : RuleDone i (takeCommand s) u) (ends : t = retire u)
  /-- raised a fault (R263) -/
  | raised (legality : legal i s.regs.mode s.regs.dir = true) (range : operandsInRange i = true) (c : Cause) (u : State)
      (broken : BrokenOff i (takeCommand s) (.raise c) u) (ends : t = takeFault i c u)
  /-- waits on a port (R299) -/
  | waits (legality : legal i s.regs.mode s.regs.dir = true) (range : operandsInRange i = true) (u : State)
      (broken : BrokenOff i (takeCommand s) .wait u) (ends : t = waitOnPort i s u)

theorem exec_executed {i : Instr} {s t : State} (h : exec i s = .next t) : Executed i s t := by
  rw [exec_eq, executeCommand] at h
  split at h
  next h1 => cases h; exact .discarded h1.1 h1.2 rfl
  next h1 =>
  split at h
  next h2 => cases h; exact .illegal h1 h2 rfl
  next h2 =>
  split at h
  next h3 => cases h; exact .outOfRange (by simpa using h2) h3 rfl
  next h3 =>
  have hl : legal i s.regs.mode s.regs.dir = true := by simpa using h2
  have hr : operandsInRange i = true := by simpa using h3
  have he := ruleOf_ends i (takeCommand s)
  unfold Ends at he
  cases hx : ruleOf i (takeCommand s) with
  | ok a u => rw [hx] at h he; cases h; exact .retired hl hr u he rfl
  | error e u =>
    rw [hx] at h he
    cases e with
    | raise c => cases h; exact .raised hl hr c u he rfl
    | wait => cases h; exact .waits hl hr u he rfl
    | stop f => cases h

end Sys2Proof.Machine
end

