-- ==== Sys2Proof/Laws/Learned.lean ====
section
/-! SUPPORT. What the models learn of a symbol, in the terms of the statements: Next's entry of the ROM (R149), Observe (R153), a literal's
interval, cost and training (R176, R178, R181 to R183). -/

namespace Sys2Proof.Machine

/-- Next(state, m) is the entry 2 * state + m of the FSM ROM (R65, R149). -/
theorem nextState_entry (p : Params) (st : Byte) (matched : Bool) :
    p.fsmTable[2 * st.toNat + if matched = true then 1 else 0]? = some (nextState p st matched) := by
  have h := fsmIndex_lt st matched
  unfold flag at h
  unfold nextState fsmRead flag
  simp [h]

/-- A literal's interval does not depend on the coder but for its range (R176, R178). -/
theorem literal_interval_eq {s u : State} (h : SameModel s u) (hok : CtxOk u) {x sym : Nat} (hx : x < 256) :
    litLow u x sym = literalLow s u.regs.rcRange.toNat x sym ∧ litWidth u x sym = literalWidth s u.regs.rcRange.toNat x sym := by
  have hte : cumBelow u x 256 = totWithout s x := by
    rw [hok.totEx_eq hx]
    unfold totWithout
    rw [h.litTotal, h.litSingle]
  have hcum : ∀ k, cumBelow u x k = cumWithout s x k := by
    intro k
    unfold cumBelow cumWithout
    rw [list_sum_range]
    refine Finset.sum_congr rfl fun j _ => ?_
    unfold freqExOf freqWithout
    rw [h.litSingle]
  constructor
  · unfold litLow literalLow literalUnit
    rw [h.useFixed]
    split
    · rfl
    · rw [hcum, hte]
  · unfold litWidth literalWidth literalUnit
    rw [h.useFixed]
    split
    · simp
    · rw [hte, h.litSingle]

theorem apmValue_eq (p : Nat) (matched : Bool) : apmValue p matched = apmMoved p matched := by
  unfold apmValue apmMoved
  simp only [Nat.shiftRight_eq_div_pow]

theorem apmMoved_lt {p : Nat} (hp : p ≤ 32768) (matched : Bool) : apmMoved p matched < 2 ^ 16 := by
  unfold apmMoved
  split <;> omega

/-- The probability a member reads between commands (R155). -/
theorem SymbolReady.member_prob {s : State} (h : SymbolReady s) (m : Member) : (predictMember m s).prob ≤ 32768 := by
  cases m
  · exact le_trans (h.session.apm .apmLo (.inl rfl) _ (apmIndex_lt s.regs.histLo (predictMember .lo s).state)).2 (by decide)
  · exact le_trans (h.session.apm .apmHi (.inr rfl) _ (apmIndex_lt s.regs.histHi (predictMember .hi s).state)).2 (by decide)

/-- Observe (R153), in a state whose model is that of `s` but for the literal's part, trains the predictor as its rule says. -/
theorem observed_trained {s v : State} {b : Byte} (hwf : Memory.wf v.regs.scfg v.tables) (hscfg : v.regs.scfg = s.regs.scfg)
    (hctx : v.regs.context = s.regs.context) (hlo : v.regs.histLo = s.regs.histLo) (hhi : v.regs.histHi = s.regs.histHi)
    (hpar : v.params = s.params) (hrd : ∀ id i, id ≠ .lit → tblRead v id i = tblRead s id i)
    (hap : ∀ m, (predictMember m s).prob ≤ 32768) :
    PredictorTrained s (observed (predictMember .lo s) (predictMember .hi s) b v) b := by
  have hd : dual v = dual s := by simp only [dual, hscfg]
  have hr := fun t i => tblRead_observed (lo := predictMember .lo s) (hi := predictMember .hi s) (b := b) hwf t i
  have hplo : (predictMember .lo s).prob = (tblRead s .apmLo (s.regs.histLo.toNat * 256 + (predictMember .lo s).state.toNat)).toNat := rfl
  have hphi : (predictMember .hi s).prob = (tblRead s .apmHi (s.regs.histHi.toNat * 256 + (predictMember .hi s).state.toNat)).toNat := rfl
  constructor
  · rw [← hctx]
    unfold observed
    split <;> rfl
  · rw [← hlo]
    unfold observed
    split <;> rfl
  · rw [← hhi, ← hd]
    unfold observed
    split <;> rfl
  · refine ⟨nextState s.params (predictMember .lo s).state (b == (predictMember .lo s).symbol), ?_, ?_⟩
    · simpa using nextState_entry s.params (predictMember .lo s).state (b == (predictMember .lo s).symbol)
    · rw [hr, hpar]
      simp only [reduceCtorEq, false_and, if_false]
      rw [if_pos ⟨trivial, rfl⟩]
      rfl
  · intro hdu
    refine ⟨nextState s.params (predictMember .hi s).state (b == (predictMember .hi s).symbol), ?_, ?_⟩
    · simpa using nextState_entry s.params (predictMember .hi s).state (b == (predictMember .hi s).symbol)
    · rw [hr, hpar]
      simp only [reduceCtorEq, false_and, and_false, if_false]
      rw [if_pos ⟨hd.trans hdu, trivial, rfl⟩]
      rfl
  · rw [hr, hlo, if_pos ⟨rfl, rfl⟩, hrd _ _ (by simp)]
    have := hap .lo
    unfold apmIndex
    rw [← hplo, BitVec.toNat_ofNat, apmValue_eq, Nat.mod_eq_of_lt (apmMoved_lt this _)]
  · intro hdu
    rw [hr]
    simp only [reduceCtorEq, false_and, and_false, if_false]
    rw [hhi, if_pos ⟨hd.trans hdu, trivial, rfl⟩, hrd _ _ (by simp)]
    have := hap .hi
    unfold apmIndex
    rw [← hphi, BitVec.toNat_ofNat, apmValue_eq, Nat.mod_eq_of_lt (apmMoved_lt this _)]
  · intro i hi
    rw [hr]
    simp only [reduceCtorEq, false_and, and_false, if_false]
    rw [if_neg (fun h => hi h.2), hrd _ _ (by simp)]
  · intro i hi
    rw [hr]
    simp only [reduceCtorEq, false_and, and_false, if_false]
    rw [if_neg (fun h => hi ⟨hd.symm.trans h.1, h.2.2⟩), hrd _ _ (by simp)]
  · intro i hi
    rw [hr, hlo, if_neg (fun h => hi h.2)]
    simp only [reduceCtorEq, false_and, and_false, if_false]
    rw [hrd _ _ (by simp)]
  · intro i hi
    rw [hr]
    simp only [reduceCtorEq, false_and, and_false, if_false]
    rw [hhi, if_neg (fun h => hi ⟨hd.symm.trans h.1, h.2.2⟩), hrd _ _ (by simp)]

/-- What the models learn is the model's alone. -/
theorem SymbolLearned.of_same {s t u : State} {x b : Byte} (h : SymbolLearned s t x b) (hm : SameModel t u) : SymbolLearned s u x b := by
  have hr : ∀ id i, tblRead u id i = tblRead t id i := fun id i => (hm.tblRead id i).symm
  have eS : ∀ c k, singleOf u c k = singleOf t c k := fun c k => by simp only [singleOf, hr]
  have eG : ∀ c k, groupOf u c k = groupOf t c k := fun c k => by simp only [groupOf, hr]
  have eT : ∀ c, totalOf u c = totalOf t c := fun c => by simp only [totalOf, hr]
  obtain ⟨⟨p1, p2, p3, p4, p5, p6, p7, p8, p9, p10, p11⟩, h2, h3, h4⟩ := h
  refine ⟨⟨hm.context ▸ p1, hm.histLo ▸ p2, hm.histHi ▸ p3, ?_, ?_, ?_, ?_, ?_, ?_, ?_, ?_⟩, fun hb => ?_, fun hb => ?_,
    fun hb => ?_⟩
  · simp only [hr]; exact p4
  · simp only [hr]; exact p5
  · simp only [hr]; exact p6
  · simp only [hr]; exact p7
  · simp only [hr]; exact p8
  · simp only [hr]; exact p9
  · simp only [hr]; exact p10
  · simp only [hr]; exact p11
  · exact ⟨hm.cost ▸ (h2 hb).1, by simp only [hr]; exact (h2 hb).2⟩
  · unfold CostTracked
    rw [← hm.cost]
    exact h3 hb
  · obtain ⟨a, ⟨c1, c2, c3, c4⟩, d⟩ := h4 hb
    exact ⟨by simp only [eS]; exact a, ⟨by simp only [eS, eG]; exact c1, by simp only [eG, eT]; exact c2, by simp only [eS]; exact c3,
      by rw [eT, ← hm.scfg]; exact c4⟩, by simp only [hr]; exact d⟩

/-- A literal's cost (R183), in the numbers of the state its symbol began in. -/
theorem LearnedOk.costTracked {s s2 u v t : State} {x b : Byte} (h : LearnedOk s2 u v x.toNat b.toNat) (hs : SymbolReady s)
    (hm : SameModel s s2) (hok : CtxOk s2) (hb : b ≠ x) (ht : t.regs.cost = v.regs.cost) : CostTracked s t x.toNat b.toNat := by
  obtain ⟨lt, lf, k1, k2, k3⟩ := h.costs
  have hte : cumBelow s2 x.toNat 256 = totWithout s x.toNat := by
    rw [hok.totEx_eq x.isLt]
    unfold totWithout
    rw [hm.litTotal, hm.litSingle]
  rw [hte, ← hm.params] at k1
  rw [← hm.litSingle, ← hm.params] at k2
  have hne : b.toNat ≠ x.toNat := fun h => hb (BitVec.eq_of_toNat_eq h)
  have hi := interval_le (s := s2) (x := x.toNat) b.isLt
  have hp := hok.freq_pos b.isLt hne
  rw [show freqExOf s2 x.toNat b.toNat = litSingle s2 b.toNat from if_neg hne] at hi hp
  rw [hte, ← hm.litSingle] at hi
  rw [← hm.litSingle] at hp
  have htl := hs.lit.ctx.total_le hs.lit.cfg
  obtain ⟨_, _, a1, a2, a3, a4⟩ := hs.log (litSingle s b.toNat) (totWithout s x.toNat) hp (by omega) (by unfold totWithout; omega)
  rw [k2] at a1
  rw [k1] at a2
  cases a1
  cases a2
  refine ⟨lt, lf, k1, k2, a3, ?_⟩
  have := costAfter_lt (lf := lf) hs.session.cost a4
  rw [ht, k3, ← hm.cost, BitVec.toNat_ofNat, Nat.mod_eq_of_lt (by omega)]
  unfold costAfter
  rw [Nat.shiftRight_eq_div_pow, show 2 ^ 7 = 128 from rfl]
  omega

/-- A literal's training (R181, R182), in the numbers of the state its symbol began in. -/
theorem LearnedOk.literalTrained {s s2 u v t : State} {x b : Byte} (h : LearnedOk s2 u v x.toNat b.toNat) (hm : SameModel s s2)
    (hsu : SameModel s u) (ht : ∀ i, tblRead t .lit i = tblRead v .lit i) (hc : t.regs.scfg = v.regs.scfg) : LiteralTrained s t b.toNat := by
  have eS : ∀ c k, singleOf t c k = singleOf v c k := fun c k => by simp only [singleOf, ht]
  have eG : ∀ c k, groupOf t c k = groupOf v c k := fun c k => by simp only [groupOf, ht]
  have eT : ∀ c, totalOf t c = totalOf v c := fun c => by simp only [totalOf, ht]
  have hcx : litCtx s2 = litCtx s := hm.litCtx.symm
  obtain ⟨c1, c2, c3, c4⟩ := hcx ▸ h.ctx
  refine ⟨fun k hk => ?_, ⟨by simp only [eS, eG]; exact c1, by simp only [eG, eT]; exact c2, by simp only [eS]; exact c3,
    by rw [eT, hc]; exact c4⟩, fun i hi => ?_⟩
  · rw [eS, ← hcx, h.singles k hk]
    unfold trainedSingle addedSingle halved
    rw [← hm.scfg, hm.litTotal, hm.litSingle]
    rfl
  · rw [ht, h.other .lit i (by rw [hcx]; exact fun h => hi h.2), ← hsu.tblRead]

/-- What the model has learned of the byte `b` against the prediction `x` when Observe is done (R241, R242): `u` is the state the coder
leaves, `v` the one after the literal's learning, if there is a literal. -/
theorem symbolLearned_observed {s u v : State} {x b : Byte} (hs : SymbolReady s) (hsu : SameModel s u)
    (hv : (b = x ∧ v = u) ∨ (b ≠ x ∧ ∃ s2, SameModel s s2 ∧ CtxOk s2 ∧ LearnedOk s2 u v x.toNat b.toNat)) :
    SymbolLearned s (observed (predictMember .lo s) (predictMember .hi s) b v) x b := by
  have hwf : Memory.wf v.regs.scfg v.tables := by
    rcases hv with ⟨-, rfl⟩ | ⟨-, s2, -, -, h⟩
    · rw [← hsu.scfg, ← hsu.tables]; exact hs.wf
    · rw [h.scfg]; exact h.wf
  have hlit : ∀ i, tblRead (observed (predictMember .lo s) (predictMember .hi s) b v) .lit i = tblRead v .lit i := fun i => by
    rw [tblRead_observed hwf]; simp
  have hcost : (observed (predictMember .lo s) (predictMember .hi s) b v).regs.cost = v.regs.cost := by
    unfold observed; split <;> rfl
  have hscfg : (observed (predictMember .lo s) (predictMember .hi s) b v).regs.scfg = v.regs.scfg := by
    unfold observed; split <;> rfl
  rcases hv with ⟨hb, rfl⟩ | ⟨hb, s2, hm, hok, h⟩
  · exact ⟨observed_trained hwf hsu.scfg.symm hsu.context.symm hsu.histLo.symm hsu.histHi.symm hsu.params.symm
      (fun id i _ => (hsu.tblRead id i).symm) hs.member_prob,
      fun _ => ⟨hcost.trans hsu.cost.symm, fun i => by rw [hlit, ← hsu.tblRead]⟩, fun h => absurd hb h, fun h => absurd hb h⟩
  · exact ⟨observed_trained hwf (h.scfg.trans hsu.scfg.symm) (h.context.trans hsu.context.symm) (h.histLo.trans hsu.histLo.symm)
      (h.histHi.trans hsu.histHi.symm) (h.params.trans hsu.params.symm)
      (fun id i hid => by rw [h.other id i (fun h => hid h.1), ← hsu.tblRead]) hs.member_prob,
      fun h => absurd h hb, fun _ => h.costTracked hs hm hok hb hcost, fun _ => h.literalTrained hm hsu hlit hscfg⟩

end Sys2Proof.Machine
end

