-- ==== Sys2Proof/Laws/Settled.lean ====
section
/-! SUPPORT. What each command's rule leaves of the machine's invariant, and that none of the model's own stops is reached from it. -/

namespace Sys2Proof.Machine

/-- A rule that is sound from `s`: it answers with a settled state, waits, or raises a fault after which the memory has its form; it
never stops. -/
def RuleSound (i : Instr) (s : State) (rule : Cmd Unit) : Prop :=
  Ends rule (takeCommand s) (fun _ t => t.params = s.params ∧ SettledOk (retire t))
    (fun e t => t.params = s.params ∧ (∀ f, e ≠ .stop f) ∧
      ∀ c, e = .raise c → impreciseFault i c = true ∨ Memory.wf t.regs.scfg t.tables)

/-- The registers the encoder's invariants speak of. -/
structure SameCoder (r u : Regs) : Prop where
  buffer : u.rcBuffer = r.rcBuffer
  range : u.rcRange = r.rcRange
  carry : u.carry = r.carry
  valid : u.delayValid = r.delayValid
  delay : u.delay = r.delay
  run : u.ffrun = r.ffrun

theorem SameCoder.inv {r u : Regs} (h : SameCoder r u) (hi : CoderInv r) : CoderInv u := by
  have hw : windowLow u = windowLow r := by simp only [windowLow, h.buffer, h.carry]
  obtain ⟨h1, h2, h3⟩ := hi
  exact ⟨by rw [h.range]; exact h1, by rw [hw, h.range]; exact h2, by rw [h.valid, h.delay, h.run, hw, h.range]; exact h3⟩

/-- A settled state, and another that differs from it in nothing the invariant speaks of. -/
theorem settledOk_same {s t : State} (h : SettledOk s) (hb : t.regs.busy = false) (hm : SameModel s t)
    (hmode : t.regs.mode = s.regs.mode) (hv : t.regs.tablesValid = s.regs.tablesValid) (hc : SameCoder s.regs t.regs) : SettledOk t := by
  obtain ⟨-, h2, h3, h4⟩ := h
  refine ⟨hb, by rw [← hm.scfg, ← hm.tables]; exact h2, fun hs => ?_, fun he => ?_⟩
  · rw [hmode] at hs
    obtain ⟨g1, g2⟩ := h3 hs
    exact ⟨g1.of_same hm hv, by rw [hc.range]; exact g2⟩
  · rw [hmode] at he
    exact hc.inv (h4 he)

/-- A state in FAULTED, or out of a session, needs the memory's form alone. -/
theorem settledOk_quiet {t : State} (hb : t.regs.busy = false) (hw : Memory.wf t.regs.scfg t.tables) (hm : ¬streaming t.regs.mode) :
    SettledOk t :=
  ⟨hb, hw, fun h => absurd h hm, fun h => absurd (h.imp id .inl) hm⟩

/-- A command with a sound rule keeps the machine's invariant, and gives a next state. -/
theorem executeCommand_sound {i : Instr} {rule : Cmd Unit} {s : State} (hp : log2Permitted s.params.log2Fix) (hs : SettledOk s)
    (hr : legal i s.regs.mode s.regs.dir = true → operandsInRange i = true → RuleSound i s rule) :
    ∃ t, executeCommand i rule s = .next t ∧ MachineInv t := by
  have quiet : ∀ t, t.params = s.params → t.stall = none → SettledOk t → MachineInv t := fun t h1 h2 h3 =>
    ⟨by rw [h1]; exact hp, fun _ => h3, fun st hst => by rw [h2] at hst; cases hst⟩
  have hfault : ∀ c w u, u.params = s.params → Memory.wf u.regs.scfg u.tables → MachineInv (faultEntry c w u) := fun c w u h1 h2 =>
    quiet _ h1 rfl (settledOk_quiet rfl h2 (by simp [streaming]))
  rcases executeCommand_cases (i := i) (rule := rule) (s := s) rfl with ⟨hf, -, h⟩ | ⟨-, h⟩ | ⟨-, -, h⟩ | ⟨hl, ho, -, h⟩
  · exact ⟨_, h, quiet _ rfl rfl (settledOk_quiet rfl hs.memory (by simp [streaming, hf]))⟩
  · exact ⟨_, h, hfault _ _ _ rfl hs.memory⟩
  · exact ⟨_, h, hfault _ _ _ rfl hs.memory⟩
  · have hsound := hr hl ho
    unfold RuleSound Ends at hsound
    rw [h]
    cases hx : rule (takeCommand s) with
    | ok a t =>
      rw [hx] at hsound
      exact ⟨_, rfl, quiet _ hsound.1 rfl hsound.2⟩
    | error e t =>
      rw [hx] at hsound
      obtain ⟨h1, h2, h3⟩ := hsound
      cases e with
      | stop f => exact absurd rfl (h2 f)
      | wait =>
        refine ⟨_, rfl, by rw [waitOnPort_params, h1]; exact hp, fun hn => (Option.some_ne_none _ hn).elim, fun st hst => ?_⟩
        rw [waitOnPort_stall, Option.some.injEq] at hst
        subst hst
        exact settledOk_same hs hs.idle ⟨h1.symm, rfl, rfl, rfl, rfl, rfl, rfl⟩ rfl rfl ⟨rfl, rfl, rfl, rfl, rfl, rfl⟩
      | raise c =>
        refine ⟨_, rfl, ?_⟩
        unfold takeFault
        split
        · exact hfault _ _ _ h1 (Memory.wf_unspecified _)
        · next hi =>
          rcases h3 c rfl with h3 | h3
          · exact absurd h3 hi
          · exact hfault _ _ _ h1 h3

theorem symbolReady_of_settled {s : State} (hp : log2Permitted s.params.log2Fix) (hs : SettledOk s) (hm : streaming s.regs.mode) :
    SymbolReady (takeCommand s) :=
  let ⟨h1, h2⟩ := hs.session hm
  SymbolReady.of_same (s := s) ⟨h1, hs.memory, hp, h2⟩ ⟨rfl, rfl, rfl, rfl, rfl, rfl, rfl⟩ rfl h2

/-- A session that goes on after a command. -/
theorem settledOk_streaming {t : State} (h : SymbolReady t) (hc : t.regs.mode = .enc ∨ t.regs.mode = .encEnding → CoderInv t.regs) :
    SettledOk (retire t) := by
  have h' : SymbolReady (retire t) := h.of_same ⟨rfl, rfl, rfl, rfl, rfl, rfl, rfl⟩ rfl h.range
  exact ⟨rfl, h'.wf, fun _ => ⟨h'.session, h'.range⟩, fun hm => let ⟨h1, h2, h3⟩ := hc hm; ⟨h1, h2, h3⟩⟩

theorem EncodeFails.sound {n : Nat} {i : Instr} {s t : State} {e : Abort} (h : EncodeFails n (takeCommand s) e t)
    (hi : ∀ c, c = .ioFailure ∨ c = .ffrunOverflow ∨ c = .carryOverflow → impreciseFault i c = true) :
    t.params = s.params ∧ (∀ f, e ≠ .stop f) ∧ ∀ c, e = .raise c → impreciseFault i c = true ∨ Memory.wf t.regs.scfg t.tables := by
  obtain ⟨h1, h2⟩ := h
  refine ⟨(sameModel_of_encoderErased h1).params.symm, fun f hf => ?_, fun c hc => .inl (hi c ?_)⟩
  · subst hf; simp at h2
  · subst hc
    simp only [reduceCtorEq, Abort.raise.injEq, false_or] at h2
    rcases h2 with ⟨h, -⟩ | ⟨h, -⟩ | ⟨h, -⟩ <;> simp [h]

theorem ReadFails.sound {n : Nat} {i : Instr} {s t : State} {e : Abort} (h : ReadFails n (takeCommand s) e t)
    (hi : ∀ c, c = .ioFailure ∨ c = .unexpectedEndOfInput → impreciseFault i c = true) :
    t.params = s.params ∧ (∀ f, e ≠ .stop f) ∧ ∀ c, e = .raise c → impreciseFault i c = true ∨ Memory.wf t.regs.scfg t.tables := by
  have h2 := h.cause
  refine ⟨(sameModel_of_decoderErased h.1).params.symm, fun f hf => ?_, fun c hc => .inl (hi c ?_)⟩
  · subst hf; simp at h2
  · subst hc
    simp only [reduceCtorEq, Abort.raise.injEq, false_or] at h2
    rcases h2 with h | h <;> simp [h]

theorem mode_of_encoderErased {s t : State} (h : encoderErased t = encoderErased s) : t.regs.mode = s.regs.mode := by
  have hr : (encoderErased t).regs.mode = (encoderErased s).regs.mode := by rw [h]
  exact hr

theorem mode_of_decoderErased {s t : State} (h : decoderErased t = decoderErased s) : t.regs.mode = s.regs.mode := by
  have hr : (decoderErased t).regs.mode = (decoderErased s).regs.mode := by rw [h]
  exact hr

theorem mode_of_modelErased {s t : State} (h : modelErased t = modelErased s) : t.regs.mode = s.regs.mode := by
  have hr : (modelErased t).regs.mode = (modelErased s).regs.mode := by rw [h]
  exact hr

/-- An encode procedure that went well, in a session. -/
theorem SymbolReady.encoded {s t : State} {v n : Nat} (h : SymbolReady s) (hc : CoderInv s.regs) (he : Encoded s t v n)
    (herased : encoderErased t = encoderErased s) (hn : 1 ≤ n) : SymbolReady t ∧ CoderInv t.regs :=
  ⟨h.of_same (sameModel_of_encoderErased herased) (tablesValid_of_encoderErased herased) (he.range_ge hn), he.inv hc⟩

/-- A decode procedure that went well, in a session. -/
theorem SymbolReady.taken {s t : State} {v n : Nat} (h : SymbolReady s) (ht : Taken s t v n) (hn : 1 ≤ n) : SymbolReady t :=
  h.of_same (sameModel_of_decoderErased ht.erased) (tablesValid_of_decoderErased ht.erased) (ht.range_ge hn)

theorem coderInv_take {s : State} (h : CoderInv s.regs) : CoderInv (takeCommand s).regs := ⟨h.range, h.window, h.delayed⟩

/-- A session that ended. -/
theorem settledOk_done {t : State} (hw : Memory.wf t.regs.scfg t.tables) (hm : t.regs.mode = .done) : SettledOk (retire t) :=
  settledOk_quiet rfl hw (by simp [streaming, hm])

end Sys2Proof.Machine
end

