-- ==== Sys2Proof/Laws/Sound.lean ====
section
/-! SUPPORT. The rule of every command is sound from a settled state: one lemma per command. -/

namespace Sys2Proof.Machine

/-- A rule that changes registers only, none of those the invariant speaks of. -/
theorem modifyRegs_sound {i : Instr} {s : State} {f : Regs → Regs} (hs : SettledOk s)
    (h : ∀ r, (f r).mode = r.mode ∧ (f r).scfg = r.scfg ∧ (f r).tablesValid = r.tablesValid ∧ (f r).cost = r.cost ∧
      (f r).context = r.context ∧ (f r).histLo = r.histLo ∧ (f r).histHi = r.histHi ∧ SameCoder r (f r)) :
    RuleSound i s (modifyRegs f) := by
  obtain ⟨e1, e2, e3, e4, e5, e6, e7, e8⟩ := h (takeCommand s).regs
  exact ends_modifyRegs ⟨rfl, settledOk_same hs rfl ⟨rfl, rfl, e2.symm, e5.symm, e6.symm, e7.symm, e4.symm⟩ e1 e3
    ⟨e8.buffer, e8.range, e8.carry, e8.valid, e8.delay, e8.run⟩⟩

theorem sound_nop {s : State} (hs : SettledOk s) : RuleSound .nop s (pure ()) :=
  ends_pure ⟨rfl, settledOk_same hs rfl ⟨rfl, rfl, rfl, rfl, rfl, rfl, rfl⟩ rfl rfl ⟨rfl, rfl, rfl, rfl, rfl, rfl⟩⟩

theorem sound_setcfgHi {s : State} (hs : SettledOk s) (imm32 : Nat) : RuleSound (.setcfgHi imm32) s
    (modifyRegs fun r => { r with config := BitVec.ofNat 32 imm32 ++ r.config.extractLsb' 0 32 }) :=
  modifyRegs_sound hs fun _ => ⟨rfl, rfl, rfl, rfl, rfl, rfl, rfl, rfl, rfl, rfl, rfl, rfl, rfl⟩

theorem sound_setcfgLo {s : State} (hs : SettledOk s) (imm32 : Nat) : RuleSound (.setcfgLo imm32) s
    (modifyRegs fun r => { r with config := r.config.extractLsb' 32 32 ++ BitVec.ofNat 32 imm32 }) :=
  modifyRegs_sound hs fun _ => ⟨rfl, rfl, rfl, rfl, rfl, rfl, rfl, rfl, rfl, rfl, rfl, rfl, rfl⟩

theorem sound_setirq {s : State} (hs : SettledOk s) (en clr : Nat) : RuleSound (.setirq en clr) s
    (modifyRegs fun r => { r with irqEn := BitVec.ofNat 2 en, irqPend := r.irqPend &&& ~~~(BitVec.ofNat 2 clr) }) :=
  modifyRegs_sound hs fun _ => ⟨rfl, rfl, rfl, rfl, rfl, rfl, rfl, rfl, rfl, rfl, rfl, rfl, rfl⟩

theorem sound_setResult {s : State} (i : Instr) (hs : SettledOk s) (v : Nat) : RuleSound i s (setResult v) :=
  modifyRegs_sound hs fun _ => ⟨rfl, rfl, rfl, rfl, rfl, rfl, rfl, rfl, rfl, rfl, rfl, rfl, rfl⟩

theorem sound_tblRead {s : State} (hs : SettledOk s) (tid idx : Nat) : RuleSound (.tblRead tid idx) s
    (do let now ← get; setResult (tableReadValue tid idx now)) :=
  sound_setResult (.tblRead tid idx) hs _

theorem sound_decCheckEnd {s : State} (hs : SettledOk s) : RuleSound .decCheckEnd s
    (do
      let answer ← askInput
      match answer with
      | .endMark => setResult 0
      | .byte _ =>
        countInput
        raiseFault .trailingData
      | .error => raiseFault .ioFailure) := by
  refine Ends.bind (Q := fun _ t => ∃ p, t = { takeCommand s with inPort := p }) (ends_askInput (fun a p _ => ⟨p, rfl⟩)
    fun _ => ⟨rfl, (fun f hf => by cases hf), (fun c hc => by cases hc)⟩) ?_
  rintro a _ ⟨p, rfl⟩
  cases a with
  | endMark => exact ends_of_ok (setResult_run _ _) ⟨rfl, settledOk_same hs rfl ⟨rfl, rfl, rfl, rfl, rfl, rfl, rfl⟩ rfl rfl ⟨rfl, rfl, rfl, rfl, rfl, rfl⟩⟩
  | byte b =>
    refine Ends.bind (Q := fun _ t => t.params = s.params ∧ Memory.wf t.regs.scfg t.tables) (ends_modifyRegs ⟨rfl, hs.memory⟩) ?_
    rintro _ t ⟨h1, h2⟩
    exact ends_raise ⟨h1, (fun f hf => by cases hf), fun c _ => .inr h2⟩
  | error => exact ends_raise ⟨rfl, (fun f hf => by cases hf), fun c _ => .inr hs.memory⟩

theorem sound_initEnc {s : State} (hp : log2Permitted s.params.log2Fix) (hs : SettledOk s) : RuleSound .initEnc s
    (do sessionInit; modifyRegs fun r => { r with mode := .enc, dir := false }) := by
  unfold RuleSound Ends
  rcases sessionInit_cases (takeCommand s) with ⟨-, h⟩ | ⟨-, -, h⟩ | ⟨hv, -, h⟩
  · rw [bind_of_error h]
    exact ⟨rfl, (fun f hf => by cases hf), fun c _ => .inr hs.memory⟩
  · rw [bind_of_error h]
    exact ⟨rfl, (fun f hf => by cases hf), fun c _ => .inr hs.memory⟩
  · rw [bind_of_ok h, modifyRegs_run]
    refine ⟨rfl, settledOk_streaming ⟨sessionOk_start rfl rfl hv rfl rfl, memoryWf_start _, hp, ?_⟩ fun _ => coderInv_start rfl rfl rfl rfl⟩
    show 2 ^ 23 ≤ (0x7FFFFFFF#31).toNat
    decide

theorem sound_initDec {s : State} (hp : log2Permitted s.params.log2Fix) (hs : SettledOk s) : RuleSound .initDec s
    (do sessionInit; decPrime; modifyRegs fun r => { r with mode := .dec, dir := true }) := by
  unfold RuleSound Ends
  rcases sessionInit_cases (takeCommand s) with ⟨-, h⟩ | ⟨-, -, h⟩ | ⟨hv, -, h⟩
  · rw [bind_of_error h]
    exact ⟨rfl, (fun f hf => by cases hf), fun c _ => .inr hs.memory⟩
  · rw [bind_of_error h]
    exact ⟨rfl, (fun f hf => by cases hf), fun c _ => .inr hs.memory⟩
  · rw [bind_of_ok h]
    refine Ends.bind ((decPrime_spec (sessionStarted (takeCommand s))).mono (fun _ _ h => h) ?_) ?_
    · intro e t hread
      have h2 := hread.cause
      refine ⟨(sameModel_of_decoderErased hread.1).params.symm, fun f hf => ?_, fun c hc => .inl ?_⟩
      · subst hf; simp at h2
      · subst hc
        simp only [reduceCtorEq, Abort.raise.injEq, false_or] at h2
        rcases h2 with rfl | rfl <;> rfl
    · rintro _ t ⟨n1, n2, n3, n4, ht, -, -⟩
      rw [ht]
      refine ends_modifyRegs ⟨rfl, settledOk_streaming ⟨sessionOk_start rfl rfl hv rfl rfl, memoryWf_start _, hp, ?_⟩ fun hm => ?_⟩
      · show 2 ^ 23 ≤ (0x7FFFFFFF#31).toNat
        decide
      · rcases hm with hm | hm <;> cases hm

/-- The commands legal in ENC alone. -/
theorem sound_encode {s : State} {i : Instr} (hp : log2Permitted s.params.log2Fix) (hs : SettledOk s) {x : Cmd Unit} {v n : Nat}
    (hm : s.regs.mode = .enc)
    (hi : ∀ c, c = .ioFailure ∨ c = .ffrunOverflow ∨ c = .carryOverflow → impreciseFault i c = true) (hn : 1 ≤ n)
    (hx : Ends x (takeCommand s) (fun _ t => Encoded (takeCommand s) t v n ∧ encoderErased t = encoderErased (takeCommand s))
      (EncodeFails 3 (takeCommand s))) : RuleSound i s x := by
  have hr := symbolReady_of_settled hp hs (.inl hm)
  refine hx.mono (fun _ t ⟨h1, h2⟩ => ?_) fun e t hf => hf.sound hi
  obtain ⟨h3, h4⟩ := hr.encoded (coderInv_take (hs.encoder (.inl hm))) h1 h2 hn
  exact ⟨(sameModel_of_encoderErased h2).params.symm, settledOk_streaming h3 fun _ => h4⟩

theorem sound_rcEncBit {s : State} (hp : log2Permitted s.params.log2Fix) (hs : SettledOk s) (bit p : Nat) (hw : p < 2 ^ 15)
    (hl : legal (.rcEncBit bit p) s.regs.mode s.regs.dir = true) (ho : operandsInRange (.rcEncBit bit p) = true) :
    RuleSound (.rcEncBit bit p) s (encFlag p (bit == 1)) := by
  have hm : s.regs.mode = .enc := by simpa [legal] using hl
  have hp1 : 1 ≤ p := by
    have : p ≠ 0 := by simpa [operandsInRange] using ho
    omega
  have hr := (symbolReady_of_settled hp hs (.inl hm)).range
  exact sound_encode hp hs hm (by rintro c (rfl | rfl | rfl) <;> rfl) (encFlagRange_pos hr hp1 hw).1
    (encFlag_spec p (bit == 1) (takeCommand s) hr hp1 hw)

theorem intervalInRange_iff {cum freq tot : Nat} : intervalInRange cum freq tot = true ↔ 1 ≤ tot ∧ 1 ≤ freq ∧ cum + freq ≤ tot := by
  simp only [intervalInRange, Bool.and_eq_true, Bool.not_eq_true', beq_eq_false_iff_ne, decide_eq_true_eq]
  omega

theorem sound_rcEncFreq {s : State} (hp : log2Permitted s.params.log2Fix) (hs : SettledOk s) (cum freq tot : Nat) (hw : tot < 2 ^ 16)
    (hl : legal (.rcEncFreq cum freq tot) s.regs.mode s.regs.dir = true) (ho : operandsInRange (.rcEncFreq cum freq tot) = true) :
    RuleSound (.rcEncFreq cum freq tot) s (encFreq cum freq tot) := by
  have hm : s.regs.mode = .enc := by simpa [legal] using hl
  obtain ⟨h1, h2, h3⟩ := intervalInRange_iff.mp ho
  have hr := (symbolReady_of_settled hp hs (.inl hm)).range
  exact sound_encode hp hs hm (by rintro c (rfl | rfl | rfl) <;> rfl) (interval_bounds h1 h2 h3 (by omega)).1
    (encFreq_spec cum freq tot (takeCommand s) h1 h2 h3 (by omega))

theorem sound_rcEncEos {s : State} (hp : log2Permitted s.params.log2Fix) (hs : SettledOk s) (last : Nat)
    (hl : legal (.rcEncEos last) s.regs.mode s.regs.dir = true) :
    RuleSound (.rcEncEos last) s
      (do encEos (last == 1); whenTrue (last == 1) (modifyRegs fun r => { r with mode := .encEnding })) := by
  have hm : s.regs.mode = .enc := by simpa [legal] using hl
  have hr := symbolReady_of_settled hp hs (.inl hm)
  have hpos : 1 ≤ encEosRange (takeCommand s).regs (last == 1) := by
    have := hr.range
    unfold encEosRange
    split <;> omega
  refine Ends.bind ((encEos_spec (last == 1) _ hr.range).mono (fun _ _ h => h) fun e t hf => hf.sound (by rintro c (rfl | rfl | rfl) <;> rfl)) ?_
  rintro _ t ⟨h1, h2⟩
  obtain ⟨h3, h4⟩ := hr.encoded (coderInv_take (hs.encoder (.inl hm))) h1 h2 hpos
  have hparams := (sameModel_of_encoderErased h2).params.symm
  refine ends_whenTrue (fun _ => ends_modifyRegs ⟨hparams, settledOk_streaming ?_ fun _ => ?_⟩) fun _ =>
    ⟨hparams, settledOk_streaming h3 fun _ => h4⟩
  · exact h3.of_same ⟨rfl, rfl, rfl, rfl, rfl, rfl, rfl⟩ rfl h3.range
  · exact SameCoder.inv (r := t.regs) ⟨rfl, rfl, rfl, rfl, rfl, rfl⟩ h4

/-- Flush ends every session that it ends well. -/
theorem flush_sound {s t : State} {i : Instr} {n : Nat} (hs : SettledOk s) (he : encoderErased t = encoderErased (takeCommand s))
    (hf : ∀ e u, EncodeFails 5 t e u → EncodeFails n (takeCommand s) e u)
    (hi : ∀ c, c = .ioFailure ∨ c = .ffrunOverflow ∨ c = .carryOverflow → impreciseFault i c = true) :
    Ends (do flushCoder; enterDone) t (fun _ t => t.params = s.params ∧ SettledOk (retire t))
      (fun e t => t.params = s.params ∧ (∀ f, e ≠ .stop f) ∧
        ∀ c, e = .raise c → impreciseFault i c = true ∨ Memory.wf t.regs.scfg t.tables) := by
  refine Ends.bind ((flushCoder_spec t).mono (fun _ _ h => h) fun e u hfail => (hf e u hfail).sound hi) fun _ u hu => ?_
  have hm := sameModel_of_encoderErased (hu.erased.trans he)
  refine ends_of_ok (enterDone_run u) ⟨hm.params.symm, settledOk_done ?_ rfl⟩
  show Memory.wf u.regs.scfg u.tables
  rw [← hm.scfg, ← hm.tables]
  exact hs.memory

theorem sound_rcFlush {s : State} (hs : SettledOk s) : RuleSound .rcFlush s (do flushCoder; enterDone) :=
  flush_sound hs rfl (fun _ _ h => h) (by rintro c (rfl | rfl | rfl) <;> rfl)

theorem sound_encEnd {s : State} (hp : log2Permitted s.params.log2Fix) (hs : SettledOk s)
    (hl : legal .encEnd s.regs.mode s.regs.dir = true) : RuleSound .encEnd s (do encEos true; flushCoder; enterDone) := by
  have hm : s.regs.mode = .enc := by simpa [legal] using hl
  have hr := symbolReady_of_settled hp hs (.inl hm)
  refine Ends.bind ((encEos_spec true _ hr.range).mono (fun _ _ h => h) fun e t hf => hf.sound (by rintro c (rfl | rfl | rfl) <;> rfl)) ?_
  rintro _ t ⟨h1, h2⟩
  exact flush_sound (n := 8) hs h2 (fun e u h => h.chain h1 h2 (coderMid_of_encoded h1 hr.range)
    (by have := normShifts_le (encEosRange (takeCommand s).regs true); omega)) (by rintro c (rfl | rfl | rfl) <;> rfl)

theorem sound_encSym {s : State} (hp : log2Permitted s.params.log2Fix) (hs : SettledOk s) (byte : Nat)
    (hl : legal (.encSym byte) s.regs.mode s.regs.dir = true) : RuleSound (.encSym byte) s (encodeSymbol (BitVec.ofNat 8 byte)) := by
  have hm : s.regs.mode = .enc := by simpa [legal] using hl
  have hr := symbolReady_of_settled hp hs (.inl hm)
  refine (encodeSymbol_spec _ hr).mono ?_ fun e t hf => hf.sound (by rintro c (rfl | rfl | rfl) <;> rfl)
  rintro _ t ⟨s1, s2, s3, h, rfl⟩
  have hp' := hr.prob
  have hr0 := hr.range
  have i1 := h.eos.inv (coderInv_take (hs.encoder (.inl hm)))
  have i2 := h.flag.inv i1
  have i3 : CoderInv s3.regs ∧ s3.params = s.params := by
    by_cases hb : BitVec.ofNat 8 byte = (choose (takeCommand s)).symbol
    · rw [h.hit hb]
      exact ⟨i2, (sameModel_of_encoderErased (h.flagErased.trans h.eosErased)).params.symm⟩
    · obtain ⟨u, hu, hue, -, hok⟩ := h.literal hb
      have hregs : (modelErased s3).regs = (modelErased u).regs := by rw [hok.erased]
      simp only [modelErased, Regs.mk.injEq] at hregs
      refine ⟨SameCoder.inv ⟨?_, ?_, ?_, ?_, ?_, ?_⟩ (hu.inv i2), ?_⟩
      · simp only [hregs]
      · simp only [hregs]
      · simp only [hregs]
      · simp only [hregs]
      · simp only [hregs]
      · simp only [hregs]
      · rw [hok.params]
        exact (sameModel_of_encoderErased (hue.trans (h.flagErased.trans h.eosErased))).params.symm
  have hobs := observed_erased (predictMember .lo (takeCommand s)) (predictMember .hi (takeCommand s)) (BitVec.ofNat 8 byte) s3
  have hregs : (modelErased (observed (predictMember .lo (takeCommand s)) (predictMember .hi (takeCommand s)) (BitVec.ofNat 8 byte) s3)).regs =
      (modelErased s3).regs := by rw [hobs]
  have hpar : (modelErased (observed (predictMember .lo (takeCommand s)) (predictMember .hi (takeCommand s)) (BitVec.ofNat 8 byte) s3)).params =
      (modelErased s3).params := by rw [hobs]
  simp only [modelErased, Regs.mk.injEq] at hregs
  refine ⟨hpar.trans i3.2, settledOk_streaming h.ready3.observed fun _ => SameCoder.inv ⟨?_, ?_, ?_, ?_, ?_, ?_⟩ i3.1⟩
  · simp only [hregs]
  · simp only [hregs]
  · simp only [hregs]
  · simp only [hregs]
  · simp only [hregs]
  · simp only [hregs]

/-- A decode procedure, then registers the invariant does not speak of. -/
theorem sound_decoded {s t : State} {v n : Nat} {f : Regs → Regs} (hr : SymbolReady (takeCommand s)) (hm : s.regs.mode = .dec)
    (ht : Taken (takeCommand s) t v n) (hn : 1 ≤ n)
    (hf : ∀ r, f r = { r with result := (f r).result }) :
    { t with regs := f t.regs }.params = s.params ∧ SettledOk (retire { t with regs := f t.regs }) := by
  have h1 := hr.taken ht hn
  have hmode : t.regs.mode = .dec := (mode_of_decoderErased ht.erased).trans hm
  have hfr := hf t.regs
  refine ⟨(sameModel_of_decoderErased ht.erased).params.symm, settledOk_streaming (h1.of_same ⟨rfl, rfl, ?_, ?_, ?_, ?_, ?_⟩ ?_ ?_) fun hm' => ?_⟩
  · show _ = (f t.regs).scfg; rw [hfr]
  · show _ = (f t.regs).context; rw [hfr]
  · show _ = (f t.regs).histLo; rw [hfr]
  · show _ = (f t.regs).histHi; rw [hfr]
  · show _ = (f t.regs).cost; rw [hfr]
  · show (f t.regs).tablesValid = _; rw [hfr]
  · show _ ≤ (f t.regs).rcRange.toNat; rw [hfr]; exact h1.range
  · change (f t.regs).mode = .enc ∨ (f t.regs).mode = .encEnding at hm'
    rw [hfr] at hm'
    change t.regs.mode = .enc ∨ t.regs.mode = .encEnding at hm'
    rw [hmode] at hm'
    rcases hm' with h | h <;> cases h

theorem sound_rcDecBit {s : State} (hp : log2Permitted s.params.log2Fix) (hs : SettledOk s) (p : Nat) (hw : p < 2 ^ 15)
    (hl : legal (.rcDecBit p) s.regs.mode s.regs.dir = true) (ho : operandsInRange (.rcDecBit p) = true) :
    RuleSound (.rcDecBit p) s (do let m ← decFlag p; setResult (flag m)) := by
  have hm : s.regs.mode = .dec := by simpa [legal] using hl
  have hp1 : 1 ≤ p := by
    have : p ≠ 0 := by simpa [operandsInRange] using ho
    omega
  have hr := symbolReady_of_settled hp hs (.inr (.inr hm))
  refine Ends.bind ((decFlag_spec p _ hr.range hp1 hw).mono (fun _ _ h => h) fun e t hf => hf.sound (by rintro c (rfl | rfl) <;> rfl)) ?_
  rintro m t ⟨-, ht⟩
  exact ends_modifyRegs (sound_decoded (f := fun r => { r with result := BitVec.ofNat 32 (flag m) }) hr hm ht
    (decFlagRange_pos hr.range hp1 hw) fun _ => rfl)

theorem memory_of_taken {s t : State} {v n : Nat} (hs : SettledOk s) (ht : Taken (takeCommand s) t v n) : Memory.wf t.regs.scfg t.tables := by
  have hm := sameModel_of_decoderErased ht.erased
  rw [← hm.scfg, ← hm.tables]
  exact hs.memory

theorem sound_rcDecEos {s : State} (hp : log2Permitted s.params.log2Fix) (hs : SettledOk s)
    (hl : legal .rcDecEos s.regs.mode s.regs.dir = true) :
    RuleSound .rcDecEos s (do let last ← decEos; setResult (flag last); whenTrue last enterDone) := by
  have hm : s.regs.mode = .dec := by simpa [legal] using hl
  have hr := symbolReady_of_settled hp hs (.inr (.inr hm))
  refine Ends.bind ((decEos_spec _ hr.range).mono (fun _ _ h => h) fun e t hf => hf.sound (by rintro c (rfl | rfl) <;> rfl)) ?_
  rintro last t ⟨-, ht⟩
  have hpos : 1 ≤ decEosRange (takeCommand s).regs := by
    have := hr.range
    unfold decEosRange
    split <;> omega
  cases last with
  | false =>
    exact ends_of_ok (a := ()) (t := { t with regs := { t.regs with result := BitVec.ofNat 32 0 } }) rfl
      (sound_decoded (f := fun r => { r with result := BitVec.ofNat 32 0 }) hr hm ht hpos fun _ => rfl)
  | true =>
    refine ends_of_ok (a := ()) (t := { t with regs := { t.regs with
      result := BitVec.ofNat 32 1, mode := .done, irqPend := t.regs.irqPend ||| 2#2 } }) rfl
      ⟨(sameModel_of_decoderErased ht.erased).params.symm, ?_⟩
    exact settledOk_done (show Memory.wf t.regs.scfg t.tables from memory_of_taken hs ht) rfl

theorem sound_rcDecTarget {s : State} (hp : log2Permitted s.params.log2Fix) (hs : SettledOk s) (tot : Nat) (hw : tot < 2 ^ 16)
    (hl : legal (.rcDecTarget tot) s.regs.mode s.regs.dir = true) (ho : operandsInRange (.rcDecTarget tot) = true) :
    RuleSound (.rcDecTarget tot) s (do let t ← decTarget tot; setResult t) := by
  have hm : s.regs.mode = .dec := by simpa [legal] using hl
  have ht1 : 1 ≤ tot := by
    have : tot ≠ 0 := by simpa [operandsInRange] using ho
    omega
  have hr := symbolReady_of_settled hp hs (.inr (.inr hm))
  have hr0 := hr.range
  refine Ends.bind ((decTarget_spec tot _ ht1 (by omega)).mono (fun _ _ h => h) ?_) ?_
  · rintro e t ⟨rfl, rfl, -⟩
    exact ⟨rfl, (fun f hf => by cases hf), fun c _ => .inr hs.memory⟩
  · rintro v t ⟨rfl, -, -⟩
    exact sound_setResult _ hs _

theorem sound_rcDecNarrow {s : State} (hp : log2Permitted s.params.log2Fix) (hs : SettledOk s) (cum freq tot : Nat) (hw : tot < 2 ^ 16)
    (hl : legal (.rcDecNarrow cum freq tot) s.regs.mode s.regs.dir = true)
    (ho : operandsInRange (.rcDecNarrow cum freq tot) = true) :
    RuleSound (.rcDecNarrow cum freq tot) s (decNarrow cum freq tot) := by
  have hm : s.regs.mode = .dec := by simpa [legal] using hl
  obtain ⟨h1, h2, h3⟩ := intervalInRange_iff.mp ho
  have hr := symbolReady_of_settled hp hs (.inr (.inr hm))
  have hr0 := hr.range
  refine (decNarrow_spec cum freq tot _ h1 h2 h3 (by omega)).mono ?_ ?_
  · rintro _ t ⟨-, ht⟩
    exact sound_decoded (f := id) hr hm ht (interval_bounds h1 h2 h3 (by omega)).1 fun _ => rfl
  · rintro e t (⟨rfl, rfl, -⟩ | ⟨-, hf⟩)
    · exact ⟨rfl, (fun f hf => by cases hf), fun c hc => .inl (by cases hc; rfl)⟩
    · exact hf.sound (by rintro c (rfl | rfl) <;> rfl)

theorem sound_decSym {s : State} (hp : log2Permitted s.params.log2Fix) (hs : SettledOk s)
    (hl : legal .decSym s.regs.mode s.regs.dir = true) : RuleSound .decSym s decodeSymbol := by
  have hm : s.regs.mode = .dec := by simpa [legal] using hl
  have hr := symbolReady_of_settled hp hs (.inr (.inr hm))
  have hall := (decodeSymbol_spec hr)
  unfold RuleSound Ends at *
  cases hx : decodeSymbol (takeCommand s) with
  | ok a t =>
    rw [hx] at hall
    rcases hall with ⟨-, t1, ht1, rfl⟩ | ⟨b, s1, s2, s3, s4, h, hw, rfl⟩
    · exact ⟨(sameModel_of_decoderErased ht1.erased).params.symm,
        settledOk_done (show Memory.wf t1.regs.scfg t1.tables from memory_of_taken hs ht1) rfl⟩
    · have ho := h.ready3.observed (lo := predictMember .lo (takeCommand s)) (hi := predictMember .hi (takeCommand s)) (b := b)
      have hsm := sameModel_of_encoderErased hw.erased
      have h4 : SymbolReady s4 := ho.of_same hsm (tablesValid_of_encoderErased hw.erased) (by
        rw [hw.state]; exact ho.range)
      have herased : symbolErased s4 = symbolErased (takeCommand s) := by
        refine (symbolErased_of_encoder hw.erased).trans ((symbolErased_of_model (observed_erased _ _ _ _)).trans ?_)
        have e2 := symbolErased_of_decoder (h.flag.erased.trans h.eos.erased)
        by_cases hlt : s1.regs.rcBuffer.toNat < flagSplit s1.regs (choose (takeCommand s)).prob
        · rw [(h.hit hlt).2]; exact e2
        · obtain ⟨-, u, hu, -, hok⟩ := h.literal (Nat.le_of_not_lt hlt)
          exact (symbolErased_of_model hok.erased).trans ((symbolErased_of_decoder hu.erased).trans e2)
      have hpar : (symbolErased s4).params = (symbolErased (takeCommand s)).params := by rw [herased]
      have hmode : (symbolErased s4).regs.mode = (symbolErased (takeCommand s)).regs.mode := by rw [herased]
      change s4.regs.mode = s.regs.mode at hmode
      refine ⟨hpar, settledOk_streaming (h4.of_same ⟨rfl, rfl, rfl, rfl, rfl, rfl, rfl⟩ rfl h4.range) fun hm' => ?_⟩
      change s4.regs.mode = .enc ∨ s4.regs.mode = .encEnding at hm'
      rw [hmode, hm] at hm'
      rcases hm' with h | h <;> cases h
  | error e t =>
    rw [hx] at hall
    obtain ⟨h1, h2, h3⟩ := hall
    have hpar : (symbolErased t).params = (symbolErased (takeCommand s)).params := by rw [h1]
    refine ⟨hpar, fun f hf => ?_, fun c hc => .inl ?_⟩
    · subst hf; simp at h2
    · subst hc
      simp only [reduceCtorEq, Abort.raise.injEq, false_or] at h2
      rcases h2 with rfl | rfl | rfl <;> rfl

end Sys2Proof.Machine
end

