-- ==== Sys2Proof/Laws/Message.lean ====
section
/-! SUPPORT. A message, symbol by symbol (spec/44_symbol_step.md R245): what ENC_SYM, ENC_END and the DEC_SYM that mirrors each do to the
code value, the stream and the models, and the same for a run of symbols. -/

namespace Sys2Proof.Machine

/-- An encode session that goes on. -/
structure EncSession (s : State) : Prop where
  mode : s.regs.mode = .enc
  ready : SymbolReady s
  coder : CoderInv s.regs
  accepts : acceptsAll s.outPort

/-- A decode session that goes on. -/
structure DecSession (s : State) : Prop where
  mode : s.regs.mode = .dec
  ready : SymbolReady s
  accepts : acceptsAll s.outPort

/-- The bytes to come below the first `n`. -/
theorem streamValue_split (s d : State) {n k : Nat} (hg : givesBytes d.inPort (n + k)) :
    ∃ L, L < 256 ^ k ∧ streamValue s d (n + k) = streamValue s d n * 256 ^ k + L ∧
      comingBytes d.inPort (n + k) = comingBytes d.inPort n ++ ((d.inPort.answers.drop n).take k).filterMap answerByte ∧
      L = bytesValue (((d.inPort.answers.drop n).take k).filterMap answerByte) := by
  have hc : comingBytes d.inPort (n + k) = comingBytes d.inPort n ++ ((d.inPort.answers.drop n).take k).filterMap answerByte := by
    unfold comingBytes
    rw [← List.filterMap_append, List.take_add]
  have hl : (((d.inPort.answers.drop n).take k).filterMap answerByte).length = k := by
    have h1 := comingBytes_length hg
    rw [hc, List.length_append, comingBytes_length (hg.mono (Nat.le_add_right _ _))] at h1
    omega
  refine ⟨_, by have := bytesValue_lt (((d.inPort.answers.drop n).take k).filterMap answerByte); rwa [hl] at this, ?_, hc, rfl⟩
  unfold streamValue
  rw [hc, bytesValue_append, hl, pow_add]
  ring

/-- A number inside an interval `k` bytes below is inside it without them. -/
theorem inside_trunc {t s d : State} {n k : Nat} (hg : givesBytes d.inPort (n + k)) (hi : Inside t (streamValue s d (n + k)) k) :
    Inside t (streamValue s d n) 0 := by
  obtain ⟨L, hL, he, -⟩ := streamValue_split s d hg
  unfold Inside at *
  rw [he] at hi
  generalize streamValue s d n = y at *
  generalize 2 * codeValue t = a at *
  generalize hb : 2 * (codeValue t + t.regs.rcRange.toNat) = b at *
  obtain ⟨h1, h2⟩ := hi
  simp only [pow_zero, mul_one]
  constructor
  · by_contra h
    have : (y + 1) * 256 ^ k ≤ a * 256 ^ k := Nat.mul_le_mul_right _ (by omega)
    have : (y + 1) * 256 ^ k = y * 256 ^ k + 256 ^ k := by ring
    omega
  · by_contra h
    have : b * 256 ^ k ≤ y * 256 ^ k := Nat.mul_le_mul_right _ (by omega)
    omega

/-- ENC_SYM in a session that goes on retires (R240). -/
theorem exec_encSym {s : State} (b : Byte) (h : EncSession s) (hf : s.regs.ffrun.toNat + 9 < 2 ^ 32) :
    ∃ s1 s2 s3, SymbolEncoded (takeCommand s) b s1 s2 s3 ∧
      exec (.encSym b.toNat) s = .next (retire (observed (predictMember .lo (takeCommand s)) (predictMember .hi (takeCommand s)) b s3)) := by
  have hr : SymbolReady (takeCommand s) := h.ready.of_same ⟨rfl, rfl, rfl, rfl, rfl, rfl, rfl⟩ rfl h.ready.range
  obtain ⟨_, t, hrun, s1, s2, s3, he, ht⟩ := (encodeSymbol_spec b hr).completes (by
    rintro e t - ⟨-, ⟨-, h1⟩ | ⟨-, h1⟩ | ⟨-, h1⟩⟩
    · exact h1 h.accepts
    · change 2 ^ 32 ≤ s.regs.ffrun.toNat + 9 at h1; omega
    · exact h1 (coderInv_take h.coder).mid)
  refine ⟨s1, s2, s3, he, ?_⟩
  rw [exec_eq, executeCommand_runs (.inl (by rw [h.mode]; simp)) (by simp [legal, h.mode]) rfl]
  have hb : ruleOf (.encSym b.toNat) (takeCommand s) = encodeSymbol b (takeCommand s) := by
    simp [ruleOf]
  rw [hb, hrun, ht]
  rfl


/-- What the literal's learning does not touch of the coder -/
theorem sameCoder_of_modelErased {s t : State} (h : modelErased t = modelErased s) :
    SameCoder s.regs t.regs ∧ t.outPort = s.outPort ∧ t.regs.outCount = s.regs.outCount := by
  have hregs : (modelErased t).regs = (modelErased s).regs := by rw [h]
  simp only [modelErased, Regs.mk.injEq] at hregs
  refine ⟨⟨?_, ?_, ?_, ?_, ?_, ?_⟩, outPort_of_modelErased h, ?_⟩ <;> simp only [hregs]

theorem SameCoder.value {s t : State} (h : SameCoder s.regs t.regs) (ho : t.outPort.taken = s.outPort.taken) :
    shiftedOut t = shiftedOut s ∧ codeValue t = codeValue s := by
  have h1 : shiftedOut t = shiftedOut s := by unfold shiftedOut; rw [ho, h.valid, h.delay, h.run]
  refine ⟨h1, ?_⟩
  unfold codeValue windowLow
  rw [h1, h.buffer, h.carry]

/-- What one symbol does to the encoder, in numbers. -/
structure Grew (s t : State) (n : Nat) : Prop where
  length : (shiftedOut t).length = (shiftedOut s).length + n
  run : t.regs.ffrun.toNat ≤ s.regs.ffrun.toNat + n
  inside : ∀ y k, Inside t y k → Inside s y (n + k)
  coder : CoderInv s.regs → CoderInv t.regs
  accepts : acceptsAll s.outPort → acceptsAll t.outPort
  written : ∃ bs, t.outPort.taken = s.outPort.taken ++ bs ∧ t.regs.outCount = s.regs.outCount + BitVec.ofNat 64 bs.length

theorem Grew.trans {s t u : State} {m n : Nat} (h : Grew s t m) (h' : Grew t u n) : Grew s u (m + n) := by
  obtain ⟨as, ha, ca⟩ := h.written
  obtain ⟨bs, hb, cb⟩ := h'.written
  exact ⟨by rw [h'.length, h.length]; omega, by have := h.run; have := h'.run; omega,
    fun y k hi => by rw [Nat.add_assoc]; exact h.inside _ _ (h'.inside _ _ hi), h'.coder ∘ h.coder, h'.accepts ∘ h.accepts,
    as ++ bs, by rw [hb, ha, List.append_assoc], by rw [cb, ca, List.length_append, BitVec.ofNat_add, BitVec.add_assoc]⟩

theorem Encoded.grew {s t : State} {v n : Nat} (h : Encoded s t v n) (hle : v + n ≤ s.regs.rcRange.toNat) : Grew s t (normShifts n) :=
  ⟨h.length, h.run, fun _ _ => h.inside_before hle, h.inv, h.accepts, h.sent.written⟩

theorem grew_same {s t : State} (h : SameCoder s.regs t.regs) (ho : t.outPort = s.outPort) (hc : t.regs.outCount = s.regs.outCount) :
    Grew s t 0 := by
  obtain ⟨h1, h2⟩ := h.value (by rw [ho])
  refine ⟨by rw [h1]; rfl, by rw [h.run]; rfl, fun y k hi => ?_, h.inv, fun ha => by rw [ho]; exact ha, [], by simp [ho], by simp [hc]⟩
  unfold Inside at *
  rw [h2, h.range] at hi
  simpa using hi

/-- Facts on the state after the encoder's symbol -/
theorem encoded_facts {s s1 s2 s3 : State} {b : Byte} (hr : SymbolReady s) (he : SymbolEncoded s b s1 s2 s3) :
    ∃ n, n ≤ 9 ∧ Grew s s3 n := by
  have hp := hr.prob
  have hr0 := hr.range
  have hle1 : encEosLow s.regs false + encEosRange s.regs false ≤ s.regs.rcRange.toNat := by simp [encEosLow, encEosRange]
  obtain ⟨hpos2, hle2⟩ := encFlagRange_pos (m := b == (choose s).symbol) he.ready1.range (show 1 ≤ (choose s).prob by omega) (by omega)
  have g := (he.eos.grew hle1).trans (he.flag.grew hle2)
  have k1 := normShifts_le (encEosRange s.regs false)
  have k2 := normShifts_le (encFlagRange s1.regs (choose s).prob (b == (choose s).symbol))
  by_cases hb : b = (choose s).symbol
  · have h32 := he.hit hb
    subst h32
    exact ⟨_, by omega, g⟩
  · obtain ⟨u, hu, hue, hl, hok⟩ := he.literal hb
    have hne : b.toNat ≠ (choose s).symbol.toNat := fun h => hb (BitVec.eq_of_toNat_eq h)
    obtain ⟨hpos3, hle3⟩ := he.ready2.lit.interval (choose s).symbol.isLt b.isLt hne
    obtain ⟨m1, m2, m3⟩ := sameCoder_of_modelErased hok.erased
    have k3 := normShifts_le (litWidth s2 (choose s).symbol.toNat b.toNat)
    exact ⟨_, by omega, (g.trans (hu.grew hle3)).trans (grew_same m1 m2 m3)⟩

/-- One symbol, on both sides. -/
theorem symbol_step {s : State} (b : Byte) (h : EncSession s) (hf : s.regs.ffrun.toNat + 9 < 2 ^ 32) :
    ∃ t n, exec (.encSym b.toNat) s = .next t ∧ t.stall = none ∧ EncSession t ∧ n ≤ 9 ∧ Grew s t n ∧
      ∀ d k, DecSession d → SameModel s d → s.regs.rcRange = d.regs.rcRange → givesBytes d.inPort (n + k) →
        Inside t (streamValue s d (n + k)) k →
        ∃ d', exec .decSym d = .next d' ∧ d'.stall = none ∧ DecSession d' ∧ SameModel t d' ∧ t.regs.rcRange = d'.regs.rcRange ∧
          givesBytes d'.inPort k ∧ d'.outPort.taken = d.outPort.taken ++ [b] ∧ d'.inPort.answers = d.inPort.answers.drop n ∧
          d'.regs.inCount = d.regs.inCount + BitVec.ofNat 64 n ∧ streamValue t d' k = streamValue s d (n + k) := by
  obtain ⟨s1, s2, s3, he, hx⟩ := exec_encSym b h hf
  have hr : SymbolReady (takeCommand s) := h.ready.of_same ⟨rfl, rfl, rfl, rfl, rfl, rfl, rfl⟩ rfl h.ready.range
  obtain ⟨n, hn, hg⟩ := encoded_facts hr he
  have hobs := observed_erased (predictMember .lo (takeCommand s)) (predictMember .hi (takeCommand s)) b s3
  obtain ⟨o1, o2, o3⟩ := sameCoder_of_modelErased hobs
  have hg' : Grew s (retire (observed (predictMember .lo (takeCommand s)) (predictMember .hi (takeCommand s)) b s3)) n := by
    have g1 : Grew s (takeCommand s) 0 := by
      refine ⟨rfl, le_rfl, fun y k hi => by rw [Nat.zero_add]; exact hi, coderInv_take, id, [], by simp [takeCommand]⟩
    have g2 := (g1.trans hg).trans (grew_same o1 o2 o3)
    generalize observed (predictMember .lo (takeCommand s)) (predictMember .hi (takeCommand s)) b s3 = T at *
    have g3 : Grew T (retire T) 0 := by
      refine ⟨rfl, le_rfl, fun y k hi => by rw [Nat.zero_add]; exact hi, fun hc => ⟨hc.range, hc.window, hc.delayed⟩, id, [], by simp [retire, endCommand]⟩
    have := g2.trans g3
    simpa using this
  refine ⟨_, n, hx, rfl, ⟨?_, ?_, hg'.coder h.coder, hg'.accepts h.accepts⟩, hn, hg', ?_⟩
  · show (observed (predictMember .lo (takeCommand s)) (predictMember .hi (takeCommand s)) b s3).regs.mode = _
    rw [mode_of_modelErased hobs]
    have m2 : s2.regs.mode = .enc := by
      rw [mode_of_encoderErased he.flagErased, mode_of_encoderErased he.eosErased]; exact h.mode
    by_cases hb : b = (choose (takeCommand s)).symbol
    · rw [he.hit hb]; exact m2
    · obtain ⟨u, hu, hue, hl, hok⟩ := he.literal hb
      rw [mode_of_modelErased hok.erased, mode_of_encoderErased hue]; exact m2
  · exact (he.ready3.observed).of_same ⟨rfl, rfl, rfl, rfl, rfl, rfl, rfl⟩ rfl he.ready3.observed.range
  · intro d k hd hsm hrr hgv hi
    have hrd : SymbolReady (takeCommand d) := hd.ready.of_same ⟨rfl, rfl, rfl, rfl, rfl, rfl, rfl⟩ rfl hd.ready.range
    have hsm' : SameModel (takeCommand s) (takeCommand d) :=
      ⟨hsm.params, hsm.tables, hsm.scfg, hsm.context, hsm.histLo, hsm.histHi, hsm.cost⟩
    have hi0 : Inside (observed (predictMember .lo (takeCommand s)) (predictMember .hi (takeCommand s)) b s3) (streamValue s d n) 0 :=
      inside_trunc hgv hi
    have hi3 : Inside s3 (streamValue (takeCommand s) (takeCommand d) n) 0 := by
      have := (grew_same o1 o2 o3).inside _ _ hi0
      exact this
    have hlen : (shiftedOut s3).length = (shiftedOut (takeCommand s)).length + n := hg.length
    obtain ⟨d1, d3, e1, e2, e3, e4, e5, e6, e7, e8, e9, e10, e11⟩ :=
      symbol_mirror hr hrd hsm' hrr he hlen (show givesBytes (takeCommand d).inPort n from hgv.mono (Nat.le_add_right _ _)) hi3
    have hsd1 : SameModel (takeCommand d) d1 := by
      have := (decEos_spec (takeCommand d) hrd.range).of_ok e1
      exact sameModel_of_decoderErased this.2.erased
    have hs1 : SameModel (takeCommand s) d1 := hsm'.trans hsd1
    have hob := e3.observe_run (b := b) (predictMember .lo (takeCommand s)) (predictMember .hi (takeCommand s))
    have hobs' := observed_erased (predictMember .lo (takeCommand s)) (predictMember .hi (takeCommand s)) b d3
    have hacc : acceptsAll (observed (predictMember .lo (takeCommand s)) (predictMember .hi (takeCommand s)) b d3).outPort := by
      rw [outPort_of_modelErased hobs', e8]; exact hd.accepts
    obtain ⟨_, s4, hw, hwr⟩ := (outWrite_wrote b _).completes (fun e t _ hf => hf.refused.2 hacc)
    have hrun : decodeSymbol (takeCommand d) = .ok () { s4 with regs := { s4.regs with result := BitVec.ofNat 32 b.toNat } } := by
      unfold decodeSymbol
      rw [bind_of_ok e1]
      simp only [Bool.false_eq_true, if_false]
      rw [bind_of_ok (get_run d1), ← hs1.choose, bind_of_ok e2, ← hs1.predictMember, ← hs1.predictMember, bind_of_ok hob, bind_of_ok hw]
      rfl
    have hT : SameModel (observed (predictMember .lo (takeCommand s)) (predictMember .hi (takeCommand s)) b s3)
        (observed (predictMember .lo (takeCommand s)) (predictMember .hi (takeCommand s)) b d3) :=
      SameModel.observed (he.ready3.observe_run _ _) hob e4
    have h4 : SameModel (observed (predictMember .lo (takeCommand s)) (predictMember .hi (takeCommand s)) b d3) s4 :=
      sameModel_of_encoderErased hwr.erased
    have hm4 := hT.trans h4
    have hro := e3.observed (lo := predictMember .lo (takeCommand s)) (hi := predictMember .hi (takeCommand s)) (b := b)
    have hr4 : SymbolReady s4 := hro.of_same h4 (tablesValid_of_encoderErased hwr.erased) (by rw [hwr.state]; exact hro.range)
    obtain ⟨q1, -, -⟩ := sameCoder_of_modelErased hobs'
    have hrange4 : s4.regs.rcRange = d3.regs.rcRange := by rw [hwr.state]; exact q1.range
    have hin4 : s4.inPort = d3.inPort := by
      rw [hwr.state]
      show (observed _ _ _ _).inPort = _
      exact inPort_of_modelErased hobs'
    have hcnt4 : s4.regs.inCount = d3.regs.inCount := by
      rw [hwr.state]
      show (observed _ _ _ _).regs.inCount = _
      have : (modelErased (observed (predictMember .lo (takeCommand s)) (predictMember .hi (takeCommand s)) b d3)).regs = (modelErased d3).regs := by
        rw [hobs']
      simp only [modelErased, Regs.mk.injEq] at this
      simp only [this]
    have hmode4 : s4.regs.mode = .dec := by
      rw [mode_of_encoderErased hwr.erased, mode_of_modelErased hobs']
      have : (symbolErased d3).regs.mode = (symbolErased (takeCommand d)).regs.mode := by rw [e7]
      exact this.trans hd.mode
    have hwin4 : decoderWindow s4.regs = decoderWindow d3.regs := by
      rw [hwr.state]
      show decoderWindow (observed _ _ _ _).regs = _
      have : (modelErased (observed (predictMember .lo (takeCommand s)) (predictMember .hi (takeCommand s)) b d3)).regs = (modelErased d3).regs := by
        rw [hobs']
      simp only [modelErased, Regs.mk.injEq] at this
      unfold decoderWindow
      simp only [this]
    refine ⟨retire { s4 with regs := { s4.regs with result := BitVec.ofNat 32 b.toNat } }, ?_, rfl, ⟨hmode4, ?_, ?_⟩, ?_, ?_, ?_, ?_, ?_, ?_, ?_⟩
    · rw [exec_eq, executeCommand_runs (.inl (by rw [hd.mode]; simp)) (by simp [legal, hd.mode]) rfl]
      show concludeCommand _ _ (decodeSymbol (takeCommand d)) = _
      rw [hrun]
      rfl
    · exact hr4.of_same ⟨rfl, rfl, rfl, rfl, rfl, rfl, rfl⟩ rfl hr4.range
    · exact hwr.accepts hacc
    · exact ⟨hm4.params, hm4.tables, hm4.scfg, hm4.context, hm4.histLo, hm4.histHi, hm4.cost⟩
    · show (observed _ _ _ _).regs.rcRange = s4.regs.rcRange
      rw [o1.range, hrange4, e5]
    · show givesBytes s4.inPort k
      rw [hin4]
      exact (e11 k hgv).1
    · show s4.outPort.taken = _
      rw [hwr.taken, outPort_of_modelErased hobs', e8]
      rfl
    · show s4.inPort.answers = _
      rw [hin4, e9]; rfl
    · show s4.regs.inCount = _
      rw [hcnt4, e10]; rfl
    · obtain ⟨L, hL, hsv, hcb, hLv⟩ := streamValue_split s d hgv
      rw [hsv]
      have hcb' := (e11 k hgv).2
      have hrest : comingBytes d3.inPort k = ((d.inPort.answers.drop n).take k).filterMap answerByte := by
        have := hcb.symm.trans hcb'
        exact (List.append_cancel_left this).symm
      have h0 : streamValue s3 d3 0 = streamValue s d n := e6
      rw [← h0]
      have hcv : codeValue (retire (observed (predictMember .lo (takeCommand s)) (predictMember .hi (takeCommand s)) b s3)) = codeValue s3 :=
        (o1.value (by rw [o2])).2
      unfold streamValue
      rw [hcv]
      show (2 * codeValue s3 + decoderWindow s4.regs) * 256 ^ k + bytesValue (comingBytes s4.inPort k) = _
      rw [hwin4, hin4, hrest, hLv]
      simp [comingBytes]


theorem runCommands_next {i : Instr} {is : List Instr} {s t : State} (h : exec i s = .next t) (hm : t.regs.mode ≠ .faulted)
    (hs : t.stall = none) : runCommands (i :: is) s = runCommands is t := by
  simp [runCommands, h, hm, hs]

theorem runCommands_append {is js : List Instr} {s t : State} (h : runCommands is s = some t) :
    runCommands (is ++ js) s = runCommands js t := by
  induction is generalizing s with
  | nil => cases h; rfl
  | cons i is ih =>
    simp only [List.cons_append, runCommands] at h ⊢
    split at h
    · split at h
      · cases h
      · next hn => rw [if_neg hn]; exact ih h
    · cases h
    · cases h

/-- The message's symbols, on both sides. -/
theorem message_steps (msg : List Byte) {s : State} (h : EncSession s) (hf : s.regs.ffrun.toNat + 9 * msg.length < 2 ^ 32) :
    ∃ t n, runCommands (msg.map fun b => .encSym b.toNat) s = some t ∧ EncSession t ∧ n ≤ 9 * msg.length ∧ Grew s t n ∧
      ∀ d k, DecSession d → SameModel s d → s.regs.rcRange = d.regs.rcRange → givesBytes d.inPort (n + k) →
        Inside t (streamValue s d (n + k)) k →
        ∃ d', runCommands (List.replicate msg.length .decSym) d = some d' ∧ DecSession d' ∧ SameModel t d' ∧
          t.regs.rcRange = d'.regs.rcRange ∧ givesBytes d'.inPort k ∧ d'.outPort.taken = d.outPort.taken ++ msg ∧
          d'.inPort.answers = d.inPort.answers.drop n ∧ d'.regs.inCount = d.regs.inCount + BitVec.ofNat 64 n ∧
          streamValue t d' k = streamValue s d (n + k) := by
  induction msg generalizing s with
  | nil =>
    refine ⟨s, 0, rfl, h, by simp, grew_same ⟨rfl, rfl, rfl, rfl, rfl, rfl⟩ rfl rfl, fun d k hd hm hr hg hi => ?_⟩
    refine ⟨d, rfl, hd, hm, hr, by simpa using hg, by simp, by simp, by simp, by rw [Nat.zero_add]⟩
  | cons b msg ih =>
    simp only [List.length_cons] at hf
    obtain ⟨t1, n1, hx, hst, ht1, hn1, g1, hmir⟩ := symbol_step b h (by omega)
    obtain ⟨t, n2, hrun, ht, hn2, g2, hmir2⟩ := ih ht1 (by have := g1.run; omega)
    refine ⟨t, n1 + n2, ?_, ht, by simp only [List.length_cons]; omega, g1.trans g2, fun d k hd hm hr hg hi => ?_⟩
    · rw [List.map_cons, runCommands_next hx (by rw [ht1.mode]; simp) hst]
      exact hrun
    · have hi1 : Inside t1 (streamValue s d (n1 + (n2 + k))) (n2 + k) := g2.inside _ _ (by rw [← Nat.add_assoc]; exact hi)
      obtain ⟨d1, e1, e2, e3, e4, e5, e6, e7, e8, e9, e10⟩ := hmir d (n2 + k) hd hm hr (by rw [← Nat.add_assoc]; exact hg) hi1
      obtain ⟨d', f1, f2, f3, f4, f5, f6, f7, f8, f9⟩ := hmir2 d1 k e3 e4 e5 e6 (by rw [e10, ← Nat.add_assoc]; exact hi)
      refine ⟨d', ?_, f2, f3, f4, f5, ?_, ?_, ?_, ?_⟩
      · rw [List.length_cons, List.replicate_succ, runCommands_next e1 (by rw [e3.mode]; simp) e2]
        exact f1
      · rw [f6, e7]; simp
      · rw [f7, e8, List.drop_drop]
      · rw [f8, e9, BitVec.add_assoc, ← BitVec.ofNat_add]
      · rw [f9, e10, Nat.add_assoc]

/-- ENC_END and the DEC_SYM that finds the end. -/
theorem end_step {s : State} (h : EncSession s) (hf : s.regs.ffrun.toNat + 8 < 2 ^ 32) :
    ∃ t bs, exec .encEnd s = .next t ∧ t.stall = none ∧ t.regs.mode = .done ∧ t.outPort.taken = s.outPort.taken ++ bs ∧
      t.regs.outCount = s.regs.outCount + BitVec.ofNat 64 bs.length ∧ t.outPort.taken.length = (shiftedOut s).length + 7 ∧
      bytesValue t.outPort.taken = (codeValue s + (s.regs.rcRange.toNat - 1)) * 256 ^ 3 * 2 := by
  have hr : SymbolReady (takeCommand s) := h.ready.of_same ⟨rfl, rfl, rfl, rfl, rfl, rfl, rfl⟩ rfl h.ready.range
  have hr0 := h.ready.range
  obtain ⟨_, u, hu, he, hue⟩ := (encEos_spec true (takeCommand s) hr.range).completes (by
    rintro e t - ⟨-, ⟨-, h1⟩ | ⟨-, h1⟩ | ⟨-, h1⟩⟩
    · exact h1 h.accepts
    · change 2 ^ 32 ≤ s.regs.ffrun.toNat + 3 at h1; omega
    · exact h1 (coderInv_take h.coder).mid)
  simp only [encEosLow, encEosRange, if_true] at he
  have hrun := he.run
  have hsh : normShifts 1 = 3 := by decide
  rw [hsh] at hrun
  change _ ≤ s.regs.ffrun.toNat + 3 at hrun
  obtain ⟨_, t, ht, hfl⟩ := (flushCoder_spec u).completes (by
    rintro e t - ⟨-, ⟨-, h1⟩ | ⟨-, h1⟩ | ⟨-, h1⟩⟩
    · exact h1 (he.accepts h.accepts)
    · omega
    · exact h1 (he.inv (coderInv_take h.coder)).mid)
  obtain ⟨as, ha, ca⟩ := he.sent.written
  obtain ⟨bs, hb, cb⟩ := hfl.sent.written
  refine ⟨retire { t with regs := { t.regs with mode := .done, irqPend := t.regs.irqPend ||| 2#2 } }, as ++ bs, ?_, rfl, rfl, ?_, ?_, ?_, ?_⟩
  · rw [exec_eq, executeCommand_runs (.inl (by rw [h.mode]; simp)) (by simp [legal, h.mode]) rfl]
    have : ruleOf .encEnd (takeCommand s) = .ok () { t with regs := { t.regs with mode := .done, irqPend := t.regs.irqPend ||| 2#2 } } := by
      show (encEos true >>= fun _ => flushCoder >>= fun _ => enterDone) (takeCommand s) = _
      rw [bind_of_ok hu, bind_of_ok ht]
      rfl
    rw [this]
    rfl
  · show t.outPort.taken = _
    rw [hb, ha, List.append_assoc]; rfl
  · show t.regs.outCount = _
    rw [cb, ca, List.length_append, BitVec.ofNat_add, BitVec.add_assoc]; rfl
  · show t.outPort.taken.length = _
    have := he.length
    rw [hsh] at this
    rw [hfl.length, this]; rfl
  · show bytesValue t.outPort.taken = _
    have := he.value
    rw [hsh] at this
    rw [hfl.value, this]; rfl

/-- DEC_SYM where the stream spells the end (R241). -/
theorem dec_end {d : State} (h : DecSession d) (hg : givesBytes d.inPort 3) (hw : d.regs.rcRange.toNat - 1 ≤ d.regs.rcBuffer.toNat) :
    ∃ u, exec .decSym d = .next u ∧ u.stall = none ∧ u.regs.mode = .done ∧ u.regs.result = 0x100#32 ∧ u.outPort.taken = d.outPort.taken ∧
      u.inPort.answers = d.inPort.answers.drop 3 ∧ u.regs.inCount = d.regs.inCount + 3#64 := by
  have hr : SymbolReady (takeCommand d) := h.ready.of_same ⟨rfl, rfl, rfl, rfl, rfl, rfl, rfl⟩ rfl h.ready.range
  have hn : ¬(takeCommand d).regs.rcBuffer.toNat < (takeCommand d).regs.rcRange.toNat - 1 := Nat.not_lt.mpr hw
  obtain ⟨last, u, hu, hl, ht⟩ := (decEos_spec (takeCommand d) hr.range).completes (by
    intro e t _ hf
    have h1 := hf.short
    rw [decEosRange, if_neg hn] at h1
    exact h1 hg)
  rw [decide_eq_false hn] at hl
  rw [decEosLow, decEosRange, if_neg hn, if_neg hn] at ht
  have hsh : normShifts 1 = 3 := by decide
  have hd := ht.decoded (by rw [hsh]; exact hg)
  refine ⟨retire { u with regs := { u.regs with result := BitVec.ofNat 32 endOfStreamResult, mode := .done, irqPend := u.regs.irqPend ||| 2#2 } },
    ?_, rfl, rfl, rfl, ?_, ?_, ?_⟩
  · rw [exec_eq, executeCommand_runs (.inl (by rw [h.mode]; simp)) (by simp [legal, h.mode]) rfl]
    have : ruleOf .decSym (takeCommand d) = .ok () { u with
        regs := { u.regs with result := BitVec.ofNat 32 endOfStreamResult, mode := .done, irqPend := u.regs.irqPend ||| 2#2 } } := by
      show decodeSymbol (takeCommand d) = _
      unfold decodeSymbol
      rw [bind_of_ok hu, hl]
      rfl
    rw [this]
    rfl
  · show u.outPort.taken = _
    rw [outPort_of_decoderErased ht.erased]; rfl
  · show u.inPort.answers = _
    rw [hd.answers, hsh]; rfl
  · show u.regs.inCount = _
    rw [hd.count, hsh]; rfl

/-- INIT_ENC from a state in which a session can start (R117, R119). -/
theorem enc_start {s : State} (h : CanStart s) :
    ∃ t, exec .initEnc s = .next t ∧ t.stall = none ∧ EncSession t ∧ t.outPort.taken = s.outPort.taken ∧ t.regs.outCount = 0#64 ∧
      t.regs.ffrun = 0#32 ∧ t.regs.rcBuffer = 0#31 ∧ t.regs.rcRange = 0x7FFFFFFF#31 ∧ t.regs.carry = false ∧ t.regs.delayValid = false ∧
      t.tables = sessionStartTables ∧ t.regs.scfg = s.regs.config ∧ t.params = s.params ∧ t.regs.context = 0#64 ∧ t.regs.histLo = 0#4 ∧
      t.regs.histHi = 0#4 ∧ t.regs.cost = 0#32 := by
  have hmode : s.regs.mode ≠ .faulted := by rcases h.mode with h | h <;> rw [h] <;> simp
  have hi := sessionInit_cases (takeCommand s)
  have hc : cfgValid (takeCommand s).regs.config = true := h.config
  have hm : needWords (takeCommand s).regs.config ≤ (takeCommand s).params.tableMemWords.toNat := h.memory
  rcases hi with ⟨h1, -⟩ | ⟨-, h1, -⟩ | ⟨-, -, hrun⟩
  · rw [hc] at h1; cases h1
  · omega
  refine ⟨retire { sessionStarted (takeCommand s) with regs := { (sessionStarted (takeCommand s)).regs with mode := .enc, dir := false } }, ?_, rfl,
    ⟨rfl, ⟨sessionOk_start (c := s.regs.config) rfl rfl h.config rfl rfl, memoryWf_start _, h.log, by show 2 ^ 23 ≤ (0x7FFFFFFF#31).toNat; decide⟩, coderInv_start rfl rfl rfl rfl, h.accepts⟩,
    ?_, ?_, ?_, ?_, ?_, ?_, ?_, ?_, ?_, ?_, ?_, ?_, ?_, ?_⟩
  all_goals try rfl
  rw [exec_eq, executeCommand_runs (.inl hmode) (by rcases h.mode with h | h <;> simp [legal, betweenSessions, h]) rfl]
  show concludeCommand _ _ ((sessionInit >>= fun _ => modifyRegs fun r => { r with mode := .enc, dir := false }) (takeCommand s)) = _
  rw [bind_of_ok hrun]
  rfl

/-- INIT_DEC from such a state, over a stream of at least four bytes (R118, R119, R206). -/
theorem dec_start {s : State} (h : CanStart s) (bs : List Byte) (later : List InAnswer) (ha : s.inPort.answers = bs.map .byte ++ later)
    (hl : 4 ≤ bs.length) :
    ∃ t, exec .initDec s = .next t ∧ t.stall = none ∧ DecSession t ∧ t.outPort.taken = s.outPort.taken ∧ t.regs.inCount = 4#64 ∧
      t.inPort.answers = (bs.drop 4).map .byte ++ later ∧ t.inPort.ended = false ∧
      decoderWindow t.regs = bytesValue (bs.take 4) ∧ t.regs.rcRange = 0x7FFFFFFF#31 ∧
      t.tables = sessionStartTables ∧ t.regs.scfg = s.regs.config ∧ t.params = s.params ∧ t.regs.context = 0#64 ∧ t.regs.histLo = 0#4 ∧
      t.regs.histHi = 0#4 ∧ t.regs.cost = 0#32 := by
  have hmode : s.regs.mode ≠ .faulted := by rcases h.mode with h | h <;> rw [h] <;> simp
  have hi := sessionInit_cases (takeCommand s)
  have hc : cfgValid (takeCommand s).regs.config = true := h.config
  have hm : needWords (takeCommand s).regs.config ≤ (takeCommand s).params.tableMemWords.toNat := h.memory
  rcases hi with ⟨h1, -⟩ | ⟨-, h1, -⟩ | ⟨-, -, hrun⟩
  · rw [hc] at h1; cases h1
  · omega
  obtain ⟨a, b, c, d, bs', rfl⟩ : ∃ a b c d bs', bs = a :: b :: c :: d :: bs' := by
    match bs, hl with
    | a :: b :: c :: d :: bs', _ => exact ⟨a, b, c, d, bs', rfl⟩
  have hg : givesBytes (sessionStarted (takeCommand s)).inPort 4 := by
    refine ⟨rfl, ?_, ?_⟩ <;> simp [sessionStarted, takeCommand, ha]
  obtain ⟨_, t, hp, n1, n2, n3, n4, ht, hb, hgn⟩ := (decPrime_spec (sessionStarted (takeCommand s))).completes fun e t _ hf => hf.short hg
  obtain ⟨hb, han⟩ := hb hg
  have hb' : [a, b, c, d] = [n1, n2, n3, n4] := by
    rw [← hb]; simp [comingBytes, sessionStarted, takeCommand, ha, answerByte]
  simp only [List.cons.injEq, and_true] at hb'
  obtain ⟨rfl, rfl, rfl, rfl⟩ := hb'
  have hend : t.inPort.ended = false := (hgn 0 hg).1
  refine ⟨retire { t with regs := { t.regs with mode := .dec, dir := true } }, ?_, rfl,
    ⟨rfl, ⟨sessionOk_start (c := s.regs.config) (by rw [ht]; rfl) (by rw [ht]; rfl) h.config (by rw [ht]; rfl) (by rw [ht]; rfl), ?_, ?_, ?_⟩, ?_⟩,
    ?_, ?_, ?_, ?_, ?_, ?_, ?_, ?_, ?_, ?_, ?_, ?_, ?_⟩
  · rw [exec_eq, executeCommand_runs (.inl hmode) (by rcases h.mode with h | h <;> simp [legal, betweenSessions, h]) rfl]
    show concludeCommand _ _ ((sessionInit >>= fun _ => decPrime >>= fun _ => modifyRegs fun r => { r with mode := .dec, dir := true }) (takeCommand s)) = _
    rw [bind_of_ok hrun, bind_of_ok hp]
    rfl
  · show Memory.wf t.regs.scfg t.tables
    rw [ht]; exact memoryWf_start _
  · show log2Permitted t.params.log2Fix
    rw [ht]; exact h.log
  · show 2 ^ 23 ≤ t.regs.rcRange.toNat
    rw [show t.regs.rcRange = 0x7FFFFFFF#31 by rw [ht]; rfl]; decide
  · show acceptsAll t.outPort
    rw [ht]; exact h.accepts
  · show t.outPort.taken = _
    rw [ht]; rfl
  · show t.regs.inCount = _
    rw [ht]; rfl
  · show t.inPort.answers = _
    rw [han]; simp [sessionStarted, takeCommand, ha]
  · exact hend
  · show decoderWindow t.regs = _
    rw [ht]
    have e1 : (a.toNat <<< 23 ||| b.toNat <<< 15 ||| c.toNat <<< 7 ||| d.toNat >>> 1) =
        a.toNat * 2^23 + b.toNat * 2^15 + c.toNat*2^7 + d.toNat/2 := by
      have := a.isLt; have := b.isLt; have := c.isLt; have := d.isLt
      have hx : d.toNat >>> 1 = d.toNat / 2 := rfl
      have k1 : c.toNat <<< 7 ||| d.toNat >>> 1 = c.toNat * 2^7 + d.toNat / 2 := by
        rw [← Nat.shiftLeft_add_eq_or_of_lt (by omega), Nat.shiftLeft_eq, hx]
      have k2 : b.toNat <<< 15 ||| (c.toNat * 2^7 + d.toNat / 2) = b.toNat * 2^15 + (c.toNat * 2^7 + d.toNat / 2) := by
        rw [← Nat.shiftLeft_add_eq_or_of_lt (by omega), Nat.shiftLeft_eq]
      have k3 : a.toNat <<< 23 ||| (b.toNat * 2^15 + (c.toNat * 2^7 + d.toNat / 2)) = a.toNat * 2^23 + (b.toNat * 2^15 + (c.toNat * 2^7 + d.toNat / 2)) := by
        rw [← Nat.shiftLeft_add_eq_or_of_lt (by omega), Nat.shiftLeft_eq]
      rw [Nat.or_assoc, Nat.or_assoc, k1, k2, k3]; omega
    simp only [decoderWindow, e1, BitVec.toNat_ofNat, bytesValue, List.take, List.foldl]
    have := a.isLt; have := b.isLt; have := c.isLt; have := d.isLt
    omega
  all_goals first
    | (show t.regs.rcRange = _; rw [ht]; rfl)
    | (show t.regs.scfg = _; rw [ht]; rfl)
    | (show t.regs.context = _; rw [ht]; rfl)
    | (show t.regs.histLo = _; rw [ht]; rfl)
    | (show t.regs.histHi = _; rw [ht]; rfl)
    | (show t.regs.cost = _; rw [ht]; rfl)
    | (show t.tables = _; rw [ht]; rfl)
    | (show t.params = _; rw [ht]; rfl)

end Sys2Proof.Machine
end

