-- ==== Sys2Proof/Laws/PerInstr.lean ====
section
/-! SUPPORT. A law for each command: its word stands in its own row of the opcode map (R93, R94). -/

namespace Sys2Proof.Laws.RowMatches

/-- The word of a well-formed command is accepted by the row of its mnemonic: the pattern is there and no reserved bit is set (R94, R97). -/
def Statement (i : Instr) : Prop :=
  i.wellFormed = true → ∃ r ∈ opcodeMap, r.mnemonic = rowMnemonic i ∧ r.accepts (encode i) = true

/-- The bits above a field are 0. -/
theorem bit_of_fits {v n : Nat} (h : fits n v = true) : ∀ k, n ≤ k → v.testBit k = false := fun _ hk =>
  Nat.testBit_eq_false_of_lt (lt_of_lt_of_le (of_decide_eq_true h) (Nat.pow_le_pow_right (by omega) hk))

/-- A command of one row, shown to be accepted by it. -/
theorem of_row {i : Instr} (r : Row) (hm : r ∈ opcodeMap) (hn : r.mnemonic = rowMnemonic i)
    (h : i.wellFormed = true → encode i &&& r.mask = r.pattern) : Statement i :=
  fun hw => ⟨r, hm, hn, by unfold Row.accepts; rw [h hw]; exact beq_self_eq_true _⟩

/-- The word of fields under a row's mask: bit by bit, the pattern. -/
theorem and_mask {v : Nat} {mask pattern : Word64}
    (h : ∀ k, k < 64 → (v.testBit k && mask.getLsbD k) = pattern.getLsbD k) : BitVec.ofNat 64 v &&& mask = pattern := by
  refine BitVec.eq_of_getLsbD_eq fun k hk => ?_
  rw [BitVec.getLsbD_and, BitVec.getLsbD_ofNat, ← h k hk]
  simp [hk]

/-- Every row is in the map. -/
theorem row_mem {r : Row} (h : r ∈ controlRows ∨ r ∈ symbolRows ∨ r ∈ rawCoderRows) : r ∈ opcodeMap := by
  unfold opcodeMap
  rw [List.mem_append, List.mem_append]
  tauto

theorem nop : Statement .nop :=
  of_row controlRows[0] (row_mem (.inl (List.getElem_mem _))) rfl fun _ => rfl

theorem setcfgHi (imm32 : Nat) : Statement (.setcfgHi imm32) :=
  of_row controlRows[1] (row_mem (.inl (List.getElem_mem _))) rfl fun hw => and_mask fun k hk => by
    have h0 := bit_of_fits (n := 32) (v := imm32) hw
    interval_cases k <;> simp [controlRows, Nat.testBit_or, h0] <;> decide

theorem setcfgLo (imm32 : Nat) : Statement (.setcfgLo imm32) :=
  of_row controlRows[2] (row_mem (.inl (List.getElem_mem _))) rfl fun hw => and_mask fun k hk => by
    have h0 := bit_of_fits (n := 32) (v := imm32) hw
    interval_cases k <;> simp [controlRows, Nat.testBit_or, h0] <;> decide

theorem setirq (en clr : Nat) : Statement (.setirq en clr) :=
  of_row controlRows[3] (row_mem (.inl (List.getElem_mem _))) rfl fun hw => and_mask fun k hk => by
    simp only [Instr.wellFormed, Bool.and_eq_true] at hw
    have h0 := bit_of_fits (n := 2) (v := en) hw.1
    have h1 := bit_of_fits (n := 2) (v := clr) hw.2
    interval_cases k <;> simp [controlRows, Nat.testBit_or, Nat.testBit_shiftLeft, h0, h1] <;> decide

theorem initEnc : Statement .initEnc :=
  of_row controlRows[4] (row_mem (.inl (List.getElem_mem _))) rfl fun _ => rfl

theorem initDec : Statement .initDec :=
  of_row controlRows[5] (row_mem (.inl (List.getElem_mem _))) rfl fun _ => rfl

theorem tblRead (tid idx : Nat) : Statement (.tblRead tid idx) :=
  of_row controlRows[6] (row_mem (.inl (List.getElem_mem _))) rfl fun hw => and_mask fun k hk => by
    simp only [Instr.wellFormed, Bool.and_eq_true] at hw
    have h0 := bit_of_fits (n := 4) (v := tid) hw.1
    have h1 := bit_of_fits (n := 32) (v := idx) hw.2
    interval_cases k <;> simp [controlRows, Nat.testBit_or, Nat.testBit_shiftLeft, h0, h1] <;> decide

theorem decCheckEnd : Statement .decCheckEnd :=
  of_row controlRows[7] (row_mem (.inl (List.getElem_mem _))) rfl fun _ => rfl

theorem encSym (byte : Nat) : Statement (.encSym byte) :=
  of_row symbolRows[0] (row_mem (.inr <| .inl (List.getElem_mem _))) rfl fun hw => and_mask fun k hk => by
    have h0 := bit_of_fits (n := 8) (v := byte) hw
    interval_cases k <;> simp [symbolRows, Nat.testBit_or, h0] <;> decide

theorem encEnd : Statement .encEnd :=
  of_row symbolRows[1] (row_mem (.inr <| .inl (List.getElem_mem _))) rfl fun _ => rfl

theorem decSym : Statement .decSym :=
  of_row symbolRows[2] (row_mem (.inr <| .inl (List.getElem_mem _))) rfl fun _ => rfl

theorem rcEncBit (bit p : Nat) : Statement (.rcEncBit bit p) :=
  of_row rawCoderRows[0] (row_mem (.inr <| .inr (List.getElem_mem _))) rfl fun hw => and_mask fun k hk => by
    simp only [Instr.wellFormed, Bool.and_eq_true] at hw
    have h0 := bit_of_fits (n := 1) (v := bit) hw.1
    have h1 := bit_of_fits (n := 15) (v := p) hw.2
    interval_cases k <;> simp [rawCoderRows, Nat.testBit_or, Nat.testBit_shiftLeft, h0, h1] <;> decide

theorem rcDecBit (p : Nat) : Statement (.rcDecBit p) :=
  of_row rawCoderRows[1] (row_mem (.inr <| .inr (List.getElem_mem _))) rfl fun hw => and_mask fun k hk => by
    have h0 := bit_of_fits (n := 15) (v := p) hw
    interval_cases k <;> simp [rawCoderRows, Nat.testBit_or, h0] <;> decide

theorem rcEncEos (last : Nat) : Statement (.rcEncEos last) :=
  of_row rawCoderRows[2] (row_mem (.inr <| .inr (List.getElem_mem _))) rfl fun hw => and_mask fun k hk => by
    have h0 := bit_of_fits (n := 1) (v := last) hw
    interval_cases k <;> simp [rawCoderRows, Nat.testBit_or, h0] <;> decide

theorem rcDecEos : Statement .rcDecEos :=
  of_row rawCoderRows[3] (row_mem (.inr <| .inr (List.getElem_mem _))) rfl fun _ => rfl

theorem rcEncFreq (cum freq tot : Nat) : Statement (.rcEncFreq cum freq tot) :=
  of_row rawCoderRows[4] (row_mem (.inr <| .inr (List.getElem_mem _))) rfl fun hw => and_mask fun k hk => by
    simp only [Instr.wellFormed, Bool.and_eq_true] at hw
    have h0 := bit_of_fits (n := 16) (v := cum) hw.1.1
    have h1 := bit_of_fits (n := 16) (v := freq) hw.1.2
    have h2 := bit_of_fits (n := 16) (v := tot) hw.2
    interval_cases k <;> simp [rawCoderRows, Nat.testBit_or, Nat.testBit_shiftLeft, h0, h1, h2] <;> decide

theorem rcDecTarget (tot : Nat) : Statement (.rcDecTarget tot) :=
  of_row rawCoderRows[5] (row_mem (.inr <| .inr (List.getElem_mem _))) rfl fun hw => and_mask fun k hk => by
    have h0 := bit_of_fits (n := 16) (v := tot) hw
    interval_cases k <;> simp [rawCoderRows, Nat.testBit_or, h0] <;> decide

theorem rcDecNarrow (cum freq tot : Nat) : Statement (.rcDecNarrow cum freq tot) :=
  of_row rawCoderRows[6] (row_mem (.inr <| .inr (List.getElem_mem _))) rfl fun hw => and_mask fun k hk => by
    simp only [Instr.wellFormed, Bool.and_eq_true] at hw
    have h0 := bit_of_fits (n := 16) (v := cum) hw.1.1
    have h1 := bit_of_fits (n := 16) (v := freq) hw.1.2
    have h2 := bit_of_fits (n := 16) (v := tot) hw.2
    interval_cases k <;> simp [rawCoderRows, Nat.testBit_or, Nat.testBit_shiftLeft, h0, h1, h2] <;> decide

theorem rcFlush : Statement .rcFlush :=
  of_row rawCoderRows[7] (row_mem (.inr <| .inr (List.getElem_mem _))) rfl fun _ => rfl

end Sys2Proof.Laws.RowMatches
end

