-- ==== Sys2Proof/Laws/Traps.lean ====
section
/-! SUPPORT. Where a port or the run counter ends a command: from how its rule can stop to how the command ends (R79, R80, R202, R299). -/

namespace Sys2Proof.Machine

/-- An encoder that is ready goes out, and no byte finds its run at the bound. -/
theorem EncoderReady.goesOut {s : State} (h : EncoderReady s) (v : Nat) {k : Nat} (hk : k ≤ 16) : GoesOut s s v k :=
  ⟨fun j hj hf => by have := runFull_ge hf; have := h.run; omega, h.accepts.first _⟩

/-- A command that executes, and its rule raises: the fault, with the bytes gone out as they were. -/
theorem faultsWith_of {i : Instr} {s t : State} {c : Cause} {code : Byte} (hl : legal i s.regs.mode s.regs.dir = true)
    (hm : s.regs.mode ≠ .faulted) (ho : operandsInRange i = true) (h : ruleOf i (takeCommand s) = .error (.raise c) t)
    (hc : causeCode c = code) {holds : State → Prop} (hh : holds (takeFault i c t)) : faultsWith i s code holds :=
  ⟨takeFault i c t, by rw [exec_eq, executeCommand_runs (.inl hm) hl ho, h]; rfl, rfl, hc, hh⟩

/-- A command that executes, and its rule waits. -/
theorem waitsWith_of {i : Instr} {s t : State} (hl : legal i s.regs.mode s.regs.dir = true) (hm : s.regs.mode ≠ .faulted)
    (ho : operandsInRange i = true) (h : ruleOf i (takeCommand s) = .error .wait t) (hb : t.regs.busy = true)
    (hmode : t.regs.mode = s.regs.mode) {holds : State → Prop} (hh : holds (waitOnPort i s t)) : waitsWith i s holds :=
  ⟨waitOnPort i s t, by rw [exec_eq, executeCommand_runs (.inl hm) hl ho, h]; rfl, by rw [waitOnPort_stall]; simp, hb, hmode, hh⟩

/-- Where the command that began in `s` stops, its coder having added `v` in `u` and being to shift `k` bytes out. -/
structure StopsWithin (s u : State) (v k : Nat) (e : Abort) (t : State) : Prop where
  mode : t.regs.mode = s.regs.mode
  busy : t.regs.busy = true
  place : (∃ j < k, (∀ i ≤ j, ¬runFull u v i) ∧ ∃ n, s.outPort.taken.length + n < (outSideAfter u v (j + 1)).taken.length ∧
      acceptsFirst s.outPort n ∧ t.outPort.taken = (outSideAfter u v (j + 1)).taken.take (s.outPort.taken.length + n) ∧
      (e = .wait ∧ outAnswerAt s.outPort n = none ∨ e = .raise .ioFailure ∧ outAnswerAt s.outPort n = some .error)) ∨
    ∃ j < k, (∀ i < j, ¬runFull u v i) ∧ runFull u v j ∧ e = .raise .ffrunOverflow ∧ t.outPort.taken = (outSideAfter u v j).taken

theorem busy_of_encoderErased {s t : State} (h : encoderErased t = encoderErased s) : t.regs.busy = s.regs.busy := by
  have hr : (encoderErased t).regs.busy = (encoderErased s).regs.busy := by rw [h]
  exact hr

theorem sent_take (s : State) : Sent s (takeCommand s) :=
  ⟨[], by simp [takeCommand], by simp [takeCommand], fun _ h => absurd h (Nat.not_lt_zero _), fun k => by simp [takeCommand, outAnswerAt]⟩

/-- A procedure's stop, in the command that began in `s`. -/
theorem EncodeStops.within {s u t : State} {v k : Nat} {e : Abort} (h : EncodeStops u v k e t) (hs : Sent s u)
    (hm : u.regs.mode = s.regs.mode) (hb : u.regs.busy = true) (hc : CoderMid u.regs) : StopsWithin s u v k e t := by
  obtain ⟨he, h⟩ := h
  obtain ⟨hle, hacc, hans⟩ := hs.answers
  have hmode : t.regs.mode = u.regs.mode := mode_of_encoderErased he
  have hbusy : t.regs.busy = u.regs.busy := busy_of_encoderErased he
  refine ⟨hmode.trans hm, hbusy.trans hb, ?_⟩
  rcases h with ⟨j, hj, hi, n, hn, ha, ht, hc'⟩ | h | ⟨-, h⟩
  · have hl : u.outPort.taken.length + n = s.outPort.taken.length + (u.outPort.taken.length - s.outPort.taken.length + n) := by omega
    rw [hl] at hn ht
    rw [hans] at hc'
    exact .inl ⟨j, hj, hi, _, hn, hacc.append hans ha, ht, hc'⟩
  · exact .inr h
  · exact absurd hc h

/-- From how the rule of an encode command ends: every byte of the part goes out, or the part is where it stops. -/
theorem encoderTraps_of {i : Instr} {s u : State} {v k : Nat} (hl : legal i s.regs.mode s.regs.dir = true) (hm : s.regs.mode ≠ .faulted)
    (ho : operandsInRange i = true)
    (h : Ends (ruleOf i) (takeCommand s) (fun _ _ => GoesOut s u v k) (fun e t => GoesOut s u v k ∨ StopsWithin s u v k e t)) :
    EncoderTraps i s u v k := by
  have hout : ∀ n m, acceptsFirst s.outPort n → outAnswerAt s.outPort m ≠ some .accept → n ≤ m := fun n m ha hne => by
    by_contra hlt
    exact hne (ha m (by omega))
  unfold Ends at h
  -- a byte among the part's that the port does not accept
  have key : (∀ j < k, ¬runFull u v j) → ∀ n, s.outPort.taken.length + n < (outSideAfter u v k).taken.length →
      acceptsFirst s.outPort n → outAnswerAt s.outPort n ≠ some .accept → ∃ e t, ruleOf i (takeCommand s) = .error e t ∧
        t.regs.mode = s.regs.mode ∧ t.regs.busy = true ∧
        t.outPort.taken = (outSideAfter u v k).taken.take (s.outPort.taken.length + n) ∧
        (e = .wait ∧ outAnswerAt s.outPort n = none ∨ e = .raise .ioFailure ∧ outAnswerAt s.outPort n = some .error) := by
    intro hb n hn ha hne
    have hgo : ¬GoesOut s u v k := fun hg => hne (hg.accepted n (by omega))
    cases hx : ruleOf i (takeCommand s) with
    | ok a t => rw [hx] at h; exact absurd h hgo
    | error e t =>
      rw [hx] at h
      obtain ⟨h1, h2, ⟨j, hj, -, m, hm', hacc, ht, hcase⟩ | ⟨j, hj, -, hf, -⟩⟩ := h.resolve_left hgo
      · have hmn : m = n := by
          refine le_antisymm (hout m n hacc hne) (hout n m ha ?_)
          rcases hcase with ⟨-, h⟩ | ⟨-, h⟩ <;> rw [h] <;> simp
        subst hmn
        refine ⟨e, t, rfl, h1, h2, ?_, hcase⟩
        obtain ⟨rest, hrest⟩ := outSideAfter_taken u v (show j + 1 ≤ k by omega)
        rw [ht, ← hrest, List.take_append_of_le_length (by omega)]
      · exact absurd hf (hb j hj)
  refine ⟨fun hb n _ hn ha herr => ?_, fun hb n _ hn ha hnone => ?_, fun j hj hbefore hfull ha => ?_⟩
  · obtain ⟨e, t, hx, h1, h2, ht, ⟨-, h⟩ | ⟨rfl, -⟩⟩ := key hb n hn ha (by rw [herr]; simp)
    · rw [herr] at h; cases h
    · exact faultsWith_of hl hm ho hx rfl (by rw [← ht]; unfold takeFault; split <;> rfl)
  · obtain ⟨e, t, hx, h1, h2, ht, ⟨rfl, -⟩ | ⟨-, h⟩⟩ := key hb n hn ha (by rw [hnone]; simp)
    · exact waitsWith_of hl hm ho hx h2 h1 ht
    · rw [hnone] at h; cases h
  · have hgo : ¬GoesOut s u v k := fun hg => hg.bounded j hj hfull
    cases hx : ruleOf i (takeCommand s) with
    | ok a t => rw [hx] at h; exact absurd h hgo
    | error e t =>
      rw [hx] at h
      obtain ⟨-, -, ⟨j', hj', hbounded, m, hm', hacc, -, hcase⟩ | ⟨j', hj', hb', hf', rfl, ht⟩⟩ := h.resolve_left hgo
      · exfalso
        have hlt : j' < j := by
          by_contra hge
          exact hbounded j (by omega) hfull
        obtain ⟨rest, hrest⟩ := outSideAfter_taken u v (show j' + 1 ≤ j by omega)
        have hlen : (outSideAfter u v (j' + 1)).taken.length ≤ (outSideAfter u v j).taken.length := by
          rw [← hrest, List.length_append]; omega
        have hacc' := ha m (by omega)
        rcases hcase with ⟨-, h⟩ | ⟨-, h⟩ <;> rw [hacc'] at h <;> cases h
      · have hjj : j' = j := by
          by_contra hne
          rcases lt_or_gt_of_ne hne with hlt | hlt
          · exact hbefore j' hlt hf'
          · exact hb' j hlt hfull
        subst hjj
        exact faultsWith_of hl hm ho hx rfl (by rw [← ht]; unfold takeFault; split <;> rfl)

/-- The command's first part stands where the command began. -/
theorem GoesOut.of_take {s : State} {v k : Nat} (h : GoesOut s (takeCommand s) v k) : GoesOut s s v k := ⟨h.bounded, h.accepted⟩

theorem StopsWithin.of_take {s t : State} {v k : Nat} {e : Abort} (h : StopsWithin s (takeCommand s) v k e t) : StopsWithin s s v k e t :=
  ⟨h.mode, h.busy, h.place⟩

theorem Encoded.of_take {s t : State} {v r : Nat} (h : Encoded (takeCommand s) t v r) : Encoded s t v r :=
  ⟨h.range, h.buffer, h.value, h.length, fun hc => h.inv (coderInv_take hc), fun ha => h.accepts ha, h.run, h.side, h.bounded,
    (sent_take s).trans h.sent⟩

/-- A command whose whole output goes out does not stop. -/
theorem GoesOut.not_stops {s u t : State} {v k : Nat} {e : Abort} (hg : GoesOut s u v k) (h : StopsWithin s u v k e t) : False := by
  obtain ⟨-, -, ⟨j, hj, -, n, hn, -, -, hcase⟩ | ⟨j, hj, -, hf, -⟩⟩ := h
  · obtain ⟨rest, hrest⟩ := outSideAfter_taken u v (show j + 1 ≤ k by omega)
    have hlen : (outSideAfter u v (j + 1)).taken.length ≤ (outSideAfter u v k).taken.length := by
      rw [← hrest, List.length_append]; omega
    have := hg.accepted n (by omega)
    rcases hcase with ⟨-, h⟩ | ⟨-, h⟩ <;> rw [this] at h <;> cases h
  · exact hg.bounded j hj hf

/-- A part that went well has gone out. -/
theorem Encoded.goesOut {s u t : State} {v r : Nat} (h : Encoded u t v r) (hs : Sent s u) : GoesOut s u v (normShifts r) := by
  refine ⟨h.bounded, ?_⟩
  have h1 := (hs.trans h.sent).answers.2.1
  rw [← h.side]
  exact h1

/-- From how the rule of a decode command ends: it has its `k` bytes, or stops at one of them. -/
theorem decoderTraps_of {i : Instr} {s : State} {k : Nat} (hl : legal i s.regs.mode s.regs.dir = true) (hm : s.regs.mode ≠ .faulted)
    (ho : operandsInRange i = true)
    (h : Ends (ruleOf i) (takeCommand s) (fun _ _ => bytesFirst s.inPort k)
      (fun e t => bytesFirst s.inPort k ∨ ReadFails k (takeCommand s) e t)) : DecoderTraps i s k := by
  unfold Ends at h
  have key : ∀ n < k, bytesFirst s.inPort n → (∀ b, inAnswerAt s.inPort n ≠ some (.byte b)) →
      ∃ e t, ruleOf i (takeCommand s) = .error e t ∧ decoderErased t = decoderErased (takeCommand s) ∧
        (e = .wait ∧ inAnswerAt s.inPort n = none ∨ e = .raise .unexpectedEndOfInput ∧ inAnswerAt s.inPort n = some .endMark ∨
          e = .raise .ioFailure ∧ inAnswerAt s.inPort n = some .error) := by
    intro n hn hb hne
    have hnot : ¬bytesFirst s.inPort k := fun hk => by
      obtain ⟨b, hb⟩ := hk n hn
      exact hne b hb
    cases hx : ruleOf i (takeCommand s) with
    | ok a t => rw [hx] at h; exact absurd h hnot
    | error e t =>
      rw [hx] at h
      obtain ⟨he, m, hmk, hbm, hcase⟩ := h.resolve_left hnot
      have hin : ∀ j, inAnswerAt (takeCommand s).inPort j = inAnswerAt s.inPort j := fun _ => rfl
      have hmn : m = n := by
        by_contra hne'
        rcases lt_or_gt_of_ne hne' with hlt | hlt
        · obtain ⟨b, hb'⟩ := hb m hlt
          rcases hcase with ⟨-, h⟩ | ⟨-, h⟩ | ⟨-, h⟩ <;> rw [hin, hb'] at h <;> cases h
        · obtain ⟨b, hb'⟩ := hbm n hlt
          exact hne b hb'
      subst hmn
      exact ⟨e, t, rfl, he, hcase⟩
  have htaken : ∀ t : State, decoderErased t = decoderErased (takeCommand s) → t.outPort.taken = s.outPort.taken := fun t he => by
    rw [outPort_of_decoderErased he]; rfl
  refine ⟨fun n hn hb ha => ?_, fun n hn hb ha => ?_, fun n hn hb ha => ?_⟩
  · obtain ⟨e, t, hx, he, ⟨-, h⟩ | ⟨rfl, -⟩ | ⟨-, h⟩⟩ := key n hn hb (by rw [ha]; simp)
    · rw [ha] at h; cases h
    · exact faultsWith_of hl hm ho hx rfl (by rw [← htaken t he]; unfold takeFault; split <;> rfl)
    · rw [ha] at h; cases h
  · obtain ⟨e, t, hx, he, ⟨-, h⟩ | ⟨-, h⟩ | ⟨rfl, -⟩⟩ := key n hn hb (by rw [ha]; simp)
    · rw [ha] at h; cases h
    · rw [ha] at h; cases h
    · exact faultsWith_of hl hm ho hx rfl (by rw [← htaken t he]; unfold takeFault; split <;> rfl)
  · obtain ⟨e, t, hx, he, ⟨rfl, -⟩ | ⟨-, h⟩ | ⟨-, h⟩⟩ := key n hn hb (by rw [ha]; simp)
    · have hb : (decoderErased t).regs.busy = (decoderErased (takeCommand s)).regs.busy := by rw [he]
      have hmode : t.regs.mode = (takeCommand s).regs.mode := mode_of_decoderErased he
      exact waitsWith_of hl hm ho hx hb hmode (htaken t he)
    · rw [ha] at h; cases h
    · rw [ha] at h; cases h

/-- A decode that went well has had its bytes. -/
theorem Taken.bytes {s t : State} {v n : Nat} (h : Taken (takeCommand s) t v n) : bytesFirst s.inPort (normShifts n) := h.asked.bytes

end Sys2Proof.Machine
end

