-- ==== Sys2Proof/Tests/Slice0.lean ====
section
/-! SUPPORT. Tests. Expected values come from the worked examples and vectors of spec/ (named in each part), from the tables of its rules, or
from hand calculation; then a concrete state and operands for the hypotheses of every statement that has hypotheses. -/

namespace Sys2Proof.Tests

open Sys2Proof.Machine

set_option Elab.async false

/-! ### Well-formedness: an ill-formed operand for each check -/

theorem test_wf_setcfgHi : (Instr.setcfgHi (2 ^ 32)).wellFormed = false := by decide
theorem test_wf_setcfgLo : (Instr.setcfgLo (2 ^ 32)).wellFormed = false := by decide
theorem test_wf_setirq_en : (Instr.setirq 4 0).wellFormed = false := by decide
theorem test_wf_setirq_clr : (Instr.setirq 0 4).wellFormed = false := by decide
theorem test_wf_tblRead_tid : (Instr.tblRead 16 0).wellFormed = false := by decide
theorem test_wf_tblRead_idx : (Instr.tblRead 0 (2 ^ 32)).wellFormed = false := by decide
theorem test_wf_encSym : (Instr.encSym 256).wellFormed = false := by decide
theorem test_wf_rcEncBit_bit : (Instr.rcEncBit 2 1).wellFormed = false := by decide
theorem test_wf_rcEncBit_p : (Instr.rcEncBit 0 32768).wellFormed = false := by decide
theorem test_wf_rcDecBit : (Instr.rcDecBit 32768).wellFormed = false := by decide
theorem test_wf_rcEncEos : (Instr.rcEncEos 2).wellFormed = false := by decide
theorem test_wf_rcEncFreq_cum : (Instr.rcEncFreq 65536 1 1).wellFormed = false := by decide
theorem test_wf_rcEncFreq_freq : (Instr.rcEncFreq 1 65536 1).wellFormed = false := by decide
theorem test_wf_rcEncFreq_tot : (Instr.rcEncFreq 1 1 65536).wellFormed = false := by decide
theorem test_wf_rcDecTarget : (Instr.rcDecTarget 65536).wellFormed = false := by decide
theorem test_wf_rcDecNarrow_cum : (Instr.rcDecNarrow 65536 1 1).wellFormed = false := by decide
theorem test_wf_rcDecNarrow_freq : (Instr.rcDecNarrow 1 65536 1).wellFormed = false := by decide
theorem test_wf_rcDecNarrow_tot : (Instr.rcDecNarrow 1 1 65536).wellFormed = false := by decide
theorem test_wf_pseudo_setcfg : (Pseudo.setcfg (2 ^ 64)).wellFormed = false := by decide
theorem test_wf_pseudo_bytes : (Pseudo.encodeBytes [65, 256]).wellFormed = false := by decide
theorem test_wf_pseudo_encLit : (Pseudo.rcEncLit 0 1 65536).wellFormed = false := by decide
theorem test_wf_pseudo_decLit : (Pseudo.rcDecLit 0 65536 1).wellFormed = false := by decide
theorem test_wf_pseudo_ackIrq : (Pseudo.ackIrq 4).wellFormed = false := by decide

/-! ### Decoding: a word of each row, from the rows of R93, R100 and the programs of spec/95 -/

theorem test_decode_nop : decode 0x0000000000000000#64 = .ok .nop := by decide +kernel
theorem test_decode_setcfgHi : decode 0x01000000020F020F#64 = .ok (.setcfgHi 0x020F020F) := by decide +kernel
theorem test_decode_setcfgLo : decode 0x0200000001010100#64 = .ok (.setcfgLo 0x01010100) := by decide +kernel
theorem test_decode_setirq : decode 0x0300000000000203#64 = .ok (.setirq 3 2) := by decide +kernel
theorem test_decode_initEnc : decode 0x0400000000000000#64 = .ok .initEnc := by decide +kernel
theorem test_decode_initDec : decode 0x0500000000000000#64 = .ok .initDec := by decide +kernel
theorem test_decode_tblRead : decode 0x0604000000004593#64 = .ok (.tblRead 4 0x4593) := by decide +kernel
theorem test_decode_decCheckEnd : decode 0x0700000000000000#64 = .ok .decCheckEnd := by decide +kernel
theorem test_decode_encSym : decode 0x1000000000000041#64 = .ok (.encSym 0x41) := by decide +kernel
theorem test_decode_encEnd : decode 0x1100000000000000#64 = .ok .encEnd := by decide +kernel
theorem test_decode_decSym : decode 0x1200000000000000#64 = .ok .decSym := by decide +kernel
theorem test_decode_rcEncBit : decode 0x2000000000017FFF#64 = .ok (.rcEncBit 1 32767) := by decide +kernel
theorem test_decode_rcDecBit : decode 0x2100000000004000#64 = .ok (.rcDecBit 16384) := by decide +kernel
theorem test_decode_rcEncEos : decode 0x2200000000000001#64 = .ok (.rcEncEos 1) := by decide +kernel
theorem test_decode_rcDecEos : decode 0x2300000000000000#64 = .ok .rcDecEos := by decide +kernel
theorem test_decode_rcEncFreq : decode 0x2400FFFE0001FFFF#64 = .ok (.rcEncFreq 65534 1 65535) := by decide +kernel
theorem test_decode_rcDecTarget : decode 0x250000000000000A#64 = .ok (.rcDecTarget 10) := by decide +kernel
theorem test_decode_rcDecNarrow : decode 0x260000030002000A#64 = .ok (.rcDecNarrow 3 2 10) := by decide +kernel
theorem test_decode_rcFlush : decode 0x2700000000000000#64 = .ok .rcFlush := by decide +kernel

/-- The illegal words of spec/95 2.1. -/
theorem test_decode_illegal :
    decode 0x0000000000000001#64 = .error (.reservedBitSet 0) ∧ decode 0x0800000000000000#64 = .error (.unassignedOpcode 8) ∧
    decode 0xFF00000000000000#64 = .error (.unassignedOpcode 255) ∧ decode 0x0300000000000400#64 = .error (.reservedBitSet 3) ∧
    decode 0x1000000000000141#64 = .error (.reservedBitSet 0x10) ∧ decode 0x0610000000000000#64 = .error (.reservedBitSet 6) := by
  decide +kernel

/-- The assembler's line for the third command of R97's syntax, and its word. -/
theorem test_assembler :
    assemblerLine (.tblRead 4 273) = "TBL_READ TID=4 IDX=273" ∧ assemble "TBL_READ" [("IDX", 273), ("TID", 4)] = some 0x0604000000000111#64 ∧
    assemble "RC_ENC_BIT" [("P", 32768)] = none := by decide +kernel

/-- What the host's questions see of the decoder and of the fetch. -/
theorem test_fetchWord : decodeTableWord 64 0x2000000000014000 = some (.rcEncBit 1 16384) ∧
    (State.reset.withFetchWord 64 0x0300000000000203).cmdFifo = [0x0300000000000203#64] := by decide +kernel

/-! ### States for the tests -/

/-- Parameters for a test: the spec's defaults; an FSM ROM of one state; a small table memory. -/
def params : Params where
  fsmTable := Vector.replicate 512 7#8
  log2Fix := .exact
  costThreshold := Config.costThresholdDefault
  tableMemWords := 200000#64
  cmdFifoDepth := 4

/-- An input port that gives these bytes, and then the end mark for ever. -/
def giving (bytes : List Byte) : InPort := { answers := bytes.map .byte, rest := some .endMark, ended := false, used := [] }

/-- CFG_S of spec/95. -/
def cfgS : Word64 := 0x020F020F01010100#64

/-- CFG_A of spec/95. -/
def cfgA : Word64 := 0x020F041001100200#64

/-- After reset, in mode `m`, with CONFIG = `c` and these bytes at the input port. -/
def fresh (m : Mode) (c : Word64) (bytes : List Byte) : State :=
  { State.reset with params := params, regs := { Regs.reset with mode := m, config := c }, inPort := giving bytes }

/-- Right after INIT_ENC on a configuration. -/
def encoding (c : Word64) : State :=
  { sessionStarted (fresh .idle c []) with regs := { sessionStartRegs { Regs.reset with config := c } with mode := .enc } }

/-- Right after INIT_DEC on CFG_S, with this window, LOOK, and these bytes still to come. -/
def decoding (window : BitVec 31) (look : Byte) (bytes : List Byte) : State :=
  { sessionStarted (fresh .idle cfgS bytes) with
    regs := { sessionStartRegs { Regs.reset with config := cfgS } with
      mode := .dec, dir := true, rcBuffer := window, look := look, inCount := 4#64 } }

/-- A state with other registers. -/
def withRegs (f : Regs → Regs) (s : State) : State := { s with regs := f s.regs }

/-- The outcome is a next state. -/
def runs (o : Host.Outcome State Fault Refusal) : Bool :=
  match o with
  | .next _ => true
  | .fault _ => false
  | .refused _ => false

/-- The next state of an outcome; `s` where there is none. -/
def after (s : State) (o : Host.Outcome State Fault Refusal) : State :=
  match o with
  | .next t => t
  | .fault _ => s
  | .refused _ => s

theorem next_after {s : State} {o : Host.Outcome State Fault Refusal} (h : runs o = true) : o = .next (after s o) := by
  cases o with
  | next t => rfl
  | fault f => cases h
  | refused r => cases h

/-- A field of the next state; none where there is no next state. -/
def see {α : Type} (o : Host.Outcome State Fault Refusal) (f : State → α) : Option α :=
  match o with
  | .next t => some (f t)
  | .fault _ => none
  | .refused _ => none

/-- The cause of the fault a command took. -/
def causeOf (t : State) : Nat := t.regs.faultCause.toNat

/-! ### One step of each command, from the tables of spec/95 -/

theorem test_nop_faulted : see (exec .nop (fresh .faulted 0 [])) (fun t => (t.regs.cmdCount, t.regs.mode)) = some (1, .faulted) := by
  decide +kernel

theorem test_setcfgHi : see (exec (.setcfgHi 0x020F0410) (fresh .done cfgS [])) (fun t => t.regs.config) = some 0x020F041001010100#64 := by
  decide +kernel

theorem test_setcfgHi_session : see (exec (.setcfgHi 0x020F0410) (encoding cfgS)) (fun t => (causeOf t, t.regs.config)) = some (17, cfgS) := by
  decide +kernel

theorem test_setcfgLo : see (exec (.setcfgLo 0x01010100) (fresh .idle 0x020F020F00000000#64 [])) (fun t => t.regs.config) = some cfgS := by
  decide +kernel

theorem test_setirq : see (exec (.setirq 3 2) (withRegs (fun r => { r with irqPend := 2 }) (fresh .idle 0 [])))
    (fun t => (t.regs.irqEn, t.regs.irqPend)) = some (3, 0) := by decide +kernel

theorem test_setirq_faulted : see (exec (.setirq 1 1) (withRegs (fun r => { r with irqEn := 1, irqPend := 1 }) (fresh .faulted 0 [])))
    (fun t => (t.regs.irqPend, irqOutput t, t.regs.mode, t.regs.cmdCount)) = some (0, false, .faulted, 1) := by decide +kernel

theorem test_initEnc : see (exec .initEnc (fresh .idle cfgA []))
    (fun t => (statusWord t, t.regs.rcRange, tblRead t .lit 69887, tblRead t .apmHi 0)) = some (0x311, 0x7FFFFFFF, 256, 0x4000) := by
  decide +kernel

theorem test_initEnc_invalid : see (exec .initEnc (fresh .idle 0 [])) (fun t => (causeOf t, t.regs.tablesValid, t.regs.irqPend)) =
    some (4, false, 1) := by decide +kernel

theorem test_initDec : see (exec .initDec (fresh .idle cfgS [0x80, 0x00, 0x7F, 0xFE]))
    (fun t => (t.regs.rcBuffer, t.regs.look, t.regs.inCount, statusWord t)) = some (0x40003FFF, 0xFE, 4, 0x30B) := by decide +kernel

theorem test_initDec_truncated : see (exec .initDec (fresh .idle cfgS [1, 2]))
    (fun t => (causeOf t, t.regs.tablesValid, t.regs.dir, t.regs.faultWord)) = some (2, true, false, 0x0500000000000000) := by decide +kernel

theorem test_tblRead : [(0, 0x7FFF), (0, 0x8000), (1, 0), (2, 4095), (2, 4096), (4, 256), (4, 272), (4, 69888), (5, 511), (5, 512), (6, 0)].map
    (fun p => see (exec (.tblRead p.1 p.2) (encoding cfgS)) (fun t => t.regs.result.toNat)) =
    [some 0, some 0xFFFFFFFF, some 0xFFFFFFFF, some 0x4000, some 0xFFFFFFFF, some 16, some 256, some 0xFFFFFFFF, some 7, some 0xFFFFFFFF,
      some 0xFFFFFFFF] := by decide +kernel

theorem test_decCheckEnd : see (exec .decCheckEnd (withRegs (fun r => { r with mode := .done, dir := true, result := 0x100 }) (fresh .done cfgS [])))
    (fun t => (t.regs.result, t.regs.mode, t.regs.cmdCount, t.inPort.ended)) = some (0, .done, 1, true) := by decide +kernel

theorem test_decCheckEnd_trailing :
    see (exec .decCheckEnd (withRegs (fun r => { r with dir := true, inCount := 7, irqPend := 2, result := 0x100 }) (fresh .done cfgS [0])))
      (fun t => (causeOf t, t.regs.inCount, t.regs.irqPend, t.regs.result)) = some (6, 8, 3, 0x100) := by decide +kernel

theorem test_encSym : see (exec (.encSym 0x41) (encoding cfgS))
    (fun t => (t.regs.rcBuffer, t.regs.rcRange, t.regs.delay, t.regs.context, t.regs.histLo, t.regs.cost)) =
    some (0x0FE00000, 0x40408000, 0xA0, 0x41, 1, 130979) := by decide +kernel

theorem test_encSym_tables : see (exec (.encSym 0x41) (encoding cfgA)) (fun t =>
    (tblRead t .lzpLo 0x17CD, tblRead t .lzpHi 0xF515, tblRead t .apmLo 0, tblRead t .apmHi 0, tblRead t .lit 0x41, tblRead t .lit 260,
      tblRead t .lit 272)) = some (0x0741, 0x0741, 0x3F80, 0x3F80, 17, 32, 272) := by decide +kernel

theorem test_encEnd : see (exec .encEnd (encoding cfgS)) (fun t =>
    (t.outPort.taken, t.regs.mode, t.regs.rcRange, rcFlagsWord t.regs, t.regs.irqPend)) =
    some ([0xFF, 0xFF, 0xFF, 0xFC, 0, 0, 0], .done, 0x01000000, 2, 2) := by decide +kernel

theorem test_decSym : see (exec .decSym (decoding 0x503850B1 0x62 [0xFF, 0xFE, 0, 0, 0]))
    (fun t => (t.regs.rcBuffer, t.regs.rcRange, t.regs.inCount, t.regs.result, t.outPort.taken)) =
    some (0x2870B17F, 0x40408000, 5, 0x41, [0x41]) := by decide +kernel

theorem test_decSym_corrupt : see (exec .decSym (decoding 0x7FFFFFF8 0xF0 [0, 0, 0, 0]))
    (fun t => (causeOf t, t.regs.faultWord, t.outPort.taken)) = some (19, 0x1200000000000000, []) := by decide +kernel

theorem test_rcEncBit : see (exec (.rcEncBit 0 32767) (encoding cfgS)) (fun t => (t.regs.rcBuffer, t.regs.rcRange, t.regs.ffrun)) =
    some (0x7E800100, 0x017FFE00, 1) := by decide +kernel

/-- The carry of R225, step 4: the delayed 0x7F becomes 0x80, the pending 0xFF 0x00. -/
theorem test_rcEncBit_carry : see (exec (.rcEncBit 0 32767) (withRegs (fun r => { r with
      rcBuffer := 0x40010000, rcRange := 0x7FFF0000, delayValid := true, delay := 0x7F, ffrun := 1 }) (encoding cfgS)))
    (fun t => (t.regs.rcBuffer, t.regs.rcRange, t.regs.delay, t.outPort.taken)) =
    some (0x7F000200, 0x00FFFE00, 0x7F, [0x80, 0x00]) := by decide +kernel

theorem test_rcDecBit : see (exec (.rcDecBit 16384) (decoding 0x40003FFF 0xFE [0, 4, 0]))
    (fun t => (t.regs.result, t.regs.rcBuffer, t.regs.rcRange, t.regs.inCount)) = some (0, 0x00007FFF, 0x40003FFF, 4) := by decide +kernel

theorem test_rcEncEos : see (exec (.rcEncEos 1) (encoding cfgS)) (fun t => (t.regs.rcBuffer, t.regs.rcRange, t.regs.ffrun, t.regs.mode)) =
    some (0x7E000000, 0x01000000, 3, .encEnding) := by decide +kernel

theorem test_rcDecEos : see (exec .rcDecEos (decoding 0x7FFFFFFE 0xFC [0, 0, 0]))
    (fun t => (t.regs.result, t.regs.rcBuffer, t.regs.rcRange, t.regs.inCount, t.regs.mode)) = some (1, 0, 0x01000000, 7, .done) := by
  decide +kernel

theorem test_rcEncFreq : see (exec (.rcEncFreq 3 2 10) (encoding cfgS)) (fun t => (t.regs.rcBuffer, t.regs.rcRange)) =
    some (0x26666664, 0x19999998) := by decide +kernel

theorem test_rcEncFreq_range : see (exec (.rcEncFreq 3 8 10) (encoding cfgS)) (fun t => (causeOf t, t.regs.rcRange)) =
    some (18, 0x7FFFFFFF) := by decide +kernel

theorem test_rcDecTarget : see (exec (.rcDecTarget 10) (decoding 0x26666664 0xC8 [])) (fun t => (t.regs.result, t.regs.rcBuffer)) =
    some (3, 0x26666664) := by decide +kernel

theorem test_rcDecTarget_corrupt : see (exec (.rcDecTarget 1) (decoding 0x7FFFFFFF 0xFF [])) (fun t => (causeOf t, t.regs.rcBuffer)) =
    some (19, 0x7FFFFFFF) := by decide +kernel

theorem test_rcDecNarrow : see (exec (.rcDecNarrow 3 2 10) (decoding 0x26666664 0xC8 []))
    (fun t => (t.regs.rcBuffer, t.regs.rcRange, t.regs.inCount)) = some (0, 0x19999998, 4) := by decide +kernel

theorem test_rcDecNarrow_mismatch : see (exec (.rcDecNarrow 0 3 10) (decoding 0x26666664 0xC8 [])) causeOf = some 20 := by decide +kernel

theorem test_rcFlush : see (exec .rcFlush (withRegs (fun r => { r with rcBuffer := 0x26666664, rcRange := 0x19999998 }) (encoding cfgS)))
    (fun t => (t.outPort.taken, t.regs.rcRange, t.regs.mode, t.regs.delayValid)) =
    some ([0x4C, 0xCC, 0xCC, 0xC8], 0x19999998, .done, true) := by decide +kernel

/-! ### The register port and the parameters, from spec/95 2.2 and 2.4 -/

theorem test_register_port : (List.range 6).map (fun n => (readRegister 0 (BitVec.ofNat 6 n) State.reset).toNat) =
    [0x544C5A50, 1, 0x200, 0, 0, 0] ∧ readRegister 0 0x1C#6 State.reset = 16765312#32 ∧ readRegister 0 0x3F#6 State.reset = 0#32 := by
  decide +kernel

theorem test_cfgValid :
    [0x020F020F01010100#64, 0x020F020F017F7F80#64, 0x030F030F81010100#64, 0x021E081E01010100#64].map cfgValid = [true, true, true, true] ∧
    [0x010F020F01010100#64, 0x020F020F81010100#64, 0x030F020F01010100#64, 0x020F090F01010100#64, 0x020E020F01010100#64, 0x021F021F01010100#64,
      0x020F020F00010100#64, 0x020F020F01000100#64, 0x020F020F01800100#64, 0x020F020F010100FF#64, 0x020F020F017F7F81#64, 0#64].all
      (fun c => !cfgValid c) = true := by decide +kernel

theorem test_needWords : [cfgS, cfgA, 0x081E081E81010100#64, 0x031E081E81010100#64].map needWords =
    [106752, 176384, 1091637248, 2165383168] := by decide +kernel

theorem test_log2 : [1, 2, 3, 16, 127, 128, 255, 256, 257, 32767].map (log2FixValue .exact) =
    [0, 16384, 25968, 65536, 114502, 114688, 130979, 131072, 131164, 245759].map some := by decide +kernel

theorem test_hash : (List.map (fun c => (indexLo { Regs.reset with context := c, scfg := cfgA }, indexHi { Regs.reset with context := c, scfg := cfgA }))
    [0x0000000000000000#64, 0x0000000000000041#64, 0x6162636465666768#64, 0xFFFFFFFFFFFFFFFF#64]) =
    [(0x17CD, 0xF515), (0x7AFA, 0x148A), (0x2232, 0x0315), (0x475F, 0xE189)] := by decide +kernel

/-! ### The states of the witnesses -/

theorem coderInv_encoding : CoderInv (encoding cfgS).regs := coderInv_start rfl rfl rfl rfl

theorem encoderReady_encoding : EncoderReady (encoding cfgS) :=
  ⟨coderInv_encoding, ⟨by simp [encoding, sessionStarted, fresh, State.reset], rfl⟩, by decide⟩

theorem codable_encoding : SymbolsCodable (encoding cfgS) :=
  ⟨sessionOk_start (c := cfgS) rfl rfl (by decide) rfl rfl, memoryWf_start cfgS, log2Permitted_exact, by decide⟩

theorem codable_decoding (window : BitVec 31) (look : Byte) (bytes : List Byte) : SymbolsCodable (decoding window look bytes) :=
  ⟨sessionOk_start (c := cfgS) rfl rfl (by decide) rfl rfl, memoryWf_start cfgS, log2Permitted_exact, by
    show 2 ^ 23 ≤ (0x7FFFFFFF#31).toNat
    decide⟩

theorem accepts_decoding (window : BitVec 31) (look : Byte) (bytes : List Byte) : acceptsAll (decoding window look bytes).outPort :=
  ⟨(fun a h => by cases h), rfl⟩

/-- A port that gives `n` bytes of a list at least so long. -/
theorem gives_giving {bytes : List Byte} {n : Nat} (h : n ≤ bytes.length) : givesBytes (giving bytes) n := by
  refine ⟨rfl, by simpa [giving] using h, fun a ha => ?_⟩
  obtain ⟨b, -, rfl⟩ := List.mem_map.mp (List.mem_of_mem_take ha)
  exact ⟨b, rfl⟩

theorem gives_decoding (window : BitVec 31) (look : Byte) {bytes : List Byte} {n : Nat} (h : n ≤ bytes.length) :
    givesBytes (decoding window look bytes).inPort n := gives_giving h

theorem settled_encoding : SettledOk (encoding cfgS) :=
  ⟨rfl, memoryWf_start cfgS, fun _ => ⟨codable_encoding.session, codable_encoding.range⟩, fun _ => coderInv_encoding⟩

theorem machineInv_encoding (words : List Word64) : MachineInv { encoding cfgS with cmdFifo := words } :=
  ⟨log2Permitted_exact, fun _ => ⟨rfl, memoryWf_start cfgS, fun _ => ⟨sessionOk_start (c := cfgS) rfl rfl (by decide) rfl rfl, codable_encoding.range⟩,
    fun _ => coderInv_start rfl rfl rfl rfl⟩, fun _ h => by cases h⟩

/-- An idle machine that waits for nothing, with these words in its FIFO. -/
def idling (m : Mode) (words : List Word64) : State := { fresh m 0 [] with cmdFifo := words }

/-- An INIT_DEC waiting on a port that has not answered. -/
def silent (m : Mode) : State :=
  { fresh m cfgS [] with
    inPort := { answers := [], rest := none, ended := false, used := [] }
    outPort := { answers := [], rest := none, used := [], taken := [] } }

/-- An output port that takes `n` bytes, and then answers so for ever. -/
def taking (n : Nat) (a : Option OutAnswer) : OutPort := { answers := List.replicate n .accept, rest := a, used := [], taken := [] }

/-- An input port that gives `n` zero bytes, and then answers so for ever. -/
def zeros (n : Nat) (a : Option InAnswer) : InPort := { answers := List.replicate n (.byte 0), rest := a, ended := false, used := [] }

/-- An encoder with the range `r`, an empty window and the delayed byte 0x12. -/
def sending (r : BitVec 31) (port : OutPort) : State :=
  { withRegs (fun regs => { regs with rcRange := r, delayValid := true, delay := 0x12 }) (encoding cfgS) with outPort := port }

/-- An encoder with R = 2^23, a window whose top byte is 0xFF, and the run at its bound. -/
def brimming : State :=
  withRegs (fun r => { r with rcBuffer := 0x7F800000, ffrun := 0xFFFFFFFF }) (sending 0x800000 (taking 0 (some .accept)))

/-- A decoder with this range and window. -/
def reading (r window : BitVec 31) (port : InPort) : State :=
  { withRegs (fun regs => { regs with rcRange := r }) (decoding window 0 []) with inPort := port }

/-- The state a piece of a rule leaves. -/
def leaves {α : Type} (x : Cmd α) (s : State) : State :=
  match x s with
  | .ok _ t => t
  | .error _ t => t

/-- What EncoderTraps asks where the port answers `a` and not with an acceptance to the byte after the next `n`. -/
def Untaken (s u : State) (v k n : Nat) (a : Option OutAnswer) : Prop :=
  (∀ j < k, ¬runFull u v j) ∧ u.outPort.taken.length ≤ s.outPort.taken.length + n ∧
    s.outPort.taken.length + n < (outSideAfter u v k).taken.length ∧ acceptsFirst s.outPort n ∧ outAnswerAt s.outPort n = a

/-- What EncoderTraps asks where the first byte to leave finds the run at its bound. -/
def AtBound (s : State) (v : Nat) : Prop :=
  (∀ m < 0, ¬runFull s v m) ∧ runFull s v 0 ∧ acceptsFirst s.outPort ((outSideAfter s v 0).taken.length - s.outPort.taken.length)

/-- What DecoderTraps asks where the port answers `a` to the request after the next `n`. -/
def Ungiven (s : State) (k n : Nat) (a : Option InAnswer) : Prop := n < k ∧ bytesFirst s.inPort n ∧ inAnswerAt s.inPort n = a

theorem takes_taking (n : Nat) (a : Option OutAnswer) : acceptsFirst (taking n a) n ∧ outAnswerAt (taking n a) n = a :=
  ⟨fun m hm => by simp [outAnswerAt, taking, hm], by simp [outAnswerAt, taking]⟩

theorem untaken_of {s u : State} {v k n : Nat} {a : Option OutAnswer} (hp : s.outPort = taking n a) (hf : u.regs.ffrun.toNat = 0)
    (hk : k ≤ 16) (hu : u.outPort.taken = []) (hn : n < (outSideAfter u v k).taken.length) : Untaken s u v k n a := by
  refine ⟨fun j hj h => ?_, by rw [hu]; exact Nat.zero_le _, ?_, hp ▸ takes_taking n a⟩
  · have := runFull_ge h; omega
  · rw [hp]; simpa [taking] using hn

/-- A port that takes as many bytes as are sent. -/
theorem goesOut_of {s u : State} {v k n : Nat} {a : Option OutAnswer} (hp : s.outPort = taking n a) (hf : u.regs.ffrun.toNat = 0)
    (hk : k ≤ 16) (hn : (outSideAfter u v k).taken.length ≤ n) : GoesOut s u v k :=
  ⟨fun j hj h => by have := runFull_ge h; omega, fun m hm => by
    rw [hp] at hm ⊢
    exact (takes_taking n a).1 m (lt_of_lt_of_le hm (le_trans (Nat.sub_le _ _) hn))⟩

/-- Both answers that take no byte. -/
theorem untaken_sending {r : BitVec 31} {v k n : Nat} (hk : k ≤ 16)
    (h : n < (outSideAfter (sending r (taking n none)) v k).taken.length) :
    Untaken (sending r (taking n (some .error))) (sending r (taking n (some .error))) v k n (some .error) ∧
      Untaken (sending r (taking n none)) (sending r (taking n none)) v k n none :=
  ⟨untaken_of rfl rfl hk rfl h, untaken_of rfl rfl hk rfl h⟩

theorem ungiven_reading {r window : BitVec 31} {k n : Nat} (hk : n < k) (a : Option InAnswer) : Ungiven (reading r window (zeros n a)) k n a :=
  ⟨hk, fun m hm => ⟨0, by simp [inAnswerAt, reading, zeros, hm]⟩, by simp [inAnswerAt, reading, zeros]⟩

theorem coderInv_sending {r : BitVec 31} (hr : 2 ^ 23 ≤ r.toNat) (port : OutPort) : CoderInv (sending r port).regs := by
  refine ⟨hr, ?_, fun h => ?_⟩
  · have h1 : windowLow (sending r port).regs = 0 := by
      have hb : (sending r port).regs.rcBuffer = 0#31 := rfl
      have hc : (sending r port).regs.carry = false := rfl
      simp [windowLow, hb, hc, flag]
    have h2 : (sending r port).regs.rcRange = r := rfl
    have := r.isLt
    rw [h1, h2]
    omega
  · rcases h with h | h
    · exact absurd (show true = false from h) (by decide)
    · exact absurd (show (0x12#8 : Byte) = 0xFF#8 from h) (by decide)

theorem codable_sending {r : BitVec 31} (hr : 2 ^ 23 ≤ r.toNat) (port : OutPort) : SymbolsCodable (sending r port) :=
  ⟨sessionOk_start (c := cfgS) rfl rfl (by decide) rfl rfl, memoryWf_start cfgS, log2Permitted_exact, hr⟩

theorem codable_reading {r : BitVec 31} (hr : 2 ^ 23 ≤ r.toNat) (window : BitVec 31) (port : InPort) : SymbolsCodable (reading r window port) :=
  ⟨sessionOk_start (c := cfgS) rfl rfl (by decide) rfl rfl, memoryWf_start cfgS, log2Permitted_exact, hr⟩

/-- The brimming encoder is as R200 says; the run stops it at the first byte, wherever the flag or the interval lies. -/
theorem brimming_ok : brimming.regs.mode = .enc ∧ CoderInv brimming.regs ∧ AtBound brimming 0 ∧ AtBound brimming 0x7FFFFF := by
  have bound : ∀ v, (outSideAfter brimming v 0).taken.length - brimming.outPort.taken.length = 0 := fun _ => rfl
  refine ⟨rfl, ⟨by decide +kernel, by decide +kernel, fun h => ?_⟩, ⟨fun _ h => absurd h (Nat.not_lt_zero _), ?_, ?_⟩,
    ⟨fun _ h => absurd h (Nat.not_lt_zero _), ?_, ?_⟩⟩
  · rcases h with h | h
    · exact absurd (show true = false from h) (by decide)
    · exact absurd (show (0x12#8 : Byte) = 0xFF#8 from h) (by decide)
  · unfold runFull OutSide.full; decide +kernel
  · rw [bound]; exact fun _ h => absurd h (Nat.not_lt_zero _)
  · unfold runFull OutSide.full; decide +kernel
  · rw [bound]; exact fun _ h => absurd h (Nat.not_lt_zero _)

theorem goesOut_encoding (v : Nat) {k : Nat} (hk : k ≤ 16) : GoesOut (encoding cfgS) (encoding cfgS) v k := encoderReady_encoding.goesOut v hk

/-! ### The ports and the run counter, by hand from R79, R80, R202, R214 -/

/-- A byte refused after those before it: 0x12 is delayed; ENC_END shifts out 00 FF FF FE 00 00 00 00 behind it. -/
theorem test_output_refused :
    [exec (.rcEncBit 1 1) (sending 0x800000 (taking 1 (some .error))), exec (.rcEncEos 0) (sending 0x800000 (taking 0 (some .error))),
      exec (.rcEncEos 1) (sending 0x800000 (taking 0 (some .error))), exec (.rcEncFreq 0 1 65535) (sending 0x800000 (taking 1 (some .error))),
      exec .rcFlush (sending 0x800000 (taking 4 (some .error))), exec .encEnd (sending 0x800000 (taking 7 (some .error))),
      exec (.encSym 0x41) (sending 0x800000 (taking 0 (some .error)))].map (fun o => see o (fun t => (causeOf t, t.outPort.taken))) =
    [some (1, [0x12]), some (1, []), some (1, []), some (1, [0x12]), some (1, [0x12, 0, 0, 0]),
      some (1, [0x12, 0, 0xFF, 0xFF, 0xFE, 0, 0]), some (1, [])] := by decide +kernel

theorem test_output_unanswered : see (exec .rcFlush (sending 0x800000 (taking 4 none)))
    (fun t => (t.regs.busy, t.regs.mode, t.outPort.taken)) = some (true, .enc, [0x12, 0, 0, 0]) := by decide +kernel

theorem test_run_full :
    [Instr.rcEncBit 1 1, .rcEncEos 0, .rcEncEos 1, .rcEncFreq 0 1 65535, .rcFlush, .encEnd, .encSym 0x41].map
      (fun i => see (exec i brimming) (fun t => (causeOf t, t.outPort.taken))) = List.replicate 7 (some (22, [])) := by decide +kernel

/-- By what the port answers in place of the last byte a command reads: the cause, or BUSY. -/
theorem test_input_ends :
    [some InAnswer.endMark, some .error, none].map (fun a =>
      [exec (.rcDecBit 1) (reading 0x800000 0 (zeros 1 a)), exec .rcDecEos (reading 0x800000 0 (zeros 0 a)),
        exec .rcDecEos (reading 0x800000 0x7FFFFF (zeros 2 a)), exec (.rcDecNarrow 0 1 65535) (reading 0x800000 0 (zeros 1 a)),
        exec .decSym (reading 0x800000 0x7FFFFF (zeros 2 a)), exec .decSym (reading 0x800000 0 (zeros 0 a)),
        exec .initDec { fresh .idle cfgS [] with inPort := zeros 3 a }].map (fun o => see o (fun t => (causeOf t, t.regs.busy)))) =
    [List.replicate 7 (some (2, false)), List.replicate 7 (some (1, false)), List.replicate 7 (some (0, true))] := by decide +kernel

/-! ### A witness for the hypotheses of each statement that has hypotheses -/

theorem witness_DecodeUndoesEncode : (Instr.rcEncFreq 0xFFFF 0xFFFF 0xFFFF).wellFormed = true ∧ (Instr.setirq 3 3).wellFormed = true := by decide

theorem witness_EncodeUndoesDecode : decode 0x0300000000000303#64 = .ok (.setirq 3 3) := by decide +kernel

theorem witness_DecodeFollowsTheRows : (∃ r ∈ opcodeMap, r.accepts 0x1000000000000041#64 = true) ∧
    ∀ r ∈ opcodeMap, r.accepts 0x1000000000000141#64 = false := by decide +kernel

theorem witness_IllegalWordsFault : (idling .idle [0x0800000000000000]).stall = none ∧ (idling .faulted [0x0800000000000000]).stall = none ∧
    decode 0x0800000000000000#64 = .error (.unassignedOpcode 8) := by decide +kernel

theorem witness_PseudoCommandsExpand : (Pseudo.encodeBytes [0, 255]).wellFormed = true ∧ (Pseudo.setcfg (2 ^ 64 - 1)).wellFormed = true ∧
    (fresh .idle 0 []).regs.mode = .idle ∧ (fresh .done 0 []).regs.mode = .done := by decide +kernel

theorem witness_StepRunsDecodedCommand : (idling .idle [0x0000000000000000]).stall = none ∧
    (idling .idle [0x0000000000000000]).cmdFifo = [0] ∧ decode 0#64 = .ok .nop ∧ (idling .idle []).cmdFifo = [] := by decide +kernel

/-- INIT_DEC waits on a silent input port, the output port of reset standing ready; ENC_END waits on a silent output port, the input port
standing at its end. -/
theorem witness_WaitingCommandResumes :
    (∃ t, Instr.initDec.wellFormed = true ∧ { silent .idle with outPort := State.reset.outPort }.stall = none ∧
      { silent .idle with outPort := State.reset.outPort }.inPort.rest = none ∧ State.reset.outPort.rest = some .accept ∧
      exec .initDec { silent .idle with outPort := State.reset.outPort } = .next t ∧ t.stall ≠ none) ∧
    ∃ t, (encoding cfgS).inPort.rest = some .endMark ∧ exec .encEnd { encoding cfgS with outPort := (silent .idle).outPort } = .next t ∧
      t.stall ≠ none :=
  ⟨⟨_, by decide, rfl, rfl, rfl, next_after (s := silent .idle) (by decide +kernel), by decide +kernel⟩,
    _, rfl, next_after (s := silent .idle) (by decide +kernel), by decide +kernel⟩

theorem witness_BusyExactlyWhileWaiting : (∃ t, exec .nop (fresh .idle 0 []) = .next t ∧ t.stall = none) ∧
    ∃ t, exec .initDec (silent .idle) = .next t ∧ t.stall ≠ none :=
  ⟨⟨_, rfl, rfl⟩, _, next_after (s := silent .idle) (by decide +kernel), by decide +kernel⟩

theorem witness_CauseCodes : causeCode .badMagic = causeCode .badMagic := rfl

theorem witness_FaultedBlock : (idling .faulted [0]).stall = none ∧ (idling .faulted [0]).regs.mode = .faulted ∧ decode 0#64 = .ok .nop ∧
    decode 0x0300000000000101#64 = .ok (.setirq 1 1) ∧ decode 0x0400000000000000#64 ≠ .ok .nop ∧
    (∀ en clr, decode 0x0400000000000000#64 ≠ .ok (.setirq en clr)) ∧ runs (step (idling .faulted [0])) = true :=
  ⟨rfl, rfl, by decide +kernel, by decide +kernel, by decide +kernel,
    (fun en clr h => by rw [test_decode_initEnc] at h; cases h), by decide +kernel⟩

/-- ENC_SYM between sessions is not legal; RC_FLUSH is in ENC and in ENC_ENDING, where it meets a fault if the output port refuses. -/
theorem witness_BadStateTable : (fresh .done cfgS []).regs.mode ≠ .faulted ∧ legal (.encSym 0x41) .done false = false ∧
    legal .rcFlush .encEnding false = true ∧
    see (exec .rcFlush { withRegs (fun r => { r with mode := .encEnding, rcBuffer := 1, delayValid := true }) (encoding cfgS) with
      outPort := { answers := [.error], rest := none, used := [], taken := [] } }) (fun t => (t.regs.mode, causeOf t)) =
      some (.faulted, 1) := by decide +kernel

theorem witness_OperandRangeTable : (encoding cfgS).regs.mode ≠ .faulted ∧ legal (.rcEncFreq 65535 1 65535) .enc false = true ∧
    (65535 : Nat) < 65535 + 1 ∧
    see (exec (.rcDecTarget 1) (decoding 0x7FFFFFFF 0xFF [])) (fun t => (t.regs.mode, causeOf t)) = some (.faulted, 19) := by decide +kernel

theorem witness_FaultEntryRecords : ∃ t, (fresh .idle 0 []).regs.mode ≠ .faulted ∧ exec .initEnc (fresh .idle 0 []) = .next t ∧
    t.regs.mode = .faulted :=
  ⟨_, by decide, next_after (s := fresh .idle 0 []) (by decide +kernel), by decide +kernel⟩

/-- Each of the precise faults, by the word that raises it. -/
theorem witness_PreciseFaultsKeepTheState :
    [({ fresh .idle 0 [] with cmdFifo := [0x0800000000000000] } : State), { fresh .idle 0 [] with cmdFifo := [0x1000000000000041] },
      { encoding cfgS with cmdFifo := [0x2000000000000000] }, { fresh .idle 0 [] with cmdFifo := [0x0400000000000000] },
      { fresh .idle cfgS [] with cmdFifo := [0x0400000000000000], params := { params with tableMemWords := 100000 } },
      { decoding 0x7FFFFFFF 0xFF [] with cmdFifo := [0x2500000000000001] },
      { withRegs (fun r => { r with dir := true }) (fresh .done cfgS [0]) with cmdFifo := [0x0700000000000000] }].map
      (fun s => (decide (s.stall = none), see (step s) (fun t => (t.regs.mode, causeOf t)))) =
    [(true, some (.faulted, 16)), (true, some (.faulted, 17)), (true, some (.faulted, 18)), (true, some (.faulted, 4)),
      (true, some (.faulted, 5)), (true, some (.faulted, 19)), (true, some (.faulted, 6))] := by decide +kernel

/-- An imprecise fault: INIT_DEC on a stream of two bytes. -/
theorem witness_FaultKeepsWhatIsDefined : ∃ t, (fresh .idle cfgS [1, 2]).regs.mode ≠ .faulted ∧
    exec .initDec (fresh .idle cfgS [1, 2]) = .next t ∧ t.regs.mode = .faulted :=
  ⟨_, by decide, next_after (s := fresh .idle 0 []) (by decide +kernel), by decide +kernel⟩

theorem witness_FaultRegistersOnlyByFaultEntry :
    (∃ t, exec .encEnd (encoding cfgS) = .next t ∧ ¬((encoding cfgS).regs.mode ≠ .faulted ∧ t.regs.mode = .faulted)) ∧
    ∃ t, exec .initEnc (fresh .idle 0 []) = .next t ∧ (fresh .idle 0 []).regs.mode ≠ .faulted ∧ t.regs.mode = .faulted :=
  ⟨⟨_, next_after (s := fresh .idle 0 []) (by decide +kernel), by decide +kernel⟩,
    _, next_after (s := fresh .idle 0 []) (by decide +kernel), by decide, by decide +kernel⟩

theorem witness_InterruptRegisters : (∃ t, exec .encEnd (encoding cfgS) = .next t ∧ ∀ en clr, Instr.encEnd ≠ .setirq en clr) ∧
    ∃ t, exec (.setirq 3 1) (fresh .faulted 0 []) = .next t :=
  ⟨⟨_, next_after (s := fresh .idle 0 []) (by decide +kernel), by simp⟩, _, rfl⟩

/-- Every transition of MODE. -/
theorem witness_ModeAndDirTransitions :
    [exec .initEnc (fresh .idle cfgS []), exec .initDec (fresh .done cfgS [1, 2, 3, 4]), exec (.rcEncEos 1) (encoding cfgS),
      exec .encEnd (encoding cfgS), exec .rcFlush (withRegs (fun r => { r with mode := .encEnding }) (encoding cfgS)),
      exec .decSym (decoding 0x7FFFFFFE 0xFC [0, 0, 0]), exec .rcDecEos (decoding 0x7FFFFFFE 0xFC [0, 0, 0])].map
      (fun o => see o (fun t => t.regs.mode)) =
    [some .enc, some .dec, some .encEnding, some .done, some .done, some .done, some .done] := by decide +kernel

theorem witness_ResultWriters : (∃ t, exec (.encSym 0x41) (encoding cfgS) = .next t ∧ t.stall = none ∧ t.regs.mode ≠ .faulted) ∧
    ∃ t, exec .rcDecEos (fresh .faulted 0 []) = .next t ∧ t.stall = none ∧ (fresh .faulted 0 []).regs.mode = .faulted :=
  ⟨⟨_, next_after (s := fresh .idle 0 []) (by decide +kernel), by decide +kernel, by decide +kernel⟩, _, rfl, rfl, rfl⟩

/-- DEC_SYM reads one byte and writes one; the same command, waiting on a silent port, has read none; and it reads a standing byte. -/
theorem witness_CountersCount :
    (∃ t, exec .decSym { decoding 0x503850B1 0x62 [0xFF] with inPort := { answers := [.byte 0xFF], rest := none, ended := false, used := [] } } =
      .next t ∧ t.regs.mode ≠ .faulted ∧ t.regs.inCount = 5) ∧
    (∃ t, exec .decSym { decoding 0x503850B1 0x62 [] with inPort := { answers := [], rest := none, ended := false, used := [] } } = .next t ∧
      t.stall ≠ none ∧ t.regs.mode ≠ .faulted) ∧
    ∃ t, exec .decSym { decoding 0x503850B1 0x62 [] with inPort := zeros 0 (some (.byte 0xFF)) } = .next t ∧ t.regs.mode ≠ .faulted ∧
      t.regs.inCount = 5 :=
  ⟨⟨_, next_after (s := fresh .idle 0 []) (by decide +kernel), by decide +kernel, by decide +kernel⟩,
    ⟨_, next_after (s := fresh .idle 0 []) (by decide +kernel), by decide +kernel, by decide +kernel⟩,
    _, next_after (s := fresh .idle 0 []) (by decide +kernel), by decide +kernel, by decide +kernel⟩

theorem witness_ConfigurationLatching : (∃ t, exec .initEnc (fresh .idle cfgS []) = .next t ∧ ∀ imm, Instr.initEnc ≠ .setcfgHi imm ∧
      Instr.initEnc ≠ .setcfgLo imm) ∧ runs (step (idling .idle [0])) = true :=
  ⟨⟨_, next_after (s := fresh .idle 0 []) (by decide +kernel), by simp⟩, by decide +kernel⟩

/-- The numbers 0x1F and 0x3F are outside the map. -/
theorem witness_RegisterMap : State.reset.regs.busy = false ∧ 0x1F ≤ (0x1F#6).toNat ∧ 0x1F ≤ (0x3F#6).toNat ∧
    see (exec .initDec (silent .idle)) (fun t => t.regs.busy) = some true := by decide +kernel

theorem witness_ValidConfigurations : (fresh .idle 0x020F020F017F7F81#64 []).regs.mode = .idle ∧
    cfgValid (fresh .idle 0x020F020F017F7F81#64 []).regs.config = false := by decide +kernel

theorem witness_SessionMemory : cfgValid 0x031E081E81010100#64 = true ∧ needWords 0x031E081E81010100#64 = 2165383168 ∧
    (fresh .done cfgS []).regs.mode = .done ∧ cfgValid (fresh .done cfgS []).regs.config = true ∧
    (106751#64).toNat < needWords (fresh .done cfgS []).regs.config := by decide +kernel

theorem witness_NopCounts : opcode 0#64 = 0 ∧ opcode 0x00FFFFFFFFFFFFFF#64 = 0 ∧ (0x00FFFFFFFFFFFFFF#64 : Word64) ≠ 0#64 ∧
    (idling .idle [0x00FFFFFFFFFFFFFF]).stall = none ∧ (idling .idle [0x00FFFFFFFFFFFFFF]).cmdFifo = [0x00FFFFFFFFFFFFFF] ∧
    (idling .idle [0x00FFFFFFFFFFFFFF]).regs.mode ≠ .faulted := by decide +kernel

theorem witness_SetcfgWritesItsHalf : 0xFFFFFFFF < 2 ^ 32 ∧ (fresh .idle 0 []).regs.mode = .idle ∧ (fresh .done 0 []).regs.mode = .done := by
  decide +kernel

theorem witness_SetirqWritesEnables : 3 < 4 ∧ 0 < 4 := by decide

/-- A table memory of exactly the words a session of CFG_S needs. -/
def exactMemory (bytes : List Byte) : State := { fresh .idle cfgS bytes with params := { params with tableMemWords := 106752 } }

theorem witness_InitEncStartsTheSession : (exactMemory []).regs.mode = .idle ∧ cfgValid (exactMemory []).regs.config = true ∧
    needWords (exactMemory []).regs.config ≤ (exactMemory []).params.tableMemWords.toNat ∧
    cfgDual (fresh .idle cfgA []).regs.config = true ∧ needWords (fresh .idle cfgA []).regs.config ≤ params.tableMemWords.toNat := by
  decide +kernel

theorem witness_InitDecStartsTheSession : (exactMemory [1, 2, 3, 4]).regs.mode = .idle ∧
    cfgValid (exactMemory [1, 2, 3, 4]).regs.config = true ∧
    needWords (exactMemory [1, 2, 3, 4]).regs.config ≤ (exactMemory [1, 2, 3, 4]).params.tableMemWords.toNat ∧
    [0, 1, 2, 3].map (inAnswerAt { (exactMemory [1, 2, 3, 4]).inPort with ended := false }) =
      [some (.byte 1), some (.byte 2), some (.byte 3), some (.byte 4)] ∧
    [0, 1, 2, 3].map (inAnswerAt { { exactMemory [] with inPort := zeros 1 (some (.byte 9)) }.inPort with ended := false }) =
      [some (.byte 0), some (.byte 9), some (.byte 9), some (.byte 9)] := by decide +kernel

/-- A stream that ends after three bytes, and an empty one, with each answer that is no byte. -/
theorem witness_InitDecTruncated :
    (∀ n < 4, ∀ a, bytesFirst { (zeros n a) with ended := false } n ∧ inAnswerAt { (zeros n a) with ended := false } n = a) ∧
    (∀ n a, { fresh .idle cfgS [] with inPort := zeros n a }.regs.mode = .idle) ∧ cfgValid (fresh .idle cfgS []).regs.config = true ∧
    needWords (fresh .idle cfgS []).regs.config ≤ (fresh .idle cfgS []).params.tableMemWords.toNat :=
  ⟨fun n hn a => (ungiven_reading (r := 0) (window := 0) hn a).2, fun _ _ => rfl, by decide +kernel, by decide +kernel⟩

theorem witness_SessionStartMeetsInvariants :
    (∃ t, exec .initEnc (fresh .idle cfgS []) = .next t ∧ (fresh .idle cfgS []).regs.mode = .idle ∧ t.regs.mode = .enc) ∧
    ∃ t, exec .initDec (fresh .done cfgS [1, 2, 3, 4]) = .next t ∧ (fresh .done cfgS [1, 2, 3, 4]).regs.mode = .done ∧ t.regs.mode = .dec :=
  ⟨⟨_, next_after (s := fresh .idle 0 []) (by decide +kernel), rfl, by decide +kernel⟩,
    _, next_after (s := fresh .idle 0 []) (by decide +kernel), rfl, by decide +kernel⟩

theorem witness_TblReadAnswers : (fresh .faulted 0 []).regs.mode = .faulted ∧ (encoding cfgS).regs.mode ≠ .faulted := by decide +kernel

/-- A decode's end, with each answer the input port can give. -/
def decoded (answer : Option InAnswer) : State :=
  { withRegs (fun r => { r with dir := true }) (fresh .done cfgS []) with
    inPort := { answers := [], rest := answer, ended := false, used := [] } }

theorem witness_DecCheckEndAnswers : (decoded none).regs.mode = .done ∧ (decoded none).regs.dir = true ∧
    [some .endMark, some (.byte 0), some .error].map (fun a => (nextInAnswer { (decoded a).inPort with used := [] }).map Prod.fst) =
      [some .endMark, some (.byte 0), some .error] ∧ nextInAnswer (decoded none).inPort = none := by decide +kernel

/-- The operands at both ends of their ranges; then BIT = 1 and P = 1, two bytes to send, of which the second is not taken; the run at its
bound. -/
theorem witness_RcEncBitNarrows : (encoding cfgS).regs.mode = .enc ∧ CoderInv (encoding cfgS).regs ∧ 1 ≤ 1 ∧ 1 ≤ 32767 ∧ 32767 < 2 ^ 15 ∧ 1 < 2 ^ 15 ∧
    GoesOut (encoding cfgS) (encoding cfgS) 0 (normShifts (0x7FFFFFFF / 2 ^ 15)) ∧
    (∀ port, (sending 0x800000 port).regs.mode = .enc ∧ CoderInv (sending 0x800000 port).regs) ∧ normShifts (0x800000 / 2 ^ 15) = 2 ∧
    (Untaken (sending 0x800000 (taking 1 (some .error))) (sending 0x800000 (taking 1 (some .error))) 0 2 1 (some .error) ∧
      Untaken (sending 0x800000 (taking 1 none)) (sending 0x800000 (taking 1 none)) 0 2 1 none) ∧
    CoderInv brimming.regs ∧ AtBound brimming 0 :=
  ⟨rfl, coderInv_encoding, by decide, by decide, by decide, by decide, goesOut_encoding _ (le_trans (normShifts_le _) (by decide)),
    fun port => ⟨rfl, coderInv_sending (by decide) port⟩, by decide, untaken_sending (by decide) (by decide +kernel),
    brimming_ok.2.1, brimming_ok.2.2.1⟩

theorem witness_RcEncEosNarrows : (encoding cfgS).regs.mode = .enc ∧ CoderInv (encoding cfgS).regs ∧
    GoesOut (encoding cfgS) (encoding cfgS) 0 (normShifts (0x7FFFFFFF - 1)) ∧ GoesOut (encoding cfgS) (encoding cfgS) 0x7FFFFFFE 3 ∧
    (∀ port, CoderInv (sending 0x800000 port).regs) ∧ normShifts (0x800000 - 1) = 1 ∧
    (Untaken (sending 0x800000 (taking 0 (some .error))) (sending 0x800000 (taking 0 (some .error))) 0 1 0 (some .error) ∧
      Untaken (sending 0x800000 (taking 0 none)) (sending 0x800000 (taking 0 none)) 0 1 0 none) ∧
    (Untaken (sending 0x800000 (taking 0 (some .error))) (sending 0x800000 (taking 0 (some .error))) 0x7FFFFF 3 0 (some .error) ∧
      Untaken (sending 0x800000 (taking 0 none)) (sending 0x800000 (taking 0 none)) 0x7FFFFF 3 0 none) ∧
    AtBound brimming 0 ∧ AtBound brimming 0x7FFFFF :=
  ⟨rfl, coderInv_encoding, goesOut_encoding _ (le_trans (normShifts_le _) (by decide)), goesOut_encoding _ (by decide),
    coderInv_sending (by decide), by decide, untaken_sending (by decide) (by decide +kernel), untaken_sending (by decide) (by decide +kernel),
    brimming_ok.2.2⟩

theorem witness_RcEncFreqNarrows : (encoding cfgS).regs.mode = .enc ∧ CoderInv (encoding cfgS).regs ∧
    1 ≤ 1 ∧ 65534 + 1 ≤ 65535 ∧ 65535 < 2 ^ 16 ∧ 0 + 1 ≤ 1 ∧
    GoesOut (encoding cfgS) (encoding cfgS) (65534 * (0x7FFFFFFF / 65535)) (normShifts (0x7FFFFFFF / 65535 * 1)) ∧
    (∀ port, CoderInv (sending 0x800000 port).regs) ∧ normShifts (0x800000 / 65535 * 1) = 2 ∧
    (Untaken (sending 0x800000 (taking 1 (some .error))) (sending 0x800000 (taking 1 (some .error))) 0 2 1 (some .error) ∧
      Untaken (sending 0x800000 (taking 1 none)) (sending 0x800000 (taking 1 none)) 0 2 1 none) ∧ AtBound brimming 0 :=
  ⟨rfl, coderInv_encoding, by decide, by decide, by decide, by decide, goesOut_encoding _ (le_trans (normShifts_le _) (by decide)),
    coderInv_sending (by decide), by decide, untaken_sending (by decide) (by decide +kernel), brimming_ok.2.2.1⟩

theorem witness_RcFlushDrains : (encoding cfgS).regs.mode = .enc ∧ CoderInv (encoding cfgS).regs ∧
    (withRegs (fun r => { r with mode := .encEnding }) (encoding cfgS)).regs.mode = .encEnding ∧
    CoderInv (withRegs (fun r => { r with mode := .encEnding }) (encoding cfgS)).regs ∧ GoesOut (encoding cfgS) (encoding cfgS) 0 5 ∧
    (∀ port, CoderInv (sending 0x800000 port).regs) ∧
    (Untaken (sending 0x800000 (taking 4 (some .error))) (sending 0x800000 (taking 4 (some .error))) 0 5 4 (some .error) ∧
      Untaken (sending 0x800000 (taking 4 none)) (sending 0x800000 (taking 4 none)) 0 5 4 none) ∧ AtBound brimming 0 :=
  ⟨rfl, coderInv_encoding, rfl, coderInv_start rfl rfl rfl rfl, goesOut_encoding _ (by decide), coderInv_sending (by decide),
    untaken_sending (by decide) (by decide +kernel), brimming_ok.2.2.1⟩

theorem witness_EncEndDrains : (encoding cfgS).regs.mode = .enc ∧ CoderInv (encoding cfgS).regs ∧
    GoesOut (encoding cfgS) (encoding cfgS) 0x7FFFFFFE 8 ∧ (∀ port, CoderInv (sending 0x800000 port).regs) ∧
    (Untaken (sending 0x800000 (taking 7 (some .error))) (sending 0x800000 (taking 7 (some .error))) 0x7FFFFF 8 7 (some .error) ∧
      Untaken (sending 0x800000 (taking 7 none)) (sending 0x800000 (taking 7 none)) 0x7FFFFF 8 7 none) ∧ AtBound brimming 0x7FFFFF :=
  ⟨rfl, coderInv_encoding, goesOut_encoding _ (by decide), coderInv_sending (by decide), untaken_sending (by decide) (by decide +kernel),
    brimming_ok.2.2.2⟩

/-- The window on either side of the split 0x3FFFC000. -/
theorem witness_RcDecBitDecodes :
    (decoding 0x3FFFBFFF 0 []).regs.mode = .dec ∧ 2 ^ 23 ≤ (decoding 0x3FFFBFFF 0 []).regs.rcRange.toNat ∧ 1 ≤ 16384 ∧ 16384 < 2 ^ 15 ∧
    (decoding 0x3FFFBFFF 0 []).regs.rcBuffer.toNat < (decoding 0x3FFFBFFF 0 []).regs.rcRange.toNat / 2 ^ 15 * 16384 ∧
    (decoding 0x3FFFC000 0 []).regs.rcRange.toNat / 2 ^ 15 * 16384 ≤ (decoding 0x3FFFC000 0 []).regs.rcBuffer.toNat ∧
    givesBytes (decoding 0x3FFFBFFF 0 []).inPort (normShifts (0x7FFFFFFF / 2 ^ 15 * 16384)) ∧
    givesBytes (decoding 0x3FFFC000 0 []).inPort (normShifts (0x7FFFFFFF - 0x7FFFFFFF / 2 ^ 15 * 16384)) ∧
    normShifts (0x800000 / 2 ^ 15 * 1) = 2 ∧ ∀ a, Ungiven (reading 0x800000 0 (zeros 1 a)) 2 1 a :=
  ⟨rfl, by decide +kernel, by decide, by decide, by decide +kernel, by decide +kernel, gives_decoding _ _ (by decide +kernel),
    gives_decoding _ _ (by decide +kernel),
    by decide, ungiven_reading (by decide)⟩

/-- The window on either side of R - 1. -/
theorem witness_RcDecEosDecodes :
    (decoding 0x7FFFFFFD 0 [0, 0, 0]).regs.mode = .dec ∧ 2 ^ 23 ≤ (decoding 0x7FFFFFFD 0 [0, 0, 0]).regs.rcRange.toNat ∧
    (decoding 0x7FFFFFFD 0 [0, 0, 0]).regs.rcBuffer.toNat < (decoding 0x7FFFFFFD 0 [0, 0, 0]).regs.rcRange.toNat - 1 ∧
    givesBytes (decoding 0x7FFFFFFD 0 [0, 0, 0]).inPort (normShifts (0x7FFFFFFF - 1)) ∧
    (decoding 0x7FFFFFFE 0 [0, 0, 0]).regs.rcRange.toNat - 1 ≤ (decoding 0x7FFFFFFE 0 [0, 0, 0]).regs.rcBuffer.toNat ∧
    givesBytes (decoding 0x7FFFFFFE 0 [0, 0, 0]).inPort 3 ∧
    normShifts (0x800000 - 1) = 1 ∧ (∀ a, Ungiven (reading 0x800000 0 (zeros 0 a)) 1 0 a) ∧
    ∀ a, Ungiven (reading 0x800000 0x7FFFFF (zeros 2 a)) 3 2 a :=
  ⟨rfl, by decide +kernel, by decide +kernel, gives_decoding _ _ (by decide +kernel), by decide +kernel, gives_decoding _ _ (by decide),
    by decide, ungiven_reading (by decide), ungiven_reading (by decide)⟩

theorem witness_RcDecTargetAnswers : (decoding 0x7FFFFFFF 0 []).regs.mode = .dec ∧
    2 ^ 23 ≤ (decoding 0x7FFFFFFF 0 []).regs.rcRange.toNat ∧ 1 ≤ 65535 ∧ 65535 < 2 ^ 16 ∧
    (decoding 0x7FFFFFFE 0 []).regs.rcBuffer.toNat / ((decoding 0x7FFFFFFE 0 []).regs.rcRange.toNat / 1) < 1 ∧
    1 ≤ (decoding 0x7FFFFFFF 0 []).regs.rcBuffer.toNat / ((decoding 0x7FFFFFFF 0 []).regs.rcRange.toNat / 1) := by decide +kernel

/-- The target 3 at both ends of an interval, and just outside one. -/
theorem witness_RcDecNarrowNarrows : (decoding 0x26666664 0 []).regs.mode = .dec ∧
    2 ^ 23 ≤ (decoding 0x26666664 0 []).regs.rcRange.toNat ∧ 1 ≤ 2 ∧ 3 + 2 ≤ 10 ∧ 10 < 2 ^ 16 ∧
    3 ≤ (decoding 0x26666664 0 []).regs.rcBuffer.toNat / (0x7FFFFFFF / 10) ∧
    (decoding 0x26666664 0 []).regs.rcBuffer.toNat / (0x7FFFFFFF / 10) < 3 + 2 ∧
    givesBytes (decoding 0x26666664 0 []).inPort (normShifts (0x7FFFFFFF / 10 * 2)) ∧
    ¬(0 ≤ (decoding 0x26666664 0 []).regs.rcBuffer.toNat / (0x7FFFFFFF / 10) ∧
      (decoding 0x26666664 0 []).regs.rcBuffer.toNat / (0x7FFFFFFF / 10) < 0 + 3) ∧
    normShifts (0x800000 / 65535 * 1) = 2 ∧ ∀ a, Ungiven (reading 0x800000 0 (zeros 1 a)) 2 1 a :=
  ⟨rfl, by decide +kernel, by decide, by decide, by decide, by decide +kernel, by decide +kernel, gives_decoding _ _ (by decide +kernel),
    by decide +kernel,
    by decide, ungiven_reading (by decide)⟩

/-- The high member's probability the greater, in a dual session; and a tie. -/
theorem witness_PredictReadsTheTables :
    cfgDual (encoding cfgA).regs.scfg = true ∧ ¬(predictMember .lo (encoding cfgA)).prob < (predictMember .hi (encoding cfgA)).prob ∧
    (predictMember .lo { encoding cfgA with tables := { sessionStartTables with apmHi := [(0, 0x4080)] } }).prob <
      (predictMember .hi { encoding cfgA with tables := { sessionStartTables with apmHi := [(0, 0x4080)] } }).prob := by decide +kernel

theorem witness_HashWorkedValues : ({ Regs.reset with context := 0x41#64, scfg := cfgA } : Regs).context = 0x41#64 ∧
    ({ Regs.reset with scfg := cfgA } : Regs).scfg = 0x020F041001100200#64 ∧
    ({ Regs.reset with context := 0x6162636465666768#64, scfg := cfgA } : Regs).context = 0x6162636465666768#64 := by decide

theorem witness_LiteralIntervals : 255 < 256 ∧ cfgValid (encoding cfgS).regs.scfg = true ∧
    LitContextOk (encoding cfgS) (litCtx (encoding cfgS)) :=
  ⟨by decide, by decide, codable_encoding.session.lit _ (litCtx_lt _)⟩

theorem witness_LitTrainKeepsTheBound : 255 < 256 ∧ cfgValid (encoding cfgS).regs.scfg = true ∧
    Memory.wf (encoding cfgS).regs.scfg (encoding cfgS).tables ∧ LitContextOk (encoding cfgS) (litCtx (encoding cfgS)) :=
  ⟨by decide, by decide, codable_encoding.memory, codable_encoding.session.lit _ (litCtx_lt _)⟩

theorem witness_Log2DefaultIsExact : 1 ≤ 32767 ∧ log2FixValue .exact 2 = some 16384 ∧ log2FixValue .exact 3 = some 25968 := by decide +kernel

theorem witness_CostStaysBounded : log2Permitted (encoding cfgS).params.log2Fix ∧ 1 ≤ 1 ∧ 1 ≤ 32767 ∧ 32767 ≤ 32767 ∧
    (encoding cfgS).regs.cost.toNat < 2 ^ 31 ∧ (encoding cfgS).params.log2Fix = .exact ∧ (encoding cfgS).regs.cost.toNat ≤ 31457280 :=
  ⟨log2Permitted_exact, by decide, by decide, by decide, by decide, rfl, by decide⟩

/-- An encoder on a port that takes `n` bytes and no other: ENC_SYM sends one for the predicted byte, two for another. -/
def sendingTo (n : Nat) : State := sending 0x800001 (taking n (some .error))

/-- Its state after the end flag. -/
def pastEnd (n : Nat) : State := leaves (encEos false) (sendingTo n)

/-- Its state after a match flag 0. -/
def pastFlag (n : Nat) : State := leaves (do encEos false; encFlag 0x4000 false) (sendingTo n)

/-- The prediction of a fresh session is 0x00: a hit and a miss. A port that takes exactly the bytes sent. A byte not taken, and the run
at its bound, at the end flag; then a byte not taken at the match flag, and at the literal. -/
theorem witness_EncSymCodes :
    ((encoding cfgS).regs.mode = .enc ∧ EncoderReady (encoding cfgS) ∧ SymbolsCodable (encoding cfgS) ∧
      0x00#8 = (choose (encoding cfgS)).symbol ∧ 0x41#8 ≠ (choose (encoding cfgS)).symbol) ∧
    ((∀ n, GoesOut (sendingTo n) (sendingTo n) 0 (normShifts (0x800001 - 1))) ∧
      GoesOut (sendingTo 1) (pastEnd 1) 0 (normShifts 0x400000) ∧ GoesOut (sendingTo 2) (pastEnd 2) 0x400000 (normShifts 0x400000) ∧
      GoesOut (sendingTo 2) (pastFlag 2) (literalLow (sendingTo 2) (pastFlag 2).regs.rcRange.toNat 0 0x41)
        (normShifts (literalWidth (sendingTo 2) (pastFlag 2).regs.rcRange.toNat 0 0x41)) ∧
      see (exec (.encSym 0) (sendingTo 1)) (fun t => (causeOf t, t.outPort.taken)) = some (0, [0x12]) ∧
      see (exec (.encSym 0x41) (sendingTo 2)) (fun t => (causeOf t, t.outPort.taken)) = some (0, [0x12, 0])) ∧
    (∀ r port, 2 ^ 23 ≤ r.toNat → CoderInv (sending r port).regs ∧ SymbolsCodable (sending r port)) ∧
    (normShifts (0x800000 - 1) = 1 ∧
      Untaken (sending 0x800000 (taking 0 (some .error))) (sending 0x800000 (taking 0 (some .error))) 0 1 0 (some .error) ∧
      Untaken (sending 0x800000 (taking 0 none)) (sending 0x800000 (taking 0 none)) 0 1 0 none) ∧ AtBound brimming 0 ∧
    (∀ a, GoesOut (sending 0x800001 (taking 0 a)) (sending 0x800001 (taking 0 a)) 0 (normShifts (0x800001 - 1))) ∧
    Untaken (sending 0x800001 (taking 0 (some .error))) (leaves (encEos false) (sending 0x800001 (taking 0 (some .error)))) 0x400000 1 0
      (some .error) ∧
    see (exec (.encSym 0x41) (sending 0x800001 (taking 0 (some .error)))) (fun t => (causeOf t, t.outPort.taken)) = some (1, []) ∧
    Untaken (sending 0x40000000 (taking 0 (some .error)))
      (leaves (do encEos false; encFlag 0x4000 false) (sending 0x40000000 (taking 0 (some .error)))) 0 1 0 (some .error) ∧
    see (exec (.encSym 0x41) (sending 0x40000000 (taking 0 (some .error)))) (fun t => (causeOf t, t.outPort.taken)) = some (1, []) :=
  ⟨⟨rfl, encoderReady_encoding, codable_encoding, by decide +kernel, by decide +kernel⟩,
    ⟨fun n => goesOut_of rfl rfl (by decide) (Nat.zero_le _), goesOut_of rfl (by decide +kernel) (by decide) (by decide +kernel),
      goesOut_of rfl (by decide +kernel) (by decide) (by decide +kernel),
      goesOut_of rfl (by decide +kernel) (by decide +kernel) (by decide +kernel), by decide +kernel, by decide +kernel⟩,
    fun r port hr => ⟨coderInv_sending hr port, codable_sending hr port⟩,
    ⟨by decide, untaken_sending (by decide) (by decide +kernel)⟩, brimming_ok.2.2.1,
    fun a => ⟨fun j hj => absurd hj (by decide +revert), fun m hm => absurd hm (Nat.not_lt_zero _)⟩,
    untaken_of rfl (by decide +kernel) (by decide) (by decide +kernel) (by decide +kernel), by decide +kernel,
    untaken_of rfl (by decide +kernel) (by decide) (by decide +kernel) (by decide +kernel), by decide +kernel⟩

/-- Nine bytes for DEC_SYM, of which it reads at most nine. -/
def nine : List Byte := List.replicate 9 0

/-- A window just below the split, one inside a literal's interval, and one above every literal's interval; an input that fails at the
end flag, at the match flag, at the literal; an output that does not take the byte. -/
theorem witness_DecSymDecodes :
    (∀ w, (decoding w 0 nine).regs.mode = .dec ∧ SymbolsCodable (decoding w 0 nine) ∧ (∀ n ≤ 9, givesBytes (decoding w 0 nine).inPort n) ∧
      outAnswerAt (decoding w 0 nine).outPort 0 = some .accept) ∧
    [0x3FFFBFFF#31, 0x503850B1#31, 0x7FFFFFF8#31].map (fun w => (decide (w.toNat < 0x7FFFFFFF - 1),
      see (exec .decSym (decoding w 0 nine)) (fun t => (t.outPort.taken, causeOf t)))) =
      [(true, some ([0x00], 0)), (true, some ([0x41], 0)), (true, some ([], 19))] ∧
    (∀ r w port, 2 ^ 23 ≤ r.toNat → SymbolsCodable (reading r w port)) ∧
    ((∀ a, Ungiven (reading 0x800000 0 (zeros 0 a)) (normShifts (0x800000 - 1)) 0 a) ∧
      (∀ a, Ungiven (reading 0x800001 0 (zeros 0 a)) (0 + normShifts 0x400000) 0 a) ∧
      ∀ a, Ungiven (reading 0x40000000 0x1FFFC000 (zeros 0 a)) (0 + 0 + normShifts (536887295 / 255)) 0 a) ∧
    [exec .decSym (reading 0x800000 0 (zeros 0 (some .endMark))), exec .decSym (reading 0x800001 0 (zeros 0 (some .endMark))),
      exec .decSym (reading 0x40000000 0x1FFFC000 (zeros 0 (some .endMark))),
      exec .decSym { decoding 0x503850B1 0 nine with outPort := taking 0 (some .error) }].map (fun o => see o causeOf) =
      [some 2, some 2, some 2, some 1] ∧
    see (exec .decSym { decoding 0x503850B1 0 nine with outPort := taking 0 none }) (fun t => t.regs.busy) = some true :=
  ⟨fun w => ⟨rfl, codable_decoding w 0 nine, fun n hn => gives_decoding w 0 hn, rfl⟩, by decide +kernel,
    fun r w port hr => codable_reading hr w port,
    ⟨ungiven_reading (by decide), ungiven_reading (by decide), ungiven_reading (by decide)⟩, by decide +kernel, by decide +kernel⟩

theorem witness_DecSymEnds : (decoding 0x7FFFFFFE 0 [0, 0, 0]).regs.mode = .dec ∧ 2 ^ 23 ≤ (decoding 0x7FFFFFFE 0 [0, 0, 0]).regs.rcRange.toNat ∧
    (decoding 0x7FFFFFFE 0 [0, 0, 0]).regs.rcRange.toNat - 1 ≤ (decoding 0x7FFFFFFE 0 [0, 0, 0]).regs.rcBuffer.toNat ∧
    givesBytes (decoding 0x7FFFFFFE 0 [0, 0, 0]).inPort 3 ∧
    ∀ a, Ungiven (reading 0x800000 0x7FFFFF (zeros 2 a)) 3 2 a :=
  ⟨rfl, by decide +kernel, by decide +kernel, gives_decoding _ _ (by decide),
    ungiven_reading (by decide)⟩

theorem witness_ApmEntriesStayInRange :
    (∃ t, MachineInv { encoding cfgS with cmdFifo := [0x1000000000000041] } ∧
      step { encoding cfgS with cmdFifo := [0x1000000000000041] } = .next t ∧ t.stall = none ∧ streaming t.regs.mode) ∧ 127 ≤ 32641 :=
  ⟨⟨_, machineInv_encoding _, next_after (s := encoding cfgS) (by decide +kernel), by decide +kernel, .inl (by decide +kernel)⟩, by decide⟩

/-- RC_FLUSH against an output port that refuses. -/
theorem witness_CarryOverflowUnreachable : ∃ t, (Instr.rcFlush).wellFormed = true ∧
    MachineInv { encoding cfgS with outPort := { answers := [.error], rest := none, used := [], taken := [] } } ∧
    exec .rcFlush { encoding cfgS with outPort := { answers := [.error], rest := none, used := [], taken := [] } } = .next t ∧
    t.regs.mode = .faulted :=
  ⟨_, rfl, ⟨log2Permitted_exact, fun _ => ⟨rfl, memoryWf_start cfgS, fun _ => ⟨sessionOk_start (c := cfgS) rfl rfl (by decide) rfl rfl,
    by decide⟩, fun _ => coderInv_start rfl rfl rfl rfl⟩, fun _ h => by cases h⟩, next_after (s := encoding cfgS) (by decide +kernel),
    by decide +kernel⟩

/-- The decoder of the stream of "A" (spec/95 2.6): A0 A0 40 FF primed, FE and three zero bytes to come. -/
def decoderOfA : State := decoding 0x5050207F 0xFF [0xFE, 0, 0, 0]

/-- The encoder after ENC_SYM BYTE=0x41. -/
def encodedA : State := after (encoding cfgS) (exec (.encSym 0x41) (encoding cfgS))

theorem witness_SymbolRoundTrip :
    (encoding cfgS).regs.mode = .enc ∧ EncoderReady (encoding cfgS) ∧ SymbolsCodable (encoding cfgS) ∧ decoderOfA.regs.mode = .dec ∧
    SymbolsCodable decoderOfA ∧ acceptsAll decoderOfA.outPort ∧ SameModel (encoding cfgS) decoderOfA ∧
    (encoding cfgS).regs.rcRange = decoderOfA.regs.rcRange ∧ exec (.encSym (0x41#8).toNat) (encoding cfgS) = .next encodedA ∧
    (shiftedOut encodedA).length = (shiftedOut (encoding cfgS)).length + 1 ∧ givesBytes decoderOfA.inPort 1 ∧
    Inside encodedA (streamValue (encoding cfgS) decoderOfA 1) 0 :=
  ⟨rfl, encoderReady_encoding, codable_encoding, rfl, codable_decoding _ _ _, accepts_decoding _ _ _, ⟨rfl, rfl, rfl, rfl, rfl, rfl, rfl⟩, rfl,
    next_after (s := encoding cfgS) (by decide +kernel), by decide +kernel, gives_decoding _ _ (by decide), by
      unfold Inside
      decide +kernel⟩

theorem canStart_fresh (bytes : List Byte) : CanStart (fresh .idle cfgS bytes) :=
  ⟨.inl rfl, by show cfgValid cfgS = true; decide, by show needWords cfgS ≤ params.tableMemWords.toNat; decide, log2Permitted_exact,
    (fun a h => by cases h), rfl⟩

/-- The session of one byte 0x41 on CFG_S, and a decoder given its stream (the bytes are those of spec/95_test_vectors.md). -/
theorem witness_MessageRoundTrip :
    CanStart (fresh .idle cfgS []) ∧ CanStart (fresh .idle cfgS [0xA0, 0xA0, 0x40, 0xFF, 0xFE, 0x00, 0x00, 0x00]) ∧
    (runCommands [.initEnc, .encSym 0x41, .encEnd] (fresh .idle cfgS [])).map (fun t => t.outPort.taken) =
      some [0xA0, 0xA0, 0x40, 0xFF, 0xFE, 0x00, 0x00, 0x00] :=
  ⟨canStart_fresh _, canStart_fresh _, by decide +kernel⟩

theorem witness_MachineInvariantKept : MachineInv { encoding cfgS with cmdFifo := [0x1000000000000041] } := machineInv_encoding _

theorem witness_MemoryFormKept : ∃ t, MemoryInv { encoding cfgS with cmdFifo := [0x1000000000000041] } ∧
    step { encoding cfgS with cmdFifo := [0x1000000000000041] } = .next t :=
  ⟨_, ⟨memoryWf_start cfgS, fun _ h => by cases h⟩, next_after (s := encoding cfgS) (by decide +kernel)⟩

theorem witness_ResetMeetsInvariants : MachineInv (encoding cfgS) := machineInv_encoding []

end Sys2Proof.Tests
end

