-- ==== Sys2Proof/Proofs/Invariant.lean ====
section
/-! The machine's invariant is kept by every step (O58): a decoded command is well formed, each command's rule is sound from a settled
state, and so are an illegal word, a waiting command taken up again, and an idle step. -/

namespace Sys2Proof.Machine

/-! ### A decoded command is well formed -/

/-- What a field of a word holds fits the field. -/
theorem fits_bits {width hi lo : Nat} (w : Word64) (h : width = hi + 1 - lo) : fits width (bits w hi lo) = true := by
  subst h
  exact decide_eq_true (Nat.mod_lt _ (Nat.two_pow_pos _))

theorem controlRows_wellFormed (w : Word64) : ∀ r ∈ controlRows, (r.build w).wellFormed = true := by
  simp [controlRows, Instr.wellFormed, fits_bits]

theorem symbolRows_wellFormed (w : Word64) : ∀ r ∈ symbolRows, (r.build w).wellFormed = true := by
  simp [symbolRows, Instr.wellFormed, fits_bits]

theorem rawCoderRows_wellFormed (w : Word64) : ∀ r ∈ rawCoderRows, (r.build w).wellFormed = true := by
  simp [rawCoderRows, Instr.wellFormed, fits_bits]

/-- Every row of the opcode map builds a command whose operands fit their fields (R91). -/
theorem opcodeMap_wellFormed (w : Word64) {r : Row} (hr : r ∈ opcodeMap) : (r.build w).wellFormed = true := by
  unfold opcodeMap at hr
  rcases List.mem_append.mp hr with hr | hr
  · rcases List.mem_append.mp hr with hr | hr
    · exact controlRows_wellFormed w r hr
    · exact symbolRows_wellFormed w r hr
  · exact rawCoderRows_wellFormed w r hr

theorem wellFormed_of_decode {w : Word64} {i : Instr} (h : decode w = .ok i) : i.wellFormed = true := by
  unfold decode at h
  split at h
  · next r hr => cases h; exact opcodeMap_wellFormed w (List.mem_of_find?_eq_some hr)
  · split at h <;> cases h

/-! ### A command from a settled state -/

theorem fits_iff {width v : Nat} : fits width v = true ↔ v < 2 ^ width := decide_eq_true_iff

/-- The rule of every well-formed command that may run is sound from a settled state. -/
theorem ruleOf_sound {i : Instr} {s : State} (hw : i.wellFormed = true) (hp : log2Permitted s.params.log2Fix) (hs : SettledOk s)
    (hl : legal i s.regs.mode s.regs.dir = true) (ho : operandsInRange i = true) : RuleSound i s (ruleOf i) := by
  cases i with
  | nop => exact sound_nop hs
  | setcfgHi imm32 => exact sound_setcfgHi hs imm32
  | setcfgLo imm32 => exact sound_setcfgLo hs imm32
  | setirq en clr => exact sound_setirq hs en clr
  | initEnc => exact sound_initEnc hp hs
  | initDec => exact sound_initDec hp hs
  | tblRead tid idx => exact sound_tblRead hs tid idx
  | decCheckEnd => exact sound_decCheckEnd hs
  | encSym byte => exact sound_encSym hp hs byte hl
  | encEnd => exact sound_encEnd hp hs hl
  | decSym => exact sound_decSym hp hs hl
  | rcEncBit bit p =>
    simp only [Instr.wellFormed, Bool.and_eq_true, fits_iff] at hw
    exact sound_rcEncBit hp hs bit p hw.2 hl ho
  | rcDecBit p => exact sound_rcDecBit hp hs p (fits_iff.mp hw) hl ho
  | rcEncEos last => exact sound_rcEncEos hp hs last hl
  | rcDecEos => exact sound_rcDecEos hp hs hl
  | rcEncFreq cum freq tot =>
    simp only [Instr.wellFormed, Bool.and_eq_true, fits_iff] at hw
    exact sound_rcEncFreq hp hs cum freq tot hw.2 hl ho
  | rcDecTarget tot => exact sound_rcDecTarget hp hs tot (fits_iff.mp hw) hl ho
  | rcDecNarrow cum freq tot =>
    simp only [Instr.wellFormed, Bool.and_eq_true, fits_iff] at hw
    exact sound_rcDecNarrow hp hs cum freq tot hw.2 hl ho
  | rcFlush => exact sound_rcFlush hs

theorem exec_machineInv {i : Instr} {s : State} (hw : i.wellFormed = true) (hp : log2Permitted s.params.log2Fix) (hs : SettledOk s) :
    ∃ t, exec i s = .next t ∧ MachineInv t := by
  rw [exec_eq]
  exact executeCommand_sound hp hs (ruleOf_sound hw hp hs)

/-! ### A step -/

/-- A settled state in which no command waits has the machine's invariant. -/
theorem machineInv_of_settled {s : State} (hp : log2Permitted s.params.log2Fix) (hn : s.stall = none) (hs : SettledOk s) :
    MachineInv s :=
  ⟨hp, fun _ => hs, fun st hst => by rw [hn] at hst; cases hst⟩

/-- An illegal word leaves the block in FAULTED, the memory as it was (R95, R112). -/
theorem executeIllegal_machineInv {s : State} (w : Word64) (hp : log2Permitted s.params.log2Fix) (hs : SettledOk s) :
    MachineInv (executeIllegal w s) := by
  unfold executeIllegal
  split
  · next hf => exact machineInv_of_settled hp rfl (settledOk_quiet rfl hs.memory (by simp [streaming, hf]))
  · exact machineInv_of_settled hp rfl (settledOk_quiet rfl hs.memory (by simp [streaming]))

/-- The invariant does not speak of the FIFO. -/
theorem SettledOk.of_cmdFifo {s : State} (hs : SettledOk s) (words : List Word64) : SettledOk { s with cmdFifo := words } :=
  settledOk_same hs hs.idle ⟨rfl, rfl, rfl, rfl, rfl, rfl, rfl⟩ rfl rfl ⟨rfl, rfl, rfl, rfl, rfl, rfl⟩

/-- What the block executes next it executes from a settled state (R72, R299). -/
theorem settledOk_of_fetch {s t : State} {w : Word64} (hs : MachineInv s) (h : fetchCommand s = some (w, t)) :
    t.params = s.params ∧ SettledOk t := by
  rcases fetchCommand_cases h with ⟨st, hst, heq⟩ | ⟨-, -, heq⟩ | ⟨v, later, hn, -, heq⟩
  · cases heq; exact ⟨rfl, hs.waiting st hst⟩
  · cases heq
  · cases heq; exact ⟨rfl, (hs.settled hn).of_cmdFifo later⟩

/-- Settles O58: a step is idle, or executes a well-formed command or an illegal word from a settled state. -/
theorem machineInvariantKept : Obligations.MachineInvariantKept := by
  intro s hs
  unfold step
  split
  · exact ⟨s, rfl, hs⟩
  · next w t hfetch =>
    obtain ⟨hparams, hsettled⟩ := settledOk_of_fetch hs hfetch
    have hp : log2Permitted t.params.log2Fix := hparams ▸ hs.params
    split
    · next i hi => exact exec_machineInv (wellFormed_of_decode hi) hp hsettled
    · exact ⟨_, rfl, executeIllegal_machineInv w hp hsettled⟩

end Sys2Proof.Machine
end

