-- ==== Sys2Proof/Proofs/Course.lean ====
section
/-! The courses a command can take, said once for the statements about the registers: which state its rule had reached, and how it ended.
`Executed` says how a command can end; here a command that runs in FAULTED never breaks off, and only such a command retires there. -/

namespace Sys2Proof.Machine

/-! ### What the coding procedures and a session start keep -/

/-- The registers that neither a session start nor a coding procedure writes. -/
structure ControlKept (r u : Regs) : Prop where
  mode : u.mode = r.mode
  dir : u.dir = r.dir
  config : u.config = r.config
  faultCause : u.faultCause = r.faultCause
  faultCmd : u.faultCmd = r.faultCmd
  faultWord : u.faultWord = r.faultWord
  irqEn : u.irqEn = r.irqEn
  irqPend : u.irqPend = r.irqPend
  cmdCount : u.cmdCount = r.cmdCount

theorem ControlKept.refl (r : Regs) : ControlKept r r := ⟨rfl, rfl, rfl, rfl, rfl, rfl, rfl, rfl, rfl⟩

theorem ControlKept.trans {r u v : Regs} (h : ControlKept r u) (h' : ControlKept u v) : ControlKept r v :=
  ⟨h'.mode.trans h.mode, h'.dir.trans h.dir, h'.config.trans h.config, h'.faultCause.trans h.faultCause,
    h'.faultCmd.trans h.faultCmd, h'.faultWord.trans h.faultWord, h'.irqEn.trans h.irqEn, h'.irqPend.trans h.irqPend,
    h'.cmdCount.trans h.cmdCount⟩

/-- The registers of a state that a coding procedure has run in, as an update of those it began from. -/
theorem RuleFrame.regs_eq {s t : State} (h : RuleFrame s t) :
    t.regs = { s.regs with
      rcBuffer := t.regs.rcBuffer, rcRange := t.regs.rcRange, carry := t.regs.carry, delayValid := t.regs.delayValid
      delay := t.regs.delay, ffrun := t.regs.ffrun, look := t.regs.look, context := t.regs.context, histLo := t.regs.histLo
      histHi := t.regs.histHi, cost := t.regs.cost, inCount := t.regs.inCount, outCount := t.regs.outCount } := by
  have hr : (ruleErased t).regs = (ruleErased s).regs := by rw [h.erased]
  simp only [ruleErased, Regs.mk.injEq] at hr
  cases ht : t.regs
  simp_all

theorem RuleFrame.controlKept {s t : State} (h : RuleFrame s t) : ControlKept s.regs t.regs := by
  rw [h.regs_eq]
  exact ⟨rfl, rfl, rfl, rfl, rfl, rfl, rfl, rfl, rfl⟩

theorem RuleFrame.busy {s t : State} (h : RuleFrame s t) : t.regs.busy = s.regs.busy := by rw [h.regs_eq]
theorem RuleFrame.scfg {s t : State} (h : RuleFrame s t) : t.regs.scfg = s.regs.scfg := by rw [h.regs_eq]
theorem RuleFrame.tablesValid {s t : State} (h : RuleFrame s t) : t.regs.tablesValid = s.regs.tablesValid := by rw [h.regs_eq]
theorem RuleFrame.result {s t : State} (h : RuleFrame s t) : t.regs.result = s.regs.result := by rw [h.regs_eq]

theorem RuleFrame.params {s t : State} (h : RuleFrame s t) : t.params = s.params := by
  have hp : (ruleErased t).params = (ruleErased s).params := by rw [h.erased]
  exact hp

/-- The state in which the coding procedures of command `i`, begun in `s`, run: the command taken, and its session started where it
starts one, between sessions (R110, R119). -/
def Opened (i : Instr) (s v : State) : Prop :=
  v = takeCommand s ∨
    ((i = .initEnc ∨ i = .initDec) ∧ (s.regs.mode = .idle ∨ s.regs.mode = .done) ∧ v = sessionStarted (takeCommand s))

/-- The state `u` is one the rule of command `i`, begun in `s`, can have reached before its last register write. -/
def Reached (i : Instr) (s u : State) : Prop := ∃ v, Opened i s v ∧ RuleFrame v u

theorem sessionStarted_controlKept (s : State) : ControlKept s.regs (sessionStarted s).regs :=
  ⟨rfl, rfl, rfl, rfl, rfl, rfl, rfl, rfl, rfl⟩

theorem takeCommand_controlKept (s : State) : ControlKept s.regs (takeCommand s).regs := ⟨rfl, rfl, rfl, rfl, rfl, rfl, rfl, rfl, rfl⟩

theorem Opened.controlKept {i : Instr} {s v : State} (h : Opened i s v) : ControlKept s.regs v.regs := by
  rcases h with rfl | ⟨-, -, rfl⟩
  · exact takeCommand_controlKept s
  · exact (takeCommand_controlKept s).trans (sessionStarted_controlKept _)

theorem Opened.busy {i : Instr} {s v : State} (h : Opened i s v) : v.regs.busy = true := by
  rcases h with rfl | ⟨-, -, rfl⟩ <;> rfl

theorem Opened.params {i : Instr} {s v : State} (h : Opened i s v) : v.params = s.params := by
  rcases h with rfl | ⟨-, -, rfl⟩ <;> rfl

/-- A command that starts no session opens with the command taken alone. -/
theorem Opened.eq_take {i : Instr} {s v : State} (h : Opened i s v) (he : i ≠ .initEnc) (hd : i ≠ .initDec) : v = takeCommand s :=
  h.resolve_right fun ⟨hi, _⟩ => hi.elim he hd

/-- SCFG and TABLES_VALID are as the command `i` found them in `s`, or it has started a session of CONFIG (R26, R302). -/
def Latched (i : Instr) (s : State) (r : Regs) : Prop :=
  (r.scfg = s.regs.scfg ∧ r.tablesValid = s.regs.tablesValid) ∨
    ((i = .initEnc ∨ i = .initDec) ∧ (s.regs.mode = .idle ∨ s.regs.mode = .done) ∧ r.scfg = s.regs.config ∧ r.tablesValid = true)

theorem Opened.latched {i : Instr} {s v : State} (h : Opened i s v) : Latched i s v.regs := by
  rcases h with rfl | ⟨hi, hm, rfl⟩
  · exact .inl ⟨rfl, rfl⟩
  · exact .inr ⟨hi, hm, rfl, rfl⟩

theorem Reached.controlKept {i : Instr} {s u : State} (h : Reached i s u) : ControlKept s.regs u.regs :=
  let ⟨_, hv, hu⟩ := h
  hv.controlKept.trans hu.controlKept

theorem Reached.busy {i : Instr} {s u : State} (h : Reached i s u) : u.regs.busy = true :=
  let ⟨_, hv, hu⟩ := h
  hu.busy.trans hv.busy

theorem Reached.params {i : Instr} {s u : State} (h : Reached i s u) : u.params = s.params :=
  let ⟨_, hv, hu⟩ := h
  hu.params.trans hv.params

theorem Reached.latched {i : Instr} {s u : State} (h : Reached i s u) : Latched i s u.regs := by
  obtain ⟨v, hv, hu⟩ := h
  unfold Latched
  rw [hu.scfg, hu.tablesValid]
  exact hv.latched

/-- The state that fault entry finds: one the rule has reached, what an imprecise fault leaves undefined being so (R265, R266). -/
def LeftAtFault (i : Instr) (s u : State) : Prop := ∃ v, Reached i s v ∧ (u = v ∨ u = undefineAfterFault v)

theorem leftAtFault_take (i : Instr) (s : State) : LeftAtFault i s (takeCommand s) :=
  ⟨_, ⟨_, .inl rfl, RuleFrame.refl _⟩, .inl rfl⟩

theorem LeftAtFault.controlKept {i : Instr} {s u : State} (h : LeftAtFault i s u) : ControlKept s.regs u.regs := by
  obtain ⟨v, hv, rfl | rfl⟩ := h
  · exact hv.controlKept
  · exact hv.controlKept.trans ⟨rfl, rfl, rfl, rfl, rfl, rfl, rfl, rfl, rfl⟩

theorem LeftAtFault.params {i : Instr} {s u : State} (h : LeftAtFault i s u) : u.params = s.params := by
  obtain ⟨v, hv, rfl | rfl⟩ := h <;> exact hv.params

theorem LeftAtFault.latched {i : Instr} {s u : State} (h : LeftAtFault i s u) : Latched i s u.regs := by
  obtain ⟨v, hv, rfl | rfl⟩ := h <;> exact hv.latched

/-! ### What a rule writes last -/

/-- A session start is legal between sessions alone (R111). -/
theorem betweenSessions_of_legal {i : Instr} {m : Mode} {dir : Bool} (hi : i = .initEnc ∨ i = .initDec) (h : legal i m dir = true) :
    m = .idle ∨ m = .done := by
  rcases hi with rfl | rfl <;> simpa [legal, betweenSessions] using h

/-- The commands that write RESULT where they retire (R36). -/
def writesResult : Instr → Bool
  | .initEnc | .initDec | .tblRead _ _ | .decCheckEnd | .decSym | .rcDecBit _ | .rcDecEos | .rcDecTarget _ => true
  | .nop | .setcfgHi _ | .setcfgLo _ | .setirq _ _ | .encSym _ | .encEnd | .rcEncBit _ _ | .rcEncEos _ | .rcEncFreq _ _ _
  | .rcDecNarrow _ _ _ | .rcFlush => false

/-- What the last register write of a command that may run does, by the change of MODE (R22): none, and then it writes only what the
command names; or one of the listed ones, with DIR and IRQ_PEND[1] (R23, R38). -/
inductive LastWrite (i : Instr) (r u : Regs) : Prop where
  | quiet (writes : u = { r with config := u.config, irqEn := u.irqEn, irqPend := u.irqPend, result := u.result })
      (config : (∀ imm, i ≠ .setcfgHi imm ∧ i ≠ .setcfgLo imm) → u.config = r.config)
      (interrupts : (∀ en clr, i ≠ .setirq en clr) → u.irqEn = r.irqEn ∧ u.irqPend = r.irqPend)
      (result : writesResult i = false → u.result = r.result)
  | startsEncode (command : i = .initEnc) (source : r.mode = .idle ∨ r.mode = .done)
      (writes : u = { r with mode := .enc, dir := false })
  | startsDecode (command : i = .initDec) (source : r.mode = .idle ∨ r.mode = .done)
      (writes : u = { r with mode := .dec, dir := true })
  | ending (command : i = .rcEncEos 1) (source : r.mode = .enc) (writes : u = { r with mode := .encEnding })
  | encoded (command : (i = .encEnd ∨ i = .rcFlush) ∧ r.mode = .enc ∨ i = .rcFlush ∧ r.mode = .encEnding)
      (writes : u = { r with mode := .done, irqPend := r.irqPend ||| 2#2 })
  | decoded (code : Word32) (command : i = .decSym ∧ code = 0x100#32 ∨ i = .rcDecEos ∧ code = 1#32) (source : r.mode = .dec)
      (writes : u = { r with result := code, mode := .done, irqPend := r.irqPend ||| 2#2 })

/-- A last write of RESULT alone, by a command that writes it. -/
theorem lastWrite_result {i : Instr} (hi : writesResult i = true) (r : Regs) (v : Word32) : LastWrite i r { r with result := v } :=
  .quiet rfl (fun _ => rfl) (fun _ => ⟨rfl, rfl⟩) fun hn => Bool.noConfusion (hi.symm.trans hn)

/-- No last write. -/
theorem lastWrite_refl (i : Instr) (r : Regs) : LastWrite i r r := .quiet rfl (fun _ => rfl) (fun _ => ⟨rfl, rfl⟩) fun _ => rfl

theorem Concluded.lastWrite {i : Instr} {r u : Regs} (h : Concluded i r u) (hl : legal i r.mode r.dir = true) : LastWrite i r u := by
  cases i with
  | nop | encSym | rcEncBit | rcEncFreq | rcDecNarrow => cases h; exact lastWrite_refl _ _
  | setcfgHi imm32 => cases h; exact .quiet rfl (fun hn => absurd rfl (hn imm32).1) (fun _ => ⟨rfl, rfl⟩) fun _ => rfl
  | setcfgLo imm32 => cases h; exact .quiet rfl (fun hn => absurd rfl (hn imm32).2) (fun _ => ⟨rfl, rfl⟩) fun _ => rfl
  | setirq en clr => cases h; exact .quiet rfl (fun _ => rfl) (fun hn => absurd rfl (hn en clr)) fun _ => rfl
  | decCheckEnd => cases h; exact lastWrite_result rfl _ _
  | tblRead | rcDecBit | rcDecTarget => obtain ⟨v, rfl⟩ := h; exact lastWrite_result rfl _ _
  | initEnc => exact .startsEncode rfl (betweenSessions_of_legal (.inl rfl) hl) h
  | initDec => exact .startsDecode rfl (betweenSessions_of_legal (.inr rfl) hl) h
  | encEnd => exact .encoded (.inl ⟨.inl rfl, by simpa [legal] using hl⟩) h
  | rcFlush =>
    have hm : r.mode = .enc ∨ r.mode = .encEnding := by simpa [legal] using hl
    exact .encoded (hm.imp (fun hm => ⟨.inr rfl, hm⟩) fun hm => ⟨rfl, hm⟩) h
  | rcEncEos last =>
    by_cases hlast : last = 1
    · subst hlast; exact .ending rfl (by simpa [legal] using hl) (h.trans (if_pos rfl))
    · cases h.trans (if_neg hlast); exact lastWrite_refl _ _
  | decSym =>
    rcases h with ⟨v, rfl⟩ | h
    · exact lastWrite_result rfl _ _
    · exact .decoded _ (.inl ⟨rfl, rfl⟩) (by simpa [legal] using hl) h
  | rcDecEos =>
    rcases h with rfl | h
    · exact lastWrite_result rfl _ _
    · exact .decoded _ (.inr ⟨rfl, rfl⟩) (by simpa [legal] using hl) h

/-- A last write touches six registers only. -/
theorem LastWrite.regs_eq {i : Instr} {r u : Regs} (h : LastWrite i r u) :
    u = { r with mode := u.mode, dir := u.dir, config := u.config, irqEn := u.irqEn, irqPend := u.irqPend, result := u.result } := by
  cases h with
  | quiet writes => rw [writes]
  | startsEncode _ _ writes | startsDecode _ _ writes | ending _ _ writes | encoded _ writes | decoded _ _ _ writes => rw [writes]

/-! ### The courses -/

/-- The control registers where a rule makes its last write. -/
theorem Opened.kept {i : Instr} {s v w : State} (hv : Opened i s v) (hw : RuleFrame v w) : ControlKept s.regs w.regs :=
  hv.controlKept.trans hw.controlKept

/-- The last write of a command that is legal where it began. -/
theorem Opened.lastWrite {i : Instr} {s v w : State} {r : Regs} (hv : Opened i s v) (hw : RuleFrame v w) (hc : Concluded i w.regs r)
    (hl : legal i s.regs.mode s.regs.dir = true) : LastWrite i w.regs r :=
  hc.lastWrite (by rw [(hv.kept hw).mode, (hv.kept hw).dir]; exact hl)

/-- Only a command that runs there is legal in FAULTED (R111, R112). -/
theorem runsWhenFaulted_of_legal {i : Instr} {dir : Bool} (h : legal i .faulted dir = true) : runsWhenFaulted i = true := by
  cases i <;> simp_all [runsWhenFaulted, legal, betweenSessions]

/-- A command that runs in FAULTED is legal in every mode. -/
theorem legal_of_runsWhenFaulted {i : Instr} (hi : runsWhenFaulted i = true) (m : Mode) (dir : Bool) : legal i m dir = true := by
  cases i <;> simp_all [runsWhenFaulted, legal]

/-- A command that runs in FAULTED too (NOP, SETIRQ) retires from every state, having written registers only. -/
theorem exec_of_runsWhenFaulted {i : Instr} (hi : runsWhenFaulted i = true) (s : State) :
    ∃ r, Concluded i (takeCommand s).regs r ∧ exec i s = .next (retire { takeCommand s with regs := r }) := by
  cases i with
  | nop => exact ⟨_, rfl, by rw [exec_eq, executeCommand_runs (.inr hi) rfl rfl]; rfl⟩
  | setirq en clr => exact ⟨_, rfl, by rw [exec_eq, executeCommand_runs (.inr hi) rfl rfl]; rfl⟩
  | setcfgHi | setcfgLo | initEnc | initDec | tblRead | decCheckEnd | encSym | encEnd | decSym | rcEncBit | rcDecBit | rcEncEos
    | rcDecEos | rcEncFreq | rcDecTarget | rcDecNarrow | rcFlush => cases hi

theorem Began.opened {i : Instr} {s v : State} (h : Began i (takeCommand s) v) (hl : legal i s.regs.mode s.regs.dir = true) :
    Opened i s v := by
  rcases h with rfl | ⟨hi, -, -, rfl⟩
  · exact .inl rfl
  · exact .inr ⟨hi, betweenSessions_of_legal hi hl, rfl⟩

/-- Where a rule breaks off, it has kept the frame. -/
theorem BrokenOff.reached {i : Instr} {s u : State} {e : Abort} (h : BrokenOff i (takeCommand s) e u)
    (hl : legal i s.regs.mode s.regs.dir = true) : Reached i s u := by
  rcases h with h | ⟨-, -, b, p, hp, rfl⟩
  · obtain ⟨v, hv, hu⟩ := h.whole
    exact ⟨v, hv.opened hl, hu⟩
  · exact ⟨_, .inl rfl, ruleFrame_byte hp⟩

/-- The courses of a command that gives a next state. -/
inductive Course (i : Instr) (s t : State) : Prop where
  /-- discarded in FAULTED (R112) -/
  | discarded (was : s.regs.mode = .faulted) (runs : runsWhenFaulted i = false) (ends : t = endCommand s)
  /-- fault entry, before the rule or from within it (R263) -/
  | faulted (was : s.regs.mode ≠ .faulted) (c : Cause) (u : State) (left : LeftAtFault i s u)
      (ends : t = faultEntry c (encode i) u)
  /-- retired (R110) -/
  | retired (runs : s.regs.mode = .faulted → runsWhenFaulted i = true) (v w : State)
      (opened : Opened i s v) (session : i = .initEnc ∨ i = .initDec → v = sessionStarted (takeCommand s))
      (frame : RuleFrame v w) (r : Regs) (concluded : Concluded i w.regs r) (last : LastWrite i w.regs r)
      (ends : t = retire { w with regs := r })
  /-- waits on a port (R299) -/
  | waits (was : s.regs.mode ≠ .faulted) (u : State) (reached : Reached i s u) (ends : t = waitOnPort i s u)

theorem course_of_runsWhenFaulted {i : Instr} {s t : State} (hi : runsWhenFaulted i = true) (h : exec i s = .next t) :
    Course i s t := by
  obtain ⟨r, hr, he⟩ := exec_of_runsWhenFaulted hi s
  rw [he] at h
  cases h
  exact .retired (fun _ => hi) _ _ (.inl rfl) (by rintro (rfl | rfl) <;> cases hi) (RuleFrame.refl _) r hr
    (hr.lastWrite (legal_of_runsWhenFaulted hi _ _)) rfl

theorem exec_course {i : Instr} {s t : State} (h : exec i s = .next t) : Course i s t := by
  cases hi : runsWhenFaulted i with
  | true => exact course_of_runsWhenFaulted hi h
  | false =>
    have hready : legal i s.regs.mode s.regs.dir = true → s.regs.mode ≠ .faulted := fun hl hm => by
      rw [hm] at hl
      exact Bool.false_ne_true (hi.symm.trans (runsWhenFaulted_of_legal hl))
    cases exec_executed h with
    | discarded mode runs ends => exact .discarded mode runs ends
    | illegal mode _ ends => exact .faulted (fun hm => mode ⟨hm, hi⟩) _ _ (leftAtFault_take i s) ends
    | outOfRange legality _ ends => exact .faulted (hready legality) _ _ (leftAtFault_take i s) ends
    | retired legality _ u done ends =>
      obtain ⟨v, w, hv, hs, hw, hc, hu⟩ := done.whole
      have opened := hv.opened legality
      exact .retired (fun hm => absurd hm (hready legality)) v w opened hs hw u.regs hc (opened.lastWrite hw hc legality)
        (ends.trans (congrArg retire hu))
    | raised legality _ c u broken ends =>
      unfold takeFault at ends
      split at ends
      · exact .faulted (hready legality) c _ ⟨u, broken.reached legality, .inr rfl⟩ ends
      · exact .faulted (hready legality) c _ ⟨u, broken.reached legality, .inl rfl⟩ ends
    | waits legality _ u broken ends => exact .waits (hready legality) u (broken.reached legality) ends

end Sys2Proof.Machine
end

