-- ==== Sys2Proof/Proofs/Registers.lean ====
section
/-! What writes each register of R21 that is no part of the coder or the models (O9, O17 to O22): read off the courses a command can take. -/

namespace Sys2Proof.Machine

/-- Settles O9: a command that waits has been taken and not ended; every other course ends it (R40, R299). -/
theorem busyExactlyWhileWaiting : Obligations.BusyExactlyWhileWaiting := by
  intro i s t h
  cases exec_course h with
  | discarded _ _ ends => simp [ends]
  | faulted _ c u _ ends => simp [ends]
  | retired _ v w _ _ _ r _ _ ends => simp [ends]
  | waits _ u reached ends => simp [ends, reached.busy]

/-! ### The changes of MODE -/

/-- No command retires into FAULTED from another mode. -/
theorem LastWrite.not_faulted {i : Instr} {r u : Regs} (h : LastWrite i r u) (hm : r.mode ≠ .faulted) : u.mode ≠ .faulted := by
  cases h with
  | quiet writes => rwa [show u.mode = r.mode by rw [writes]]
  | startsEncode _ _ writes | startsDecode _ _ writes | ending _ _ writes | encoded _ writes | decoded _ _ _ writes => simp [writes]

/-- DIR is written with the mode of a session start (R23). -/
theorem LastWrite.dir_eq {i : Instr} {r u : Regs} (h : LastWrite i r u) :
    u.dir = if i = .initEnc ∧ u.mode = .enc ∧ r.mode ≠ .enc then false
      else if i = .initDec ∧ u.mode = .dec ∧ r.mode ≠ .dec then true else r.dir := by
  cases h with
  | quiet writes =>
    have hmode : u.mode = r.mode := by rw [writes]
    have hdir : u.dir = r.dir := by rw [writes]
    simp [hmode, hdir]
  | startsEncode command source writes | startsDecode command source writes => rcases source with hm | hm <;> simp [command, writes, hm]
  | ending _ _ writes | encoded _ writes | decoded _ _ _ writes => simp [writes]

/-- IRQ_PEND[1] is set with the mode DONE (R38). -/
theorem LastWrite.interrupts_eq {i : Instr} {r u : Regs} (h : LastWrite i r u) (hi : ∀ en clr, i ≠ .setirq en clr) :
    u.irqEn = r.irqEn ∧ u.irqPend = r.irqPend ||| if r.mode ≠ .done ∧ u.mode = .done then 2#2 else 0#2 := by
  cases h with
  | quiet writes _ interrupts =>
    have hmode : u.mode = r.mode := by rw [writes]
    simp [hmode, interrupts hi]
  | startsEncode _ _ writes | startsDecode _ _ writes | ending _ _ writes => simp [writes]
  | encoded command writes => rcases command with ⟨-, hm⟩ | ⟨-, hm⟩ <;> simp [writes, hm]
  | decoded _ _ source writes => simp [writes, source]

/-- The changes of MODE of a command that retires, as R22 lists them. -/
theorem LastWrite.transitions {i : Instr} {r u : Regs} (h : LastWrite i r u) :
    u.mode = r.mode ∨
    (i = .initEnc ∧ (r.mode = .idle ∨ r.mode = .done) ∧ u.mode = .enc) ∨
    (i = .initDec ∧ (r.mode = .idle ∨ r.mode = .done) ∧ u.mode = .dec) ∨
    (i = .rcEncEos 1 ∧ r.mode = .enc ∧ u.mode = .encEnding) ∨
    ((i = .encEnd ∨ i = .rcFlush) ∧ r.mode = .enc ∧ u.mode = .done) ∨
    (i = .rcFlush ∧ r.mode = .encEnding ∧ u.mode = .done) ∨
    (i = .decSym ∧ r.mode = .dec ∧ u.mode = .done ∧ u.result = 0x100#32) ∨
    (i = .rcDecEos ∧ r.mode = .dec ∧ u.mode = .done ∧ u.result = 1#32) := by
  cases h with
  | quiet writes => exact .inl (by rw [writes])
  | startsEncode command source writes => simp [command, source, writes]
  | startsDecode command source writes => simp [command, source, writes]
  | ending command source writes => simp [command, source, writes]
  | encoded command writes => rcases command with ⟨hi, hm⟩ | ⟨hi, hm⟩ <;> simp [hi, hm, writes]
  | decoded code command source writes => rcases command with ⟨hi, hc⟩ | ⟨hi, hc⟩ <;> simp [hi, hc, source, writes]

/-! ### The fault and interrupt registers, MODE and DIR -/

theorem causeCode_ne_zero (c : Cause) : causeCode c ≠ 0#8 := by cases c <;> decide

/-- Settles O17: fault entry alone writes the three registers; no other course, and no last write of a rule, touches them. -/
theorem faultRegistersOnlyByFaultEntry : Obligations.FaultRegistersOnlyByFaultEntry := by
  refine ⟨fun i s t h hn => ?_, fun i s t h hs ht => ?_, fun w s => ⟨fun hm => ?_, fun hm => ?_⟩, fun s => ⟨rfl, rfl, rfl⟩⟩
  · cases exec_course h with
    | discarded _ _ ends => simp [ends]
    | faulted was c u _ ends => exact absurd ⟨was, by simp [ends]⟩ hn
    | retired _ v w opened _ frame r _ last ends =>
      have hk := opened.kept frame
      rw [ends, retire_regs]
      dsimp only
      rw [last.regs_eq]
      exact ⟨hk.faultCause, hk.faultCmd, hk.faultWord⟩
    | waits _ u reached ends =>
      rw [ends, waitOnPort_regs]
      exact ⟨reached.controlKept.faultCause, reached.controlKept.faultCmd, reached.controlKept.faultWord⟩
  · cases exec_course h with
    | discarded was => exact absurd was hs
    | faulted _ c u _ ends => simpa [ends] using causeCode_ne_zero c
    | retired _ v w opened _ frame r _ last ends =>
      have hk := opened.kept frame
      rw [ends] at ht
      exact absurd ht (last.not_faulted (by rwa [hk.mode]))
    | waits _ u reached ends =>
      rw [ends, waitOnPort_regs, reached.controlKept.mode] at ht
      exact absurd ht hs
  · simpa [executeIllegal, hm] using causeCode_ne_zero .illegalCommand
  · simp [executeIllegal, hm]

/-- Settles O18: fault entry sets IRQ_PEND[0], the write of DONE sets IRQ_PEND[1], and SETIRQ alone clears. -/
theorem interruptRegisters : Obligations.InterruptRegisters := by
  refine ⟨fun i s t h hi => ?_, fun en clr s t h k => ?_, fun w s => ?_, fun s => ⟨rfl, rfl⟩, fun s => ?_⟩
  · cases exec_course h with
    | discarded was _ ends => simp [ends, was]
    | faulted was c u left ends => simp [ends, was, left.controlKept.irqEn, left.controlKept.irqPend]
    | retired _ v w opened _ frame r _ last ends =>
      have hk := opened.kept frame
      obtain ⟨hen, hpend⟩ := last.interrupts_eq hi
      have hf : ¬(s.regs.mode ≠ .faulted ∧ r.mode = .faulted) := fun ⟨hs, hr⟩ => last.not_faulted (by rwa [hk.mode]) hr
      simp only [ends, retire_regs]
      rw [if_neg hf, hen, hpend, hk.irqEn, hk.irqPend, hk.mode, BitVec.or_zero]
      exact ⟨rfl, rfl⟩
    | waits was u reached ends =>
      simp [ends, reached.controlKept.irqEn, reached.controlKept.irqPend, reached.controlKept.mode, was]
  · obtain ⟨r, hr, he⟩ := exec_of_runsWhenFaulted (i := .setirq en clr) rfl s
    cases he.symm.trans h
    cases hr
    by_cases hk : k < 2
    · simp [hk]
    · simp [BitVec.getLsbD_of_ge _ k (Nat.le_of_not_lt hk)]
  · by_cases hm : s.regs.mode = .faulted
    · simp [executeIllegal, hm]
    · simp [executeIllegal, hm]
  · simp [irqOutput]

/-- Settles O19: every change of MODE but fault entry is the last write of a rule, and DIR is written with a session's mode. -/
theorem modeAndDirTransitions : Obligations.ModeAndDirTransitions := by
  refine ⟨fun i s t h => ?_, fun i s t h => ?_, fun w s => ?_, ⟨rfl, rfl, rfl, rfl, rfl, rfl⟩, fun s => rfl⟩
  · cases exec_course h with
    | discarded _ _ ends => exact .inl (by simp [ends])
    | faulted _ c u _ ends => exact .inr (.inl (by simp [ends]))
    | retired _ v w opened _ frame r _ last ends =>
      have hk := opened.kept frame
      have htrans := last.transitions
      rw [hk.mode] at htrans
      rw [ends, retire_regs]
      exact htrans.imp_right .inr
    | waits _ u reached ends => exact .inl (by rw [ends, waitOnPort_regs, reached.controlKept.mode])
  · cases exec_course h with
    | discarded was _ ends => simp [ends, was]
    | faulted _ c u left ends => simp [ends, left.controlKept.dir]
    | retired _ v w opened _ frame r _ last ends =>
      have hk := opened.kept frame
      have hdir := last.dir_eq
      rw [hk.mode, hk.dir] at hdir
      rw [ends, retire_regs]
      exact hdir
    | waits _ u reached ends => simp [ends, reached.controlKept.dir, reached.controlKept.mode]
  · by_cases hm : s.regs.mode = .faulted
    · simp [executeIllegal, hm]
    · simp [executeIllegal, hm]

/-! ### RESULT -/

/-- A last write leaves RESULT alone but for the commands that write it. -/
theorem LastWrite.result_eq {i : Instr} {r u : Regs} (h : LastWrite i r u) (hi : writesResult i = false) : u.result = r.result := by
  cases h with
  | quiet _ _ _ result => exact result hi
  | startsEncode _ _ writes | startsDecode _ _ writes | ending _ _ writes | encoded _ writes => rw [writes]
  | decoded _ command => rcases command with ⟨rfl, -⟩ | ⟨rfl, -⟩ <;> cases hi

/-- A command that retires and is none of those that write RESULT leaves it as it was. -/
theorem result_of_retired {i : Instr} {s v w : State} {r : Regs} (hi : writesResult i = false) (hv : Opened i s v)
    (hw : RuleFrame v w) (hl : LastWrite i w.regs r) : r.result = s.regs.result := by
  rw [hl.result_eq hi, hw.result, hv.eq_take (by rintro rfl; cases hi) (by rintro rfl; cases hi)]
  rfl

/-- Settles O20: what retires writes RESULT with its last write or its session start, or not at all; what is discarded does not. -/
theorem resultWriters : Obligations.ResultWriters := by
  intro i s t h hstall hmode
  cases exec_course h with
  | discarded was _ ends => cases i <;> simp [ends, was]
  | faulted was c u _ ends => simp [ends, was] at hmode
  | waits _ u _ ends => simp [ends] at hstall
  | retired runs v w opened session frame r concluded last ends =>
    have hr : t.regs.result = r.result := by simp [ends]
    cases i with
    | tblRead | decSym | rcDecBit | rcDecEos | rcDecTarget => exact fun hf => absurd (runs hf) Bool.false_ne_true
    | decCheckEnd =>
      cases concluded
      exact hr.trans (if_neg fun hf => Bool.false_ne_true (runs hf)).symm
    | initEnc | initDec =>
      cases concluded
      cases session (by simp)
      exact hr.trans (frame.result.trans (if_neg fun hf => Bool.false_ne_true (runs hf)).symm)
    | nop | setcfgHi | setcfgLo | setirq | encSym | encEnd | rcEncBit | rcEncEos | rcEncFreq | rcDecNarrow | rcFlush =>
      exact hr.trans (result_of_retired rfl opened frame last)

/-! ### The counters -/

/-- A last write leaves the counters alone. -/
theorem LastWrite.counts_eq {i : Instr} {r u : Regs} (h : LastWrite i r u) :
    u.cmdCount = r.cmdCount ∧ u.inCount = r.inCount ∧ u.outCount = r.outCount := by
  rw [h.regs_eq]
  exact ⟨rfl, rfl, rfl⟩

/-- Settles O21: a command that retires counts itself; the coding procedures count what crosses the ports, and nothing else moves
these counters but a session start. -/
theorem countersCount : Obligations.CountersCount := by
  refine ⟨fun i s t h => ?_, fun i s t h he hd hmode => ?_, fun s => rfl⟩
  · cases exec_course h with
    | discarded was runs ends => simp [ends, was, runs]
    | faulted was c u left ends => simp [ends, was, left.controlKept.cmdCount]
    | retired runs v w opened _ frame r _ last ends =>
      have hk := opened.kept frame
      have hf : ¬(s.regs.mode ≠ .faulted ∧ r.mode = .faulted) := fun ⟨hs, hr⟩ => last.not_faulted (by rwa [hk.mode]) hr
      have hd : ¬(s.regs.mode = .faulted ∧ runsWhenFaulted i = false) := fun ⟨hs, hr⟩ => by simp [runs hs] at hr
      simp [ends, hf, hd, last.counts_eq, hk.cmdCount]
    | waits _ u reached ends => simp [ends, reached.controlKept.cmdCount]
  · cases exec_course h with
    | discarded _ _ ends =>
      subst ends
      exact ⟨(RuleFrame.refl s).written, (RuleFrame.refl s).read⟩
    | faulted was c u _ ends => simp [ends, was] at hmode
    | retired _ v w opened _ frame r _ last ends =>
      cases opened.eq_take he hd
      obtain ⟨-, hin, hout⟩ := last.counts_eq
      subst ends
      simp only [retire_regs, retire_inPort, retire_outPort, hin, hout]
      exact ⟨frame.written, frame.read⟩
    | waits _ u reached ends =>
      obtain ⟨v, opened, frame⟩ := reached
      cases opened.eq_take he hd
      subst ends
      exact ⟨frame.written, frame.read⟩

/-! ### CONFIG, SCFG, TABLES_VALID and the parameters -/

/-- A last write leaves CONFIG alone but for the two SETCFG. -/
theorem LastWrite.config_eq {i : Instr} {r u : Regs} (h : LastWrite i r u) (hi : ∀ imm, i ≠ .setcfgHi imm ∧ i ≠ .setcfgLo imm) :
    u.config = r.config := by
  cases h with
  | quiet _ config => exact config hi
  | startsEncode _ _ writes | startsDecode _ _ writes | ending _ _ writes | encoded _ writes | decoded _ _ _ writes => rw [writes]

/-- A last write leaves SCFG and TABLES_VALID alone. -/
theorem LastWrite.latched {i : Instr} {s : State} {r u : Regs} (h : LastWrite i r u) (hr : Latched i s r) : Latched i s u := by
  rw [h.regs_eq]
  exact hr

/-- No command changes a parameter. -/
theorem exec_params {i : Instr} {s t : State} (h : exec i s = .next t) : t.params = s.params := by
  cases exec_course h with
  | discarded _ _ ends => simp [ends]
  | faulted _ c u left ends => simp [ends, left.params]
  | retired _ v w opened _ frame r _ _ ends => simp [ends, frame.params, opened.params]
  | waits _ u reached ends => simp [ends, reached.params]

theorem executeIllegal_params (w : Word64) (s : State) : (executeIllegal w s).params = s.params := by
  unfold executeIllegal
  split <;> rfl

theorem fetchCommand_params {s t : State} {w : Word64} (h : fetchCommand s = some (w, t)) : t.params = s.params := by
  rcases fetchCommand_cases h with ⟨st, -, heq⟩ | ⟨-, -, heq⟩ | ⟨v, later, -, -, heq⟩ <;> cases heq <;> rfl

/-- No step changes a parameter (R6). -/
theorem step_params {s t : State} (h : step s = .next t) : t.params = s.params := by
  unfold step at h
  split at h
  · cases h; rfl
  · next w u hfetch =>
    split at h
    · exact (exec_params h).trans (fetchCommand_params hfetch)
    · cases h; exact (executeIllegal_params w u).trans (fetchCommand_params hfetch)

/-- Settles O22: CONFIG is the two SETCFGs' last write, SCFG and TABLES_VALID a session start's alone. -/
theorem configurationLatching : Obligations.ConfigurationLatching := by
  refine ⟨fun i s t h => ?_, fun s t => step_params⟩
  cases exec_course h with
  | discarded _ _ ends => simp [ends]
  | faulted _ c u left ends =>
    subst ends
    exact ⟨fun _ => left.controlKept.config, left.latched⟩
  | retired _ v w opened _ frame r _ last ends =>
    subst ends
    exact ⟨fun hi => (last.config_eq hi).trans (opened.kept frame).config, last.latched (Reached.latched ⟨v, opened, frame⟩)⟩
  | waits _ u reached ends =>
    subst ends
    exact ⟨fun _ => reached.controlKept.config, reached.latched⟩

end Sys2Proof.Machine
end

