-- ==== Sys2Proof/Proofs/Port.lean ====
section
/-! The register read port (O24) and the configuration word (O25): a packed word as the number its fields make, and its bits. -/

namespace Sys2Proof.Machine

/-! ### Bits of a packed word -/

theorem flag_le (b : Bool) : flag b ≤ 1 := by cases b <;> decide

theorem decide_flag (b : Bool) : decide (flag b = 1) = b := by cases b <;> rfl

/-- A bit of a number packed into a word, where the number has a flag in that place. -/
theorem getLsbD_of_packed {width n k : Nat} {b : Bool} (hk : k < width) (h : n / 2 ^ k % 2 = flag b) :
    (BitVec.ofNat width n).getLsbD k = b := by
  rw [BitVec.getLsbD_ofNat, decide_eq_true hk, Bool.true_and, Nat.testBit_eq_decide_div_mod_eq, h, decide_flag]

/-- No bit above a packed number is set. -/
theorem getLsbD_above_packed {width n m k : Nat} (h : n < 2 ^ m) (hk : m ≤ k) : (BitVec.ofNat width n).getLsbD k = false := by
  rw [BitVec.getLsbD_ofNat, Nat.testBit_eq_false_of_lt (h.trans_le (Nat.pow_le_pow_right (by decide) hk)), Bool.and_false]

theorem toNat_of_packed {width n : Nat} (h : n < 2 ^ width) : (BitVec.ofNat width n).toNat = n := by
  rw [BitVec.toNat_ofNat, Nat.mod_eq_of_lt h]

/-- The two halves of a 64-bit register (R44). -/
theorem highHalf_append_lowHalf (w : Word64) : highHalf w ++ lowHalf w = w := by
  refine BitVec.eq_of_getLsbD_eq fun k hk => ?_
  rw [BitVec.getLsbD_append]
  split
  · next hlow => simp [lowHalf, hlow]
  · next hlow => simp [highHalf, show 32 + (k - 32) = k by omega, show k - 32 < 32 by omega]

/-! ### STATUS (R44, R46) -/

theorem statusWord_mode (s : State) : (statusWord s).extractLsb' 0 3 = modeCode s.regs.mode := by
  have hm := (modeCode s.regs.mode).isLt
  refine BitVec.eq_of_toNat_eq ?_
  simp only [BitVec.extractLsb'_toNat, statusWord, BitVec.toNat_ofNat, Nat.shiftRight_zero]
  omega

/-- The flags of STATUS, each in its place above MODE's three bits; nothing above them. -/
theorem statusWord_flags (s : State) :
    (statusWord s).getLsbD 3 = s.regs.dir ∧ (statusWord s).getLsbD 4 = (s.regs.tablesValid && dual s) ∧
    (statusWord s).getLsbD 5 = useFixed s ∧ (statusWord s).getLsbD 6 = irqOutput s ∧ (statusWord s).getLsbD 7 = s.regs.busy ∧
    (statusWord s).getLsbD 8 = s.regs.tablesValid ∧ (statusWord s).getLsbD 9 = s.cmdFifo.isEmpty ∧
    ∀ k, 10 ≤ k → (statusWord s).getLsbD k = false := by
  have hm := (modeCode s.regs.mode).isLt
  have h3 := flag_le s.regs.dir
  have h4 := flag_le (s.regs.tablesValid && dual s)
  have h5 := flag_le (useFixed s)
  have h6 := flag_le (irqOutput s)
  have h7 := flag_le s.regs.busy
  have h8 := flag_le s.regs.tablesValid
  have h9 := flag_le s.cmdFifo.isEmpty
  unfold statusWord
  refine ⟨?_, ?_, ?_, ?_, ?_, ?_, ?_, fun k hk => getLsbD_above_packed (by omega) hk⟩
  all_goals exact getLsbD_of_packed (by decide) (by omega)

/-- While BUSY = 1 a read of STATUS shows its bits 7 and 9 (R46). -/
theorem readRegister_status_busy {s : State} (hb : s.regs.busy = true) (draw k : Nat) (hk : k = 7 ∨ k = 9) :
    (readRegister draw 0x02#6 s).getLsbD k = (statusWord s).getLsbD k := by
  rcases hk with rfl | rfl <;> simp [readRegister, hb, busyStatusMask]

/-! ### The register map -/

theorem readRegister_idle {s : State} (hb : s.regs.busy = false) (draw : Nat) (n : BitVec 6) :
    readRegister draw n s = idleRegister n s := by
  simp [readRegister, hb]

/-- The numbers above the map (R45). -/
theorem idleRegister_above {n : BitVec 6} (hn : 0x1F ≤ n.toNat) (s : State) : idleRegister n s = 0#32 := by
  unfold idleRegister
  split
  case h_32 => rfl
  all_goals omega

theorem rcFlagsWord_toNat (r : Regs) :
    (rcFlagsWord r).toNat = flag r.carry + flag r.delayValid * 2 + r.delay.toNat * 256 + r.look.toNat * 65536 := by
  have hc := flag_le r.carry
  have hv := flag_le r.delayValid
  have hd := r.delay.isLt
  have hl := r.look.isLt
  exact toNat_of_packed (by omega)

/-- Settles O24: the map read number by number while BUSY = 0, and the two bits of STATUS while BUSY = 1. -/
theorem registerMap : Obligations.RegisterMap := by
  refine ⟨fun s draw hb => ?_, fun s draw hb => ?_⟩
  · obtain ⟨h3, h4, h5, h6, h7, h8, h9, habove⟩ := statusWord_flags s
    have widened : ∀ {width : Nat} (v : BitVec width), width ≤ 32 → (v.setWidth 32).toNat = v.toNat := fun v hw =>
      BitVec.toNat_setWidth_of_le hw
    have hists := toNat_of_packed (width := 32) (n := s.regs.histLo.toNat + s.regs.histHi.toNat * 16) (by omega)
    have irqs := toNat_of_packed (width := 32) (n := s.regs.irqEn.toNat + s.regs.irqPend.toNat * 256) (by omega)
    simp only [readRegister_idle hb]
    exact ⟨fun n hn => idleRegister_above hn s, rfl, rfl, statusWord_mode s, h3, h4, h5, h6, h7.trans hb, h8, h9, habove,
      widened _ (by decide), highHalf_append_lowHalf _, highHalf_append_lowHalf _, highHalf_append_lowHalf _,
      widened _ (by decide), widened _ (by decide), rcFlagsWord_toNat _, rfl, highHalf_append_lowHalf _, hists, rfl, rfl, irqs,
      highHalf_append_lowHalf _, highHalf_append_lowHalf _, highHalf_append_lowHalf _, highHalf_append_lowHalf _, rfl,
      highHalf_append_lowHalf _⟩
  · obtain ⟨-, -, -, -, h7, -, h9, -⟩ := statusWord_flags s
    exact ⟨(readRegister_status_busy hb draw 7 (.inl rfl)).trans (h7.trans hb), (readRegister_status_busy hb draw 9 (.inr rfl)).trans h9⟩

/-! ### The configuration word (R24, R25) -/

/-- The fields of a configuration word as quotients and remainders of the word (R24). -/
theorem cfgFields (c : Word64) : cfgLctx c = c.toNat / 2 ^ 56 ∧ cfgLmask c = c.toNat / 2 ^ 48 % 256 ∧
    cfgHctx c = c.toNat / 2 ^ 40 % 256 ∧ cfgHmask c = c.toNat / 2 ^ 32 % 256 ∧ cfgOrder c = c.toNat / 2 ^ 31 % 2 + 1 ∧
    cfgInit c = c.toNat / 2 ^ 24 % 128 ∧ cfgStep c = c.toNat / 2 ^ 16 % 256 ∧ cfgLimit c = c.toNat % 65536 := by
  have hc := c.isLt
  have field : ∀ lo width, (c.extractLsb' lo width).toNat = c.toNat / 2 ^ lo % 2 ^ width := fun lo width => by
    rw [BitVec.extractLsb'_toNat, Nat.shiftRight_eq_div_pow]
  exact ⟨(field 56 8).trans (Nat.mod_eq_of_lt (by omega)), field 48 8, field 40 8, field 32 8, congrArg (· + 1) (field 31 1),
    field 24 7, field 16 8, (field 0 16).trans (by omega)⟩

theorem cfgDual_eq_false_iff (c : Word64) : cfgDual c = false ↔ cfgLctx c = cfgHctx c ∧ cfgLmask c = cfgHmask c := by
  simp [cfgDual]

/-- The six constraints of R25 on the fields, LIMIT's as a difference. -/
theorem cfgBounds_iff (c : Word64) : CfgBounds c ↔
    cfgOrder c < cfgLctx c ∧ cfgLctx c ≤ cfgHctx c ∧ cfgHctx c ≤ 8 ∧ 15 ≤ cfgLmask c ∧ cfgLmask c ≤ 30 ∧ 15 ≤ cfgHmask c ∧
      cfgHmask c ≤ 30 ∧ 1 ≤ cfgInit c ∧ cfgInit c ≤ 127 ∧ 1 ≤ cfgStep c ∧ cfgStep c ≤ 127 ∧ cfgInit c * 256 ≤ cfgLimit c ∧
      cfgLimit c ≤ 32767 - cfgStep c := by
  constructor
  · rintro ⟨order, lctx, hctx, lmask, hmask, start, step, limit⟩
    omega
  · intro h
    exact ⟨by omega, by omega, by omega, by omega, by omega, by omega, by omega, by omega⟩

/-- A session start whose CONFIG is not valid: the fault before any write (R119, R265). -/
theorem exec_of_invalid {i : Instr} {s : State} {f : Cmd Unit} (hrule : ruleOf i = sessionInit >>= fun _ => f)
    (hl : legal i s.regs.mode s.regs.dir = true) (ho : operandsInRange i = true) (hm : s.regs.mode ≠ .faulted)
    (hc : cfgValid s.regs.config = false) : exec i s = .next (faultedWith s 4#8 (encode i)) := by
  have hinit : sessionInit (takeCommand s) = .error (.raise .invalidConfiguration) (takeCommand s) := if_pos hc
  rw [exec_eq, executeCommand_runs (.inl hm) hl ho, hrule, bind_of_error hinit]
  rfl

/-- Settles O25: the fields, the constraints on them, and the fault of a session start without them. -/
theorem validConfigurations : Obligations.ValidConfigurations := by
  refine ⟨fun c => ?_, fun c => ?_, fun s hm hc => ?_⟩
  · obtain ⟨h1, h2, h3, h4, h5, h6, h7, h8⟩ := cfgFields c
    exact ⟨h1, h2, h3, h4, h5, h6, h7, h8, cfgDual_eq_false_iff c⟩
  · obtain ⟨h1, h2, h3, h4, h5, h6, h7, h8⟩ := cfgFields c
    rw [cfgValid_iff, cfgBounds_iff, h1, h2, h3, h4, h5, h6, h7, h8]
  · have hf : s.regs.mode ≠ .faulted := by rcases hm with hm | hm <;> simp [hm]
    have hl : betweenSessions s.regs.mode = true := by rcases hm with hm | hm <;> rw [hm] <;> rfl
    exact ⟨exec_of_invalid rfl hl rfl hf hc, exec_of_invalid rfl hl rfl hf hc⟩

end Sys2Proof.Machine
end

