-- ==== Sys2Proof/Proofs/MemoryForm.lean ====
section
/-! What a step executes (O7), and the canonical form of the table memory (O59): a rule writes tables with TblWrite alone, or with a
session start, so it keeps the form wherever it ends; and so do the envelope, a fault and a wait. -/

namespace Sys2Proof.Machine

/-! ### What a step executes -/

/-- Settles O7: the step takes the word out and executes what it decodes to, or finds no word. -/
theorem stepRunsDecodedCommand : Obligations.StepRunsDecodedCommand := by
  refine ⟨fun s w later i hstall hfifo hdecode => ?_, fun s hstall hfifo => ?_⟩
  · have hfetch : fetchCommand s = some (w, { s with cmdFifo := later }) := by simp only [fetchCommand, hstall, hfifo]
    simp only [step, hfetch, hdecode]
  · have hfetch : fetchCommand s = none := by simp only [fetchCommand, hstall, hfifo]
    simp only [step, hfetch]

/-! ### Pieces of a rule that keep the form -/

/-- The table memory of the session is in its canonical form. -/
def FormOk (s : State) : Prop := Memory.wf s.regs.scfg s.tables

/-- However `x` ends, it keeps the canonical form. -/
structure KeepsForm {α : Type} (x : Cmd α) : Prop where
  ends : ∀ s, FormOk s → Ends x s (fun _ t => FormOk t) (fun _ t => FormOk t)

/-- The form depends on SCFG and the tables alone. -/
theorem FormOk.of_same {s t : State} (h : FormOk s) (hc : t.regs.scfg = s.regs.scfg) (ht : t.tables = s.tables) : FormOk t := by
  unfold FormOk
  rw [hc, ht]
  exact h

section Pieces
variable {α β : Type}

theorem KeepsForm.bind {x : Cmd α} {f : α → Cmd β} (hx : KeepsForm x) (hf : ∀ a, KeepsForm (f a)) : KeepsForm (x >>= f) :=
  ⟨fun s hs => Ends.bind (hx.ends s hs) fun a t ht => (hf a).ends t ht⟩

theorem KeepsForm.ite {c : Prop} [Decidable c] {x y : Cmd α} (hx : KeepsForm x) (hy : KeepsForm y) :
    KeepsForm (if c then x else y) := by
  split
  · exact hx
  · exact hy

/-- A piece that changes no state keeps the form. -/
theorem KeepsForm.still {x : Cmd α} (h : ∀ s, Ends x s (fun _ t => t = s) (fun _ t => t = s)) : KeepsForm x :=
  ⟨fun s hs => (h s).mono (fun _ _ ht => ht ▸ hs) fun _ _ ht => ht ▸ hs⟩

theorem KeepsForm.pure (a : α) : KeepsForm (pure a : Cmd α) := ⟨fun _ hs => hs⟩
theorem KeepsForm.get : KeepsForm (get : Cmd State) := ⟨fun _ hs => hs⟩
theorem KeepsForm.getRegs : KeepsForm getRegs := ⟨fun _ hs => hs⟩
theorem KeepsForm.raise (c : Cause) : KeepsForm (raiseFault c : Cmd α) := ⟨fun _ hs => hs⟩
theorem KeepsForm.stop (g : Fault) : KeepsForm (stopFault g : Cmd α) := ⟨fun _ hs => hs⟩
theorem KeepsForm.readSingle (sym : Nat) : KeepsForm (readSingle sym) := ⟨fun _ hs => hs⟩
theorem KeepsForm.readLit (i : Nat) : KeepsForm (readLit i) := ⟨fun _ hs => hs⟩

theorem KeepsForm.checkedSub (a b : Nat) : KeepsForm (checkedSub a b) := .still fun s => by
  by_cases h : b ≤ a <;> simp [Ends, Machine.checkedSub, h]

theorem KeepsForm.checkedDiv (a b : Nat) : KeepsForm (checkedDiv a b) := .still fun s => by
  by_cases h : b = 0 <;> simp [Ends, Machine.checkedDiv, h]

theorem KeepsForm.checkedFit (w v : Nat) : KeepsForm (checkedFit w v) := .still fun s => by
  by_cases h : v < 2 ^ w <;> simp [Ends, Machine.checkedFit, h]

theorem KeepsForm.log2Fix (n : Nat) : KeepsForm (log2Fix n) := .still fun s => by
  cases h : log2FixValue s.params.log2Fix n <;> simp [Ends, Machine.log2Fix, h]

/-- A register write that leaves SCFG alone. -/
theorem KeepsForm.modifyRegs {f : Regs → Regs} (h : ∀ r, (f r).scfg = r.scfg) : KeepsForm (modifyRegs f) :=
  ⟨fun s hs => ends_modifyRegs (hs.of_same (h s.regs) rfl)⟩

/-- TblWrite (R66). -/
theorem KeepsForm.writeTable (t : TableId) (i : Nat) (v : Entry) : KeepsForm (writeTable t i v) :=
  ⟨fun _ hs => ends_of_ok (writeTable_run _ _ _ _) (tablesWrite_wf hs)⟩

/-- SessionInit (R119): it starts the tables of the new SCFG, or has written nothing. -/
theorem KeepsForm.sessionInit : KeepsForm sessionInit := ⟨fun s hs => by
  rcases sessionInit_cases s with ⟨-, h⟩ | ⟨-, -, h⟩ | ⟨-, -, h⟩
  · simpa only [Ends, h] using hs
  · simpa only [Ends, h] using hs
  · exact ends_of_ok h (memoryWf_start _)⟩

theorem KeepsForm.askInput : KeepsForm askInput :=
  ⟨fun _ hs => ends_askInput (fun _ _ _ => hs.of_same rfl rfl) fun _ => hs⟩

theorem KeepsForm.inRead : KeepsForm inRead := ⟨fun _ hs =>
  ends_inRead (fun _ _ _ => hs.of_same rfl rfl) (fun _ _ => hs.of_same rfl rfl) (fun _ _ => hs.of_same rfl rfl) fun _ => hs⟩

theorem KeepsForm.outWrite (b : Byte) : KeepsForm (outWrite b) := ⟨fun _ hs =>
  ends_outWrite (fun _ _ => hs.of_same rfl rfl) (fun _ _ => hs.of_same rfl rfl) fun _ => hs⟩

theorem KeepsForm.whenTrue {c : Bool} {x : Cmd Unit} (h : KeepsForm x) : KeepsForm (whenTrue c x) := .ite h (.pure ())

theorem KeepsForm.forEach {body : Nat → Cmd Unit} (h : ∀ j, KeepsForm (body j)) (js : List Nat) : KeepsForm (forEach body js) := by
  induction js with
  | nil => exact .pure ()
  | cons j js ih => exact .bind (h j) fun _ => ih

theorem KeepsForm.sumOver {value : Nat → Cmd Nat} (h : ∀ j, KeepsForm (value j)) (js : List Nat) (acc : Nat) :
    KeepsForm (sumOver value js acc) := by
  induction js generalizing acc with
  | nil => exact .pure acc
  | cons j js ih => exact .bind (h j) fun v => ih (acc + v)

end Pieces

/-! ### The coder's procedures: they write registers and ports -/

theorem KeepsForm.setRange (v : Nat) : KeepsForm (setRange v) := .bind (.checkedFit _ _) fun _ => .modifyRegs fun _ => rfl

theorem KeepsForm.setBuffer (v : Nat) : KeepsForm (setBuffer v) := .modifyRegs fun _ => rfl

theorem KeepsForm.carryAdd (v : Nat) : KeepsForm (carryAdd v) :=
  .bind .getRegs fun _ => .ite (.setBuffer _) (.ite (.raise _) (.modifyRegs fun _ => rfl))

theorem KeepsForm.outWriteRun (b : Byte) (n : Nat) : KeepsForm (outWriteRun b n) := by
  induction n with
  | zero => exact .pure ()
  | succ n ih => exact .bind (.outWrite b) fun _ => ih

theorem KeepsForm.flushDelayed (x : Byte) : KeepsForm (flushDelayed x) :=
  .bind .getRegs fun _ => .bind (.whenTrue (.outWrite _)) fun _ => .bind (.outWriteRun _ _) fun _ => .modifyRegs fun _ => rfl

theorem KeepsForm.outputStage (x : Byte) : KeepsForm (outputStage x) :=
  .bind .getRegs fun _ => .ite (.ite (.raise _) (.flushDelayed x)) (.ite (.raise _) (.modifyRegs fun _ => rfl))

theorem KeepsForm.encShift : KeepsForm encShift :=
  .bind .getRegs fun _ => .bind (.outputStage _) fun _ => .modifyRegs fun _ => rfl

theorem KeepsForm.encNormalizeWithin (n : Nat) : KeepsForm (encNormalizeWithin n) := by
  induction n with
  | zero => exact .bind .getRegs fun _ => .ite (.stop _) (.pure ())
  | succ n ih =>
    exact .bind .getRegs fun _ => .ite (.bind .encShift fun _ => .bind (.modifyRegs fun _ => rfl) fun _ => ih) (.pure ())

theorem KeepsForm.decNormalizeWithin (n : Nat) : KeepsForm (decNormalizeWithin n) := by
  induction n with
  | zero => exact .bind .getRegs fun _ => .ite (.stop _) (.pure ())
  | succ n ih =>
    exact .bind .getRegs fun _ => .ite (.bind .inRead fun _ => .bind (.modifyRegs fun _ => rfl) fun _ => ih) (.pure ())

theorem KeepsForm.encNormalize : KeepsForm encNormalize := .encNormalizeWithin 3

theorem KeepsForm.decNormalize : KeepsForm decNormalize := .decNormalizeWithin 3

theorem KeepsForm.decPrime : KeepsForm decPrime :=
  .bind .inRead fun _ => .bind .inRead fun _ => .bind .inRead fun _ => .bind .inRead fun _ => .modifyRegs fun _ => rfl

theorem KeepsForm.encFlag (p : Nat) (m : Bool) : KeepsForm (encFlag p m) :=
  .bind (.bind .getRegs fun _ => .ite (.setRange _)
    (.bind (.carryAdd _) fun _ => .bind (.checkedSub _ _) fun _ => .setRange _)) fun _ => .encNormalize

theorem KeepsForm.decFlag (p : Nat) : KeepsForm (decFlag p) :=
  .bind .getRegs fun _ => .ite (.bind (.setRange _) fun _ => .bind .decNormalize fun _ => .pure _)
    (.bind (.checkedSub _ _) fun _ => .bind (.setBuffer _) fun _ => .bind (.setRange _) fun _ =>
      .bind .decNormalize fun _ => .pure _)

theorem KeepsForm.encEos (last : Bool) : KeepsForm (encEos last) :=
  .bind (.bind .getRegs fun _ => .bind (.checkedSub _ _) fun _ =>
    .ite (.bind (.carryAdd _) fun _ => .setRange _) (.setRange _)) fun _ => .encNormalize

theorem KeepsForm.decEos : KeepsForm decEos :=
  .bind .getRegs fun _ => .bind (.checkedSub _ _) fun _ =>
    .ite (.bind (.setRange _) fun _ => .bind .decNormalize fun _ => .pure _)
      (.bind (.setBuffer _) fun _ => .bind (.setRange _) fun _ => .bind .decNormalize fun _ => .pure _)

theorem KeepsForm.encFreq (cum freq tot : Nat) : KeepsForm (encFreq cum freq tot) :=
  .bind .getRegs fun _ => .bind (.checkedDiv _ _) fun _ => .bind (.carryAdd _) fun _ => .bind (.setRange _) fun _ => .encNormalize

theorem KeepsForm.decTarget (tot : Nat) : KeepsForm (decTarget tot) :=
  .bind .getRegs fun _ => .bind (.checkedDiv _ _) fun _ => .bind (.checkedDiv _ _) fun _ => .ite (.raise _) (.pure _)

theorem KeepsForm.decTakeInterval (base freq r : Nat) : KeepsForm (decTakeInterval base freq r) :=
  .bind .getRegs fun _ => .bind (.checkedSub _ _) fun _ => .bind (.setBuffer _) fun _ => .bind (.setRange _) fun _ => .decNormalize

theorem KeepsForm.decNarrow (cum freq tot : Nat) : KeepsForm (decNarrow cum freq tot) :=
  .bind .getRegs fun _ => .bind (.checkedDiv _ _) fun _ => .bind (.checkedDiv _ _) fun _ =>
    .ite (.decTakeInterval _ _ _) (.raise _)

theorem KeepsForm.flushCoder : KeepsForm flushCoder :=
  .bind .encShift fun _ => .bind .encShift fun _ => .bind .encShift fun _ => .bind .encShift fun _ => .encShift

/-! ### The models' procedures: they write tables with TblWrite alone -/

theorem KeepsForm.totEx (x : Nat) : KeepsForm (totEx x) := .bind .get fun _ => .checkedSub _ _

theorem KeepsForm.groupEx (g x : Nat) : KeepsForm (groupEx g x) := .bind .get fun _ => .checkedSub _ _

theorem KeepsForm.freqEx (sym x : Nat) : KeepsForm (freqEx sym x) := .bind .get fun _ => .pure _

theorem KeepsForm.cumEx (sym x : Nat) : KeepsForm (cumEx sym x) :=
  .bind (.sumOver (fun _ => .groupEx _ _) _ _) fun _ => .sumOver (fun _ => .freqEx _ _) _ _

theorem KeepsForm.walkGroups (x t left g acc : Nat) : KeepsForm (walkGroups x t left g acc) := by
  induction left generalizing g acc with
  | zero => exact .stop _
  | succ left ih => exact .bind (.groupEx g x) fun _ => .ite (ih _ _) (.pure _)

theorem KeepsForm.walkSingles (x t left sym acc : Nat) : KeepsForm (walkSingles x t left sym acc) := by
  induction left generalizing sym acc with
  | zero => exact .stop _
  | succ left ih => exact .bind (.freqEx sym x) fun _ => .ite (ih _ _) (.pure _)

theorem KeepsForm.litEncPath (fixed : Bool) (sym x : Nat) : KeepsForm (litEncPath fixed sym x) :=
  .ite
    (.bind .getRegs fun _ => .bind (.checkedDiv _ _) fun _ => .bind (.checkedSub _ _) fun _ =>
      .bind (.carryAdd _) fun _ => .bind (.setRange _) fun _ => .encNormalize)
    (.bind (.totEx x) fun _ => .bind (.cumEx sym x) fun _ => .bind (.readSingle sym) fun _ => .encFreq _ _ _)

theorem KeepsForm.litDecPath (fixed : Bool) (x : Nat) : KeepsForm (litDecPath fixed x) :=
  .ite
    (.bind .getRegs fun _ => .bind (.checkedDiv _ _) fun _ => .bind (.checkedDiv _ _) fun _ =>
      .ite (.raise _) (.bind (.decTakeInterval _ _ _) fun _ => .pure _))
    (.bind .getRegs fun _ => .bind (.totEx x) fun _ => .bind (.checkedDiv _ _) fun _ => .bind (.checkedDiv _ _) fun _ =>
      .ite (.raise _) (.bind (.walkGroups _ _ _ _ _) fun _ => .bind (.walkSingles _ _ _ _ _) fun _ =>
        .bind (.readSingle _) fun _ => .bind (.decTakeInterval _ _ _) fun _ => .pure _))

theorem KeepsForm.costUpdate (te fs : Nat) : KeepsForm (costUpdate te fs) :=
  .bind .getRegs fun _ => .bind (.checkedSub _ _) fun _ => .bind (.log2Fix _) fun _ => .bind (.log2Fix _) fun _ =>
    .bind (.checkedSub _ _) fun _ => .bind (.checkedFit _ _) fun _ => .modifyRegs fun _ => rfl

theorem KeepsForm.addToLit (i step : Nat) : KeepsForm (addToLit i step) :=
  .bind .get fun _ => .bind (.checkedFit _ _) fun _ => .writeTable _ _ _

theorem KeepsForm.halveSingle (c sym : Nat) : KeepsForm (halveSingle c sym) := .bind .get fun _ => .writeTable _ _ _

theorem KeepsForm.regroup (c g : Nat) : KeepsForm (regroup c g) :=
  .bind (.sumOver (fun _ => .readLit _) _ _) fun _ => .bind (.checkedFit _ _) fun _ => .writeTable _ _ _

theorem KeepsForm.rescale (c : Nat) : KeepsForm (rescale c) :=
  .bind (.forEach (.halveSingle c) _) fun _ => .bind (.forEach (.regroup c) _) fun _ =>
    .bind (.sumOver (fun _ => .readLit _) _ _) fun _ => .bind (.checkedFit _ _) fun _ => .writeTable _ _ _

theorem KeepsForm.litTrain (sym : Nat) : KeepsForm (litTrain sym) :=
  .bind .get fun _ => .bind (.addToLit _ _) fun _ => .bind (.addToLit _ _) fun _ => .bind (.addToLit _ _) fun _ =>
    .bind .get fun _ => .whenTrue (.rescale _)

theorem KeepsForm.litEncode (sym x : Nat) : KeepsForm (litEncode sym x) :=
  .bind .get fun _ => .bind (.totEx x) fun _ => .bind (.readSingle sym) fun _ => .bind (.litEncPath _ _ _) fun _ =>
    .bind (.costUpdate _ _) fun _ => .litTrain sym

theorem KeepsForm.litDecode (x : Nat) : KeepsForm (litDecode x) :=
  .bind .get fun _ => .bind (.totEx x) fun _ => .bind (.litDecPath _ _) fun _ => .bind (.readSingle _) fun _ =>
    .bind (.costUpdate _ _) fun _ => .bind (.litTrain _) fun _ => .pure _

theorem KeepsForm.apmNext (p : Nat) (matched : Bool) : KeepsForm (apmNext p matched) :=
  .ite (.bind (.checkedSub _ _) fun _ => .pure _) (.checkedSub _ _)

theorem KeepsForm.apmUpdate (t : TableId) (h : BitVec 4) (st : Byte) (matched : Bool) : KeepsForm (apmUpdate t h st matched) :=
  .bind .get fun _ => .bind (.apmNext _ _) fun _ => .bind (.checkedFit _ _) fun _ => .writeTable _ _ _

theorem KeepsForm.observeMember (m : Member) (q : Prediction) (b : Byte) : KeepsForm (observeMember m q b) :=
  .bind .get fun _ => .bind (.writeTable _ _ _) fun _ => .bind (.apmUpdate _ _ _ _) fun _ =>
    .modifyRegs fun _ => setMemberHist_scfg _ _ _

theorem KeepsForm.observe (lo hi : Prediction) (b : Byte) : KeepsForm (observe lo hi b) :=
  .bind (.observeMember _ _ _) fun _ => .bind .get fun _ => .bind (.whenTrue (.observeMember _ _ _)) fun _ =>
    .modifyRegs fun _ => rfl

/-! ### The commands -/

theorem KeepsForm.setResult (v : Nat) : KeepsForm (setResult v) := .modifyRegs fun _ => rfl

theorem KeepsForm.enterDone : KeepsForm enterDone := .modifyRegs fun _ => rfl

theorem KeepsForm.encodeSymbol (b : Byte) : KeepsForm (encodeSymbol b) :=
  .bind (.encEos _) fun _ => .bind .get fun _ => .bind (.encFlag _ _) fun _ => .bind (.whenTrue (.litEncode _ _)) fun _ =>
    .observe _ _ _

theorem KeepsForm.decodeByte (x : Prediction) : KeepsForm (decodeByte x) :=
  .bind (.decFlag _) fun _ => .ite (.pure _) (.bind (.litDecode _) fun _ => .pure _)

theorem KeepsForm.decodeSymbol : KeepsForm decodeSymbol :=
  .bind .decEos fun _ => .ite (.bind (.setResult _) fun _ => .enterDone)
    (.bind .get fun _ => .bind (.decodeByte _) fun _ => .bind (.observe _ _ _) fun _ => .bind (.outWrite _) fun _ => .setResult _)

/-- The rule of every command keeps the canonical form, from any state that has it and however it ends. -/
theorem keepsForm_ruleOf (i : Instr) : KeepsForm (ruleOf i) := by
  cases i with
  | nop => exact .pure ()
  | setcfgHi | setcfgLo | setirq => unfold ruleOf; exact .modifyRegs fun _ => rfl
  | initEnc => exact .bind .sessionInit fun _ => .modifyRegs fun _ => rfl
  | initDec => exact .bind .sessionInit fun _ => .bind .decPrime fun _ => .modifyRegs fun _ => rfl
  | tblRead tid idx => exact .bind .get fun _ => .setResult _
  | decCheckEnd =>
    refine .bind .askInput fun answer => ?_
    cases answer with
    | endMark => exact .setResult 0
    | byte b => exact .bind (.modifyRegs fun _ => rfl) fun _ => .raise _
    | error => exact .raise _
  | encSym byte => exact .encodeSymbol _
  | encEnd => exact .bind (.encEos _) fun _ => .bind .flushCoder fun _ => .enterDone
  | decSym => exact .decodeSymbol
  | rcEncBit bit p => exact .encFlag _ _
  | rcDecBit p => exact .bind (.decFlag p) fun _ => .setResult _
  | rcEncEos last => exact .bind (.encEos _) fun _ => .whenTrue (.modifyRegs fun _ => rfl)
  | rcDecEos => exact .bind .decEos fun _ => .bind (.setResult _) fun _ => .whenTrue .enterDone
  | rcEncFreq cum freq tot => exact .encFreq _ _ _
  | rcDecTarget tot => exact .bind (.decTarget tot) fun _ => .setResult _
  | rcDecNarrow cum freq tot => exact .decNarrow _ _ _
  | rcFlush => exact .bind .flushCoder fun _ => .enterDone

/-! ### A step -/

/-- Where no command waits, the memory's invariant is the form. -/
theorem memoryInv_of_idle {t : State} (hn : t.stall = none) (ht : FormOk t) : MemoryInv t :=
  ⟨ht, fun st hst => by rw [hn] at hst; cases hst⟩

/-- A fault leaves the tables in their form, or with no entry listed (R265, R266). -/
theorem takeFault_memoryInv {u : State} (i : Instr) (c : Cause) (hu : FormOk u) : MemoryInv (takeFault i c u) := by
  refine memoryInv_of_idle rfl ?_
  unfold takeFault
  split
  · exact Memory.wf_unspecified u.draws
  · exact hu

/-- Every command keeps the form, and a command that waits records tables that have it (R299). -/
theorem exec_memoryInv {i : Instr} {s t : State} (hs : FormOk s) (h : exec i s = .next t) : MemoryInv t := by
  rw [exec_eq] at h
  rcases executeCommand_cases h with ⟨-, -, ht⟩ | ⟨-, ht⟩ | ⟨-, -, ht⟩ | ⟨-, -, -, ht⟩
  · cases ht; exact memoryInv_of_idle rfl hs
  · cases ht; exact memoryInv_of_idle rfl hs
  · cases ht; exact memoryInv_of_idle rfl hs
  · have hrule := (keepsForm_ruleOf i).ends (takeCommand s) hs
    cases hx : ruleOf i (takeCommand s) with
    | ok a u =>
      have hu : FormOk u := hrule.of_ok hx
      rw [hx] at ht
      cases ht
      exact memoryInv_of_idle rfl hu
    | error e u =>
      have hu : FormOk u := hrule.of_error hx
      rw [hx] at ht
      cases e with
      | raise c => cases ht; exact takeFault_memoryInv i c hu
      | wait => cases ht; exact ⟨hu, fun st hst => by cases hst; exact hs⟩
      | stop g => cases ht

theorem executeIllegal_memoryInv {s : State} (w : Word64) (hs : FormOk s) : MemoryInv (executeIllegal w s) := by
  unfold executeIllegal
  split <;> exact memoryInv_of_idle rfl hs

/-- What the block executes next has the form, the waiting command by its record (R72, R299). -/
theorem MemoryInv.fetched {s u : State} {w : Word64} (hs : MemoryInv s) (h : fetchCommand s = some (w, u)) : FormOk u := by
  rcases fetchCommand_cases h with ⟨st, hst, heq⟩ | ⟨-, -, heq⟩ | ⟨v, later, -, -, heq⟩
  · cases heq; exact hs.2 st hst
  · cases heq
  · cases heq; exact hs.1

/-- Settles O59: a step is idle, or executes a command or an illegal word from tables in their form. -/
theorem memoryFormKept : Obligations.MemoryFormKept := by
  intro s t hs h
  unfold step at h
  split at h
  · cases h; exact hs
  · next w u hfetch =>
    split at h
    · exact exec_memoryInv (hs.fetched hfetch) h
    · cases h; exact executeIllegal_memoryInv w (hs.fetched hfetch)

end Sys2Proof.Machine
end

