-- ==== Sys2Proof/Proofs/Capacity.lean ====
section
/-! The words of table memory a session asks for (O26): the formula, its largest value, and the fault of a session start that asks for
more than there are. -/

namespace Sys2Proof.Machine

/-- NeedWords (R61), by whether the two members are configured alike. -/
theorem needWords_eq (c : Word64) : needWords c = 2 ^ cfgLmask c +
    (if cfgLctx c = cfgHctx c ∧ cfgLmask c = cfgHmask c then 4096 else 2 ^ cfgHmask c + 8192) + 273 * 256 ^ cfgOrder c := by
  unfold needWords cfgContexts
  cases hd : cfgDual c with
  | false => rw [if_pos ((cfgDual_eq_false_iff c).mp hd)]; rfl
  | true =>
    have hdual : ¬(cfgLctx c = cfgHctx c ∧ cfgLmask c = cfgHmask c) := by simp [← cfgDual_eq_false_iff, hd]
    rw [if_neg hdual]
    simp only [if_true]
    omega

/-- A valid configuration asks for at most two LZP tables of 2^30 slots, two probability maps and 2^16 literal contexts (R25, R61). -/
theorem needWords_le {c : Word64} (h : CfgBounds c) : needWords c ≤ 2165383168 := by
  have hl : 2 ^ cfgLmask c ≤ 2 ^ 30 := Nat.pow_le_pow_right (by decide) h.lmask.2
  have hh : 2 ^ cfgHmask c ≤ 2 ^ 30 := Nat.pow_le_pow_right (by decide) h.hmask.2
  have ho : 256 ^ cfgOrder c ≤ 256 ^ 2 := Nat.pow_le_pow_right (by decide) (by rcases cfgOrder_cases c with h | h <;> omega)
  rw [needWords_eq]
  split <;> omega

/-- A session start that asks for more words than TABLE_MEM_WORDS: the fault before any write (R61, R119, R265). -/
theorem exec_of_short {i : Instr} {s : State} {f : Cmd Unit} (hrule : ruleOf i = sessionInit >>= fun _ => f)
    (hl : legal i s.regs.mode s.regs.dir = true) (ho : operandsInRange i = true) (hm : s.regs.mode ≠ .faulted)
    (hc : cfgValid s.regs.config = true) (hw : s.params.tableMemWords.toNat < needWords s.regs.config) :
    exec i s = .next (faultedWith s 5#8 (encode i)) := by
  have hinit : sessionInit (takeCommand s) = .error (.raise .allocationFailure) (takeCommand s) :=
    (if_neg (by simp [hc])).trans (if_pos hw)
  rw [exec_eq, executeCommand_runs (.inl hm) hl ho, hrule, bind_of_error hinit]
  rfl

/-- Settles O26: the formula, its bound and the word that attains it, and the fault of both session starts. -/
theorem sessionMemory : Obligations.SessionMemory := by
  refine ⟨needWords_eq, fun c hc => needWords_le (cfgValid_iff.mp hc), ⟨0x031E081E81010100#64, by decide, by decide⟩,
    fun s hm hc hw => ?_⟩
  have hf : s.regs.mode ≠ .faulted := by rcases hm with hm | hm <;> simp [hm]
  have hl : betweenSessions s.regs.mode = true := by rcases hm with hm | hm <;> rw [hm] <;> rfl
  exact ⟨exec_of_short rfl hl rfl hf hc hw, exec_of_short rfl hl rfl hf hc hw⟩

end Sys2Proof.Machine
end

