-- ==== Sys2Proof/Proofs/Intervals.lean ====
section
/-! The literal context and the intervals of its symbols (O47): the sums of the statement are those the literal model's laws are about, and
the intervals tile the excluded total because the walk down the sums stops at every value below it. -/

namespace Sys2Proof.Machine

open Finset

/-! ### The literal context -/

/-- The literal context is the low 8 * ORDER bits of CONTEXT (R170). -/
theorem litCtx_eq (s : State) : litCtx s = s.regs.context.toNat % 256 ^ cfgOrder s.regs.scfg := by
  have hpow : 256 ^ cfgOrder s.regs.scfg = 2 ^ (8 * cfgOrder s.regs.scfg) := by rw [pow_mul]; rfl
  rw [litCtx, cfgContexts, hpow, Nat.and_two_pow_sub_one_eq_mod]

/-- USE_FIXED (R180). -/
theorem useFixed_iff (s : State) : useFixed s = true ↔ s.params.costThreshold.toNat < s.regs.cost.toNat := decide_eq_true_iff

/-! ### The sums of the statement -/

section Sums
variable {s : State} {x : Nat}

/-- The sum the laws are about is the sum the statement writes (R174). -/
theorem cumBelow_eq_cumWithout (sym : Nat) : cumBelow s x sym = cumWithout s x sym := by
  rw [cumBelow, cumWithout, list_sum_range]
  rfl

/-- CumEx as all singles below the symbol, less the excluded one (R174). -/
theorem cumWithout_eq (sym : Nat) :
    cumWithout s x sym = ((List.range sym).map (litSingle s)).sum - (if x < sym then litSingle s x else 0) := by
  rw [← cumBelow_eq_cumWithout, cumBelow_eq, list_sum_range]

/-- Every value below the excluded total is in the interval of a symbol (R175). -/
theorem exists_foundAt {v : Nat} (hv : v < cumBelow s x 256) : ∃ sym, FoundAt s x v sym := by
  obtain ⟨sym, -, hs, -, hle, hlt⟩ := walkSingles_spec hv 256 0 rfl (by simp)
  exact ⟨sym, (foundAt_of_walk hs hle hlt).1⟩

end Sums

/-- Settles O47: the places of the context, then the sums and the tiling, from the laws of the literal model. -/
theorem literalIntervals : Obligations.LiteralIntervals := by
  refine ⟨fun s => ⟨litCtx_eq s, fun c k => ⟨rfl, ?_, rfl⟩, fun k => ⟨rfl, rfl⟩, rfl, useFixed_iff s⟩, fun s x hx hv hok => ?_⟩
  · rw [groupOf, groupIndex, Nat.add_assoc]
  have htot : cumBelow s x 256 = totWithout s x := CtxOk.totEx_eq hok hx
  have hfreq : ∀ sym, sym ≠ x → freqExOf s x sym = litSingle s sym := fun sym hne => if_neg hne
  simp only [← cumBelow_eq_cumWithout, ← htot]
  refine ⟨fun sym hs => ⟨CtxOk.cumEx_run hok hs, ?_⟩, fun sym hne => ?_, CtxOk.totEx_run hok hx, CtxOk.totEx_ge hok hx, ?_,
    fun sym hs hne => ?_, fun v hlt => ?_⟩
  · rw [cumBelow_eq_cumWithout, cumWithout_eq]
  · rw [freqEx_run, hfreq sym hne]
  · have hle := CtxOk.total_le hok (cfgValid_iff.mp hv)
    rw [htot, totWithout]
    omega
  · rw [← hfreq sym hne]
    exact ⟨CtxOk.freq_pos hok hs hne, interval_le hs⟩
  · obtain ⟨sym, hfound⟩ := exists_foundAt hlt
    exact ⟨sym, hfound, fun other h1 h2 h3 h4 => FoundAt.unique (⟨h1, h2, h3, h4⟩ : FoundAt s x v other) hfound⟩

end Sys2Proof.Machine
end

