-- ==== Sys2Proof/Proofs/Encoding.lean ====
section
/-! The command word (O1 to O5). Decode is the one row that accepts the word: every mask covers the opcode and the rows have different
opcodes. The mask bits are those outside the row's fields, so an accepted word is the row's pattern with the word's own fields, which is
the word of the command the row builds; and each field of a well-formed command's word reads back as its operand. -/

namespace Sys2Proof.Machine

open Sys2Proof.Laws

/-! ### The rows of the map -/

/-- A property of the rows of each part of the map, and so of every row. -/
theorem forall_opcodeMap {p : Row → Prop} (hc : ∀ r ∈ controlRows, p r) (hs : ∀ r ∈ symbolRows, p r) (hr : ∀ r ∈ rawCoderRows, p r) :
    ∀ r ∈ opcodeMap, p r := by
  intro r h
  rcases List.mem_append.mp h with h | h
  · exact (List.mem_append.mp h).elim (hc r) (hs r)
  · exact hr r h

theorem accepts_iff {r : Row} {w : Word64} : r.accepts w = true ↔ w &&& r.mask = r.pattern := beq_iff_eq

/-- The opcodes of the map (R93). -/
theorem opcodes_eq : opcodeMap.map (fun r => opcode r.pattern) =
    [0, 1, 2, 3, 4, 5, 6, 7, 0x10, 0x11, 0x12, 0x20, 0x21, 0x22, 0x23, 0x24, 0x25, 0x26, 0x27] := by decide

/-- Every mask covers the opcode (R90, R93). -/
theorem mask_opcode : ∀ r ∈ opcodeMap, r.mask >>> 56 = 0xFF#64 := by decide

theorem opcode_lt (w : Word64) : opcode w < 256 := Nat.mod_lt _ (by decide)

/-- The opcode is what stands above the operand area. -/
theorem opcode_eq (w : Word64) : opcode w = (w >>> 56).toNat := by
  rw [BitVec.toNat_ushiftRight]
  exact Nat.mod_eq_of_lt (by have := w.isLt; rw [Nat.shiftRight_eq_div_pow]; omega)

/-- A row accepts words of its own opcode only (R94). -/
theorem opcode_of_accepts {r : Row} {w : Word64} (hr : r ∈ opcodeMap) (h : r.accepts w = true) : opcode r.pattern = opcode w := by
  have hmask : w >>> 56 &&& 0xFF#64 = w >>> 56 := by
    refine BitVec.eq_of_toNat_eq ?_
    rw [BitVec.toNat_and, ← opcode_eq]
    exact (Nat.and_two_pow_sub_one_eq_mod _ 8).trans (Nat.mod_eq_of_lt (opcode_lt w))
  rw [← accepts_iff.mp h, opcode_eq, opcode_eq, BitVec.ushiftRight_and_distrib, mask_opcode r hr, hmask]

/-- The rows have different opcodes (R94). -/
theorem row_of_opcode {a b : Row} (ha : a ∈ opcodeMap) (hb : b ∈ opcodeMap) (h : opcode a.pattern = opcode b.pattern) : a = b := by
  have hnodup : (opcodeMap.map fun r => opcode r.pattern).Nodup := by rw [opcodes_eq]; decide
  exact List.inj_on_of_nodup_map hnodup ha hb h

/-- At most one row accepts a word (R94). -/
theorem row_of_accepts {a b : Row} {w : Word64} (ha : a ∈ opcodeMap) (hb : b ∈ opcodeMap) (h : a.accepts w = true)
    (h' : b.accepts w = true) : a = b :=
  row_of_opcode ha hb ((opcode_of_accepts ha h).trans (opcode_of_accepts hb h').symm)

/-! ### Decode by rows (R94) -/

theorem decode_of_accepts {r : Row} {w : Word64} (hr : r ∈ opcodeMap) (h : r.accepts w = true) : decode w = .ok (r.build w) := by
  unfold decode
  split
  · next a ha => rw [row_of_accepts (List.mem_of_find?_eq_some ha) hr (List.find?_some (p := fun r : Row => r.accepts w) ha) h]
  · next hn => exact absurd h (List.find?_eq_none.mp hn r hr)

theorem decode_of_none_accepts {w : Word64} (h : ∀ r ∈ opcodeMap, r.accepts w = false) : ∃ e, decode w = .error e := by
  unfold decode
  rw [List.find?_eq_none.mpr (by simpa using h)]
  dsimp only
  split <;> exact ⟨_, rfl⟩

/-- What decodes is what a row that accepts it builds. -/
theorem decode_eq_ok_iff {w : Word64} {i : Instr} : decode w = .ok i ↔ ∃ r ∈ opcodeMap, r.accepts w = true ∧ r.build w = i := by
  constructor
  · intro h
    by_cases hn : ∃ r ∈ opcodeMap, r.accepts w = true
    · obtain ⟨r, hr, ha⟩ := hn
      exact ⟨r, hr, ha, Except.ok.inj ((decode_of_accepts hr ha).symm.trans h)⟩
    · obtain ⟨e, he⟩ := decode_of_none_accepts (w := w) (by simpa using hn)
      cases he.symm.trans h
  · rintro ⟨r, hr, ha, rfl⟩
    exact decode_of_accepts hr ha

/-- A word is illegal where no row accepts it (R95). -/
theorem decode_error_iff {w : Word64} : (∃ e, decode w = .error e) ↔ ∀ r ∈ opcodeMap, r.accepts w = false := by
  refine ⟨fun ⟨e, he⟩ r hr => Bool.eq_false_iff.mpr fun ha => ?_, decode_of_none_accepts⟩
  cases he.symm.trans (decode_of_accepts hr ha)

theorem rowMnemonic_build (w : Word64) : ∀ r ∈ opcodeMap, rowMnemonic (r.build w) = r.mnemonic :=
  forall_opcodeMap (by simp [controlRows, rowMnemonic]) (by simp [symbolRows, rowMnemonic]) (by simp [rawCoderRows, rowMnemonic])

/-- The rows have different mnemonics and opcodes (R93). -/
theorem rows_differ : opcodeMap.Pairwise fun a b => a.mnemonic ≠ b.mnemonic ∧ opcode a.pattern ≠ opcode b.pattern := by decide

/-- Settles O3: the row that accepts a word is the one whose command it decodes to; two rows accept words of different opcodes. -/
theorem decodeFollowsTheRows : Obligations.DecodeFollowsTheRows := by
  refine ⟨fun w r hr h => ⟨r.build w, decode_of_accepts hr h, rowMnemonic_build w r hr⟩, fun w => decode_of_none_accepts,
    rows_differ.imp_of_mem fun ha hb ⟨hname, hop⟩ => ⟨hname, fun w h => Bool.eq_false_iff.mpr fun h' => hop ?_⟩⟩
  exact (opcode_of_accepts ha h).trans (opcode_of_accepts hb h').symm

/-! ### The bits of a row's fields -/

/-- The mask bits are those outside the fields (R93, R95). -/
theorem mask_eq_not_fields : ∀ r ∈ opcodeMap, ∀ k < 64,
    r.mask.getLsbD k = !(r.fields.any fun f => decide (f.lo ≤ k) && decide (k ≤ f.hi)) := by decide +kernel

/-- What a field of a word holds, in the field's place. -/
def fieldInPlace (w : Word64) (f : FieldPos) : Word64 := BitVec.ofNat 64 (bits w f.hi f.lo <<< f.lo)

theorem fieldInPlace_getLsbD (w : Word64) (f : FieldPos) {k : Nat} (hk : k < 64) :
    (fieldInPlace w f).getLsbD k = ((decide (f.lo ≤ k) && decide (k ≤ f.hi)) && w.getLsbD k) := by
  simp only [fieldInPlace, bits, BitVec.getLsbD_ofNat, Nat.testBit_shiftLeft, Nat.testBit_mod_two_pow, Nat.testBit_shiftRight,
    BitVec.testBit_toNat]
  by_cases hlo : f.lo ≤ k
  · simp [hk, hlo, show k - f.lo < f.hi + 1 - f.lo ↔ k ≤ f.hi by omega]
  · simp [hlo]

/-- A pattern and fields of a word, put together: the bits of either. -/
theorem foldl_fields_getLsbD (w : Word64) {k : Nat} (hk : k < 64) (fields : List FieldPos) (pattern : Word64) :
    (fields.foldl (fun v f => v ||| fieldInPlace w f) pattern).getLsbD k =
      (pattern.getLsbD k || ((fields.any fun f => decide (f.lo ≤ k) && decide (k ≤ f.hi)) && w.getLsbD k)) := by
  induction fields generalizing pattern with
  | nil => simp
  | cons f later ih =>
    rw [List.foldl_cons, ih, List.any_cons, BitVec.getLsbD_or, fieldInPlace_getLsbD w f hk, Bool.or_assoc, ← Bool.and_or_distrib_right]

/-- A word that a row accepts is the row's pattern with the fields of the word: no bit of it goes unread (R99). -/
theorem foldl_fields_of_accepts {r : Row} {w : Word64} (hr : r ∈ opcodeMap) (h : r.accepts w = true) :
    r.fields.foldl (fun v f => v ||| fieldInPlace w f) r.pattern = w := by
  refine BitVec.eq_of_getLsbD_eq fun k hk => ?_
  rw [foldl_fields_getLsbD w hk, ← accepts_iff.mp h, BitVec.getLsbD_and, mask_eq_not_fields r hr k hk]
  cases w.getLsbD k <;> simp

/-- The word of the command a row builds is put together from the row's pattern and fields (R97). -/
theorem encode_build (w : Word64) :
    ∀ r ∈ opcodeMap, encode (r.build w) = r.fields.foldl (fun v f => v ||| fieldInPlace w f) r.pattern := by
  apply forall_opcodeMap
  · simp [controlRows, encode, fieldInPlace, BitVec.ofNat_or]
  · simp [symbolRows, encode, fieldInPlace, BitVec.ofNat_or]
  · simp [rawCoderRows, encode, fieldInPlace, BitVec.ofNat_or]

/-- Settles O2: the word is its row's pattern and its own fields put together, and so is the word of the command built from it. -/
theorem encodeUndoesDecode : Obligations.EncodeUndoesDecode := by
  intro w i h
  obtain ⟨r, hr, ha, rfl⟩ := decode_eq_ok_iff.mp h
  exact ⟨opcodeMap_wellFormed w hr, (encode_build w r hr).trans (foldl_fields_of_accepts hr ha)⟩

/-! ### Reading the fields of a word -/

/-- A field of a word put together of two parts is put together of the field in either. -/
theorem bits_or (a b hi lo : Nat) :
    bits (BitVec.ofNat 64 (a ||| b)) hi lo = bits (BitVec.ofNat 64 a) hi lo ||| bits (BitVec.ofNat 64 b) hi lo := by
  simp only [bits, BitVec.toNat_ofNat, Nat.or_mod_two_pow, Nat.shiftRight_or_distrib]

/-- A field of a number's word, as a quotient and a remainder of the number (R91). -/
theorem bits_ofNat {hi : Nat} (h : hi < 64) (v lo : Nat) : bits (BitVec.ofNat 64 v) hi lo = v / 2 ^ lo % 2 ^ (hi + 1 - lo) := by
  refine Nat.eq_of_testBit_eq fun k => ?_
  rw [← Nat.shiftRight_eq_div_pow]
  simp only [bits, BitVec.toNat_ofNat, Nat.testBit_mod_two_pow, Nat.testBit_shiftRight]
  by_cases hk : k < hi + 1 - lo
  · simp [show lo + k < 64 by omega]
  · simp [hk]

/-- What stands below a field, or above it, adds nothing to it. -/
theorem bits_outside {v hi lo : Nat} (hhi : hi < 64) (hlo : lo ≤ hi) (h : v < 2 ^ lo ∨ 2 ^ (hi + 1) ∣ v) :
    bits (BitVec.ofNat 64 v) hi lo = 0 := by
  rw [bits_ofNat hhi]
  rcases h with h | ⟨k, rfl⟩
  · rw [Nat.div_eq_of_lt h, Nat.zero_mod]
  · rw [← Nat.pow_sub_mul_pow 2 (show lo ≤ hi + 1 by omega), Nat.mul_right_comm, Nat.mul_div_cancel _ (Nat.two_pow_pos lo),
      Nat.mul_mod_right]

/-- An operand in its field's place reads back. -/
theorem bits_shiftLeft {v hi lo : Nat} (hhi : hi < 64) (h : v < 2 ^ (hi + 1 - lo)) :
    bits (BitVec.ofNat 64 (v <<< lo)) hi lo = v := by
  rw [bits_ofNat hhi, Nat.shiftLeft_eq, Nat.mul_div_cancel _ (Nat.two_pow_pos lo), Nat.mod_eq_of_lt h]

theorem bits_lowest {v hi : Nat} (hhi : hi < 64) (h : v < 2 ^ (hi + 1)) : bits (BitVec.ofNat 64 v) hi 0 = v :=
  bits_shiftLeft (lo := 0) hhi h

/-! ### A command's own row -/

/-- The row of the opcode map a command stands in (R93). -/
def rowOf : Instr → Row
  | .nop => controlRows[0]
  | .setcfgHi _ => controlRows[1]
  | .setcfgLo _ => controlRows[2]
  | .setirq _ _ => controlRows[3]
  | .initEnc => controlRows[4]
  | .initDec => controlRows[5]
  | .tblRead _ _ => controlRows[6]
  | .decCheckEnd => controlRows[7]
  | .encSym _ => symbolRows[0]
  | .encEnd => symbolRows[1]
  | .decSym => symbolRows[2]
  | .rcEncBit _ _ => rawCoderRows[0]
  | .rcDecBit _ => rawCoderRows[1]
  | .rcEncEos _ => rawCoderRows[2]
  | .rcDecEos => rawCoderRows[3]
  | .rcEncFreq _ _ _ => rawCoderRows[4]
  | .rcDecTarget _ => rawCoderRows[5]
  | .rcDecNarrow _ _ _ => rawCoderRows[6]
  | .rcFlush => rawCoderRows[7]

/-- The row of a well-formed command builds the command from its word: each field reads its own operand, the parts beside it add
nothing. -/
theorem rowOf_build_encode {i : Instr} (hw : i.wellFormed = true) : (rowOf i).build (encode i) = i := by
  cases i with
  | nop | initEnc | initDec | decCheckEnd | encEnd | decSym | rcDecEos | rcFlush => rfl
  | setcfgHi | setcfgLo | setirq | tblRead | encSym | rcEncBit | rcDecBit | rcEncEos | rcEncFreq | rcDecTarget | rcDecNarrow =>
    simp only [Instr.wellFormed, Bool.and_eq_true, fits_iff] at hw
    simp (disch := omega) only [rowOf, controlRows, symbolRows, rawCoderRows, List.getElem_cons_succ, List.getElem_cons_zero, encode,
      bits_or, bits_outside, bits_shiftLeft, bits_lowest, Nat.zero_or, Nat.or_zero]

theorem rowOf_mem (i : Instr) : rowOf i ∈ opcodeMap := by
  cases i with
  | nop | setcfgHi | setcfgLo | setirq | initEnc | initDec | tblRead | decCheckEnd =>
    exact RowMatches.row_mem (.inl (List.getElem_mem _))
  | encSym | encEnd | decSym => exact RowMatches.row_mem (.inr (.inl (List.getElem_mem _)))
  | rcEncBit | rcDecBit | rcEncEos | rcDecEos | rcEncFreq | rcDecTarget | rcDecNarrow | rcFlush =>
    exact RowMatches.row_mem (.inr (.inr (List.getElem_mem _)))

theorem rowOf_mnemonic (i : Instr) : (rowOf i).mnemonic = rowMnemonic i := by cases i <;> rfl

/-- The rows have different mnemonics (R93). -/
theorem row_of_mnemonic {a b : Row} (ha : a ∈ opcodeMap) (hb : b ∈ opcodeMap) (h : a.mnemonic = b.mnemonic) : a = b := by
  have hnodup : (opcodeMap.map fun r => r.mnemonic).Nodup := by decide
  exact List.inj_on_of_nodup_map hnodup ha hb h

/-- The law of Laws/PerInstr.lean, of every command. -/
theorem rowMatches : ∀ i : Instr, RowMatches.Statement i
  | .nop => RowMatches.nop
  | .setcfgHi imm32 => RowMatches.setcfgHi imm32
  | .setcfgLo imm32 => RowMatches.setcfgLo imm32
  | .setirq en clr => RowMatches.setirq en clr
  | .initEnc => RowMatches.initEnc
  | .initDec => RowMatches.initDec
  | .tblRead tid idx => RowMatches.tblRead tid idx
  | .decCheckEnd => RowMatches.decCheckEnd
  | .encSym byte => RowMatches.encSym byte
  | .encEnd => RowMatches.encEnd
  | .decSym => RowMatches.decSym
  | .rcEncBit bit p => RowMatches.rcEncBit bit p
  | .rcDecBit p => RowMatches.rcDecBit p
  | .rcEncEos last => RowMatches.rcEncEos last
  | .rcDecEos => RowMatches.rcDecEos
  | .rcEncFreq cum freq tot => RowMatches.rcEncFreq cum freq tot
  | .rcDecTarget tot => RowMatches.rcDecTarget tot
  | .rcDecNarrow cum freq tot => RowMatches.rcDecNarrow cum freq tot
  | .rcFlush => RowMatches.rcFlush

/-- The word of a well-formed command is accepted by the command's row. -/
theorem rowOf_accepts_encode {i : Instr} (hw : i.wellFormed = true) : (rowOf i).accepts (encode i) = true := by
  obtain ⟨r, hr, hname, ha⟩ := rowMatches i hw
  rwa [row_of_mnemonic (rowOf_mem i) hr ((rowOf_mnemonic i).trans hname.symm)]

/-- Settles O1: the command's own row accepts its word and builds the command from it. -/
theorem decodeUndoesEncode : Obligations.DecodeUndoesEncode := by
  intro i hw
  rw [decode_of_accepts (rowOf_mem i) (rowOf_accepts_encode hw), rowOf_build_encode hw]

/-! ### Illegal words (R95) -/

/-- The opcode is one of those R95 calls unassigned. -/
def Unassigned (op : Nat) : Prop := (8 ≤ op ∧ op ≤ 0x0F) ∨ (0x13 ≤ op ∧ op ≤ 0x1F) ∨ (0x28 ≤ op ∧ op ≤ 0xFF)

/-- An opcode is assigned where a row has it (R93, R95). -/
theorem unassigned_iff {op : Nat} (h : op < 256) : Unassigned op ↔ ∀ r ∈ opcodeMap, opcode r.pattern ≠ op := by
  have hrows : (∀ r ∈ opcodeMap, opcode r.pattern ≠ op) ↔ op ∉ opcodeMap.map fun r => opcode r.pattern := by simp
  rw [hrows, opcodes_eq]
  simp only [List.mem_cons, List.not_mem_nil, or_false, Unassigned]
  omega

/-- A word is illegal exactly where its opcode is unassigned, or a row of its opcode does not match (R95). -/
theorem illegal_iff (w : Word64) : (∃ e, decode w = .error e) ↔
    Unassigned (opcode w) ∨ ∃ r ∈ opcodeMap, opcode r.pattern = opcode w ∧ w &&& r.mask ≠ r.pattern := by
  rw [decode_error_iff, unassigned_iff (opcode_lt w)]
  constructor
  · intro hnone
    by_cases h : ∃ r ∈ opcodeMap, opcode r.pattern = opcode w
    · obtain ⟨r, hr, hop⟩ := h
      exact .inr ⟨r, hr, hop, fun heq => by simpa [accepts_iff.mpr heq] using hnone r hr⟩
    · exact .inl (by simpa using h)
  · rintro (hnone | ⟨r, hr, hop, hne⟩) a ha <;> refine Bool.eq_false_iff.mpr fun hacc => ?_
    · exact hnone a ha (opcode_of_accepts ha hacc)
    · rw [row_of_opcode hr ha (hop.trans (opcode_of_accepts ha hacc).symm)] at hne
      exact hne (accepts_iff.mp hacc)

/-- An illegal word, taken: ILLEGAL_COMMAND, or in FAULTED nothing (R95, R112). -/
theorem executeIllegal_eq (w : Word64) (s : State) :
    executeIllegal w s = if s.regs.mode = .faulted then discarded s else faultedWith s 16#8 w := rfl

/-- The step that finds an illegal word (R95). -/
theorem step_of_illegal {s : State} {w : Word64} {later : List Word64} {e : Illegal} (hs : s.stall = none)
    (hw : s.cmdFifo = w :: later) (he : decode w = .error e) :
    step s = .next (executeIllegal w { s with cmdFifo := later }) := by
  have hfetch : fetchCommand s = some (w, { s with cmdFifo := later }) := by simp only [fetchCommand, hs, hw]
  simp only [step, hfetch, he]

/-- Settles O4: no row accepts an illegal word; the step takes it out and enters the fault, or discards it. -/
theorem illegalWordsFault : Obligations.IllegalWordsFault :=
  ⟨illegal_iff, mask_eq_not_fields, fun _ w _ _ hs hw he => (step_of_illegal hs hw he).trans (congrArg _ (executeIllegal_eq w _))⟩

/-- Settles O5: the legal words are those of well-formed commands; the illegal ones and the assembler's are evaluated. -/
theorem wordExamples : Obligations.WordExamples := by
  refine ⟨decodeUndoesEncode (.rcEncBit 1 16384) rfl, decodeUndoesEncode (.rcEncFreq 3 2 10) rfl,
    decodeUndoesEncode (.tblRead 4 273) rfl, decodeUndoesEncode (.encSym 0x41) rfl, decodeUndoesEncode (.setcfgLo 0x01010100) rfl,
    decodeUndoesEncode (.setirq 3 3) rfl, ?_⟩
  decide +kernel

end Sys2Proof.Machine
end

