-- ==== Sys2Proof/Proofs/OperandRange.lean ====
section
/-! The operand ranges (O13): a command with an operand outside its range faults before its rule, and no rule raises OPERAND_RANGE. -/

namespace Sys2Proof.Machine

/-! ### How a legal command comes to a fault -/

/-- The causes a command can take inside its rule (R265, R266): a coding procedure's, a session start's, and DEC_CHECK_END's. -/
def RuleCause (c : Cause) : Prop :=
  codingCause c = true ∨ c = .invalidConfiguration ∨ c = .allocationFailure ∨ c = .trailingData

theorem BrokenOff.ruleCause {i : Instr} {s u : State} {c : Cause} (h : BrokenOff i s (.raise c) u) : RuleCause c := by
  rcases h with h | ⟨-, hc, -⟩
  · rcases h.raised c rfl with hc | ⟨-, hc | hc, -⟩
    · exact .inl hc
    · exact .inr (.inl hc)
    · exact .inr (.inr (.inl hc))
  · cases hc; exact .inr (.inr (.inr rfl))

/-- A rule that ends well does not end in FAULTED, where its command did not begin there. -/
theorem RuleDone.not_faulted {i : Instr} {s u : State} (h : RuleDone i (takeCommand s) u)
    (hl : legal i s.regs.mode s.regs.dir = true) (hm : s.regs.mode ≠ .faulted) : u.regs.mode ≠ .faulted := by
  obtain ⟨v, w, began, -, frame, concluded, -⟩ := h.whole
  have opened := began.opened hl
  exact (opened.lastWrite frame concluded hl).not_faulted (by rwa [(opened.kept frame).mode])

/-- A command that may run, and its operands in range, faults only by a cause raised inside its rule (R264). -/
theorem ruleCause_of_faulted {i : Instr} {s t : State} (hm : s.regs.mode ≠ .faulted) (hl : legal i s.regs.mode s.regs.dir = true)
    (ho : operandsInRange i = true) (h : exec i s = .next t) (ht : t.regs.mode = .faulted) :
    ∃ c, RuleCause c ∧ t.regs.faultCause = causeCode c := by
  cases exec_executed h with
  | discarded mode => exact absurd mode hm
  | illegal _ legality => cases hl.symm.trans legality
  | outOfRange _ range => cases ho.symm.trans range
  | retired _ _ u done ends => exact absurd (by simpa [ends] using ht) (done.not_faulted hl hm)
  | raised _ _ c u broken ends => exact ⟨c, broken.ruleCause, by rw [ends, takeFault, faultEntry_regs]⟩
  | waits _ _ u broken ends =>
    exact absurd (((broken.reached hl).controlKept.mode).symm.trans (by simpa [ends] using ht)) hm

/-! ### The operand ranges (R92) -/

theorem not_ruleCause_operandRange : ¬RuleCause .operandRange := by simp [RuleCause, codingCause]

/-- No other cause has the number of OPERAND_RANGE (R261). -/
theorem eq_operandRange_of_code {c : Cause} (h : causeCode c = 18#8) : c = .operandRange := by
  cases c with
  | operandRange => rfl
  | ioFailure | unexpectedEndOfInput | badMagic | invalidConfiguration | allocationFailure | trailingData | illegalCommand | badState
    | corruptPayload | narrowMismatch | carryOverflow | ffrunOverflow => exact absurd h (by decide)

/-- A legal command with an operand outside its range: the fault before any write (R92, R265). -/
theorem exec_of_outOfRange {i : Instr} {s : State} (hm : s.regs.mode ≠ .faulted) (hl : legal i s.regs.mode s.regs.dir = true)
    (ho : operandsInRange i = false) : exec i s = .next (faultedWith s 18#8 (encode i)) := by
  rw [exec_eq, executeCommand, if_neg fun h => hm h.1, if_neg (by simp [hl]), if_pos ho]
  rfl

theorem intervalInRange_eq_false_iff {cum freq tot : Nat} :
    intervalInRange cum freq tot = false ↔ tot = 0 ∨ freq = 0 ∨ tot < cum + freq := by
  rw [Bool.eq_false_iff, ne_eq, intervalInRange_iff]
  omega

/-- Settles O13: out of range the fault comes before the rule; in range only the rule can fault, and it never raises this cause. -/
theorem operandRangeTable : Obligations.OperandRangeTable := by
  unfold Obligations.OperandRangeTable
  intro outside i s hm hl
  have range : outside i ↔ operandsInRange i = false := by
    cases i with
    | rcEncFreq | rcDecNarrow => exact intervalInRange_eq_false_iff.symm
    | rcEncBit | rcDecBit | rcDecTarget => simp [outside, operandsInRange]
    | nop | setcfgHi | setcfgLo | setirq | initEnc | initDec | tblRead | decCheckEnd | encSym | encEnd | decSym | rcEncEos | rcDecEos
      | rcFlush => simp [outside, operandsInRange]
  refine ⟨fun ho => exec_of_outOfRange hm hl (range.mp ho), fun ho t h ht => ?_⟩
  obtain ⟨c, hc, hcode⟩ := ruleCause_of_faulted hm hl (by simpa using mt range.mpr ho) h ht
  intro hcause
  cases eq_operandRange_of_code (hcode.symm.trans hcause)
  exact not_ruleCause_operandRange hc

end Sys2Proof.Machine
end

