-- ==== Sys2Proof/Proofs/Pseudo.lean ====
section
/-! The pseudo-commands (O6): their expansions, and what the control commands among them write. -/

namespace Sys2Proof.Machine

/-! ### Commands that write registers alone -/

/-- A command that may run ends as its rule ends (R110). -/
theorem exec_of_runs {i : Instr} {s : State} (hf : s.regs.mode ≠ .faulted ∨ runsWhenFaulted i = true)
    (hl : legal i s.regs.mode s.regs.dir = true) (ho : operandsInRange i = true) :
    exec i s = concludeCommand i s (ruleOf i (takeCommand s)) := by
  rw [exec_eq, executeCommand_runs hf hl ho]

/-- SETIRQ retires in every mode (R116). -/
theorem exec_setirq (en clr : Nat) (s : State) : exec (.setirq en clr) s =
    .next (countedWith s { s.regs with irqEn := BitVec.ofNat 2 en, irqPend := s.regs.irqPend &&& ~~~(BitVec.ofNat 2 clr) }) :=
  exec_of_runs (i := .setirq en clr) (.inr rfl) rfl rfl

section Setcfg
variable {s : State} (hm : s.regs.mode = .idle ∨ s.regs.mode = .done)
include hm

/-- Between sessions the block is not in FAULTED, and the commands of R111 that write CONFIG or start a session are legal. -/
theorem betweenSessions_ready : s.regs.mode ≠ .faulted ∧ betweenSessions s.regs.mode = true := by
  rcases hm with hm | hm <;> simp [hm, betweenSessions]

/-- SETCFG_HI (R114). -/
theorem exec_setcfgHi (imm : Nat) : exec (.setcfgHi imm) s =
    .next (countedWith s { s.regs with config := BitVec.ofNat 32 imm ++ s.regs.config.extractLsb' 0 32 }) :=
  exec_of_runs (i := .setcfgHi imm) (.inl (betweenSessions_ready hm).1) (betweenSessions_ready hm).2 rfl

/-- SETCFG_LO (R115). -/
theorem exec_setcfgLo (imm : Nat) : exec (.setcfgLo imm) s =
    .next (countedWith s { s.regs with config := s.regs.config.extractLsb' 32 32 ++ BitVec.ofNat 32 imm }) :=
  exec_of_runs (i := .setcfgLo imm) (.inl (betweenSessions_ready hm).1) (betweenSessions_ready hm).2 rfl

end Setcfg

/-! ### The pseudo-commands (R98) -/

/-- A 64-bit number put together from its halves. -/
theorem ofNat_append_halves (n : Nat) : BitVec.ofNat 32 (n >>> 32) ++ BitVec.ofNat 32 (n % 2 ^ 32) = BitVec.ofNat 64 n := by
  refine BitVec.eq_of_getLsbD_eq fun k hk => ?_
  simp only [BitVec.getLsbD_append, BitVec.getLsbD_ofNat, Nat.testBit_mod_two_pow, Nat.testBit_shiftRight]
  by_cases hlow : k < 32
  · simp [hlow, hk]
  · simp [hlow, hk, show k - 32 < 32 by omega, show 32 + (k - 32) = k by omega]

theorem expandPseudo_wellFormed {p : Pseudo} (hp : p.wellFormed = true) : ∀ i ∈ expandPseudo p, i.wellFormed = true := by
  cases p with
  | setcfg imm64 =>
    have h64 := fits_iff.mp hp
    exact List.forall_mem_cons.mpr ⟨fits_iff.mpr (by omega), List.forall_mem_singleton.mpr (fits_iff.mpr (by omega))⟩
  | encodeBytes bytes =>
    have hbytes : ∀ b ∈ bytes, (Instr.encSym b).wellFormed = true := List.all_eq_true.mp hp
    exact List.forall_mem_append.mpr ⟨List.forall_mem_map.mpr hbytes, List.forall_mem_singleton.mpr rfl⟩
  | rcEncLit cum freq tot => exact List.forall_mem_singleton.mpr hp
  | rcDecLit cum freq tot =>
    have htot : fits 16 tot = true := (Bool.and_eq_true_iff.mp hp).2
    exact List.forall_mem_cons.mpr ⟨htot, List.forall_mem_singleton.mpr hp⟩
  | ackIrq en => exact List.forall_mem_singleton.mpr (Bool.and_eq_true_iff.mpr ⟨hp, rfl⟩)

/-- The two commands of SETCFG write the whole of CONFIG (R98, R114, R115). -/
theorem setcfg_writes_config {s : State} (imm64 : Nat) (hm : s.regs.mode = .idle ∨ s.regs.mode = .done) :
    ∃ t, exec (.setcfgHi (imm64 >>> 32)) s = .next t ∧
      exec (.setcfgLo (imm64 % 2 ^ 32)) t = .next (countedWith t { t.regs with config := BitVec.ofNat 64 imm64 }) := by
  refine ⟨_, exec_setcfgHi hm _, ?_⟩
  rw [exec_setcfgLo (by exact hm)]
  simp only [countedWith, BitVec.extractLsb'_append_eq_left, ofNat_append_halves]

/-- Acknowledging both interrupts leaves the enables (R98, R116). -/
theorem exec_ackIrq (s : State) : exec (.setirq s.regs.irqEn.toNat 3) s = .next (countedWith s { s.regs with irqPend := 0#2 }) := by
  have hclear : s.regs.irqPend &&& ~~~(BitVec.ofNat 2 3) = 0#2 := by rw [show ~~~(BitVec.ofNat 2 3) = 0#2 from rfl, BitVec.and_zero]
  rw [exec_setirq, BitVec.ofNat_toNat, BitVec.setWidth_eq, hclear]

/-- Settles O6: the expansions as they are defined, and the commands of SETCFG and ACK_IRQ executed. -/
theorem pseudoCommandsExpand : Obligations.PseudoCommandsExpand := by
  refine ⟨fun imm64 => ?_, fun _ => rfl, fun _ _ _ => rfl, fun _ _ _ => rfl, fun _ => rfl, fun p => expandPseudo_wellFormed,
    fun s imm64 _ hm => ?_, fun s => ⟨_, rfl, exec_ackIrq s⟩⟩
  · rw [expandPseudo, Nat.shiftRight_eq_div_pow]
  · obtain ⟨t, ht, hu⟩ := setcfg_writes_config imm64 hm
    exact ⟨_, _, t, _, rfl, ht, hu, rfl⟩

end Sys2Proof.Machine
end

