-- ==== Sys2Proof/Proofs/Control.lean ====
section
/-! The mode table and FAULTED (O12, O11), and the control commands that start no session (O27, O28, O29, O34, O35). -/

namespace Sys2Proof.Machine

/-! ### The mode table (R111) -/

/-- A command that is not legal in its mode: the fault before any write (R111, R265). -/
theorem exec_of_illegal {i : Instr} {s : State} (hm : s.regs.mode ≠ .faulted) (hl : legal i s.regs.mode s.regs.dir = false) :
    exec i s = .next (faultedWith s 17#8 (encode i)) := by
  rw [exec_eq, executeCommand, if_neg fun h => hm h.1, if_pos hl]
  rfl

/-- No rule raises a cause with the number of BAD_STATE (R261, R265). -/
theorem RuleCause.not_badState {c : Cause} (h : RuleCause c) : causeCode c ≠ 17#8 := by
  cases c with
  | badState => simp [RuleCause, codingCause] at h
  | ioFailure | unexpectedEndOfInput | badMagic | invalidConfiguration | allocationFailure | trailingData | illegalCommand
    | operandRange | corruptPayload | narrowMismatch | carryOverflow | ffrunOverflow => decide

/-- A legal command that comes to a fault comes to another than BAD_STATE (R111, R264). -/
theorem not_badState_of_legal {i : Instr} {s t : State} (hm : s.regs.mode ≠ .faulted) (hl : legal i s.regs.mode s.regs.dir = true)
    (h : exec i s = .next t) (ht : t.regs.mode = .faulted) : t.regs.faultCause ≠ 17#8 := by
  cases ho : operandsInRange i with
  | false =>
    rw [exec_of_outOfRange hm hl ho] at h
    cases h
    exact (by decide : 18#8 ≠ 17#8)
  | true =>
    obtain ⟨c, hc, hcode⟩ := ruleCause_of_faulted hm hl ho h ht
    exact hcode ▸ hc.not_badState

/-- Settles O12: the table is `legal`; what is not legal faults before its rule, and no rule raises this cause. -/
theorem badStateTable : Obligations.BadStateTable := by
  unfold Obligations.BadStateTable
  intro allowed i s hm
  have table : allowed i s.regs.mode s.regs.dir ↔ legal i s.regs.mode s.regs.dir = true := by
    cases i with
    | nop | setirq => simp [allowed, legal]
    | setcfgHi | setcfgLo | initEnc | initDec => simp [allowed, legal, betweenSessions]
    | tblRead =>
      simp only [allowed, legal]
      cases hmode : s.regs.mode with
      | faulted => exact absurd hmode hm
      | idle | enc | encEnding | dec | done => decide
    | decCheckEnd | encSym | encEnd | rcEncBit | rcEncEos | rcEncFreq | rcFlush | decSym | rcDecBit | rcDecEos | rcDecTarget
      | rcDecNarrow => simp [allowed, legal]
  refine ⟨fun hn => exec_of_illegal hm ?_, fun ha t h => not_badState_of_legal hm (table.mp ha) h⟩
  exact Bool.eq_false_iff.mpr (mt table.mpr hn)

/-! ### FAULTED (R112) -/

/-- NOP retires in every mode (R113). -/
theorem exec_nop (s : State) : exec .nop s = .next (countedWith s s.regs) :=
  exec_of_runs (i := .nop) (.inr rfl) rfl rfl

/-- In FAULTED a command that does not run there is discarded (R112). -/
theorem exec_of_discarded {i : Instr} {s : State} (hm : s.regs.mode = .faulted) (hi : runsWhenFaulted i = false) :
    exec i s = .next (discarded s) := by
  rw [exec_eq, executeCommand, if_pos ⟨hm, hi⟩]
  rfl

/-- Every command but NOP and SETIRQ is discarded in FAULTED (R112). -/
theorem runsWhenFaulted_eq_false {i : Instr} (hn : i ≠ .nop) (hs : ∀ en clr, i ≠ .setirq en clr) : runsWhenFaulted i = false := by
  cases i with
  | nop => exact absurd rfl hn
  | setirq en clr => exact absurd rfl (hs en clr)
  | setcfgHi | setcfgLo | initEnc | initDec | tblRead | decCheckEnd | encSym | encEnd | decSym | rcEncBit | rcDecBit | rcEncEos
    | rcDecEos | rcEncFreq | rcDecTarget | rcDecNarrow | rcFlush => rfl

section Faulted
variable {s : State} {w : Word64} {later : List Word64} (hstall : s.stall = none) (hfifo : s.cmdFifo = w :: later)
include hstall hfifo

/-- The step that finds a command's word (R72, R110). -/
theorem step_of_decode {i : Instr} (hi : decode w = .ok i) : step s = exec i { s with cmdFifo := later } :=
  stepRunsDecodedCommand.1 s w later i hstall hfifo hi

/-- In FAULTED a word that is neither NOP nor SETIRQ, legal or not, is discarded (R112). -/
theorem step_discards (hm : s.regs.mode = .faulted) (hn : decode w ≠ .ok .nop) (hs : ∀ en clr, decode w ≠ .ok (.setirq en clr)) :
    step s = .next (discarded { s with cmdFifo := later }) := by
  cases hd : decode w with
  | error e => rw [step_of_illegal hstall hfifo hd, executeIllegal_eq, if_pos (by exact hm)]
  | ok i =>
    rw [step_of_decode hstall hfifo hd]
    exact exec_of_discarded hm (runsWhenFaulted_eq_false (fun h => hn (h ▸ hd)) fun en clr h => hs en clr (h ▸ hd))

end Faulted

/-- Settles O11: the word is NOP, SETIRQ, or discarded; none of the three touches MODE or the fault registers. -/
theorem faultedBlock : Obligations.FaultedBlock := by
  intro s w later hstall hfifo hm
  have nop (hd : decode w = .ok .nop) : step s = .next (countedWith { s with cmdFifo := later } s.regs) :=
    (step_of_decode hstall hfifo hd).trans (exec_nop _)
  have setirq (en clr) (hd : decode w = .ok (.setirq en clr)) := (step_of_decode hstall hfifo hd).trans (exec_setirq en clr _)
  refine ⟨nop, setirq, step_discards hstall hfifo hm, fun t ht => ?_⟩
  by_cases hn : decode w = .ok .nop
  · cases (nop hn).symm.trans ht
    exact ⟨hm, rfl, rfl, rfl⟩
  by_cases hs : ∃ en clr, decode w = .ok (.setirq en clr)
  · obtain ⟨en, clr, hs⟩ := hs
    cases (setirq en clr hs).symm.trans ht
    exact ⟨hm, rfl, rfl, rfl⟩
  · cases (step_discards hstall hfifo hm hn (by simpa using hs)).symm.trans ht
    exact ⟨hm, rfl, rfl, rfl⟩

/-! ### NOP, SETCFG_HI, SETCFG_LO, SETIRQ (R113 to R116) -/

/-- The word 0 alone is NOP (R93, R99). -/
theorem decode_eq_nop_iff {w : Word64} : decode w = .ok .nop ↔ w = 0#64 :=
  ⟨fun h => ((encodeUndoesDecode w _ h).2).symm, fun h => h ▸ decodeUndoesEncode .nop rfl⟩

/-- A word of opcode 0 with a reserved bit set is illegal (R95). -/
theorem illegal_of_opcode_zero {w : Word64} (hop : opcode w = 0) (hw : w ≠ 0#64) : ∃ e, decode w = .error e :=
  have hmask : (rowOf .nop).mask = BitVec.allOnes 64 := rfl
  (illegal_iff w).mpr (.inr ⟨_, rowOf_mem .nop, hop.symm, by rwa [hmask, BitVec.and_allOnes]⟩)

/-- Settles O27: NOP's rule is empty; a word of opcode 0 that is not 0 has a reserved bit set. -/
theorem nopCounts : Obligations.NopCounts := by
  refine ⟨exec_nop, fun w _ => decode_eq_nop_iff, fun s w later hstall hfifo hm hop hw => ?_⟩
  obtain ⟨e, he⟩ := illegal_of_opcode_zero hop hw
  rw [step_of_illegal hstall hfifo he, executeIllegal_eq, if_neg hm]

/-- A word put together of two halves, as a number. -/
theorem append_halves_eq (high low : BitVec 32) : high ++ low = BitVec.ofNat 64 (high.toNat * 2 ^ 32 + low.toNat) := by
  refine BitVec.eq_of_toNat_eq ?_
  rw [BitVec.toNat_append, ← Nat.shiftLeft_add_eq_or_of_lt low.isLt, Nat.shiftLeft_eq, BitVec.toNat_ofNat,
    Nat.mod_eq_of_lt (by omega)]

/-- Settles O28: the new word is the operand and the half that stays. -/
theorem setcfgWritesItsHalf : Obligations.SetcfgWritesItsHalf := by
  intro s imm32 himm hm
  have hlow : (s.regs.config.extractLsb' 0 32).toNat = s.regs.config.toNat % 2 ^ 32 := BitVec.extractLsb'_toNat ..
  have hhigh : (s.regs.config.extractLsb' 32 32).toNat = s.regs.config.toNat / 2 ^ 32 := by
    rw [BitVec.extractLsb'_toNat, Nat.shiftRight_eq_div_pow, Nat.mod_eq_of_lt (by omega)]
  have hoperand : (BitVec.ofNat 32 imm32).toNat = imm32 := Nat.mod_eq_of_lt himm
  constructor
  · rw [exec_setcfgHi hm, append_halves_eq, hoperand, hlow]
  · rw [exec_setcfgLo hm, append_halves_eq, hoperand, hhigh]

/-- Settles O29: the enables are the operand's two bits, and the pending bits are masked by the operand's complement. -/
theorem setirqWritesEnables : Obligations.SetirqWritesEnables := by
  intro s en clr hen _
  refine ⟨_, _, exec_setirq en clr s, Nat.mod_eq_of_lt hen, fun k hk => ?_⟩
  rw [BitVec.getLsbD_and, BitVec.getLsbD_not, BitVec.getLsbD_ofNat]
  simp [hk]

/-! ### TBL_READ (R120) -/

/-- TBL_READ retires in every mode but FAULTED (R111, R120). -/
theorem exec_tblRead {s : State} (hm : s.regs.mode ≠ .faulted) (tid idx : Nat) : exec (.tblRead tid idx) s =
    .next (countedWith s { s.regs with result := BitVec.ofNat 32 (tableReadValue tid idx s) }) :=
  exec_of_runs (i := .tblRead tid idx) (.inl hm) (by simp [legal, hm]) rfl

/-- An index inside a table that a session has in a dual configuration only (R62, R63). -/
theorem lt_dualSize_iff {c : Word64} {idx size : Nat} : idx < (if cfgDual c then size else 0) ↔ cfgDual c = true ∧ idx < size := by
  cases cfgDual c <;> simp

/-- Settles O34: discarded in FAULTED; elsewhere the value by the table the id names and the size of that table. -/
theorem tblReadAnswers : Obligations.TblReadAnswers := by
  intro s tid idx
  refine ⟨fun hm => exec_of_discarded hm rfl, fun hm => ?_⟩
  rw [exec_tblRead hm]
  refine congrArg (fun v => Host.Outcome.next (countedWith s { s.regs with result := BitVec.ofNat 32 v })) ?_
  unfold tableReadValue
  refine dite_congr rfl (fun _ => rfl) fun _ => ite_congr rfl (fun _ => rfl) fun _ => ?_
  match tid with
  | 0 | 2 | 4 =>
    -- the same values, chosen by one condition decided in two ways
    simp only [tableOfId, tableSize, cfgContexts, tableSentinel, Nat.reduceEqDiff, true_and, false_and, if_false]
    congr
  | 1 | 3 => simp [tableOfId, tableSize, lt_dualSize_iff, tableSentinel]
  | _ + 5 => simp [tableOfId, tableSentinel]

/-! ### DEC_CHECK_END (R121) -/

/-- The command ends with the rule's course after the port's answer. -/
theorem askInput_of_answer {s : State} {a : InAnswer} {p : InPort} (h : nextInAnswer s.inPort = some (a, p)) :
    askInput s = .ok a { s with inPort := p } := by
  simp only [askInput, h]

theorem askInput_of_none {s : State} (h : nextInAnswer s.inPort = none) : askInput s = .error .wait s := by
  simp only [askInput, h]

/-- Whether the port has an answer does not depend on its record of those it has given (R79). -/
theorem nextInAnswer_used_none {p : InPort} {used : List InAnswer} (h : nextInAnswer p = none) :
    nextInAnswer { p with used := used } = none := by
  cases hn : nextInAnswer { p with used := used } with
  | none => rfl
  | some aq => cases (inAnswerAt_none h).symm.trans (inAnswerAt_next hn).1

/-- Settles O35: the command is legal, and its rule's course is the port's answer's. -/
theorem decCheckEndAnswers : Obligations.DecCheckEndAnswers := by
  intro s hm hdir
  have runs : exec .decCheckEnd s = concludeCommand .decCheckEnd s (ruleOf .decCheckEnd (takeCommand s)) :=
    exec_of_runs (.inl (by simp [hm])) (by simp [legal, hm, hdir]) rfl
  have answered {a : InAnswer} {p : InPort} (h : nextInAnswer { s.inPort with used := [] } = some (a, p)) :
      askInput (takeCommand s) = .ok a { takeCommand s with inPort := p } := askInput_of_answer h
  refine ⟨fun p h => ?_, fun b p h => ?_, fun p h => ⟨_, by rw [runs, ruleOf, bind_of_ok (answered h)]; rfl, rfl, rfl⟩, fun h => ?_⟩
  · rw [runs, ruleOf, bind_of_ok (answered h)]
    rfl
  · rw [runs, ruleOf, bind_of_ok (answered h)]
    rfl
  · have hwait : askInput (takeCommand s) = .error .wait (takeCommand s) := askInput_of_none (nextInAnswer_used_none h)
    exact ⟨waitOnPort .decCheckEnd s (takeCommand s), by rw [runs, ruleOf, bind_of_error hwait]; rfl, by simp, rfl, hm⟩

end Sys2Proof.Machine
end

