-- ==== Sys2Proof/Proofs/SessionStart.lean ====
section
/-! The session starts (O30, O31, O32): every entry of the tables they leave, the four bytes INIT_DEC reads, and where it stops short of
them. -/

namespace Sys2Proof.Machine

/-! ### The tables (R119) -/

/-- Every entry of the tables of a session of configuration `c` holds the value its start wrote (R119). -/
def StartEntries (t : State) (c : Word64) : Prop :=
  (∀ i < 2 ^ cfgLmask c, tblRead t .lzpLo i = 0x0000#16) ∧
  (cfgDual c = true → ∀ i < 2 ^ cfgHmask c, tblRead t .lzpHi i = 0x0000#16) ∧
  (∀ i < 4096, tblRead t .apmLo i = 0x4000#16) ∧
  (cfgDual c = true → ∀ i < 4096, tblRead t .apmHi i = 0x4000#16) ∧
  ∀ ctx < 256 ^ cfgOrder c, (∀ k < 256, singleOf t ctx k = cfgInit c) ∧ (∀ g < 16, groupOf t ctx g = 16 * cfgInit c) ∧
    totalOf t ctx = 256 * cfgInit c

section Entries
variable {t : State} {c : Word64} (ht : t.tables = sessionStartTables) (hc : t.regs.scfg = c) (hv : cfgValid c = true)
include ht hc hv

theorem singleOf_start (ctx : Nat) {k : Nat} (hk : k < 256) : singleOf t ctx k = cfgInit c := by
  have hinit := (cfgValid_iff.mp hv).init
  rw [singleOf, singleIndex, tblRead_start ht hc, sessionStartEntry, if_pos (by omega)]
  exact Nat.mod_eq_of_lt (by omega)

theorem groupOf_start (ctx : Nat) {g : Nat} (hg : g < 16) : groupOf t ctx g = 16 * cfgInit c := by
  have hinit := (cfgValid_iff.mp hv).init
  rw [groupOf, groupIndex, tblRead_start ht hc, sessionStartEntry, if_neg (by omega), if_pos (by omega)]
  exact Nat.mod_eq_of_lt (by omega)

theorem totalOf_start (ctx : Nat) : totalOf t ctx = 256 * cfgInit c := by
  have hinit := (cfgValid_iff.mp hv).init
  rw [totalOf, totalIndex, tblRead_start ht hc, sessionStartEntry, if_neg (by omega), if_neg (by omega)]
  exact Nat.mod_eq_of_lt (by omega)

theorem startEntries : StartEntries t c :=
  ⟨fun i _ => tblRead_start ht hc .lzpLo i, fun _ i _ => tblRead_start ht hc .lzpHi i, fun i _ => tblRead_start ht hc .apmLo i,
    fun _ i _ => tblRead_start ht hc .apmHi i, fun ctx _ =>
    ⟨fun _ hk => singleOf_start ht hc hv ctx hk, fun _ hg => groupOf_start ht hc hv ctx hg, totalOf_start ht hc hv ctx⟩⟩

end Entries

/-! ### Reading the stream's first bytes (R79) -/

/-- The state after InRead has read the byte `b`. -/
def afterByte (b : Byte) (s : State) : State :=
  { s with
    inPort := { s.inPort with answers := s.inPort.answers.drop 1, used := s.inPort.used ++ [.byte b] }
    regs := { s.regs with inCount := s.regs.inCount + 1#64 } }

/-- Why InRead ends the command where this is the port's answer, or it has none (R79, R299); a byte does not. -/
def readAbort : Option InAnswer → Option Abort
  | some (.byte _) => none
  | some .endMark => some (.raise .unexpectedEndOfInput)
  | some .error => some (.raise .ioFailure)
  | none => some .wait

/-- How a procedure that reads at most `n` bytes stops short of them: at the request `m`, those before it answered with bytes, and
`m + 1` of the listed answers taken. -/
structure StopsReading (n : Nat) (s : State) (e : Abort) (t : State) : Prop where
  erased : decoderErased t = decoderErased s
  place : ∃ m < n, bytesFirst s.inPort m ∧ readAbort (inAnswerAt s.inPort m) = some e ∧
    t.inPort.answers = s.inPort.answers.drop (m + 1)

theorem inAnswerAt_afterByte (b : Byte) (s : State) (k : Nat) :
    inAnswerAt (afterByte b s).inPort k = inAnswerAt s.inPort (k + 1) := by
  simp [inAnswerAt, afterByte]

theorem bytesFirst_zero (p : InPort) : bytesFirst p 0 := fun _ h => absurd h (Nat.not_lt_zero _)

/-- The bytes of a port: the next one, and those after it. -/
theorem bytesFirst_succ {s : State} {b : Byte} {n : Nat} (hb : inAnswerAt s.inPort 0 = some (.byte b))
    (h : bytesFirst (afterByte b s).inPort n) : bytesFirst s.inPort (n + 1)
  | 0, _ => ⟨b, hb⟩
  | m + 1, hm => (inAnswerAt_afterByte b s m) ▸ h m (Nat.lt_of_succ_lt_succ hm)

/-- What the port's answer takes out of the list of answers. -/
theorem answers_next {p q : InPort} {a : InAnswer} (he : p.ended = false) (h : nextInAnswer p = some (a, q)) :
    q.answers = p.answers.drop 1 := by
  rcases nextInAnswer_cases h with ⟨hended, -⟩ | ⟨-, -, -, -, ha | ⟨ha, hq, -⟩⟩
  · cases he.symm.trans hended
  · rw [ha]; rfl
  · rw [ha, hq]; rfl

/-- The port after it has given a byte. -/
theorem nextInAnswer_byte {p q : InPort} {b : Byte} (h : nextInAnswer p = some (.byte b, q)) :
    q = { p with answers := p.answers.drop 1, used := p.used ++ [.byte b] } := by
  rcases nextInAnswer_cases h with ⟨-, hb, -⟩ | ⟨he, hused, hrest, hended, -⟩
  · cases hb
  · rw [← answers_next he h, ← hused, ← hrest, show p.ended = q.ended from he.trans hended.symm]

/-- A port without a next answer lists none (R79). -/
theorem answers_of_none {p : InPort} (h : nextInAnswer p = none) : p.answers = [] := by
  unfold nextInAnswer at h
  split at h
  · cases h
  · split at h
    · cases h
    · assumption

/-- InRead before the end mark: the next byte, or a stop there. -/
theorem ends_inRead_next {s : State} (he : s.inPort.ended = false) :
    Ends inRead s (fun b t => inAnswerAt s.inPort 0 = some (.byte b) ∧ t = afterByte b s) (StopsReading 1 s) := by
  have stop {e : Abort} {p : InPort} (ha : readAbort (inAnswerAt s.inPort 0) = some e) (hp : p.answers = s.inPort.answers.drop 1) :
      StopsReading 1 s e { s with inPort := p } := ⟨rfl, 0, Nat.one_pos, bytesFirst_zero _, ha, hp⟩
  refine ends_inRead (fun b p h => ⟨(inAnswerAt_next h).1, ?_⟩) (fun p h => ?_) (fun p h => ?_) fun h => ?_
  · rw [nextInAnswer_byte h]; rfl
  · exact stop (by rw [(inAnswerAt_next h).1]; rfl) (answers_next he h)
  · exact stop (by rw [(inAnswerAt_next h).1]; rfl) (answers_next he h)
  · exact stop (by rw [inAnswerAt_none h]; rfl) (by rw [answers_of_none h]; rfl)

/-- A procedure that stops after it has read a byte. -/
theorem StopsReading.after {s t : State} {b : Byte} {n : Nat} {e : Abort} (hb : inAnswerAt s.inPort 0 = some (.byte b))
    (h : StopsReading n (afterByte b s) e t) : StopsReading (n + 1) s e t := by
  obtain ⟨he, m, hm, hbytes, habort, hans⟩ := h
  rw [inAnswerAt_afterByte] at habort
  refine ⟨he, m + 1, by omega, bytesFirst_succ hb hbytes, habort, ?_⟩
  rw [hans, afterByte, List.drop_drop, Nat.add_comm 1]

/-- A procedure that reads a byte, and goes on with it. -/
theorem ends_read {β : Type} {s : State} {f : Byte → Cmd β} {n : Nat} {R : β → State → Prop} (he : s.inPort.ended = false)
    (hf : ∀ b, inAnswerAt s.inPort 0 = some (.byte b) → Ends (f b) (afterByte b s) R (StopsReading n (afterByte b s))) :
    Ends (inRead >>= f) s R (StopsReading (n + 1) s) := by
  refine Ends.bind ((ends_inRead_next he).mono (fun _ _ h => h) fun e t h => ?_) ?_
  · obtain ⟨herased, m, hm, hplace⟩ := h
    exact ⟨herased, m, by omega, hplace⟩
  · rintro b _ ⟨hb, rfl⟩
    exact (hf b hb).mono (fun _ _ h => h) fun _ _ h => h.after hb

/-- The state DecPrime leaves where the port gives these four bytes (R206). -/
def primed (n1 n2 n3 n4 : Byte) (s : State) : State :=
  { s with
    inPort := { s.inPort with
      answers := s.inPort.answers.drop 4, used := s.inPort.used ++ [.byte n1, .byte n2, .byte n3, .byte n4] }
    regs := { s.regs with
      inCount := s.regs.inCount + 4#64
      rcBuffer := BitVec.ofNat 31 ((n1.toNat * 2 ^ 24 + n2.toNat * 2 ^ 16 + n3.toNat * 2 ^ 8 + n4.toNat) / 2)
      look := n4 } }

/-- The first 31 bits of four bytes (R206). -/
theorem primeWindow_eq (n1 n2 n3 n4 : Byte) : n1.toNat <<< 23 ||| n2.toNat <<< 15 ||| n3.toNat <<< 7 ||| n4.toNat >>> 1 =
    (n1.toNat * 2 ^ 24 + n2.toNat * 2 ^ 16 + n3.toNat * 2 ^ 8 + n4.toNat) / 2 := by
  have := n2.isLt; have := n3.isLt; have := n4.isLt
  rw [Nat.or_assoc, Nat.or_assoc, Nat.shiftRight_eq_div_pow,
    ← Nat.shiftLeft_add_eq_or_of_lt (a := n3.toNat) (by omega), Nat.shiftLeft_eq n3.toNat,
    ← Nat.shiftLeft_add_eq_or_of_lt (a := n2.toNat) (by omega), Nat.shiftLeft_eq n2.toNat,
    ← Nat.shiftLeft_add_eq_or_of_lt (a := n1.toNat) (by omega), Nat.shiftLeft_eq]
  omega

/-- DecPrime before the end mark (R206): the next four bytes in the window, or a stop at one of them. -/
theorem ends_decPrime {s : State} (he : s.inPort.ended = false) :
    Ends decPrime s (fun _ t => ∃ n1 n2 n3 n4, (inAnswerAt s.inPort 0 = some (.byte n1) ∧ inAnswerAt s.inPort 1 = some (.byte n2) ∧
      inAnswerAt s.inPort 2 = some (.byte n3) ∧ inAnswerAt s.inPort 3 = some (.byte n4)) ∧ t = primed n1 n2 n3 n4 s)
      (StopsReading 4 s) := by
  refine ends_read he fun n1 h1 => ends_read he fun n2 h2 => ends_read he fun n3 h3 => ends_read (n := 0) he fun n4 h4 => ?_
  simp only [inAnswerAt_afterByte, Nat.zero_add, Nat.reduceAdd] at h2 h3 h4
  refine ends_modifyRegs ⟨n1, n2, n3, n4, ⟨h1, h2, h3, h4⟩, ?_⟩
  simp [primed, afterByte, primeWindow_eq, BitVec.add_assoc]

theorem readAbort_of_bytesFirst {p : InPort} {m n : Nat} (h : bytesFirst p n) (hm : m < n) : readAbort (inAnswerAt p m) = none := by
  obtain ⟨b, hb⟩ := h m hm
  rw [hb]; rfl

theorem bytesFirst_four {p : InPort} {n1 n2 n3 n4 : Byte} (h1 : inAnswerAt p 0 = some (.byte n1)) (h2 : inAnswerAt p 1 = some (.byte n2))
    (h3 : inAnswerAt p 2 = some (.byte n3)) (h4 : inAnswerAt p 3 = some (.byte n4)) : bytesFirst p 4
  | 0, _ => ⟨_, h1⟩
  | 1, _ => ⟨_, h2⟩
  | 2, _ => ⟨_, h3⟩
  | 3, _ => ⟨_, h4⟩

/-- Where the answers are known, a procedure stops at the first that is no byte. -/
theorem StopsReading.at_first {s t : State} {e e' : Abort} {k n : Nat} (h : StopsReading k s e t) (hb : bytesFirst s.inPort n)
    (ha : readAbort (inAnswerAt s.inPort n) = some e') : e = e' ∧ t.inPort.answers = s.inPort.answers.drop (n + 1) := by
  obtain ⟨-, m, -, hbytes, habort, hans⟩ := h
  rcases lt_trichotomy m n with hlt | rfl | hgt
  · cases (readAbort_of_bytesFirst hb hlt).symm.trans habort
  · exact ⟨Option.some.inj (habort.symm.trans ha), hans⟩
  · cases (readAbort_of_bytesFirst hbytes hgt).symm.trans ha

section Prime
variable {s : State} (he : s.inPort.ended = false)
include he

/-- DecPrime over four bytes (R206). -/
theorem decPrime_of_bytes {n1 n2 n3 n4 : Byte} (h1 : inAnswerAt s.inPort 0 = some (.byte n1))
    (h2 : inAnswerAt s.inPort 1 = some (.byte n2)) (h3 : inAnswerAt s.inPort 2 = some (.byte n3))
    (h4 : inAnswerAt s.inPort 3 = some (.byte n4)) : decPrime s = .ok () (primed n1 n2 n3 n4 s) := by
  have goes (e t) : StopsReading 4 s e t → False := fun ⟨_, m, hm, _, ha, _⟩ => by
    cases (readAbort_of_bytesFirst (bytesFirst_four h1 h2 h3 h4) hm).symm.trans ha
  obtain ⟨_, t, hrun, m1, m2, m3, m4, ⟨g1, g2, g3, g4⟩, rfl⟩ := (ends_decPrime he).completes fun e t _ => goes e t
  cases h1.symm.trans g1
  cases h2.symm.trans g2
  cases h3.symm.trans g3
  cases h4.symm.trans g4
  exact hrun

/-- DecPrime over fewer bytes than four: it stops there, having taken the answer it stops at (R206, R79). -/
theorem decPrime_of_short {n : Nat} {e : Abort} (hn : n < 4) (hb : bytesFirst s.inPort n)
    (ha : readAbort (inAnswerAt s.inPort n) = some e) :
    ∃ t, decPrime s = .error e t ∧ decoderErased t = decoderErased s ∧ t.inPort.answers = s.inPort.answers.drop (n + 1) := by
  cases hrun : decPrime s with
  | ok a t =>
    obtain ⟨n1, n2, n3, n4, ⟨h1, h2, h3, h4⟩, -⟩ := (ends_decPrime he).of_ok hrun
    cases (readAbort_of_bytesFirst (bytesFirst_four h1 h2 h3 h4) hn).symm.trans ha
  | error e' t =>
    have hstop := (ends_decPrime he).of_error hrun
    obtain ⟨rfl, hans⟩ := hstop.at_first hb ha
    exact ⟨t, rfl, hstop.erased, hans⟩

end Prime

/-! ### The commands -/

section SessionStart
variable {s : State} (hm : s.regs.mode = .idle ∨ s.regs.mode = .done) (hc : cfgValid s.regs.config = true)
  (hw : needWords s.regs.config ≤ s.params.tableMemWords.toNat)
include hc hw

/-- SessionInit where CONFIG is valid and fits (R119). -/
theorem sessionInit_of_ready : sessionInit s = .ok () (sessionStarted s) :=
  (if_neg (by simp [hc])).trans (if_neg (by omega))

/-- INIT_DEC's rule up to its priming (R118). -/
theorem initDec_begins : ruleOf .initDec (takeCommand s) =
    (decPrime >>= fun _ => modifyRegs fun r => { r with mode := .dec, dir := true }) (sessionStarted (takeCommand s)) :=
  bind_of_ok (sessionInit_of_ready (s := takeCommand s) hc hw)

include hm

/-- INIT_ENC's next state: the session start, the mode, and the command retired (R117). -/
theorem exec_initEnc : exec .initEnc s = .next (retire
    { sessionStarted (takeCommand s) with regs := { sessionStartRegs (takeCommand s).regs with mode := .enc, dir := false } }) := by
  have hinit : sessionInit (takeCommand s) = .ok () (sessionStarted (takeCommand s)) := sessionInit_of_ready hc hw
  rw [exec_of_runs (.inl (betweenSessions_ready hm).1) (by exact (betweenSessions_ready hm).2) rfl, ruleOf, bind_of_ok hinit]
  rfl

/-- INIT_DEC's next state where the port gives four bytes (R118). -/
theorem exec_initDec {n1 n2 n3 n4 : Byte} (h1 : inAnswerAt { s.inPort with ended := false } 0 = some (.byte n1))
    (h2 : inAnswerAt { s.inPort with ended := false } 1 = some (.byte n2))
    (h3 : inAnswerAt { s.inPort with ended := false } 2 = some (.byte n3))
    (h4 : inAnswerAt { s.inPort with ended := false } 3 = some (.byte n4)) :
    exec .initDec s = .next (retire { primed n1 n2 n3 n4 (sessionStarted (takeCommand s)) with
      regs := { (primed n1 n2 n3 n4 (sessionStarted (takeCommand s))).regs with mode := .dec, dir := true } }) := by
  have hprime := decPrime_of_bytes (s := sessionStarted (takeCommand s)) rfl h1 h2 h3 h4
  rw [exec_of_runs (.inl (betweenSessions_ready hm).1) (by exact (betweenSessions_ready hm).2) rfl, initDec_begins hc hw,
    bind_of_ok hprime]
  rfl

end SessionStart

/-- Settles O30: the session start's registers are those of the table, and each entry is an unlisted one. -/
theorem initEncStartsTheSession : Obligations.InitEncStartsTheSession := fun _ hm hc hw =>
  ⟨_, exec_initEnc hm hc hw, rfl, startEntries rfl rfl hc⟩

/-- Settles O31: the session start, the four bytes in the window, and each entry an unlisted one. -/
theorem initDecStartsTheSession : Obligations.InitDecStartsTheSession := fun _ _ _ _ _ hm hc hw h1 h2 h3 h4 =>
  ⟨_, exec_initDec hm hc hw h1 h2 h3 h4, rfl, startEntries rfl rfl hc⟩

/-- What INIT_DEC, begun in `s`, leaves where it stops at request `n` of its priming (R118, R119). -/
structure PrimingStopped (s : State) (n : Nat) (t : State) : Prop where
  mode : t.regs.mode = s.regs.mode
  busy : t.regs.busy = true
  tablesValid : t.regs.tablesValid = true
  scfg : t.regs.scfg = s.regs.config
  dir : t.regs.dir = s.regs.dir
  taken : t.outPort.taken = s.outPort.taken
  answers : t.inPort.answers = s.inPort.answers.drop (n + 1)

/-- INIT_DEC's rule over fewer bytes than four: it stops after the session start, at the first answer that is no byte (R118). -/
theorem initDec_of_short {s : State} {n : Nat} {e : Abort} (hc : cfgValid s.regs.config = true)
    (hw : needWords s.regs.config ≤ s.params.tableMemWords.toNat) (hn : n < 4) (hb : bytesFirst { s.inPort with ended := false } n)
    (ha : readAbort (inAnswerAt { s.inPort with ended := false } n) = some e) :
    ∃ t, ruleOf .initDec (takeCommand s) = .error e t ∧ PrimingStopped s n t := by
  obtain ⟨t, hrun, herased, hans⟩ := decPrime_of_short (s := sessionStarted (takeCommand s)) rfl hn hb ha
  have kept {α : Type} (f : State → α) : f (decoderErased t) = f (decoderErased (sessionStarted (takeCommand s))) :=
    congrArg f herased
  exact ⟨t, (initDec_begins hc hw).trans (bind_of_error hrun), kept (·.regs.mode), kept (·.regs.busy), kept (·.regs.tablesValid),
    kept (·.regs.scfg), kept (·.regs.dir), kept (·.outPort.taken), hans⟩

/-- A request that the port has no answer to lies beyond the listed answers (R79). -/
theorem answers_drop_of_none {p : InPort} {n : Nat} (h : inAnswerAt p n = none) : p.answers.drop (n + 1) = [] := by
  refine List.drop_eq_nil_iff.mpr (Nat.le_succ_of_le (List.getElem?_eq_none_iff.mp ?_))
  unfold inAnswerAt at h
  split at h
  · cases h
  · split at h
    · cases h
    · assumption

/-- Settles O32: the rule stops at the first answer that is no byte, and what it leaves then is not among what R266 lists. -/
theorem initDecTruncated : Obligations.InitDecTruncated := by
  intro s n hm hc hw port latched hn hb
  have hf : s.regs.mode ≠ .faulted := (betweenSessions_ready hm).1
  have hl : legal .initDec s.regs.mode s.regs.dir = true := (betweenSessions_ready hm).2
  refine ⟨fun ha => ?_, fun ha => ?_, fun ha => ?_⟩
  · obtain ⟨t, hrun, h⟩ := initDec_of_short hc hw hn hb (e := .raise .unexpectedEndOfInput) (by rw [ha]; rfl)
    exact faultsWith_of hl hf rfl hrun rfl ⟨h.tablesValid, h.scfg, h.dir, h.taken, h.answers⟩
  · obtain ⟨t, hrun, h⟩ := initDec_of_short hc hw hn hb (e := .raise .ioFailure) (by rw [ha]; rfl)
    exact faultsWith_of hl hf rfl hrun rfl ⟨h.tablesValid, h.scfg, h.dir, h.taken, h.answers⟩
  · obtain ⟨t, hrun, h⟩ := initDec_of_short hc hw hn hb (e := .wait) (by rw [ha]; rfl)
    exact waitsWith_of hl hf rfl hrun h.busy h.mode ⟨h.taken, h.answers.trans (answers_drop_of_none (p := port) ha)⟩

end Sys2Proof.Machine
end

