-- ==== Sys2Proof/Proofs/Predictor.lean ====
section
/-! The predictor (O45, O46) and the probability maps while a session streams (O54): the hash as a fold over context bytes, the two fields
of a slot, the member Choose takes, and what the machine's invariant says of the maps. -/

namespace Sys2Proof.Machine

/-! ### The hash (R141, R142) -/

/-- Byte `j` of a context, as a number (R33). -/
theorem contextByte_toNat (c : Word64) (j : Nat) : (contextByte c j).toNat = c.toNat / 256 ^ j % 256 := by
  rw [contextByte, BitVec.extractLsb'_toNat, Nat.shiftRight_eq_div_pow, pow_mul]
  rfl

/-- One turn of the hash: multiply, then XOR (R141). -/
theorem hashTurn_toNat (h : Word32) (b : Byte) :
    ((h * fnvPrime) ^^^ b.setWidth 32).toNat = (h.toNat * 16777619 % 2 ^ 32) ^^^ b.toNat := by
  have hb : b.toNat < 2 ^ 32 := lt_trans b.isLt (by decide)
  rw [BitVec.toNat_xor, BitVec.toNat_mul, BitVec.toNat_setWidth, Nat.mod_eq_of_lt hb]
  rfl

/-- The hash of context bytes is the fold of R142 over their places. -/
theorem hashContext_toNat (c : Word64) (count : Nat) : ∀ (h : Word32) (first : Nat),
    (hashContext c h first count).toNat =
      (List.range' first count).foldl (fun h j => (h * 16777619 % 2 ^ 32) ^^^ (c.toNat / 256 ^ j % 256)) h.toNat := by
  induction count with
  | zero => exact fun _ _ => rfl
  | succ count ih =>
    intro h first
    rw [hashContext, ih, hashTurn_toNat, contextByte_toNat, List.range'_succ, List.foldl_cons]

/-! ### What a member reads, and which is chosen (R145, R147, R154) -/

/-- A slot's two fields are all of it (R62, R145). -/
theorem packSlot_fields (v : Entry) : packSlot (slotState v) (slotSymbol v) = v := by
  have hsymbol : (slotSymbol v).toNat = v.toNat % 2 ^ 8 := BitVec.extractLsb'_toNat ..
  have hstate : (slotState v).toNat = v.toNat / 2 ^ 8 := by
    rw [slotState, BitVec.extractLsb'_toNat, Nat.shiftRight_eq_div_pow, Nat.mod_eq_of_lt (by omega)]
  refine BitVec.eq_of_toNat_eq ?_
  rw [packSlot, BitVec.toNat_append, ← Nat.shiftLeft_add_eq_or_of_lt (slotSymbol v).isLt, Nat.shiftLeft_eq, hsymbol, hstate]
  omega

/-- Choose takes one of the two members (R154). -/
theorem choose_eq_member (s : State) : ∃ m, choose s = predictMember m s := by
  unfold choose
  split
  · exact ⟨.hi, rfl⟩
  · exact ⟨.lo, rfl⟩

/-- HistUpdate as a number (R152). -/
theorem histUpdate_toNat (h : BitVec 4) (matched : Bool) : (histUpdate h matched).toNat = (h.toNat * 2 + flag (!matched)) % 16 :=
  BitVec.toNat_ofNat ..

/-- Settles O45: each hash is its fold, each member reads its own tables, and Choose is its own condition. -/
theorem predictReadsTheTables : Obligations.PredictReadsTheTables := by
  intro s byte fold low high
  have hlow : (hashLo s.regs).toNat = low := by
    rw [hashLo, hashContext_toNat, ← List.range_eq_range']
    rfl
  have hhigh : (hashHi s.regs).toNat = high := by
    rw [hashHi, hashContext_toNat, hlow]
  refine ⟨?_, ?_, indexLo_lt s.regs, indexHi_lt s.regs, packSlot_fields _, packSlot_fields _, rfl, rfl, fun h => if_pos h,
    fun h => if_neg h, fun st => ⟨nextState_entry s.params st true, nextState_entry s.params st false⟩,
    fun h => ⟨histUpdate_toNat h true, histUpdate_toNat h false⟩⟩
  · rw [indexLo, Nat.and_two_pow_sub_one_eq_mod, hlow]
  · rw [indexHi, Nat.and_two_pow_sub_one_eq_mod, hhigh]

/-! ### The worked values (R157) -/

/-- Settles O46: the values of R157, each computed. -/
theorem hashWorkedValues : Obligations.HashWorkedValues := by
  refine ⟨fun r hc hk => ?_, fun r hc hk => ?_, fun r hc hk => ?_, fun r hc hk => ?_, fun s => ⟨rfl, rfl⟩, rfl, rfl, rfl, rfl⟩
  · simp only [indexLo, indexHi, hashHi, hashLo, hc, hk]
    decide
  · rcases hk with hk | hk <;> simp only [indexLo, hashLo, hc, hk] <;> decide
  · simp only [indexHi, hashHi, hashLo, hc, hk]
    decide
  · simp only [indexLo, indexHi, hashHi, hashLo, hc, hk]
    decide

/-! ### The probability maps while a session streams (R155) -/

/-- A member's probability is in the interval of the maps it is read from (R155). -/
theorem ApmOk.member_prob {s : State} (h : ApmOk s) (m : Member) : 127 ≤ (predictMember m s).prob ∧ (predictMember m s).prob ≤ 32641 := by
  cases m
  · exact h .apmLo (.inl rfl) _ (apmIndex_lt s.regs.histLo (predictMember .lo s).state)
  · exact h .apmHi (.inr rfl) _ (apmIndex_lt s.regs.histHi (predictMember .hi s).state)

/-- The flag coder's precondition (R155): the chosen probability is neither 0 nor as large as 2^15. -/
theorem ApmOk.choose_prob {s : State} (h : ApmOk s) : 1 ≤ (choose s).prob ∧ (choose s).prob < 2 ^ 15 := by
  obtain ⟨m, hm⟩ := choose_eq_member s
  have := h.member_prob m
  rw [hm]
  omega

/-- A state that streams and does not wait, under the machine's invariant, has the session's (R155). -/
theorem MachineInv.sessionOk {s : State} (h : MachineInv s) (hn : s.stall = none) (hm : streaming s.regs.mode) : SessionOk s :=
  ((h.settled hn).session hm).1

/-- Settles O54: the step keeps the machine's invariant, which holds the maps in their interval; ApmUpdate keeps it. -/
theorem apmEntriesStayInRange : Obligations.ApmEntriesStayInRange := by
  refine ⟨fun s t hs hstep hn hm => ?_, fun p m h1 h2 => apmValue_eq p m ▸ apmValue_bounds h1 h2 m⟩
  obtain ⟨u, hu, hinv⟩ := machineInvariantKept s hs
  cases hu.symm.trans hstep
  have hapm : ApmOk t := (hinv.sessionOk hn hm).apm
  exact ⟨hapm, hapm.choose_prob⟩

end Sys2Proof.Machine
end

