-- ==== Sys2Proof/Proofs/SessionInvariants.lean ====
section
/-! What a session start leaves has the invariants (O33): a command that changes MODE to a session's has retired, so its rule has ended
well, and both rules of a session start leave the start's tables and registers but for the window INIT_DEC has read. -/

namespace Sys2Proof.Machine

/-- A command after which MODE is a different one, and not FAULTED, has retired (R110). -/
theorem retired_of_mode_changed {i : Instr} {s t : State} (h : exec i s = .next t) (hf : t.regs.mode ≠ .faulted)
    (hm : t.regs.mode ≠ s.regs.mode) : ∃ u, ruleOf i (takeCommand s) = .ok () u ∧ t = retire u := by
  rcases executeCommand_cases ((exec_eq i s).symm.trans h) with ⟨-, -, he⟩ | ⟨-, he⟩ | ⟨-, -, he⟩ | ⟨hl, -, -, he⟩
  · cases he; exact absurd rfl hm
  · cases he; exact absurd rfl hf
  · cases he; exact absurd rfl hf
  · cases hrun : ruleOf i (takeCommand s) with
    | ok a u => rw [hrun] at he; cases he; exact ⟨u, rfl, rfl⟩
    | error e u =>
      rw [hrun] at he
      cases e with
      | raise c => cases he; exact absurd rfl hf
      | wait =>
        cases he
        exact absurd (((ruleOf_ends i (takeCommand s)).of_error hrun).reached hl).controlKept.mode hm
      | stop f => cases he

/-- What a session start leaves of all that the invariants speak of (R119); the encoder's window and run where MODE is ENC. -/
structure SessionBegun (t : State) : Prop where
  tables : t.tables = sessionStartTables
  config : cfgValid t.regs.scfg = true
  valid : t.regs.tablesValid = true
  cost : t.regs.cost = 0#32
  range : t.regs.rcRange = 0x7FFFFFFF#31
  encoder : t.regs.mode = .enc → t.regs.rcBuffer = 0#31 ∧ t.regs.carry = false ∧ t.regs.ffrun = 0#32

theorem SessionBegun.retire {t : State} (h : SessionBegun t) : SessionBegun (retire t) :=
  ⟨h.tables, h.config, h.valid, h.cost, h.range, h.encoder⟩

/-- The invariants of a session that has just begun (R28, R155, R172, R200). -/
theorem SessionBegun.invariants {t : State} (h : SessionBegun t) :
    SessionOk t ∧ Memory.wf t.regs.scfg t.tables ∧ 2 ^ 23 ≤ t.regs.rcRange.toNat ∧ (t.regs.mode = .enc → CoderInv t.regs) := by
  refine ⟨sessionOk_start h.tables rfl h.config h.valid h.cost, ?_, ?_, fun hm => ?_⟩
  · rw [h.tables]
    exact memoryWf_start _
  · rw [h.range]
    decide
  · obtain ⟨hbuffer, hcarry, hrun⟩ := h.encoder hm
    exact coderInv_start hbuffer h.range hcarry hrun

/-- A rule that opens with SessionInit and goes on from a start with a valid CONFIG (R119). -/
theorem ends_sessionInit {s : State} {f : Cmd Unit} {Q : Unit → State → Prop}
    (hf : cfgValid s.regs.config = true → Ends f (sessionStarted s) Q fun _ _ => True) :
    Ends (sessionInit >>= fun _ => f) s Q fun _ _ => True := by
  refine Ends.bind (Q := fun _ t => cfgValid s.regs.config = true ∧ t = sessionStarted s) ?_ fun _ _ ⟨hc, ht⟩ => ht ▸ hf hc
  rcases sessionInit_cases s with ⟨-, h⟩ | ⟨-, -, h⟩ | ⟨hc, -, h⟩
  · rw [Ends, h]; trivial
  · rw [Ends, h]; trivial
  · exact ends_of_ok h ⟨hc, rfl⟩

/-- INIT_ENC's rule leaves the start and MODE (R117). -/
theorem initEnc_begins_session (s : State) : Ends (ruleOf .initEnc) s (fun _ t => SessionBegun t) fun _ _ => True :=
  ends_sessionInit fun hc => ends_modifyRegs ⟨rfl, hc, rfl, rfl, rfl, fun _ => ⟨rfl, rfl, rfl⟩⟩

/-- INIT_DEC's rule leaves the start, the bytes it has read, and MODE (R118). -/
theorem initDec_begins_session (s : State) : Ends (ruleOf .initDec) s (fun _ t => SessionBegun t) fun _ _ => True := by
  refine ends_sessionInit fun hc => Ends.bind ((ends_decPrime rfl).mono (fun _ _ h => h) fun _ _ _ => trivial) ?_
  rintro _ _ ⟨n1, n2, n3, n4, -, rfl⟩
  exact ends_modifyRegs ⟨rfl, hc, rfl, rfl, rfl, Mode.noConfusion⟩

/-- Settles O33: the command has retired, so the session has begun as its start leaves it. -/
theorem sessionStartMeetsInvariants : Obligations.SessionStartMeetsInvariants := by
  intro i s t hi hs h ht
  have hf : t.regs.mode ≠ .faulted := by rcases ht with ht | ht <;> simp [ht]
  have hm : t.regs.mode ≠ s.regs.mode := by rcases ht with ht | ht <;> rcases hs with hs | hs <;> simp [ht, hs]
  obtain ⟨u, hrun, rfl⟩ := retired_of_mode_changed h hf hm
  have hbegun : SessionBegun u := by
    rcases hi with rfl | rfl
    · exact (initEnc_begins_session _).of_ok hrun
    · exact (initDec_begins_session _).of_ok hrun
  exact hbegun.retire.invariants

end Sys2Proof.Machine
end

