-- ==== Sys2Proof/Proofs/LiteralModel.lean ====
section
/-! The literal model's training (O48), the decided default of LOG2_FIX (O49), and the cost tracker (O50). -/

namespace Sys2Proof.Machine

/-! ### LitTrain (R181, R182, R187) -/

/-- A training step of the literal context leaves every other table as it was (R64). -/
theorem OnlyContext.other_table {c : Nat} {s t : State} (h : OnlyContext c s t) {id : TableId} (hid : id ≠ .lit) (i : Nat) :
    tblRead t id i = tblRead s id i :=
  h.other id i fun hout => hid hout.1

/-- A training step of a literal context leaves every entry of LIT outside it as it was (R64). -/
theorem OnlyContext.other_entry {c : Nat} {s t : State} (h : OnlyContext c s t) {i : Nat} (hi : ¬(c * 273 ≤ i ∧ i < c * 273 + 273)) :
    tblRead t .lit i = tblRead s .lit i :=
  h.other .lit i fun hout => hi hout.2

/-- Settles O48: the training writes its own context alone and keeps R172 of it, of which the total's bound is a part. -/
theorem litTrainKeepsTheBound : Obligations.LitTrainKeepsTheBound := by
  intro s sym hsym hcfg hwf hctx
  obtain ⟨t, hrun, honly, hok, hsingles⟩ := litTrain_spec hwf (cfgValid_iff.mp hcfg) hctx hsym
  have htrained : LiteralTrained s t sym := ⟨hsingles, hok, fun _ hi => honly.other_entry hi⟩
  exact ⟨t, hrun, honly.state, htrained, fun _ hid i => honly.other_table hid i, honly.scfg ▸ hok.bound⟩

/-! ### The decided default of LOG2_FIX (R184) -/

/-- The default on its domain, and no value outside it. -/
theorem log2FixValue_exact_eq_some_iff {n v : Nat} :
    log2FixValue .exact n = some v ↔ (1 ≤ n ∧ n ≤ 32767) ∧ log2FixExact n = v := by
  unfold log2FixValue
  split
  · next h => simp [h]
  · next h => simp [h]

/-- The values of the default that R184 lists. -/
theorem log2FixValue_exact_listed :
    log2FixValue .exact 1 = some 0 ∧ log2FixValue .exact 2 = some 16384 ∧ log2FixValue .exact 3 = some 25968 ∧
    log2FixValue .exact 16 = some 65536 ∧ log2FixValue .exact 127 = some 114502 ∧ log2FixValue .exact 128 = some 114688 ∧
    log2FixValue .exact 255 = some 130979 ∧ log2FixValue .exact 256 = some 131072 ∧ log2FixValue .exact 257 = some 131164 ∧
    log2FixValue .exact 32767 = some 245759 := by
  decide +kernel

/-- The default is below 15 * 2^14, its numbers being below 2^15. -/
theorem log2FixValue_exact_lt {n v : Nat} (h : log2FixValue .exact n = some v) : v < 245760 := by
  obtain ⟨⟨h1, h2⟩, rfl⟩ := log2FixValue_exact_eq_some_iff.mp h
  exact log2FixExact_lt h1 h2

/-- Settles O49: the default is the floor of the logarithm, and the floor does not decrease. -/
theorem log2DefaultIsExact : Obligations.Log2DefaultIsExact := by
  refine ⟨fun n h1 h2 => ?_, fun n m v w hnm hv hw => ?_, log2FixValue_exact_listed⟩
  · have hvalue := log2FixValue_exact_eq_some_iff.mpr ⟨⟨h1, h2⟩, rfl⟩
    obtain ⟨hle, hlt⟩ := log2FixExact_spec h1 h2
    exact ⟨log2FixExact n, hvalue, hle, hlt, lt_trans (log2FixValue_exact_lt hvalue) (by decide)⟩
  · obtain ⟨⟨h1, -⟩, rfl⟩ := log2FixValue_exact_eq_some_iff.mp hv
    obtain ⟨⟨-, h2⟩, rfl⟩ := log2FixValue_exact_eq_some_iff.mp hw
    exact log2FixExact_mono h1 hnm h2

/-! ### CostUpdate (R183) -/

/-- COST after CostUpdate as the decayed cost and the gain. -/
theorem costAfter_eq {cost lt lf : Nat} (h : lf ≤ lt) : costAfter cost lt lf = cost - cost / 128 + (lt - lf) := by
  rw [costAfter, Nat.shiftRight_eq_div_pow]
  exact Nat.add_sub_assoc h _

/-- A cost of at most 128 times a bound on the gains stays so: at its largest it loses the bound and gains at most that (R183). -/
theorem costAfter_le {cost lt lf bound : Nat} (hlt : lt ≤ bound) (hc : cost ≤ 128 * bound) : costAfter cost lt lf ≤ 128 * bound := by
  rw [costAfter, Nat.shiftRight_eq_div_pow]
  omega

/-- Settles O50: the cost CostUpdate writes fits COST, and a gain of the default is below 245760 = 31457280 / 128. -/
theorem costStaysBounded : Obligations.CostStaysBounded := by
  intro s te fs hlog h1 h2 h3 hc
  obtain ⟨logTotal, logFreq, ht, hf, hle, hlt, hrun⟩ := costUpdate_spec hlog h1 h2 h3 hc
  have hbound : costAfter s.regs.cost.toNat logTotal logFreq < 2 ^ 31 := costAfter_lt hc hlt
  have hcost : (BitVec.ofNat 32 (costAfter s.regs.cost.toNat logTotal logFreq)).toNat = costAfter s.regs.cost.toNat logTotal logFreq :=
    (BitVec.toNat_ofNat ..).trans (Nat.mod_eq_of_lt (lt_trans hbound (by decide)))
  refine ⟨_, logTotal, logFreq, hrun, ht, hf, hle, rfl, hcost.trans (costAfter_eq hle), hcost.trans_lt hbound, fun hexact hmax => ?_⟩
  rw [hexact] at ht
  exact hcost.trans_le (costAfter_le (log2FixValue_exact_lt ht).le hmax)

end Sys2Proof.Machine
end

