-- ==== Sys2Proof/Proofs/RangeEncoder.lean ====
section
/-! The commands that encode with the range coder (O36 to O40): a rule that ends with its bytes gone out retires, and one that does not
stops at a byte the port does not take, or at the run's bound. -/

namespace Sys2Proof.Machine

/-! ### How an encode command ends (R80, R202, R299) -/

/-- Bytes that have left the window one after the other, and have gone out. -/
theorem Follows.goesOut {s u t : State} {v k : Nat} (h : Follows u t v k) (hb : ∀ j < k, ¬runFull u v j) (hs : Sent s t) :
    GoesOut s u v k :=
  ⟨hb, h.side ▸ hs.answers.2.1⟩

/-- What a command does last, done to states that differ in what their coders have changed. -/
theorem erased_congr {s t : State} {erase finish : State → State} (h : erase t = erase s)
    (hf : ∀ u, erase (finish u) = erase (finish (erase u))) : erase (finish t) = erase (finish s) := by
  rw [hf t, h, ← hf]

theorem Encoded.follows {s t : State} {v r : Nat} (h : Encoded s t v r) : Follows s t v (normShifts r) := ⟨h.side, h.buffer⟩

/-- A stop of the rule of a command whose coder was as R200 says is one of its output's, not a carry's (R216). -/
theorem EncodeStops.of_rule {s t : State} {v k : Nat} {e : Abort} (h : EncodeStops (takeCommand s) v k e t) (hc : CoderInv s.regs) :
    StopsWithin s s v k e t :=
  (h.within (sent_take s) rfl rfl (coderInv_take hc).mid).of_take

/-- An encode command whose rule ends with its bytes gone out, or stops at one of them: it retires exactly where they all go out. -/
theorem encodes_of {i : Instr} {s : State} {v k : Nat} {Q : State → Prop} (hl : legal i s.regs.mode s.regs.dir = true)
    (hm : s.regs.mode ≠ .faulted) (ho : operandsInRange i = true)
    (h : Ends (ruleOf i) (takeCommand s) (fun _ t => GoesOut s s v k ∧ Q t) (StopsWithin s s v k)) :
    (GoesOut s s v k → ∃ t, exec i s = .next (retire t) ∧ Q t) ∧ EncoderTraps i s s v k := by
  refine ⟨fun hg => ?_, encoderTraps_of hl hm ho (h.mono (fun _ _ hq => hq.1) fun _ _ hs => .inr hs)⟩
  obtain ⟨_, t, hrun, -, hq⟩ := h.completes fun _ _ _ hs => hg.not_stops hs
  exact ⟨t, by rw [exec_of_runs (.inl hm) hl ho, hrun]; rfl, hq⟩

/-! ### One coding procedure (R207, R209, R211) -/

/-- What a rule that is one coding procedure leaves of the state its command began in. -/
def Coded (s t : State) (v r : Nat) : Prop := Encoded s t v r ∧ encoderErased t = encoderErased (takeCommand s)

/-- A coding procedure as the first part of a rule, from a coder as R200 says. -/
theorem ends_coded {s : State} {x : Cmd Unit} {v r : Nat} (hc : CoderInv s.regs)
    (h : Ends x (takeCommand s) (fun _ t => Encoded (takeCommand s) t v r ∧ encoderErased t = encoderErased (takeCommand s))
      (EncodeStops (takeCommand s) v (normShifts r))) :
    Ends x (takeCommand s) (fun _ t => GoesOut s s v (normShifts r) ∧ Coded s t v r) (StopsWithin s s v (normShifts r)) :=
  h.mono (fun _ _ ⟨he, herased⟩ => ⟨(he.goesOut (sent_take s)).of_take, he.of_take, herased⟩) fun _ _ hs => hs.of_rule hc

/-- A command's end touches none of what the encoder has left. -/
theorem Encoded.ended {s t : State} {v r : Nat} (h : Encoded s t v r) (m : Mode) :
    Encoded s (retire { t with regs := { t.regs with mode := m } }) v r :=
  ⟨h.range, h.buffer, h.value, h.length, fun hc => let ⟨h1, h2, h3⟩ := h.inv hc; ⟨h1, h2, h3⟩, h.accepts, h.run, h.side,
    h.bounded, h.sent⟩

/-- A command that has coded, and changed nothing else, has retired in its mode. -/
theorem Coded.retired {s t : State} {v r : Nat} (h : Coded s t v r) (hm : s.regs.mode ≠ .faulted) :
    retiredIn (Machine.retire t) ∧ encoderErased (Machine.retire t) = encoderErased (countedWith s s.regs) ∧
      Encoded s (Machine.retire t) v r :=
  ⟨⟨mode_of_encoderErased h.2 ▸ hm, rfl⟩, (erased_congr (finish := Machine.retire) h.2 fun _ => rfl).trans rfl, h.1.ended t.regs.mode⟩

/-- An encode command whose rule is one coding procedure. -/
theorem encodes_once {i : Instr} {s : State} {v r : Nat} (hm : s.regs.mode = .enc) (hl : legal i .enc s.regs.dir = true)
    (ho : operandsInRange i = true)
    (h : Ends (ruleOf i) (takeCommand s) (fun _ t => GoesOut s s v (normShifts r) ∧ Coded s t v r) (StopsWithin s s v (normShifts r))) :
    (GoesOut s s v (normShifts r) →
      ∃ t, exec i s = .next t ∧ retiredIn t ∧ encoderErased t = encoderErased (countedWith s s.regs) ∧ Encoded s t v r) ∧
    EncoderTraps i s s v (normShifts r) := by
  have hne : s.regs.mode ≠ .faulted := by simp [hm]
  obtain ⟨hdone, htraps⟩ := encodes_of (hm ▸ hl) hne ho h
  refine ⟨fun hg => ?_, htraps⟩
  obtain ⟨t, hrun, hcoded⟩ := hdone hg
  exact ⟨_, hrun, hcoded.retired hne⟩

/-- Settles O36: the rule is EncFlag, of which BIT = 1 takes the low part. -/
theorem rcEncBitNarrows : Obligations.RcEncBitNarrows := by
  intro s bit p hm hc _ hp hp' h v r
  have hspec := ends_coded hc (encFlag_stops p (bit == 1) (takeCommand s) hc.range hp hp')
  have hv : encFlagLow (takeCommand s).regs p (bit == 1) = v := by
    simp [encFlagLow, v, h, flagSplit, Nat.shiftRight_eq_div_pow]
  have hr : encFlagRange (takeCommand s).regs p (bit == 1) = r := by
    simp [encFlagRange, r, h, flagSplit, Nat.shiftRight_eq_div_pow]
  rw [hv, hr] at hspec
  exact encodes_once (i := .rcEncBit bit p) hm rfl (by simp [operandsInRange]; omega) hspec

/-- Settles O38: the rule is EncFreq. -/
theorem rcEncFreqNarrows : Obligations.RcEncFreqNarrows := by
  intro s cum freq tot hm hc hf hle ht v r
  have htot : 1 ≤ tot := by omega
  have hR : tot ≤ s.regs.rcRange.toNat := by have := hc.range; omega
  exact encodes_once (i := .rcEncFreq cum freq tot) hm rfl (intervalInRange_iff.mpr ⟨htot, hf, hle⟩)
    (ends_coded hc (encFreq_stops cum freq tot (takeCommand s) htot hf hle hR))

/-- R = 1 is shifted three times, and is 2^24 then (R204). -/
theorem normShifts_one : normShifts 1 = 3 := by decide

/-- RC_ENC_EOS with LAST = 1: the coding procedure, then MODE (R219). -/
theorem ends_rcEncEos_last {s : State} (hc : CoderInv s.regs) :
    Ends (ruleOf (.rcEncEos 1)) (takeCommand s)
      (fun _ t => GoesOut s s (s.regs.rcRange.toNat - 1) 3 ∧
        ∃ u, Coded s u (s.regs.rcRange.toNat - 1) 1 ∧ t = { u with regs := { u.regs with mode := .encEnding } })
      (StopsWithin s s (s.regs.rcRange.toNat - 1) 3) := by
  have hflag := ends_coded hc (encEos_stops true (takeCommand s) hc.range)
  rw [show encEosRange (takeCommand s).regs true = 1 from rfl, normShifts_one] at hflag
  exact Ends.bind hflag fun _ u ⟨hg, hu⟩ => ends_of_ok (a := ()) rfl ⟨hg, u, hu, rfl⟩

/-- Settles O37: the rule is EncEos; after LAST = 1 the mode is another, and R = 1 has been shifted three times. -/
theorem rcEncEosNarrows : Obligations.RcEncEosNarrows := by
  intro s hm hc
  have hne : s.regs.mode ≠ .faulted := by simp [hm]
  have first : Ends (ruleOf (.rcEncEos 0)) (takeCommand s)
      (fun _ t => GoesOut s s 0 (normShifts (s.regs.rcRange.toNat - 1)) ∧ Coded s t 0 (s.regs.rcRange.toNat - 1))
      (StopsWithin s s 0 (normShifts (s.regs.rcRange.toNat - 1))) :=
    Ends.bind (ends_coded hc (encEos_stops false (takeCommand s) hc.range)) fun _ _ hu => ends_pure hu
  obtain ⟨hdone, htraps⟩ := encodes_once (i := .rcEncEos 0) hm rfl rfl first
  obtain ⟨hlast, hlastTraps⟩ := encodes_of (i := .rcEncEos 1) (by simp [legal, hm]) hne rfl (ends_rcEncEos_last hc)
  refine ⟨hdone, htraps, fun hg => ?_, hlastTraps⟩
  obtain ⟨_, hrun, u, ⟨hu, herased⟩, rfl⟩ := hlast hg
  refine ⟨_, hrun, ⟨Mode.noConfusion, rfl⟩, ?_, ?_, hu.range⟩
  · exact (erased_congr (finish := fun w => retire { w with regs := { w.regs with mode := .encEnding } }) herased fun _ => rfl).trans rfl
  · exact hu.ended .encEnding

/-! ### The drain (R214) -/

/-- From `s` to `t` the encoder has added `v` to the window low and shifted `k` bytes out, the last five of them by Flush from `u`. -/
structure Drained (s u t : State) (v k : Nat) : Prop where
  flushed : Flushed u t
  erased : encoderErased t = encoderErased (takeCommand s)
  side : outSide t = outSideAfter s v k
  sent : Sent s t

/-- The state in which a session has ended: MODE is DONE, IRQ_PEND[1] is set (R38). -/
def doneFrom (t : State) : State :=
  { t with regs := { t.regs with mode := .done, irqPend := t.regs.irqPend ||| 2#2 } }

/-- Flush and the session's end, after a part of the rule that has shifted `m` bytes out (R214, R224, R243). -/
theorem ends_drain {s u : State} {v m : Nat} (hc : CoderInv s.regs) (hf : Follows (takeCommand s) u v m)
    (hb : ∀ j < m, ¬runFull (takeCommand s) v j) (hs : Sent (takeCommand s) u) (he : encoderErased u = encoderErased (takeCommand s))
    (hmid : CoderMid (takeCommand s).regs → CoderMid u.regs) :
    Ends (do flushCoder; enterDone) u
      (fun _ t => GoesOut s s v (m + 5) ∧ ∃ w, Drained s u w v (m + 5) ∧ t = doneFrom w)
      (StopsWithin s s v (m + 5)) := by
  refine Ends.bind ((flushCoder_stops u).mono (fun _ _ h => h) fun _ _ h => (h.after hf hs he hb fun _ => hmid).of_rule hc) ?_
  intro _ w hw
  have hfollows := hf.trans hw.follows
  have hsent := hs.trans hw.sent
  exact ends_modifyRegs ⟨(hfollows.goesOut (hf.bounded hb hw.bounded) ((sent_take s).trans hsent)).of_take, w,
    ⟨hw, hw.erased.trans he, hfollows.side, (sent_take s).trans hsent⟩, rfl⟩

/-- What the end of a drained session leaves. -/
theorem Drained.retired {s u t : State} {v k : Nat} (h : Drained s u t v k) :
    retiredIn (retire (doneFrom t)) ∧
      encoderErased (retire (doneFrom t)) =
        encoderErased (countedWith s { s.regs with mode := .done, irqPend := s.regs.irqPend ||| 2#2 }) :=
  ⟨⟨Mode.noConfusion, rfl⟩, (erased_congr (finish := fun w => retire (doneFrom w)) h.erased fun _ => rfl).trans rfl⟩

/-- Settles O39: the rule is Flush, from the state the command began in. -/
theorem rcFlushDrains : Obligations.RcFlushDrains := by
  intro s hm hc
  have hne : s.regs.mode ≠ .faulted := by rcases hm with hm | hm <;> simp [hm]
  have hl : legal .rcFlush s.regs.mode s.regs.dir = true := by rcases hm with hm | hm <;> simp [legal, hm]
  have hends := ends_drain hc (Follows.refl (takeCommand s)) (fun _ h => absurd h (Nat.not_lt_zero _)) (Sent.refl rfl rfl) rfl id
  obtain ⟨hdone, htraps⟩ := encodes_of (i := .rcFlush) hl hne rfl hends
  refine ⟨fun hg => ?_, htraps⟩
  obtain ⟨_, hrun, w, hw, rfl⟩ := hdone hg
  obtain ⟨hretired, herased⟩ := hw.retired
  have hf := hw.flushed
  exact ⟨_, hrun, hretired, herased, hf.buffer, hf.carry, hf.run, hf.valid, hf.delay, hf.range, hw.side, hw.sent, hf.length, hf.value⟩

/-- ENC_END's rule (R243): the end flag 1, of which R = 1 is shifted three times, and the drain. -/
theorem ends_encEnd {s : State} (hc : CoderInv s.regs) :
    Ends (ruleOf .encEnd) (takeCommand s)
      (fun _ t => GoesOut s s (s.regs.rcRange.toNat - 1) 8 ∧ ∃ u w, Coded s u (s.regs.rcRange.toNat - 1) 1 ∧
        Drained s u w (s.regs.rcRange.toNat - 1) 8 ∧ t = doneFrom w)
      (StopsWithin s s (s.regs.rcRange.toNat - 1) 8) := by
  have hflag := encEos_stops true (takeCommand s) hc.range
  rw [show encEosRange (takeCommand s).regs true = 1 from rfl] at hflag
  refine Ends.bind (hflag.mono (fun _ _ h => h) fun _ _ h => (h.mono ?_).of_rule hc) ?_
  · exact (normShifts_le 1).trans (by decide)
  rintro _ u ⟨hu, he⟩
  have hfollows := hu.follows
  have hbounded := hu.bounded
  rw [normShifts_one] at hfollows hbounded
  refine (ends_drain hc hfollows hbounded hu.sent he (coderMid_of_encoded hu hc.range)).mono ?_ fun _ _ h => h
  rintro _ t ⟨hg, w, hw, ht⟩
  exact ⟨hg, u, w, ⟨hu.of_take, he⟩, hw, ht⟩

/-- Settles O40: the end flag's code value and length, then those of the drain. -/
theorem encEndDrains : Obligations.EncEndDrains := by
  intro s hm hc v
  obtain ⟨hdone, htraps⟩ := encodes_of (i := .encEnd) (by simp [legal, hm]) (by simp [hm]) rfl (ends_encEnd hc)
  refine ⟨fun hg => ?_, htraps⟩
  obtain ⟨_, hrun, u, w, ⟨hu, -⟩, hw, rfl⟩ := hdone hg
  obtain ⟨hretired, herased⟩ := hw.retired
  have hf := hw.flushed
  have hrange : w.regs.rcRange.toNat = 2 ^ 24 := by rw [hf.range]; exact hu.range
  have hlength : w.outPort.taken.length = (shiftedOut s).length + 7 := by rw [hf.length, hu.length]; rfl
  have hvalue : bytesValue w.outPort.taken = (codeValue s + v) * 256 ^ 3 * 2 := by rw [hf.value, hu.value]; rfl
  exact ⟨_, hrun, hretired, herased, hf.buffer, hf.carry, hf.run, hf.valid, hf.delay, hrange, hw.side, hw.sent, hlength, hvalue⟩

end Sys2Proof.Machine
end

