-- ==== Sys2Proof/Proofs/RangeDecoder.lean ====
section
/-! The commands that decode with the range coder (O41 to O44): a rule that has had its bytes retires, and one that has not stops at a
request the port does not answer with a byte. -/

namespace Sys2Proof.Machine

/-! ### How a decode command ends (R79, R299) -/

/-- A decode command whose rule ends with its bytes read, or stops at one of them: it retires where the port is about to give them. -/
theorem decodes_of {i : Instr} {s : State} {k : Nat} {Q : State → Prop} (hl : legal i s.regs.mode s.regs.dir = true)
    (hm : s.regs.mode ≠ .faulted) (ho : operandsInRange i = true)
    (h : Ends (ruleOf i) (takeCommand s) (fun _ t => bytesFirst s.inPort k ∧ Q t) (ReadFails k (takeCommand s))) :
    (givesBytes s.inPort k → ∃ t, exec i s = .next (retire t) ∧ Q t) ∧ DecoderTraps i s k := by
  refine ⟨fun hg => ?_, decoderTraps_of hl hm ho (h.mono (fun _ _ hq => hq.1) fun _ _ hr => .inr hr)⟩
  obtain ⟨_, t, hrun, -, hq⟩ := h.completes fun _ _ _ hr => hr.short hg
  exact ⟨t, by rw [exec_of_runs (.inl hm) hl ho, hrun]; rfl, hq⟩

/-- What a decode command has done with the window, where its bytes were there, its end and what it writes last included. -/
theorem Taken.ended {s t : State} {v n : Nat} (h : Taken (takeCommand s) t v n) (hg : givesBytes s.inPort (normShifts n)) (m : Mode)
    (irq : BitVec 2) (result : Word32) :
    Decoded s (retire { t with regs := { t.regs with mode := m, irqPend := irq, result := result } }) v n :=
  let ⟨hrange, hwindow, hlook, hcount, hanswers⟩ := h.decoded hg
  ⟨hrange, hwindow, hlook, hcount, hanswers⟩

/-- A decode command that has narrowed its interval, and changed nothing else, has retired in its mode. -/
theorem Taken.retired {s t : State} {v n : Nat} (h : Taken (takeCommand s) t v n) (hg : givesBytes s.inPort (normShifts n))
    (hm : s.regs.mode ≠ .faulted) :
    retiredIn (retire t) ∧ decoderErased (retire t) = decoderErased (countedWith s s.regs) ∧ Decoded s (retire t) v n :=
  ⟨⟨mode_of_decoderErased h.erased ▸ hm, rfl⟩, (erased_congr (finish := retire) h.erased fun _ => rfl).trans rfl,
    h.ended hg t.regs.mode t.regs.irqPend t.regs.result⟩

/-- The state in which a decode command has answered and goes on (R36). -/
def answering (result : Nat) (t : State) : State := { t with regs := { t.regs with result := BitVec.ofNat 32 result } }

/-- A decode command that has answered has retired in its mode, nothing outside the decoder but RESULT changed. -/
theorem Taken.answered {s t : State} {v n : Nat} (h : Taken (takeCommand s) t v n) (hg : givesBytes s.inPort (normShifts n))
    (hm : s.regs.mode ≠ .faulted) (result : Nat) :
    retiredIn (retire (answering result t)) ∧
      decoderErased (retire (answering result t)) =
        decoderErased (countedWith s { s.regs with result := BitVec.ofNat 32 result }) ∧
      Decoded s (retire (answering result t)) v n :=
  ⟨⟨mode_of_decoderErased h.erased ▸ hm, rfl⟩,
    (erased_congr (finish := fun u => retire (answering result u)) h.erased fun _ => rfl).trans rfl,
    h.ended hg t.regs.mode t.regs.irqPend (BitVec.ofNat 32 result)⟩

/-! ### RC_DEC_BIT (R208, R218) -/

/-- RC_DEC_BIT's rule: the flag is whether the window is below the split. -/
theorem ends_rcDecBit {s : State} {p : Nat} (hr : 2 ^ 23 ≤ s.regs.rcRange.toNat) (hp : 1 ≤ p) (hp' : p < 2 ^ 15) :
    Ends (ruleOf (.rcDecBit p)) (takeCommand s)
      (fun _ t => bytesFirst s.inPort (normShifts (decFlagRange s.regs p)) ∧
        ∃ u, Taken (takeCommand s) u (decFlagLow s.regs p) (decFlagRange s.regs p) ∧
          t = answering (flag (decide (s.regs.rcBuffer.toNat < flagSplit s.regs p))) u)
      (ReadFails (normShifts (decFlagRange s.regs p)) (takeCommand s)) := by
  refine Ends.bind (decFlag_spec p (takeCommand s) hr hp hp') ?_
  rintro _ u ⟨rfl, hu⟩
  exact ends_modifyRegs ⟨hu.bytes, u, hu, rfl⟩

/-- Settles O41: the flag, the part taken, and the number of bytes all turn on whether the window is below the split. -/
theorem rcDecBitDecodes : Obligations.RcDecBitDecodes := by
  intro s p hm hr hp hp' h
  have hne : s.regs.mode ≠ .faulted := by simp [hm]
  have hsplit : flagSplit s.regs p = h := by rw [flagSplit, Nat.shiftRight_eq_div_pow]
  have hends := ends_rcDecBit hr hp hp'
  simp only [decFlagLow, decFlagRange, hsplit] at hends
  obtain ⟨hdone, htraps⟩ := decodes_of (i := .rcDecBit p) (by simp [legal, hm]) hne (by simp [operandsInRange]; omega) hends
  refine ⟨fun hlt hg => ?_, fun hge hg => ?_, htraps⟩
  · simp only [if_pos hlt, decide_eq_true hlt] at hdone
    obtain ⟨_, hrun, u, hu, rfl⟩ := hdone hg
    exact ⟨_, hrun, hu.answered hg hne 1⟩
  · have hnot := Nat.not_lt.mpr hge
    simp only [if_neg hnot, decide_eq_false hnot] at hdone
    obtain ⟨_, hrun, u, hu, rfl⟩ := hdone hg
    exact ⟨_, hrun, hu.answered hg hne 0⟩

/-! ### RC_DEC_EOS (R210, R220) -/

/-- The state in which RC_DEC_EOS has found the end of the session (R220, R38). -/
def endFound (t : State) : State :=
  { t with regs := { t.regs with result := 1#32, mode := .done, irqPend := t.regs.irqPend ||| 2#2 } }

/-- RC_DEC_EOS's rule where more follows. -/
theorem ends_rcDecEos_more {s : State} (hr : 2 ^ 23 ≤ s.regs.rcRange.toNat) (hlt : s.regs.rcBuffer.toNat < s.regs.rcRange.toNat - 1) :
    Ends (ruleOf .rcDecEos) (takeCommand s)
      (fun _ t => bytesFirst s.inPort (normShifts (s.regs.rcRange.toNat - 1)) ∧
        ∃ u, Taken (takeCommand s) u 0 (s.regs.rcRange.toNat - 1) ∧ t = answering 0 u)
      (ReadFails (normShifts (s.regs.rcRange.toNat - 1)) (takeCommand s)) := by
  have hspec := decEos_spec (takeCommand s) hr
  have hlt' : (takeCommand s).regs.rcBuffer.toNat < (takeCommand s).regs.rcRange.toNat - 1 := hlt
  simp only [decEosLow, decEosRange, if_pos hlt', decide_eq_true hlt'] at hspec
  refine Ends.bind hspec ?_
  rintro _ u ⟨rfl, hu⟩
  exact ends_of_ok (a := ()) rfl ⟨hu.bytes, u, hu, rfl⟩

/-- RC_DEC_EOS's rule at the end of the session. -/
theorem ends_rcDecEos_last {s : State} (hr : 2 ^ 23 ≤ s.regs.rcRange.toNat) (hge : s.regs.rcRange.toNat - 1 ≤ s.regs.rcBuffer.toNat) :
    Ends (ruleOf .rcDecEos) (takeCommand s)
      (fun _ t => bytesFirst s.inPort (normShifts 1) ∧ ∃ u, Taken (takeCommand s) u s.regs.rcBuffer.toNat 1 ∧ t = endFound u)
      (ReadFails (normShifts 1) (takeCommand s)) := by
  have hspec := decEos_spec (takeCommand s) hr
  have hnot : ¬(takeCommand s).regs.rcBuffer.toNat < (takeCommand s).regs.rcRange.toNat - 1 := Nat.not_lt.mpr hge
  simp only [decEosLow, decEosRange, if_neg hnot, decide_eq_false hnot] at hspec
  refine Ends.bind hspec ?_
  rintro _ u ⟨rfl, hu⟩
  exact ends_of_ok (a := ()) rfl ⟨hu.bytes, u, hu, rfl⟩

/-- Settles O42: more follows below R - 1; else the window is emptied, and R = 1 takes three bytes. -/
theorem rcDecEosDecodes : Obligations.RcDecEosDecodes := by
  intro s hm hr
  have hne : s.regs.mode ≠ .faulted := by simp [hm]
  have hl : legal .rcDecEos s.regs.mode s.regs.dir = true := by simp [legal, hm]
  have more (hlt : s.regs.rcBuffer.toNat < s.regs.rcRange.toNat - 1) := decodes_of hl hne rfl (ends_rcDecEos_more hr hlt)
  have last (hge : s.regs.rcRange.toNat - 1 ≤ s.regs.rcBuffer.toNat) := decodes_of hl hne rfl (ends_rcDecEos_last hr hge)
  rw [normShifts_one] at last
  refine ⟨fun hlt hg => ?_, fun hge hg => ?_, ?_⟩
  · obtain ⟨_, hrun, u, hu, rfl⟩ := (more hlt).1 hg
    exact ⟨_, hrun, hu.answered hg hne 0⟩
  · obtain ⟨_, hrun, u, hu, rfl⟩ := (last hge).1 hg
    have hdecoded := hu.ended (normShifts_one ▸ hg) .done (u.regs.irqPend ||| 2#2) 1#32
    refine ⟨_, hrun, ⟨Mode.noConfusion, rfl⟩, ?_, hdecoded, hdecoded.range, normShifts_one ▸ hdecoded.count⟩
    exact (erased_congr (finish := fun w => retire (endFound w)) hu.erased fun _ => rfl).trans rfl
  · split
    · next hlt => exact (more hlt).2
    · next hnot => exact (last (Nat.le_of_not_lt hnot)).2

/-! ### RC_DEC_TARGET (R212, R222) -/

/-- Settles O43: DecTarget changes no state, and CORRUPT_PAYLOAD is precise where RC_DEC_TARGET raises it. -/
theorem rcDecTargetAnswers : Obligations.RcDecTargetAnswers := by
  intro s tot hm hr ht ht' target
  have hspec := decTarget_spec tot (takeCommand s) ht (le_trans (by omega) hr)
  have runs : exec (.rcDecTarget tot) s = concludeCommand (.rcDecTarget tot) s (ruleOf (.rcDecTarget tot) (takeCommand s)) :=
    exec_of_runs (.inl (by simp [hm])) (by simp [legal, hm]) (by simp [operandsInRange]; omega)
  rw [runs, ruleOf]
  cases hrun : decTarget tot (takeCommand s) with
  | ok a u =>
    obtain ⟨rfl, rfl, hlt⟩ := hspec.of_ok hrun
    rw [bind_of_ok hrun]
    exact ⟨fun _ => rfl, fun hge => absurd hlt (Nat.not_lt.mpr hge)⟩
  | error e u =>
    obtain ⟨rfl, rfl, hge⟩ := hspec.of_error hrun
    rw [bind_of_error hrun]
    exact ⟨fun hlt => absurd hlt (Nat.not_lt.mpr hge), fun _ => rfl⟩

/-! ### RC_DEC_NARROW (R213, R223) -/

/-- RC_DEC_NARROW's rule where the interval named holds the target. -/
theorem ends_rcDecNarrow {s : State} {cum freq tot : Nat} (ht : 1 ≤ tot) (hf : 1 ≤ freq) (hc : cum + freq ≤ tot)
    (hR : tot ≤ s.regs.rcRange.toNat) (hin : cum ≤ s.regs.rcBuffer.toNat / (s.regs.rcRange.toNat / tot) ∧
      s.regs.rcBuffer.toNat / (s.regs.rcRange.toNat / tot) < cum + freq) :
    Ends (ruleOf (.rcDecNarrow cum freq tot)) (takeCommand s)
      (fun _ t => bytesFirst s.inPort (normShifts (s.regs.rcRange.toNat / tot * freq)) ∧
        Taken (takeCommand s) t (cum * (s.regs.rcRange.toNat / tot)) (s.regs.rcRange.toNat / tot * freq))
      (ReadFails (normShifts (s.regs.rcRange.toNat / tot * freq)) (takeCommand s)) := by
  refine (decNarrow_spec cum freq tot (takeCommand s) ht hf hc hR).mono (fun _ _ ⟨_, htaken⟩ => ⟨htaken.bytes, htaken⟩) ?_
  rintro e t (⟨-, -, hout⟩ | ⟨-, hread⟩)
  · exact absurd hin hout
  · exact hread

/-- Settles O44: where the interval holds the target the rule reads its bytes or stops at one; elsewhere it raises NARROW_MISMATCH. -/
theorem rcDecNarrowNarrows : Obligations.RcDecNarrowNarrows := by
  intro s cum freq tot hm hr hf hc ht r
  have hne : s.regs.mode ≠ .faulted := by simp [hm]
  have hl : legal (.rcDecNarrow cum freq tot) s.regs.mode s.regs.dir = true := by simp [legal, hm]
  have htot : 1 ≤ tot := by omega
  have hR : tot ≤ s.regs.rcRange.toNat := by omega
  have ho : operandsInRange (.rcDecNarrow cum freq tot) = true := intervalInRange_iff.mpr ⟨htot, hf, hc⟩
  refine ⟨fun hlow hhigh => ?_, fun hout => ?_⟩
  · obtain ⟨hdone, htraps⟩ := decodes_of hl hne ho (ends_rcDecNarrow htot hf hc hR ⟨hlow, hhigh⟩)
    refine ⟨fun hg => ?_, htraps⟩
    obtain ⟨t, hrun, htaken⟩ := hdone hg
    exact ⟨_, hrun, htaken.retired hg hne⟩
  · have hspec : Ends (ruleOf (.rcDecNarrow cum freq tot)) (takeCommand s) _ _ :=
      decNarrow_spec cum freq tot (takeCommand s) htot hf hc hR
    rw [exec_of_runs (.inl hne) hl ho]
    cases hrun : ruleOf (.rcDecNarrow cum freq tot) (takeCommand s) with
    | ok a u => exact absurd (hspec.of_ok hrun).1 hout
    | error e u =>
      obtain ⟨rfl, rfl, -⟩ | ⟨hin, -⟩ := hspec.of_error hrun
      · exact ⟨_, rfl, rfl, rfl⟩
      · exact absurd hin hout

end Sys2Proof.Machine
end

