-- ==== Sys2Proof/Proofs/CarryOverflow.lean ====
section
/-! CARRY_OVERFLOW is raised by no command from a state with the machine's invariant (O55): a carry is what the encoder's procedures
alone can raise, and under (W) and (D) of R200 they do not (R216). -/

namespace Sys2Proof.Machine

/-! ### The parts of a rule -/

/-- From `s` the piece `x` of a rule does not raise CARRY_OVERFLOW. -/
def NoCarryOverflow {α : Type} (x : Cmd α) (s : State) : Prop := Ends x s (fun _ _ => True) fun e _ => e ≠ .raise .carryOverflow

/-- A piece of which more is known. -/
theorem Ends.noCarryOverflow {α : Type} {x : Cmd α} {s : State} {Q : α → State → Prop} {E : Abort → State → Prop} (h : Ends x s Q E)
    (he : ∀ e t, E e t → e ≠ .raise .carryOverflow) : NoCarryOverflow x s :=
  h.mono (fun _ _ _ => trivial) he

/-- A piece, and after it one that does not raise it from any state. -/
theorem NoCarryOverflow.followed {α β : Type} {x : Cmd α} {f : α → Cmd β} {s : State} (h : NoCarryOverflow x s)
    (hf : ∀ a t, NoCarryOverflow (f a) t) : NoCarryOverflow (x >>= f) s :=
  Ends.bind h fun a t _ => hf a t

/-- Under R200's invariants an encode procedure ends only as the port or the run counter makes it (R216). -/
theorem EncodeFails.not_carryOverflow {n : Nat} {s t : State} {e : Abort} (h : EncodeFails n s e t) (hc : CoderMid s.regs) :
    e ≠ .raise .carryOverflow := by
  rintro rfl
  obtain ⟨-, ⟨hport, -⟩ | ⟨hrun, -⟩ | ⟨-, hmid⟩⟩ := h
  · simp at hport
  · simp at hrun
  · exact hmid hc

/-- Reading the input ends only as the port makes it (R79). -/
theorem ReadFails.not_carryOverflow {n : Nat} {s t : State} {e : Abort} (h : ReadFails n s e t) : e ≠ .raise .carryOverflow := by
  rcases h.cause with rfl | rfl | rfl <;> simp

theorem DecodeFails.not_carryOverflow {s t : State} {e : Abort} (h : DecodeFails s e t) : e ≠ .raise .carryOverflow := by
  rcases h.2.1 with rfl | rfl | rfl | rfl <;> simp

theorem noCarryOverflow_modifyRegs (f : Regs → Regs) (s : State) : NoCarryOverflow (modifyRegs f) s := ends_modifyRegs trivial

/-- A session start raises its own two causes (R119). -/
theorem noCarryOverflow_sessionInit (s : State) : NoCarryOverflow sessionInit s := by
  rcases sessionInit_cases s with ⟨-, h⟩ | ⟨-, -, h⟩ | ⟨-, -, h⟩ <;> simp [NoCarryOverflow, Ends, h]

/-- DEC_CHECK_END raises for a byte and for a port error (R121). -/
theorem noCarryOverflow_decCheckEnd (s : State) : NoCarryOverflow (ruleOf .decCheckEnd) s := by
  refine Ends.bind (Q := fun _ _ => True) (ends_askInput (fun _ _ _ => trivial) fun _ => by simp) fun a t _ => ?_
  cases a with
  | endMark => exact trivial
  | byte b => exact Ends.bind (Q := fun _ _ => True) (ends_modifyRegs trivial) fun _ _ _ => ends_raise (by simp)
  | error => exact ends_raise (by simp)

/-- Flush from an encoder as R200 says (R214). -/
theorem noCarryOverflow_drain {s : State} (hc : CoderMid s.regs) : NoCarryOverflow (do flushCoder; enterDone) s :=
  ((flushCoder_spec s).noCarryOverflow fun _ _ h => h.not_carryOverflow hc).followed fun _ _ => noCarryOverflow_modifyRegs _ _

/-! ### The rules -/

/-- The encoder of a session that encodes, once its command is taken, is as R200 says. -/
theorem SettledOk.coderMid {s : State} (hs : SettledOk s) (hm : s.regs.mode = .enc ∨ s.regs.mode = .encEnding) :
    CoderMid (takeCommand s).regs :=
  (coderInv_take (hs.encoder hm)).mid

/-- No rule of a well-formed command that may run from a settled state raises CARRY_OVERFLOW: an encoder's is as R200 says, and a
decoder's reads its input alone. -/
theorem ruleOf_noCarryOverflow {i : Instr} {s : State} (hw : i.wellFormed = true) (hp : log2Permitted s.params.log2Fix)
    (hs : SettledOk s) (hl : legal i s.regs.mode s.regs.dir = true) (ho : operandsInRange i = true) :
    NoCarryOverflow (ruleOf i) (takeCommand s) := by
  have encoding (hm : s.regs.mode = .enc) : CoderMid (takeCommand s).regs ∧ SymbolReady (takeCommand s) :=
    ⟨hs.coderMid (.inl hm), symbolReady_of_settled hp hs (.inl hm)⟩
  have decoding (hm : s.regs.mode = .dec) : SymbolReady (takeCommand s) := symbolReady_of_settled hp hs (.inr (.inr hm))
  cases i with
  | nop => exact ends_pure trivial
  | setcfgHi | setcfgLo | setirq | tblRead => exact ends_of_ok (a := ()) rfl trivial
  | initEnc => exact (noCarryOverflow_sessionInit _).followed fun _ _ => noCarryOverflow_modifyRegs _ _
  | initDec =>
    exact (noCarryOverflow_sessionInit _).followed fun _ t =>
      ((decPrime_spec t).noCarryOverflow fun _ _ h => h.not_carryOverflow).followed fun _ _ => noCarryOverflow_modifyRegs _ _
  | decCheckEnd => exact noCarryOverflow_decCheckEnd _
  | encSym byte =>
    obtain ⟨hc, hr⟩ := encoding (by simpa [legal] using hl)
    exact (encodeSymbol_spec _ hr).noCarryOverflow fun _ _ h => h.not_carryOverflow hc
  | encEnd =>
    obtain ⟨hc, hr⟩ := encoding (by simpa [legal] using hl)
    exact Ends.bind ((encEos_spec true _ hr.range).mono (fun _ _ h => h) fun _ _ h => h.not_carryOverflow hc) fun _ _ ⟨hu, _⟩ =>
      noCarryOverflow_drain (coderMid_of_encoded hu hr.range hc)
  | rcEncBit bit p =>
    obtain ⟨hc, hr⟩ := encoding (by simpa [legal] using hl)
    simp only [Instr.wellFormed, Bool.and_eq_true, fits_iff] at hw
    have hp1 : p ≠ 0 := by simpa [operandsInRange] using ho
    exact (encFlag_spec p _ _ hr.range (Nat.one_le_iff_ne_zero.mpr hp1) hw.2).noCarryOverflow fun _ _ h => h.not_carryOverflow hc
  | rcEncEos last =>
    obtain ⟨hc, hr⟩ := encoding (by simpa [legal] using hl)
    exact ((encEos_spec _ _ hr.range).noCarryOverflow fun _ _ h => h.not_carryOverflow hc).followed fun _ _ =>
      ends_whenTrue (fun _ => noCarryOverflow_modifyRegs _ _) fun _ => trivial
  | rcEncFreq cum freq tot =>
    obtain ⟨hc, hr⟩ := encoding (by simpa [legal] using hl)
    simp only [Instr.wellFormed, Bool.and_eq_true, fits_iff] at hw
    obtain ⟨ht, hf, hle⟩ := intervalInRange_iff.mp ho
    exact (encFreq_spec cum freq tot _ ht hf hle (le_trans (by omega) hr.range)).noCarryOverflow fun _ _ h => h.not_carryOverflow hc
  | rcFlush => exact noCarryOverflow_drain (hs.coderMid (by simpa [legal] using hl))
  | decSym => exact (decodeSymbol_spec (decoding (by simpa [legal] using hl))).noCarryOverflow fun _ _ h => h.not_carryOverflow
  | rcDecBit p =>
    have hr := decoding (by simpa [legal] using hl)
    have hp1 : p ≠ 0 := by simpa [operandsInRange] using ho
    exact ((decFlag_spec p _ hr.range (Nat.one_le_iff_ne_zero.mpr hp1) (fits_iff.mp hw)).noCarryOverflow
      fun _ _ h => h.not_carryOverflow).followed fun _ _ => noCarryOverflow_modifyRegs _ _
  | rcDecEos =>
    have hr := decoding (by simpa [legal] using hl)
    exact ((decEos_spec _ hr.range).noCarryOverflow fun _ _ h => h.not_carryOverflow).followed fun _ _ =>
      (noCarryOverflow_modifyRegs _ _).followed fun _ _ => ends_whenTrue (fun _ => noCarryOverflow_modifyRegs _ _) fun _ => trivial
  | rcDecTarget tot =>
    have hr := decoding (by simpa [legal] using hl)
    have ht : tot ≠ 0 := by simpa [operandsInRange] using ho
    have htot : tot < 2 ^ 16 := fits_iff.mp hw
    refine ((decTarget_spec tot _ (Nat.one_le_iff_ne_zero.mpr ht) (le_trans (by omega) hr.range)).noCarryOverflow ?_).followed
      fun _ _ => noCarryOverflow_modifyRegs _ _
    rintro _ _ ⟨-, rfl, -⟩
    simp
  | rcDecNarrow cum freq tot =>
    have hr := decoding (by simpa [legal] using hl)
    simp only [Instr.wellFormed, Bool.and_eq_true, fits_iff] at hw
    obtain ⟨ht, hf, hle⟩ := intervalInRange_iff.mp ho
    refine (decNarrow_spec cum freq tot _ ht hf hle (le_trans (by omega) hr.range)).noCarryOverflow ?_
    rintro _ _ (⟨rfl, -⟩ | ⟨-, h⟩)
    · simp
    · exact h.not_carryOverflow

/-! ### The commands -/

/-- A command that may run, and its operands in range, faults only where its rule raises (R263, R264). -/
theorem rule_raised_of_faulted {i : Instr} {s t : State} (hm : s.regs.mode ≠ .faulted) (hl : legal i s.regs.mode s.regs.dir = true)
    (ho : operandsInRange i = true) (h : exec i s = .next t) (ht : t.regs.mode = .faulted) :
    ∃ c u, ruleOf i (takeCommand s) = .error (.raise c) u ∧ t.regs.faultCause = causeCode c := by
  have hends := ruleOf_ends i (takeCommand s)
  rw [exec_of_runs (.inl hm) hl ho] at h
  cases hrun : ruleOf i (takeCommand s) with
  | ok a u => rw [hrun] at h; cases h; exact absurd ht ((hends.of_ok hrun).not_faulted hl hm)
  | error e u =>
    rw [hrun] at h
    cases e with
    | raise c => cases h; exact ⟨c, u, rfl, rfl⟩
    | wait => cases h; exact absurd (((hends.of_error hrun).reached hl).controlKept.mode.symm.trans ht) hm
    | stop f => cases h

/-- No other cause has the number of CARRY_OVERFLOW (R261). -/
theorem eq_carryOverflow_of_code {c : Cause} (h : causeCode c = 21#8) : c = .carryOverflow := by
  cases c with
  | carryOverflow => rfl
  | ioFailure | unexpectedEndOfInput | badMagic | invalidConfiguration | allocationFailure | trailingData | illegalCommand | badState
    | operandRange | corruptPayload | narrowMismatch | ffrunOverflow => exact absurd h (by decide)

/-- Settles O55: a fault before the rule has another cause, and the rule does not raise this one. -/
theorem carryOverflowUnreachable : Obligations.CarryOverflowUnreachable := by
  intro i s t hw hinv hstall hm h ht hcause
  cases hl : legal i s.regs.mode s.regs.dir with
  | false => cases (exec_of_illegal hm hl).symm.trans h; exact absurd hcause (by decide : 17#8 ≠ 21#8)
  | true =>
    cases ho : operandsInRange i with
    | false => cases (exec_of_outOfRange hm hl ho).symm.trans h; exact absurd hcause (by decide : 18#8 ≠ 21#8)
    | true =>
      obtain ⟨c, u, hrun, hcode⟩ := rule_raised_of_faulted hm hl ho h ht
      cases eq_carryOverflow_of_code (hcode.symm.trans hcause)
      exact (ruleOf_noCarryOverflow hw hinv.params (hinv.settled hstall) hl ho).of_error hrun rfl

end Sys2Proof.Machine
end

