-- ==== Sys2Proof/Proofs/RoundTrip.lean ====
section
/-! The round trips (O56, O57): a symbol's is a step of both sessions at once; a message's is that step repeated, between a session start
that puts the first four bytes in the window and an end flag whose interval is the last of the range. -/

namespace Sys2Proof.Machine

/-! ### A symbol (R245) -/

theorem SymbolsCodable.ready {s : State} (h : SymbolsCodable s) : SymbolReady s := ⟨h.session, h.memory, h.log, h.range⟩

theorem SymbolReady.codable {s : State} (h : SymbolReady s) : SymbolsCodable s := ⟨h.session, h.wf, h.log, h.range⟩

/-- Taking a command changes no model. -/
theorem sameModel_take (s : State) : SameModel s (takeCommand s) := ⟨rfl, rfl, rfl, rfl, rfl, rfl, rfl⟩

theorem SymbolReady.take {s : State} (h : SymbolReady s) : SymbolReady (takeCommand s) := h.of_same (sameModel_take s) rfl h.range

/-- Nothing goes out while a symbol is decoded: DEC_SYM gives it out afterwards (R242). -/
theorem SymbolDecoded.outPort {s s1 s2 s3 : State} {b : Byte} (h : SymbolDecoded s b s1 s2 s3) : s3.outPort = s.outPort := by
  have h2 : s2.outPort = s.outPort := outPort_of_decoderErased (h.flag.erased.trans h.eos.erased)
  by_cases hlt : s1.regs.rcBuffer.toNat < flagSplit s1.regs (choose s).prob
  · rw [(h.hit hlt).2, h2]
  · obtain ⟨-, u, hu, -, hlearned⟩ := h.literal (Nat.le_of_not_lt hlt)
    rw [outPort_of_modelErased hlearned.erased, outPort_of_decoderErased hu.erased, h2]

/-- A DEC_SYM after which the session goes on has its answer in RESULT, and has given it out (R242). -/
theorem decSym_answer {d t : State} (h : DecSession d) (hx : exec .decSym d = .next t) (hstall : t.stall = none)
    (hmode : t.regs.mode = .dec) : ∃ b : Byte, t.regs.result = b.setWidth 32 ∧ t.outPort.taken = d.outPort.taken ++ [b] := by
  have hspec := decodeSymbol_spec h.ready.take
  rw [exec_of_runs (.inl (by simp [h.mode])) (by simp [legal, h.mode]) rfl] at hx
  cases hrun : ruleOf .decSym (takeCommand d) with
  | ok a u =>
    rw [hrun] at hx
    cases hx
    obtain ⟨-, u, -, rfl⟩ | ⟨b, s1, s2, s3, s4, hdecoded, hwrote, rfl⟩ := hspec.of_ok hrun
    · cases hmode
    · refine ⟨b, BitVec.ofNat_toNat .., ?_⟩
      calc s4.outPort.taken = (observed _ _ b s3).outPort.taken ++ [b] := hwrote.taken
        _ = d.outPort.taken ++ [b] := by rw [outPort_of_modelErased (observed_erased ..), hdecoded.outPort]; rfl
  | error e u =>
    rw [hrun] at hx
    cases e with
    | raise c => cases hx; cases hmode
    | wait => cases hx; cases hstall
    | stop f => cases hx

/-- Settles O56: the step of both sessions, with no byte below the symbol's own; the number of bytes is the number ENC_SYM shifted out,
and RESULT holds the byte that DEC_SYM gave out. -/
theorem symbolRoundTrip : Obligations.SymbolRoundTrip := by
  intro s s' d b n hm hready hs hdm hd haccepts hsame hrange hx hlen hg hi
  obtain ⟨t, k, ht, -, -, -, hgrew, hmirror⟩ :=
    symbol_step b ⟨hm, hs.ready, hready.coder, hready.accepts⟩ (by have := hready.run; omega)
  cases hx.symm.trans ht
  obtain rfl : k = n := by have := hgrew.length; omega
  have hdec : DecSession d := ⟨hdm, hd.ready, haccepts⟩
  obtain ⟨d', hrun, hstall, hdec', hsame', hrange', -, htaken, hanswers, hcount, hstream⟩ :=
    hmirror d 0 hdec hsame hrange hg hi
  obtain ⟨c, hresult, htaken'⟩ := decSym_answer hdec hrun hstall hdec'.mode
  obtain rfl : b = c := by simpa using htaken.symm.trans htaken'
  exact ⟨d', hrun, ⟨by simp [hdec'.mode], hstall⟩, hdec'.mode, hresult, htaken, hsame', hrange', hstream, hanswers, hcount,
    hdec'.ready.codable⟩

/-! ### A message (R245, R246) -/

/-- The code value of a session that has just started is that of the bytes taken before it (R119). -/
theorem value_start {s : State} (hb : s.regs.rcBuffer = 0#31) (hc : s.regs.carry = false) (hv : s.regs.delayValid = false)
    (hf : s.regs.ffrun = 0#32) : shiftedOut s = s.outPort.taken ∧ codeValue s = bytesValue s.outPort.taken * 2 ^ 31 := by
  have h : shiftedOut s = s.outPort.taken := by simp [shiftedOut, hv, hf]
  exact ⟨h, by simp [codeValue, windowLow, h, hb, hc, flag]⟩

/-- The bytes a port is about to give, where its answers are these bytes and then others. -/
theorem givesBytes_of_answers {p : InPort} {bs : List Byte} {later : List InAnswer} (he : p.ended = false)
    (ha : p.answers = bs.map .byte ++ later) : givesBytes p bs.length ∧ comingBytes p bs.length = bs := by
  have htake : p.answers.take bs.length = bs.map .byte := by rw [ha]; simp
  refine ⟨⟨he, by simp [ha], fun a hmem => ?_⟩, ?_⟩
  · rw [htake, List.mem_map] at hmem
    obtain ⟨b, -, rfl⟩ := hmem
    exact ⟨b, rfl⟩
  · rw [comingBytes, htake, List.filterMap_map]
    exact List.filterMap_some

/-- A decoder primed with a session's first four bytes, against the encoder of that session at its start: the stream spells the bytes
taken before the session and then the session's (R206). -/
theorem streamValue_start {s d : State} {old bs : List Byte} (hvalue : codeValue s = bytesValue old * 2 ^ 31) (hl : 4 ≤ bs.length)
    (hwindow : decoderWindow d.regs = bytesValue (bs.take 4)) (hcoming : comingBytes d.inPort (bs.length - 4) = bs.drop 4) :
    streamValue s d (bs.length - 4) = bytesValue (old ++ bs) := by
  have hsplit : bytesValue (bs.take 4) * 256 ^ (bs.length - 4) + bytesValue (bs.drop 4) = bytesValue bs := by
    rw [← List.length_drop, ← bytesValue_append, List.take_append_drop]
  have hpow : 256 ^ bs.length = 2 ^ 32 * 256 ^ (bs.length - 4) := by
    rw [show (2 : Nat) ^ 32 = 256 ^ 4 by norm_num, ← pow_add, Nat.add_sub_cancel' hl]
  rw [bytesValue_append, ← hsplit, hpow, streamValue, hvalue, hwindow, hcoming]
  ring

/-- The last point of the interval of a range of 1 or more is inside it. -/
theorem inside_last {t : State} (hr : 1 ≤ t.regs.rcRange.toNat) (k : Nat) :
    Inside t ((codeValue t + (t.regs.rcRange.toNat - 1)) * 256 ^ k * 2) k := by
  have hpos : 0 < 256 ^ k := by positivity
  constructor
  · calc 2 * codeValue t * 256 ^ k ≤ 2 * (codeValue t + (t.regs.rcRange.toNat - 1)) * 256 ^ k := Nat.mul_le_mul_right _ (by omega)
      _ = _ := by ring
  · calc (codeValue t + (t.regs.rcRange.toNat - 1)) * 256 ^ k * 2 = 2 * (codeValue t + (t.regs.rcRange.toNat - 1)) * 256 ^ k := by ring
      _ < _ := Nat.mul_lt_mul_of_pos_right (by omega) hpos

/-- A stream that spells the last point of the interval has the end flag in the window (R210). -/
theorem window_last {t d : State} {k r : Nat} (hg : givesBytes d.inPort k)
    (hs : streamValue t d k = (codeValue t + r) * 256 ^ k * 2) : r ≤ d.regs.rcBuffer.toNat := by
  have hlow := bytesValue_lt (comingBytes d.inPort k)
  rw [comingBytes_length hg] at hlow
  have hwindow : 2 * r ≤ decoderWindow d.regs := by
    by_contra hlt
    have hle : (2 * codeValue t + decoderWindow d.regs + 1) * 256 ^ k ≤ 2 * (codeValue t + r) * 256 ^ k :=
      Nat.mul_le_mul_right _ (by omega)
    have hsucc : (2 * codeValue t + decoderWindow d.regs + 1) * 256 ^ k =
        (2 * codeValue t + decoderWindow d.regs) * 256 ^ k + 256 ^ k := by ring
    have htwo : (codeValue t + r) * 256 ^ k * 2 = 2 * (codeValue t + r) * 256 ^ k := by ring
    unfold streamValue at hs
    omega
  unfold decoderWindow at hwindow
  omega

/-- An encode session has started in `t`, from `s`: nothing has been shifted out (R117, R119). -/
structure EncStarted (s t : State) : Prop where
  runs : exec .initEnc s = .next t
  idle : t.stall = none
  session : EncSession t
  taken : t.outPort.taken = s.outPort.taken
  count : t.regs.outCount = 0#64
  run : t.regs.ffrun = 0#32
  shifted : shiftedOut t = s.outPort.taken
  value : codeValue t = bytesValue s.outPort.taken * 2 ^ 31

/-- A decode session has started in `u`, from `d`, over the bytes `bs` and what the port answers after them: it agrees with the encode
session that has started in `t`, from `s` (R118, R119, R206). -/
structure DecStarted (s t d u : State) (bs : List Byte) (later : List InAnswer) : Prop where
  runs : exec .initDec d = .next u
  idle : u.stall = none
  session : DecSession u
  taken : u.outPort.taken = d.outPort.taken
  count : u.regs.inCount = 4#64
  answers : u.inPort.answers = (bs.drop 4).map .byte ++ later
  gives : givesBytes u.inPort (bs.length - 4)
  model : SameModel t u
  range : t.regs.rcRange = u.regs.rcRange
  stream : streamValue t u (bs.length - 4) = bytesValue (s.outPort.taken ++ bs)

/-- The two session starts, of the same configuration and parameters. -/
theorem sessions_start {s d : State} (hs : CanStart s) (hd : CanStart d) (hp : s.params = d.params) (hc : s.regs.config = d.regs.config) :
    ∃ t, EncStarted s t ∧ ∀ bs later, d.inPort.answers = bs.map .byte ++ later → 4 ≤ bs.length →
      ∃ u, DecStarted s t d u bs later := by
  obtain ⟨t, hrun, hstall, hsession, htaken, hcount, hffrun, hbuffer, hrange, hcarry, hvalid, htables, hscfg, hparams, hcontext, hlo,
    hhi, hcost⟩ := enc_start hs
  obtain ⟨hshifted, hvalue⟩ := value_start hbuffer hcarry hvalid hffrun
  rw [htaken] at hshifted hvalue
  refine ⟨t, ⟨hrun, hstall, hsession, htaken, hcount, hffrun, hshifted, hvalue⟩, fun bs later hanswers hl => ?_⟩
  obtain ⟨u, hrun', hstall', hsession', htaken', hcount', hanswers', hended, hwindow, hrange', htables', hscfg', hparams', hcontext', hlo',
    hhi', hcost'⟩ := dec_start hd bs later hanswers hl
  obtain ⟨hgives, hcoming⟩ := givesBytes_of_answers hended hanswers'
  rw [List.length_drop] at hgives hcoming
  refine ⟨u, hrun', hstall', hsession', htaken', hcount', hanswers', hgives, ⟨?_, ?_, ?_, ?_, ?_, ?_, ?_⟩, hrange.trans hrange'.symm,
    streamValue_start hvalue hl hwindow hcoming⟩
  · rw [hparams, hparams', hp]
  · rw [htables, htables']
  · rw [hscfg, hscfg', hc]
  · rw [hcontext, hcontext']
  · rw [hlo, hlo']
  · rw [hhi, hhi']
  · rw [hcost, hcost']

/-- DEC_SYM over a stream that spells the last point of the encoder's interval, three bytes of it to come, ends the session with all
three read (R246). -/
theorem dec_end_of_stream {t d : State} (h : DecSession d) (heq : t.regs.rcRange = d.regs.rcRange) (hg : givesBytes d.inPort 3)
    (hs : streamValue t d 3 = (codeValue t + (t.regs.rcRange.toNat - 1)) * 256 ^ 3 * 2) :
    ∃ u, exec .decSym d = .next u ∧ u.stall = none ∧ u.regs.mode = .done ∧ u.regs.result = 0x100#32 ∧
      u.outPort.taken = d.outPort.taken ∧ u.inPort.answers = d.inPort.answers.drop 3 ∧ u.regs.inCount = d.regs.inCount + 3#64 :=
  dec_end h hg (heq ▸ window_last hg hs)

/-- Settles O57: the stream that the decoder is given spells the last point of the interval the message's symbols reached, so that each
DEC_SYM mirrors its ENC_SYM, and the one after them finds the end. -/
theorem messageRoundTrip : Obligations.MessageRoundTrip := by
  intro s d message later hs hd hp hc hlen
  obtain ⟨t0, hstart, hdecoder⟩ := sessions_start hs hd hp hc
  have hrun0 : t0.regs.ffrun.toNat = 0 := by rw [hstart.run]; rfl
  obtain ⟨t1, n, hrun1, hsession, hn, hgrew, hmirror⟩ := message_steps message hstart.session (by omega)
  obtain ⟨t, bs1, hrun2, hstall, hmode, htaken, hcount, hlength, hvalue⟩ := end_step hsession (by have := hgrew.run; omega)
  obtain ⟨bs0, htaken0, hcount0⟩ := hgrew.written
  have hout : t.outPort.taken = s.outPort.taken ++ (bs0 ++ bs1) := by rw [htaken, htaken0, hstart.taken, List.append_assoc]
  have hbytes : (bs0 ++ bs1).length = n + 7 := by
    rw [hout, List.length_append, hgrew.length, hstart.shifted] at hlength
    omega
  have htail : (bs0 ++ bs1).length - 4 = n + 3 := by omega
  refine ⟨t, bs0 ++ bs1, ?_, hmode, hout, ?_, fun hanswers => ?_⟩
  · rw [List.cons_append, runCommands_next hstart.runs (by simp [hstart.session.mode]) hstart.idle, runCommands_append hrun1,
      runCommands_next hrun2 (by simp [hmode]) hstall]
    rfl
  · rw [hcount, hcount0, hstart.count, List.length_append, BitVec.ofNat_add, BitVec.zero_add]
  obtain ⟨u0, hdec⟩ := hdecoder _ _ hanswers (by omega)
  have hgives := hdec.gives
  have hstream := hdec.stream
  rw [htail] at hgives hstream
  rw [← hout, hvalue] at hstream
  have hinside : Inside t1 (streamValue t0 u0 (n + 3)) 3 :=
    hstream ▸ inside_last (le_trans (by norm_num) hsession.coder.range) 3
  obtain ⟨u1, hruns, hsession1, -, hrange1, hgives1, htaken1, hanswers1, hcount1, hstream1⟩ :=
    hmirror u0 3 hdec.session hdec.model hdec.range hgives hinside
  obtain ⟨u, hlast, hstall', hmode', hresult, htaken', hanswers', hcount'⟩ :=
    dec_end_of_stream hsession1 hrange1 hgives1 (hstream1.trans hstream)
  refine ⟨u, ?_, hmode', hresult, ?_, ?_, ?_⟩
  · rw [runCommands_next hdec.runs (by simp [hdec.session.mode]) hdec.idle, List.replicate_succ', runCommands_append hruns,
      runCommands_next hlast (by simp [hmode']) hstall']
    rfl
  · rw [htaken', htaken1, hdec.taken]
  · have hdrop : ((bs0 ++ bs1).drop 4).length = n + 3 := by rw [List.length_drop, htail]
    rw [hanswers', hanswers1, hdec.answers, List.drop_drop]
    exact List.drop_left' (by rw [List.length_map, hdrop])
  · rw [hcount', hcount1, hdec.count, hbytes, BitVec.add_assoc, BitVec.add_comm, BitVec.add_assoc,
      show n + 7 = n + (3 + 4) by omega, BitVec.ofNat_add, BitVec.ofNat_add]

end Sys2Proof.Machine
end

