-- ==== Sys2Proof/Proofs/CommandParts.lean ====
section
/-! A command of several parts (R241, R242): what its rule has reached when some of them have gone well and the rest is still to do, and
how the next part then ends: it goes well where the port serves it, or it is where the command stops. -/

namespace Sys2Proof.Machine

/-- The block runs the rule of `i` in `s` (R110, R111). -/
structure MayRun (i : Instr) (s : State) : Prop where
  legal : legal i s.regs.mode s.regs.dir = true
  mode : s.regs.mode ≠ .faulted
  operands : operandsInRange i = true

theorem MayRun.exec {i : Instr} {s : State} (h : MayRun i s) :
    exec i s = concludeCommand i s (ruleOf i (takeCommand s)) := exec_of_runs (.inl h.mode) h.legal h.operands

/-! ### Parts that encode -/

/-- The rule of `i`, begun in `s`, has come to `u` with `rest` still to do; so far it has moved the encoder alone. -/
structure EncodeReaches (i : Instr) (s u : State) (rest : Cmd Unit) : Prop where
  run : ruleOf i (takeCommand s) = rest u
  erased : encoderErased u = encoderErased (takeCommand s)
  sent : Sent s u
  coder : CoderInv u.regs

theorem EncodeReaches.start {i : Instr} {s : State} (hc : CoderInv s.regs) : EncodeReaches i s (takeCommand s) (ruleOf i) :=
  ⟨rfl, rfl, sent_take s, coderInv_take hc⟩

/-- A part has gone well. -/
theorem EncodeReaches.next {i : Instr} {s u t : State} {v r : Nat} {rest later : Cmd Unit} (h : EncodeReaches i s u rest)
    (ht : Encoded u t v r) (he : encoderErased t = encoderErased u) (hrun : ruleOf i (takeCommand s) = later t) :
    EncodeReaches i s t later :=
  ⟨hrun, he.trans h.erased, h.sent.trans ht.sent, ht.inv h.coder⟩

theorem EncodeReaches.sameModel {i : Instr} {s u : State} {rest : Cmd Unit} (h : EncodeReaches i s u rest) : SameModel s u :=
  (sameModel_take s).trans (sameModel_of_encoderErased h.erased)

theorem EncodeReaches.ready {i : Instr} {s u : State} {rest : Cmd Unit} (h : EncodeReaches i s u rest) (hs : SymbolReady s) :
    SymbolReady u :=
  hs.of_same h.sameModel (tablesValid_of_encoderErased (s := takeCommand s) h.erased) h.coder.range

/-- The next part, which adds `v` and shifts as many bytes out as `r` needs: the command stops in it, or it has gone out and goes on. -/
theorem EncodeReaches.part {i : Instr} {s u : State} {v r : Nat} {x : Cmd Unit} {rest : Unit → Cmd Unit} {Q : State → Prop}
    (h : EncodeReaches i s u (x >>= rest)) (hi : MayRun i s) (hx : Ends x u (fun _ t => Q t) (EncodeStops u v (normShifts r)))
    (hq : ∀ t, Q t → ∃ w, Encoded u w v r) :
    EncoderTraps i s u v (normShifts r) ∧
      (GoesOut s u v (normShifts r) → ∃ t, Q t ∧ ruleOf i (takeCommand s) = rest () t) := by
  have hmode : u.regs.mode = s.regs.mode := mode_of_encoderErased (s := takeCommand s) h.erased
  have hbusy : u.regs.busy = true := busy_of_encoderErased h.erased
  have hstops : ∀ e t, EncodeStops u v (normShifts r) e t → StopsWithin s u v (normShifts r) e t :=
    fun _ _ hs => hs.within h.sent hmode hbusy h.coder.mid
  cases hrun : x u with
  | ok a t =>
    have ht := hx.of_ok hrun
    obtain ⟨w, hw⟩ := hq t ht
    have hg := hw.goesOut h.sent
    refine ⟨encoderTraps_of hi.legal hi.mode hi.operands ?_, fun _ => ⟨t, ht, h.run.trans (bind_of_ok hrun)⟩⟩
    unfold Ends
    split
    · exact hg
    · exact .inl hg
  | error e t =>
    have hs := hstops e t (hx.of_error hrun)
    have hrule := h.run.trans (bind_of_error hrun)
    refine ⟨encoderTraps_of hi.legal hi.mode hi.operands ?_, fun hg => (hg.not_stops hs).elim⟩
    rw [Ends, hrule]
    exact .inr hs

/-- A part of the rule adds at most three bytes to the run. -/
theorem Encoded.run_le {s t : State} {v r : Nat} (h : Encoded s t v r) : t.regs.ffrun.toNat ≤ s.regs.ffrun.toNat + 3 :=
  h.run.trans (Nat.add_le_add_left (normShifts_le r) _)

/-- A part of at most three bytes goes out on a port that accepts every byte, where the run is far from its bound. -/
theorem goesOut_of_accepts {s u : State} (ha : acceptsAll s.outPort) (hr : u.regs.ffrun.toNat + 3 < 2 ^ 32) (v r : Nat) :
    GoesOut s u v (normShifts r) :=
  ⟨fun j hj hf => by have := runFull_ge hf; have := normShifts_le r; omega, ha.first _⟩

/-! ### Parts that decode -/

/-- The rule of `i`, begun in `s`, has come to `u` with `rest` still to do, and `k` bytes read; so far it has moved the decoder alone. -/
structure DecodeReaches (i : Instr) (s u : State) (k : Nat) (rest : Cmd Unit) : Prop where
  run : ruleOf i (takeCommand s) = rest u
  erased : decoderErased u = decoderErased (takeCommand s)
  asked : Asked (takeCommand s) u k
  gives : ∀ m, givesBytes s.inPort (k + m) → givesBytes u.inPort m

theorem DecodeReaches.start {i : Instr} {s : State} : DecodeReaches i s (takeCommand s) 0 (ruleOf i) :=
  ⟨rfl, rfl, Asked.refl rfl, fun m hg => Nat.zero_add m ▸ hg⟩

theorem DecodeReaches.next {i : Instr} {s u t : State} {k v r : Nat} {rest later : Cmd Unit} (h : DecodeReaches i s u k rest)
    (ht : Taken u t v r) (hrun : ruleOf i (takeCommand s) = later t) : DecodeReaches i s t (k + normShifts r) later :=
  ⟨hrun, ht.erased.trans h.erased, h.asked.trans ht.asked, fun m hg => (ht.gives m (h.gives _ (Nat.add_assoc .. ▸ hg))).1⟩

theorem DecodeReaches.sameModel {i : Instr} {s u : State} {k : Nat} {rest : Cmd Unit} (h : DecodeReaches i s u k rest) :
    SameModel s u :=
  (sameModel_take s).trans (sameModel_of_decoderErased h.erased)

theorem DecodeReaches.ready {i : Instr} {s u : State} {k : Nat} {rest : Cmd Unit} (h : DecodeReaches i s u k rest)
    (hs : SymbolReady s) (hr : 2 ^ 23 ≤ u.regs.rcRange.toNat) : SymbolReady u :=
  hs.of_same h.sameModel (tablesValid_of_decoderErased (s := takeCommand s) h.erased) hr

/-- The next part, which reads `m` bytes: the command stops at one of them, or it has had them and goes on. -/
theorem DecodeReaches.part {α : Type} {i : Instr} {s u : State} {k m : Nat} {x : Cmd α} {rest : α → Cmd Unit}
    {Q : α → State → Prop} (h : DecodeReaches i s u k (x >>= rest)) (hi : MayRun i s) (hx : Ends x u Q (ReadFails m u))
    (hq : ∀ a t, Q a t → bytesFirst u.inPort m) :
    DecoderTraps i s (k + m) ∧
      (givesBytes s.inPort (k + m) → ∃ a t, Q a t ∧ ruleOf i (takeCommand s) = rest a t) := by
  cases hrun : x u with
  | ok a t =>
    have ht := hx.of_ok hrun
    have hbytes : bytesFirst s.inPort (k + m) := h.asked.more (hq a t ht)
    refine ⟨decoderTraps_of hi.legal hi.mode hi.operands ?_, fun _ => ⟨a, t, ht, h.run.trans (bind_of_ok hrun)⟩⟩
    unfold Ends
    split
    · exact hbytes
    · exact .inl hbytes
  | error e t =>
    have hfails := hx.of_error hrun
    have hrule := h.run.trans (bind_of_error hrun)
    refine ⟨decoderTraps_of hi.legal hi.mode hi.operands ?_, fun hg => (hfails.short (h.gives m hg)).elim⟩
    rw [Ends, hrule]
    exact .inr (hfails.from h.erased h.asked)

/-- What a procedure has done with the window, where its bytes were there, said of the state its command began in. -/
theorem Decoded.of_take {s t : State} {v n : Nat} (h : Decoded (takeCommand s) t v n) : Decoded s t v n :=
  ⟨h.range, h.window, h.look, h.count, h.answers⟩

/-! ### What the models learn of a literal -/

/-- What the models have learned of the byte `b` before Observe, from `u`, the coder being done, to `v`: a literal where the prediction
`x` of `s` was wrong, nothing where it was right (R241, R242). -/
def LiteralLearned (s u v : State) (x b : Byte) : Prop :=
  (b = x ∧ v = u) ∨ (b ≠ x ∧ ∃ s2, SameModel s s2 ∧ CtxOk s2 ∧ LearnedOk s2 u v x.toNat b.toNat)

theorem LiteralLearned.erased {s u v : State} {x b : Byte} (h : LiteralLearned s u v x b) : modelErased v = modelErased u := by
  obtain ⟨-, rfl⟩ | ⟨-, s2, -, -, hlearned⟩ := h
  · rfl
  · exact hlearned.erased

theorem LiteralLearned.ready {s u v : State} {x b : Byte} (h : LiteralLearned s u v x b) (hu : SymbolReady u) : SymbolReady v := by
  obtain ⟨-, rfl⟩ | ⟨-, s2, -, -, hlearned⟩ := h
  · exact hu
  · exact hu.learned hlearned

/-- The state after Observe, the predictions being those of `s` (R153). -/
def observedFrom (s : State) (b : Byte) (v : State) : State := observed (predictMember .lo s) (predictMember .hi s) b v

theorem LiteralLearned.observed_erased {s u v : State} {x b : Byte} (h : LiteralLearned s u v x b) :
    modelErased (observedFrom s b v) = modelErased u := (Machine.observed_erased ..).trans h.erased

/-- Registers and ports that are neither the models' nor the coder's are as the models' procedures found them. -/
theorem kept_of_modelErased {s t : State} (h : modelErased t = modelErased s) :
    t.regs.result = s.regs.result ∧ t.regs.look = s.regs.look ∧ t.regs.inCount = s.regs.inCount ∧ t.inPort = s.inPort := by
  have hregs : (modelErased t).regs = (modelErased s).regs := by rw [h]
  simp only [modelErased, Regs.mk.injEq] at hregs
  exact ⟨by simp only [hregs], by simp only [hregs], by simp only [hregs], inPort_of_modelErased h⟩

theorem kept_of_encoderErased {s t : State} (h : encoderErased t = encoderErased s) :
    t.regs.result = s.regs.result ∧ t.regs.look = s.regs.look ∧ t.regs.inCount = s.regs.inCount ∧ t.inPort = s.inPort := by
  have hregs : (encoderErased t).regs = (encoderErased s).regs := by rw [h]
  simp only [encoderErased, Regs.mk.injEq] at hregs
  have hport : (encoderErased t).inPort = (encoderErased s).inPort := by rw [h]
  exact ⟨by simp only [hregs], by simp only [hregs], by simp only [hregs], hport⟩

/-- What a decoder's procedures leave of the encoder (R21). -/
theorem encoderKept_of_decoderErased {s t : State} (h : decoderErased t = decoderErased s) :
    t.regs.carry = s.regs.carry ∧ t.regs.delayValid = s.regs.delayValid ∧ t.regs.delay = s.regs.delay ∧
      t.regs.ffrun = s.regs.ffrun ∧ t.regs.outCount = s.regs.outCount := by
  have hregs : (decoderErased t).regs = (decoderErased s).regs := by rw [h]
  simp only [decoderErased, Regs.mk.injEq] at hregs
  exact ⟨by simp only [hregs], by simp only [hregs], by simp only [hregs], by simp only [hregs], by simp only [hregs]⟩

end Sys2Proof.Machine
end

