-- ==== Sys2Proof/Proofs/SymbolEncoding.lean ====
section
/-! ENC_SYM (O51): its rule is three parts on the coder, one after the other, and then what the models learn; each part goes out, or is
where the port or the run stops the command. -/

namespace Sys2Proof.Machine

/-! ### The parts of the rule (R241) -/

theorem mayRun_encSym {s : State} (n : Nat) (hm : s.regs.mode = .enc) : MayRun (.encSym n) s :=
  ⟨by simp [legal, hm], by simp [hm], rfl⟩

/-- The low end of the match flag's sub-interval, as the rule has it (R207). -/
theorem encFlagLow_beq (r : Regs) (p : Nat) (b x : Byte) :
    encFlagLow r p (b == x) = if b = x then 0 else r.rcRange.toNat / 2 ^ 15 * p := by
  simp only [encFlagLow, flagSplit, Nat.shiftRight_eq_div_pow, beq_iff_eq]

theorem encFlagRange_beq (r : Regs) (p : Nat) (b x : Byte) :
    encFlagRange r p (b == x) =
      if b = x then r.rcRange.toNat / 2 ^ 15 * p else r.rcRange.toNat - r.rcRange.toNat / 2 ^ 15 * p := by
  simp only [encFlagRange, flagSplit, Nat.shiftRight_eq_div_pow, beq_iff_eq]

/-- What of ENC_SYM's rule follows the match flag, the predictions being those of `s`. -/
def encodeAfterFlag (s : State) (b : Byte) : Cmd Unit := do
  whenTrue (!(b == (choose s).symbol)) (litEncode b.toNat (choose s).symbol.toNat)
  observe (predictMember .lo s) (predictMember .hi s) b

/-- What of it follows the end flag. -/
def encodeAfterEos (s : State) (b : Byte) : Cmd Unit := do
  encFlag (choose s).prob (b == (choose s).symbol)
  encodeAfterFlag s b

/-- The predictions are made after the end flag, which changes no model. -/
theorem encodeSymbol_eq (b : Byte) :
    encodeSymbol b = encEos false >>= fun _ => (get >>= fun now => encodeAfterEos now b : Cmd Unit) := rfl

theorem SameModel.encodeAfterEos {s u : State} (h : SameModel s u) (b : Byte) : encodeAfterEos u b = Machine.encodeAfterEos s b := by
  simp only [Machine.encodeAfterEos, encodeAfterFlag, h.choose, h.predictMember]

section EncSym
variable {s : State} {b : Byte}

/-- The first part: the end flag 0. -/
theorem encSym_eos (hm : s.regs.mode = .enc) (hc : CoderInv s.regs) :
    EncoderTraps (.encSym b.toNat) s s 0 (normShifts (s.regs.rcRange.toNat - 1)) ∧
      (GoesOut s s 0 (normShifts (s.regs.rcRange.toNat - 1)) →
        ∃ s1, Encoded s s1 0 (s.regs.rcRange.toNat - 1) ∧ EncodeReaches (.encSym b.toNat) s s1 (encodeAfterEos s b)) := by
  have hrule : ruleOf (.encSym b.toNat) = encodeSymbol b := by simp [ruleOf]
  have hstart := EncodeReaches.start (i := .encSym b.toNat) hc
  rw [hrule, encodeSymbol_eq] at hstart
  have hspec : Ends (encEos false) (takeCommand s)
      (fun _ t => Encoded (takeCommand s) t 0 (s.regs.rcRange.toNat - 1) ∧ encoderErased t = encoderErased (takeCommand s))
      (EncodeStops (takeCommand s) 0 (normShifts (s.regs.rcRange.toNat - 1))) := encEos_stops false (takeCommand s) hc.range
  obtain ⟨htraps, hdone⟩ := hstart.part (mayRun_encSym _ hm) hspec fun t ht => ⟨t, ht.1⟩
  refine ⟨⟨htraps.refused, htraps.unanswered, htraps.full⟩, fun hg => ?_⟩
  obtain ⟨s1, ⟨hs1, he1⟩, hrun⟩ := hdone ⟨hg.bounded, hg.accepted⟩
  have hmodel : SameModel s s1 := (sameModel_take s).trans (sameModel_of_encoderErased he1)
  rw [bind_of_ok (get_run s1), hmodel.encodeAfterEos] at hrun
  exact ⟨s1, hs1.of_take, hstart.next hs1 he1 hrun⟩

/-- The second part: the match flag. -/
theorem EncodeReaches.encSym_flag {u : State} (h : EncodeReaches (.encSym b.toNat) s u (encodeAfterEos s b))
    (hm : s.regs.mode = .enc) (hs : SymbolReady s) :
    EncoderTraps (.encSym b.toNat) s u (encFlagLow u.regs (choose s).prob (b == (choose s).symbol))
        (normShifts (encFlagRange u.regs (choose s).prob (b == (choose s).symbol))) ∧
      (GoesOut s u (encFlagLow u.regs (choose s).prob (b == (choose s).symbol))
          (normShifts (encFlagRange u.regs (choose s).prob (b == (choose s).symbol))) →
        ∃ s2, Encoded u s2 (encFlagLow u.regs (choose s).prob (b == (choose s).symbol))
            (encFlagRange u.regs (choose s).prob (b == (choose s).symbol)) ∧
          EncodeReaches (.encSym b.toNat) s s2 (encodeAfterFlag s b)) := by
  have hp := hs.prob
  have hspec := encFlag_stops (choose s).prob (b == (choose s).symbol) u h.coder.range (by omega) (by omega)
  obtain ⟨htraps, hdone⟩ := h.part (mayRun_encSym _ hm) hspec fun t ht => ⟨t, ht.1⟩
  refine ⟨htraps, fun hg => ?_⟩
  obtain ⟨s2, ⟨hs2, he2⟩, hrun⟩ := hdone hg
  exact ⟨s2, hs2, h.next hs2 he2 hrun⟩

/-- The end of the command: Observe, the coder having ended as in `u` (R153). -/
theorem LiteralLearned.symbolCoded {u v : State} {x : Byte} (h : LiteralLearned s u v x b) (hm : s.regs.mode ≠ .faulted)
    (hs : SymbolReady s) (he : encoderErased u = encoderErased (takeCommand s)) (hc : CoderInv u.regs) :
    SymbolCoded s u (retire (observedFrom s b v)) x b := by
  have hmodel := h.observed_erased
  obtain ⟨hcoder, hport, hcount⟩ := sameCoder_of_modelErased hmodel
  obtain ⟨hresult, hlook, hin, hinPort⟩ := kept_of_modelErased hmodel
  obtain ⟨hresult', hlook', hin', hinPort'⟩ := kept_of_encoderErased he
  have hmode : (observedFrom s b v).regs.mode = s.regs.mode :=
    (mode_of_modelErased hmodel).trans (mode_of_encoderErased (s := takeCommand s) he)
  have hsame : SameModel s u := (sameModel_take s).trans (sameModel_of_encoderErased he)
  constructor
  case retired => exact ⟨hmode ▸ hm, rfl⟩
  case frame =>
    have herased := (symbolErased_of_model hmodel).trans (symbolErased_of_encoder he)
    exact (erased_congr (finish := retire) herased fun _ => rfl).trans rfl
  case kept => exact ⟨hresult.trans hresult', hlook.trans hlook', hin.trans hin'⟩
  case input => show { (observedFrom s b v).inPort with used := [] } = _; rw [hinPort, hinPort']; rfl
  case value => exact (hcoder.value (congrArg OutPort.taken hport)).2
  case coder => exact ⟨hcoder.range, hcoder.buffer⟩
  case side =>
    refine ⟨?_, hcount⟩
    show outSide (observedFrom s b v) = outSide u
    simp only [outSide, hport, hcoder.carry, hcoder.valid, hcoder.delay, hcoder.run]
  case inv =>
    obtain ⟨hrange, hwindow, hdelayed⟩ := hcoder.inv hc
    exact ⟨hrange, hwindow, hdelayed⟩
  case learned => exact (symbolLearned_observed hs hsame h).of_same ⟨rfl, rfl, rfl, rfl, rfl, rfl, rfl⟩

/-- ENC_SYM retires where its rule has come to Observe. -/
theorem LiteralLearned.encSym_retires {u v : State} {x : Byte} (h : LiteralLearned s u v x b) (hm : s.regs.mode = .enc)
    (hs : SymbolReady s) (he : encoderErased u = encoderErased (takeCommand s)) (hc : CoderInv u.regs) (hu : SymbolReady u)
    (hrun : ruleOf (.encSym b.toNat) (takeCommand s) = observe (predictMember .lo s) (predictMember .hi s) b v) :
    ∃ t, exec (.encSym b.toNat) s = .next t ∧ SymbolCoded s u t x b := by
  have hi := mayRun_encSym b.toNat hm
  refine ⟨_, ?_, h.symbolCoded hi.mode hs he hc⟩
  rw [hi.exec, hrun, (h.ready hu).observe_run]
  rfl

/-- The prediction was right: there is no third part. -/
theorem EncodeReaches.encSym_hit {u : State} (h : EncodeReaches (.encSym b.toNat) s u (encodeAfterFlag s b))
    (hm : s.regs.mode = .enc) (hs : SymbolReady s) (hb : b = (choose s).symbol) :
    ∃ t, exec (.encSym b.toNat) s = .next t ∧ SymbolCoded s u t (choose s).symbol b := by
  have hlearned : LiteralLearned s u u (choose s).symbol b := .inl ⟨hb, rfl⟩
  refine hlearned.encSym_retires hm hs h.erased h.coder (h.ready hs) ?_
  rw [h.run, encodeAfterFlag, beq_iff_eq.mpr hb]
  rfl

/-- The third part, where the prediction was wrong: the literal, and what the models learn. -/
theorem EncodeReaches.encSym_literal {u : State} (h : EncodeReaches (.encSym b.toNat) s u (encodeAfterFlag s b))
    (hm : s.regs.mode = .enc) (hs : SymbolReady s) (hb : b ≠ (choose s).symbol) :
    EncoderTraps (.encSym b.toNat) s u (litLow u (choose s).symbol.toNat b.toNat)
        (normShifts (litWidth u (choose s).symbol.toNat b.toNat)) ∧
      (GoesOut s u (litLow u (choose s).symbol.toNat b.toNat) (normShifts (litWidth u (choose s).symbol.toNat b.toNat)) →
        ∃ s3, Encoded u s3 (litLow u (choose s).symbol.toNat b.toNat) (litWidth u (choose s).symbol.toNat b.toNat) ∧
          ∃ t, exec (.encSym b.toNat) s = .next t ∧ SymbolCoded s s3 t (choose s).symbol b) := by
  have hne : b.toNat ≠ (choose s).symbol.toNat := fun h => hb (BitVec.eq_of_toNat_eq h)
  have hu := h.ready hs
  have hwide := (hu.lit.interval (choose s).symbol.isLt b.isLt hne).1
  have hreach : EncodeReaches (.encSym b.toNat) s u
      (litEncode b.toNat (choose s).symbol.toNat >>= fun _ => observe (predictMember .lo s) (predictMember .hi s) b) := by
    have hflag := h
    rw [encodeAfterFlag, beq_false_of_ne hb] at hflag
    exact hflag
  obtain ⟨htraps, hdone⟩ := hreach.part (mayRun_encSym _ hm) (litEncode_spec hu.lit (choose s).symbol.isLt b.isLt hne)
    fun _ ⟨w, hw, _⟩ => ⟨w, hw⟩
  refine ⟨htraps, fun hg => ?_⟩
  obtain ⟨v, ⟨s3, hs3, he3, -, hok⟩, hrun⟩ := hdone hg
  have hlearned : LiteralLearned s s3 v (choose s).symbol b := .inr ⟨hb, u, h.sameModel, hu.lit.ctx, hok⟩
  obtain ⟨hready, hcoder⟩ := hu.encoded h.coder hs3 he3 hwide
  exact ⟨s3, hs3, hlearned.encSym_retires hm hs (he3.trans h.erased) hcoder hready hrun⟩

end EncSym

/-! ### The command (R240, R241) -/

/-- Settles O51: each part by its own lemma; a ready encoder is one in which every byte of the three goes out. -/
theorem encSymCodes : Obligations.EncSymCodes := by
  intro s b hm hc hcodable x h flagLow flagWidth low width
  have hs := hcodable.ready
  have flag {u : State} (hu : EncodeReaches (.encSym b.toNat) s u (encodeAfterEos s b)) := by
    have hpart := hu.encSym_flag hm hs
    rw [encFlagLow_beq, encFlagRange_beq] at hpart
    exact hpart
  have literal {u : State} (hu : EncodeReaches (.encSym b.toNat) s u (encodeAfterFlag s b)) (hb : b ≠ x) := by
    have hpart := hu.encSym_literal hm hs hb
    obtain ⟨hlow, hwidth⟩ := literal_interval_eq (sym := b.toNat) hu.sameModel (hu.ready hs).lit.ctx x.isLt
    rw [hlow, hwidth] at hpart
    exact hpart
  obtain ⟨htraps, hdone⟩ := encSym_eos (b := b) hm hc
  refine ⟨fun hready => ?_, htraps, fun hg => ?_⟩
  · have hrun := hready.run
    obtain ⟨s1, hs1, hr1⟩ := hdone (goesOut_of_accepts hready.accepts (by omega) _ _)
    have hrun1 := hs1.run_le
    obtain ⟨s2, hs2, hr2⟩ := (flag hr1).2 (goesOut_of_accepts hready.accepts (by omega) _ _)
    have hrun2 := hs2.run_le
    by_cases hb : b = x
    · obtain ⟨t, hexec, hcoded⟩ := hr2.encSym_hit hm hs hb
      exact ⟨t, s1, s2, s2, hexec, hcoded, hs1, hs2, fun _ => rfl, fun hne => absurd hb hne⟩
    · obtain ⟨s3, hs3, t, hexec, hcoded⟩ := (literal hr2 hb).2 (goesOut_of_accepts hready.accepts (by omega) _ _)
      exact ⟨t, s1, s2, s3, hexec, hcoded, hs1, hs2, fun heq => absurd heq hb, fun _ => hs3⟩
  · obtain ⟨s1, hs1, hr1⟩ := hdone hg
    refine ⟨s1, hs1, (flag hr1).1, fun hg1 => ?_⟩
    obtain ⟨s2, hs2, hr2⟩ := (flag hr1).2 hg1
    exact ⟨s2, hs2, hr2.encSym_hit hm hs, literal hr2⟩

end Sys2Proof.Machine
end

