-- ==== Sys2Proof/Proofs/SymbolDecoding.lean ====
section
/-! DEC_SYM (O52, O53): its rule takes the end flag from the window, and where a symbol follows the match flag, a literal on a mismatch,
then what the models learn and the byte it gives out. -/

namespace Sys2Proof.Machine

theorem mayRun_decSym {s : State} (hm : s.regs.mode = .dec) : MayRun .decSym s := ⟨by simp [legal, hm], by simp [hm], rfl⟩

/-! ### The end flag (R210) -/

/-- DecEos where more follows. -/
theorem decEos_more {s : State} (hr : 2 ^ 23 ≤ s.regs.rcRange.toNat) (hlt : s.regs.rcBuffer.toNat < s.regs.rcRange.toNat - 1) :
    Ends decEos s (fun last t => last = false ∧ Taken s t 0 (s.regs.rcRange.toNat - 1))
      (ReadFails (normShifts (s.regs.rcRange.toNat - 1)) s) := by
  have hspec := decEos_spec s hr
  simp only [decEosLow, decEosRange, if_pos hlt, decide_eq_true hlt] at hspec
  exact hspec

/-- DecEos at the end of the stream. -/
theorem decEos_last {s : State} (hr : 2 ^ 23 ≤ s.regs.rcRange.toNat) (hge : s.regs.rcRange.toNat - 1 ≤ s.regs.rcBuffer.toNat) :
    Ends decEos s (fun last t => last = true ∧ Taken s t s.regs.rcBuffer.toNat 1) (ReadFails (normShifts 1) s) := by
  have hspec := decEos_spec s hr
  have hnot := Nat.not_lt.mpr hge
  simp only [decEosLow, decEosRange, if_neg hnot, decide_eq_false hnot] at hspec
  exact hspec

/-- The state in which DEC_SYM has found the end of the stream (R242, R38). -/
def streamEnded (t : State) : State :=
  { t with regs := { t.regs with result := 0x100#32, mode := .done, irqPend := t.regs.irqPend ||| 2#2 } }

/-- Settles O53: the end flag 1 empties the window, and R = 1 takes three bytes. -/
theorem decSymEnds : Obligations.DecSymEnds := by
  intro s hm hr hge
  have hi := mayRun_decSym hm
  have hrule : Ends (ruleOf .decSym) (takeCommand s)
      (fun _ t => bytesFirst s.inPort 3 ∧ ∃ u, Taken (takeCommand s) u s.regs.rcBuffer.toNat 1 ∧ t = streamEnded u)
      (ReadFails 3 (takeCommand s)) := by
    refine Ends.bind (decEos_last (s := takeCommand s) hr hge) ?_
    rintro _ u ⟨rfl, hu⟩
    exact ends_of_ok (a := ()) rfl ⟨hu.bytes, u, hu, rfl⟩
  obtain ⟨hdone, htraps⟩ := decodes_of hi.legal hi.mode hi.operands hrule
  refine ⟨fun hg => ?_, htraps⟩
  obtain ⟨_, hrun, u, hu, rfl⟩ := hdone hg
  have hdecoded := hu.ended (normShifts_one ▸ hg) .done (u.regs.irqPend ||| 2#2) 0x100#32
  refine ⟨_, hrun, ⟨Mode.noConfusion, rfl⟩, ?_, hdecoded, hdecoded.range, normShifts_one ▸ hdecoded.count⟩
  exact (erased_congr (finish := fun w => retire (streamEnded w)) hu.erased fun _ => rfl).trans rfl

/-! ### The literal (R177, R179) -/

/-- The window's value is in the sub-interval of the literal `sym`. -/
def HeldBy (s : State) (x sym : Nat) : Prop :=
  litLow s x sym ≤ s.regs.rcBuffer.toNat ∧ s.regs.rcBuffer.toNat < litLow s x sym + litWidth s x sym

/-- LitDecode where the window is in a literal's sub-interval: that literal, or a stop at one of its bytes. -/
theorem litDecode_held {s : State} {x sym : Nat} (h : LitReady s) (hx : x < 256) (hsym : sym < 256) (hne : sym ≠ x)
    (hheld : HeldBy s x sym) :
    Ends (litDecode x) s
      (fun a t => a = sym ∧ ∃ u, Taken s u (litLow s x sym) (litWidth s x sym) ∧ LearnedOk s u t x sym)
      (ReadFails (normShifts (litWidth s x sym)) s) := by
  have only {a : Nat} (ha : a < 256) (hax : a ≠ x) (hlow : litLow s x a ≤ s.regs.rcBuffer.toNat)
      (hhigh : s.regs.rcBuffer.toNat < litLow s x a + litWidth s x a) : a = sym :=
    h.unique hx ha hsym hax hne hlow hhigh hheld.1 hheld.2
  refine (litDecode_spec h hx).mono ?_ ?_
  · rintro a t ⟨⟨ha, hax, hlow, hhigh⟩, u, hu, -, hok⟩
    obtain rfl := only ha hax hlow hhigh
    exact ⟨rfl, u, hu, hok⟩
  · rintro e t (⟨-, -, hall⟩ | ⟨a, ⟨ha, hax, hlow, hhigh⟩, hfails⟩)
    · exact absurd (hall sym hsym hne) (Nat.not_le.mpr hheld.2)
    · obtain rfl := only ha hax hlow hhigh
      exact hfails

/-- LitDecode where the window is in no literal's sub-interval. -/
theorem litDecode_corrupt {s : State} {x : Nat} (h : LitReady s) (hx : x < 256) (hnone : ∀ sym < 256, sym ≠ x → ¬HeldBy s x sym) :
    ∃ t, litDecode x s = .error (.raise .corruptPayload) t := by
  have hspec := litDecode_spec h hx
  cases hrun : litDecode x s with
  | ok a t =>
    obtain ⟨⟨ha, hax, hheld⟩, -⟩ := hspec.of_ok hrun
    exact absurd hheld (hnone a ha hax)
  | error e t =>
    obtain ⟨rfl, -⟩ | ⟨a, ⟨ha, hax, hheld⟩, -⟩ := hspec.of_error hrun
    · exact ⟨t, rfl⟩
    · exact absurd hheld (hnone a ha hax)

/-! ### The parts of the rule (R242) -/

/-- The low end of the match flag's sub-interval, as the statement has it (R208). -/
theorem decFlagLow_eq (r : Regs) (p : Nat) :
    decFlagLow r p = if r.rcBuffer.toNat < r.rcRange.toNat / 2 ^ 15 * p then 0 else r.rcRange.toNat / 2 ^ 15 * p := by
  simp only [decFlagLow, flagSplit, Nat.shiftRight_eq_div_pow]

theorem decFlagRange_eq (r : Regs) (p : Nat) :
    decFlagRange r p = if r.rcBuffer.toNat < r.rcRange.toNat / 2 ^ 15 * p then r.rcRange.toNat / 2 ^ 15 * p
      else r.rcRange.toNat - r.rcRange.toNat / 2 ^ 15 * p := by
  simp only [decFlagRange, flagSplit, Nat.shiftRight_eq_div_pow]

/-- What of DEC_SYM's rule follows the byte, the predictions being those of `s`. -/
def giveSymbol (s : State) (b : Byte) : Cmd Unit := do
  observe (predictMember .lo s) (predictMember .hi s) b
  outWrite b
  setResult b.toNat

/-- What of it follows the match flag `hit`. -/
def decodeAfterFlag (s : State) (hit : Bool) : Cmd Unit :=
  if hit then giveSymbol s (choose s).symbol
  else litDecode (choose s).symbol.toNat >>= fun sym => giveSymbol s (BitVec.ofNat 8 sym)

/-- What of it follows the end flag 0. -/
def decodeAfterEos (s : State) : Cmd Unit := decFlag (choose s).prob >>= decodeAfterFlag s

/-- DEC_SYM's rule, part by part. -/
theorem decodeSymbol_eq : decodeSymbol = decEos >>= fun last =>
    if last then (do setResult endOfStreamResult; enterDone) else (get >>= decodeAfterEos : Cmd Unit) := by
  unfold decodeSymbol
  congr 1
  funext last
  split
  · rfl
  · congr 1
    funext now
    unfold decodeAfterEos decodeByte
    rw [bind_assoc]
    congr 1
    funext hit
    cases hit with
    | true => rfl
    | false =>
      show (litDecode (choose now).symbol.toNat >>= fun sym => pure (BitVec.ofNat 8 sym)) >>= giveSymbol now = _
      rw [bind_assoc]
      rfl

theorem SameModel.decodeAfterEos {s u : State} (h : SameModel s u) : decodeAfterEos u = Machine.decodeAfterEos s := by
  unfold Machine.decodeAfterEos decodeAfterFlag giveSymbol
  simp only [h.choose, h.predictMember]

section DecSym
variable {s : State}

/-- The first part: the end flag 0. -/
theorem decSym_eos (hm : s.regs.mode = .dec) (hr : 2 ^ 23 ≤ s.regs.rcRange.toNat)
    (hlt : s.regs.rcBuffer.toNat < s.regs.rcRange.toNat - 1) :
    DecoderTraps .decSym s (normShifts (s.regs.rcRange.toNat - 1)) ∧
      (givesBytes s.inPort (normShifts (s.regs.rcRange.toNat - 1)) →
        ∃ s1, Decoded s s1 0 (s.regs.rcRange.toNat - 1) ∧ 2 ^ 23 ≤ s1.regs.rcRange.toNat ∧
          DecodeReaches .decSym s s1 (normShifts (s.regs.rcRange.toNat - 1)) (decodeAfterEos s)) := by
  have hstart := DecodeReaches.start (i := .decSym) (s := s)
  rw [show ruleOf .decSym = decodeSymbol from rfl, decodeSymbol_eq] at hstart
  have hpart := hstart.part (mayRun_decSym hm) (decEos_more (s := takeCommand s) hr hlt) fun _ _ h => h.2.bytes
  rw [Nat.zero_add] at hpart
  refine ⟨hpart.1, fun hg => ?_⟩
  obtain ⟨_, s1, ⟨rfl, hs1⟩, hrun⟩ := hpart.2 hg
  have hmodel : SameModel s s1 := (sameModel_take s).trans (sameModel_of_decoderErased hs1.erased)
  have hrest : ruleOf .decSym (takeCommand s) = decodeAfterEos s s1 := by
    rw [hrun, ← hmodel.decodeAfterEos]
    rfl
  have hnext := hstart.next hs1 hrest
  rw [Nat.zero_add] at hnext
  have hwide : 1 ≤ s.regs.rcRange.toNat - 1 := by omega
  exact ⟨s1, (hs1.decoded hg).of_take, hs1.range_ge hwide, hnext⟩

/-- The second part: the match flag. -/
theorem DecodeReaches.decSym_flag {u : State} {k : Nat} (h : DecodeReaches .decSym s u k (decodeAfterEos s)) (hm : s.regs.mode = .dec)
    (hs : SymbolReady s) (hr : 2 ^ 23 ≤ u.regs.rcRange.toNat) :
    DecoderTraps .decSym s (k + normShifts (decFlagRange u.regs (choose s).prob)) ∧
      (givesBytes s.inPort (k + normShifts (decFlagRange u.regs (choose s).prob)) →
        ∃ s2, Decoded u s2 (decFlagLow u.regs (choose s).prob) (decFlagRange u.regs (choose s).prob) ∧
          2 ^ 23 ≤ s2.regs.rcRange.toNat ∧
          DecodeReaches .decSym s s2 (k + normShifts (decFlagRange u.regs (choose s).prob))
            (decodeAfterFlag s (decide (u.regs.rcBuffer.toNat < u.regs.rcRange.toNat / 2 ^ 15 * (choose s).prob)))) := by
  have hp := hs.prob
  obtain ⟨htraps, hdone⟩ := h.part (mayRun_decSym hm) (decFlag_spec (choose s).prob u hr (by omega) (by omega))
    fun _ _ h => h.2.asked.bytes
  refine ⟨htraps, fun hg => ?_⟩
  obtain ⟨_, s2, ⟨rfl, hs2⟩, hrun⟩ := hdone hg
  rw [flagSplit, Nat.shiftRight_eq_div_pow] at hrun
  exact ⟨s2, hs2.decoded (h.gives _ hg), hs2.range_ge (decFlagRange_pos hr (by omega) (by omega)), h.next hs2 hrun⟩

/-- The command's end, the byte given out: the coder has ended as in `u`, the models before Observe are those of `v` (R80, R153). -/
theorem LiteralLearned.symbolAnswered {u v w : State} {x b : Byte} (h : LiteralLearned s u v x b) (hm : s.regs.mode = .dec)
    (hs : SymbolReady s) (he : decoderErased u = decoderErased (takeCommand s)) (hw : Wrote (observedFrom s b v) w [b]) :
    SymbolAnswered s u (retire (answering b.toNat w)) x b := by
  have hmodel := h.observed_erased
  obtain ⟨hcoder, hport, hcount⟩ := sameCoder_of_modelErased hmodel
  obtain ⟨-, hlook, hin, hinPort⟩ := kept_of_modelErased hmodel
  obtain ⟨-, hlook', hin', hinPort'⟩ := kept_of_encoderErased hw.erased
  obtain ⟨hcarry, hvalid, hdelay, hffrun, hout⟩ := encoderKept_of_decoderErased he
  have hsame : SameModel s u := (sameModel_take s).trans (sameModel_of_decoderErased he)
  have hregs : w.regs = { (observedFrom s b v).regs with
      outCount := (observedFrom s b v).regs.outCount + BitVec.ofNat 64 [b].length } := congrArg State.regs hw.state
  have hmode : w.regs.mode = .dec :=
    (mode_of_encoderErased hw.erased).trans ((mode_of_modelErased hmodel).trans ((mode_of_decoderErased he).trans hm))
  constructor
  case retired => exact ⟨show w.regs.mode ≠ .faulted by simp [hmode], rfl⟩
  case frame =>
    have herased := (symbolErased_of_encoder hw.erased).trans ((symbolErased_of_model hmodel).trans (symbolErased_of_decoder he))
    exact (erased_congr (finish := fun t => retire (answering b.toNat t)) herased fun _ => rfl).trans rfl
  case result => exact BitVec.ofNat_toNat ..
  case written =>
    refine ⟨?_, ?_⟩
    · show w.outPort.taken = _
      rw [hw.taken, hport, outPort_of_decoderErased he]
      rfl
    · show w.regs.outCount = _
      rw [hregs, hcount, hout]
      rfl
  case coder =>
    refine ⟨?_, ?_, hlook'.trans hlook⟩
    · show w.regs.rcBuffer = _
      rw [hregs]
      exact hcoder.buffer
    · show w.regs.rcRange = _
      rw [hregs]
      exact hcoder.range
  case input =>
    refine ⟨hin'.trans hin, ?_⟩
    show w.inPort.answers = _
    rw [hinPort', hinPort]
  case encoder =>
    show w.regs.carry = _ ∧ w.regs.delayValid = _ ∧ w.regs.delay = _ ∧ w.regs.ffrun = _
    rw [hregs]
    exact ⟨hcoder.carry.trans hcarry, hcoder.valid.trans hvalid, hcoder.delay.trans hdelay, hcoder.run.trans hffrun⟩
  case learned =>
    refine ((symbolLearned_observed hs hsame h).of_same (sameModel_of_encoderErased hw.erased)).of_same ?_
    exact ⟨rfl, rfl, rfl, rfl, rfl, rfl, rfl⟩

/-- The last part: what the models learn, and the byte given out, which the output port takes, refuses, or does not answer (R80). -/
theorem LiteralLearned.symbolGivenOut {u v : State} {x b : Byte} (h : LiteralLearned s u v x b) (hm : s.regs.mode = .dec)
    (hs : SymbolReady s) (he : decoderErased u = decoderErased (takeCommand s)) (hu : SymbolReady u)
    (hrun : ruleOf .decSym (takeCommand s) = giveSymbol s b v) : SymbolGivenOut s u x b := by
  have hi := mayRun_decSym hm
  have hobserve := (h.ready hu).observe_run (b := b) (predictMember .lo s) (predictMember .hi s)
  rw [giveSymbol, bind_of_ok hobserve] at hrun
  have hport : (observedFrom s b v).outPort = (takeCommand s).outPort :=
    (outPort_of_modelErased h.observed_erased).trans (outPort_of_decoderErased he)
  have hanswer : outAnswerAt (observedFrom s b v).outPort 0 = outAnswerAt s.outPort 0 := by rw [hport]; rfl
  have hspec := outWrite_wrote b (observedFrom s b v)
  cases hwrite : outWrite b (observedFrom s b v) with
  | ok a w =>
    have hw := hspec.of_ok hwrite
    have haccept : outAnswerAt s.outPort 0 = some .accept := hanswer ▸ hw.accepted 0 Nat.one_pos
    refine ⟨fun _ => ⟨_, ?_, h.symbolAnswered hm hs he hw⟩, fun hno => ?_, fun hno => ?_⟩
    · rw [hi.exec, hrun]
      exact congrArg (concludeCommand .decSym s) (bind_of_ok hwrite)
    · rw [haccept] at hno; cases hno
    · rw [haccept] at hno; cases hno
  | error e w =>
    have hfail := hrun.trans (bind_of_error hwrite)
    obtain ⟨hwe, n, hn, -, htaken, hcase⟩ := hspec.of_error hwrite
    obtain rfl : n = 0 := by simpa using hn
    rw [hanswer] at hcase
    have htaken' : w.outPort.taken = s.outPort.taken := by rw [htaken, hport]; simp [takeCommand]
    have herased : symbolErased w = symbolErased (takeCommand s) :=
      (symbolErased_of_encoder hwe).trans ((symbolErased_of_model h.observed_erased).trans (symbolErased_of_decoder he))
    have hbusy : (symbolErased w).regs.busy = (symbolErased (takeCommand s)).regs.busy := by rw [herased]
    have hmode : (symbolErased w).regs.mode = (symbolErased (takeCommand s)).regs.mode := by rw [herased]
    refine ⟨fun hok => ?_, fun hno => ?_, fun hno => ?_⟩
    · obtain ⟨-, ha⟩ | ⟨-, ha⟩ := hcase <;> rw [hok] at ha <;> cases ha
    · obtain ⟨-, ha⟩ | ⟨rfl, -⟩ := hcase
      · rw [hno] at ha; cases ha
      · exact faultsWith_of hi.legal hi.mode hi.operands hfail rfl htaken'
    · obtain ⟨rfl, -⟩ | ⟨-, ha⟩ := hcase
      · exact waitsWith_of hi.legal hi.mode hi.operands hfail hbusy hmode htaken'
      · rw [hno] at ha; cases ha

/-- The window below the split: the prediction is the byte. -/
theorem DecodeReaches.decSym_hit {u : State} {k : Nat} (h : DecodeReaches .decSym s u k (decodeAfterFlag s true))
    (hm : s.regs.mode = .dec) (hs : SymbolReady s) (hr : 2 ^ 23 ≤ u.regs.rcRange.toNat) :
    SymbolGivenOut s u (choose s).symbol (choose s).symbol := by
  have hlearned : LiteralLearned s u u (choose s).symbol (choose s).symbol := .inl ⟨rfl, rfl⟩
  exact hlearned.symbolGivenOut hm hs h.erased (h.ready hs hr) h.run

/-- The third part, where the window is in the sub-interval of a byte's literal. -/
theorem DecodeReaches.decSym_literal {u : State} {k : Nat} {b : Byte} (h : DecodeReaches .decSym s u k (decodeAfterFlag s false))
    (hm : s.regs.mode = .dec) (hs : SymbolReady s) (hr : 2 ^ 23 ≤ u.regs.rcRange.toNat) (hb : b ≠ (choose s).symbol)
    (hheld : HeldBy u (choose s).symbol.toNat b.toNat) :
    DecoderTraps .decSym s (k + normShifts (litWidth u (choose s).symbol.toNat b.toNat)) ∧
      (givesBytes s.inPort (k + normShifts (litWidth u (choose s).symbol.toNat b.toNat)) →
        ∃ s3, Decoded u s3 (litLow u (choose s).symbol.toNat b.toNat) (litWidth u (choose s).symbol.toNat b.toNat) ∧
          SymbolGivenOut s s3 (choose s).symbol b) := by
  have hne : b.toNat ≠ (choose s).symbol.toNat := fun h => hb (BitVec.eq_of_toNat_eq h)
  have hu := h.ready hs hr
  have hwide := (hu.lit.interval (choose s).symbol.isLt b.isLt hne).1
  obtain ⟨htraps, hdone⟩ := h.part (mayRun_decSym hm) (litDecode_held hu.lit (choose s).symbol.isLt b.isLt hne hheld)
    fun _ _ ⟨_, _, ht, _⟩ => ht.asked.bytes
  refine ⟨htraps, fun hg => ?_⟩
  obtain ⟨_, v, ⟨rfl, s3, hs3, hok⟩, hrun⟩ := hdone hg
  rw [BitVec.ofNat_toNat, BitVec.setWidth_eq] at hrun
  have hlearned : LiteralLearned s s3 v (choose s).symbol b := .inr ⟨hb, u, h.sameModel, hu.lit.ctx, hok⟩
  exact ⟨s3, hs3.decoded (h.gives _ hg),
    hlearned.symbolGivenOut hm hs (hs3.erased.trans h.erased) (hu.taken hs3 hwide) hrun⟩

/-- The third part, where the window is in no literal's sub-interval (R177, R179). -/
theorem DecodeReaches.decSym_corrupt {u : State} {k : Nat} (h : DecodeReaches .decSym s u k (decodeAfterFlag s false))
    (hm : s.regs.mode = .dec) (hs : SymbolReady s) (hr : 2 ^ 23 ≤ u.regs.rcRange.toNat)
    (hnone : ∀ b : Byte, b ≠ (choose s).symbol → ¬HeldBy u (choose s).symbol.toNat b.toNat) :
    ∃ t, exec .decSym s = .next t ∧ t.regs.mode = .faulted ∧ t.regs.faultCause = 19#8 := by
  obtain ⟨t, ht⟩ := litDecode_corrupt (h.ready hs hr).lit (choose s).symbol.isLt fun sym hsym hne hheld => by
    have htoNat : (BitVec.ofNat 8 sym).toNat = sym := by rw [BitVec.toNat_ofNat, Nat.mod_eq_of_lt hsym]
    refine hnone (BitVec.ofNat 8 sym) (fun heq => hne (by rw [← heq, htoNat])) ?_
    rwa [htoNat]
  have hrun : ruleOf .decSym (takeCommand s) = .error (.raise .corruptPayload) t := h.run.trans (bind_of_error ht)
  exact ⟨takeFault .decSym .corruptPayload t, by rw [(mayRun_decSym hm).exec, hrun]; rfl, rfl, rfl⟩

end DecSym

/-! ### The command (R240, R242) -/

/-- Settles O52: each part by its own lemma; on a mismatch, either one byte's literal holds the window or none does. -/
theorem decSymDecodes : Obligations.DecSymDecodes := by
  intro s hm hcodable hlt x h flagLow flagWidth low width n
  have hs := hcodable.ready
  obtain ⟨htraps, hdone⟩ := decSym_eos hm hs.range hlt
  refine ⟨htraps, fun hg => ?_⟩
  obtain ⟨s1, hs1, hr1, hreach1⟩ := hdone hg
  have hflag := hreach1.decSym_flag hm hs hr1
  rw [decFlagLow_eq, decFlagRange_eq] at hflag
  refine ⟨s1, hs1, hflag.1, fun hg1 => ?_⟩
  obtain ⟨s2, hs2, hr2, hreach2⟩ := hflag.2 hg1
  refine ⟨s2, hs2, fun hhit => ?_, fun hmiss => ?_⟩
  · rw [decide_eq_true hhit] at hreach2
    exact hreach2.decSym_hit hm hs hr2
  · rw [decide_eq_false (Nat.not_lt.mpr hmiss)] at hreach2
    have hinterval (b : Byte) := literal_interval_eq (sym := b.toNat) hreach2.sameModel (hreach2.ready hs hr2).lit.ctx x.isLt
    refine ⟨fun b hb hlow hhigh => ?_, fun hnone => hreach2.decSym_corrupt hm hs hr2 fun b hb hheld => hnone b hb ?_⟩
    · have hpart := hreach2.decSym_literal (b := b) hm hs hr2 hb
      rw [HeldBy, (hinterval b).1, (hinterval b).2] at hpart
      exact hpart ⟨hlow, hhigh⟩
    · rw [HeldBy, (hinterval b).1, (hinterval b).2] at hheld
      exact hheld

end Sys2Proof.Machine
end

