-- ==== Sys2Proof/Proofs/Exceptions.lean ====
section
/-! Fault entry (O14), the precise faults (O15), what any fault leaves defined (O16), and the codes of the causes (O10): a command comes to
a fault before its rule, or where its rule breaks off. -/

namespace Sys2Proof.Machine

/-! ### The codes of the causes (R261) -/

/-- The cause that a code of R261's table stands for. -/
def causeOfCode (code : Byte) : Option Cause :=
  match code.toNat with
  | 1 => some .ioFailure
  | 2 => some .unexpectedEndOfInput
  | 3 => some .badMagic
  | 4 => some .invalidConfiguration
  | 5 => some .allocationFailure
  | 6 => some .trailingData
  | 16 => some .illegalCommand
  | 17 => some .badState
  | 18 => some .operandRange
  | 19 => some .corruptPayload
  | 20 => some .narrowMismatch
  | 21 => some .carryOverflow
  | 22 => some .ffrunOverflow
  | _ => none

theorem causeOfCode_causeCode (c : Cause) : causeOfCode (causeCode c) = some c := by cases c <;> rfl

theorem causeCode_injective : Function.Injective causeCode := fun c d h =>
  Option.some.inj (by rw [← causeOfCode_causeCode c, h, causeOfCode_causeCode])

/-- Settles O10: the codes are the table's, and the table read backwards gives the cause again. -/
theorem causeCodes : Obligations.CauseCodes := ⟨by decide, causeCode_injective⟩

/-! ### How a command comes to a fault (R264) -/

/-- The courses of command `i` from `s` into FAULTED. -/
inductive ComesToFault (i : Instr) (s t : State) : Prop where
  /-- refused for its mode or its operands (R111, R92) -/
  | refused (c : Cause) (check : c = .badState ∨ c = .operandRange) (ends : t = faultedWith s (causeCode c) (encode i))
  /-- its rule raised the fault -/
  | raised (legality : legal i s.regs.mode s.regs.dir = true) (c : Cause) (u : State)
      (rule : ruleOf i (takeCommand s) = .error (.raise c) u) (ends : t = takeFault i c u)

/-- Where no check refuses the command, its rule has broken off: it neither ends well in FAULTED nor waits there. -/
theorem exec_comesToFault {i : Instr} {s t : State} (hm : s.regs.mode ≠ .faulted) (h : exec i s = .next t)
    (ht : t.regs.mode = .faulted) : ComesToFault i s t := by
  rcases executeCommand_cases ((exec_eq i s).symm.trans h) with ⟨hf, -, -⟩ | ⟨-, he⟩ | ⟨-, -, he⟩ | ⟨hl, -, -, he⟩
  · exact absurd hf hm
  · cases he; exact .refused .badState (.inl rfl) rfl
  · cases he; exact .refused .operandRange (.inr rfl) rfl
  · have hends := ruleOf_ends i (takeCommand s)
    cases hrule : ruleOf i (takeCommand s) with
    | ok a u =>
      rw [hrule] at he
      cases he
      exact absurd ht ((hends.of_ok hrule).not_faulted hl hm)
    | error e u =>
      rw [hrule] at he
      cases e with
      | raise c => cases he; exact .raised hl c u hrule rfl
      | wait =>
        cases he
        exact absurd (((hends.of_error hrule).reached hl).controlKept.mode.symm.trans ht) hm
      | stop f => cases he

theorem takeFault_faultCause (i : Instr) (c : Cause) (u : State) : (takeFault i c u).regs.faultCause = causeCode c := rfl

/-- A precise fault undefines nothing (R265). -/
theorem takeFault_of_precise {i : Instr} {c : Cause} (h : impreciseFault i c = false) (u : State) :
    takeFault i c u = faultEntry c (encode i) u := by
  rw [takeFault, h, if_neg Bool.false_ne_true]

/-- A precise fault raised before the rule has written anything (R265). -/
theorem takeFault_unwritten {i : Instr} {c : Cause} (h : impreciseFault i c = false) (s : State) :
    takeFault i c (takeCommand s) = faultedWith s (causeCode c) (encode i) := takeFault_of_precise h _

/-! ### What fault entry writes and leaves alone (R263) -/

theorem leftAtFault_of_raised {i : Instr} {s u : State} (c : Cause) (h : Reached i s u) :
    LeftAtFault i s (if impreciseFault i c then undefineAfterFault u else u) := by
  refine ⟨u, h, ?_⟩
  split
  · exact .inr rfl
  · exact .inl rfl

/-- No rule raises BAD_MAGIC (R261). -/
theorem RuleCause.ne_badMagic {c : Cause} (h : RuleCause c) : c ≠ .badMagic := by
  rintro rfl
  simp [RuleCause, codingCause] at h

/-- A command that comes to a fault ends in fault entry, from a state its rule has left. -/
theorem ComesToFault.endsInEntry {i : Instr} {s t : State} (h : ComesToFault i s t) :
    ∃ c u, c ≠ .badMagic ∧ LeftAtFault i s u ∧ t = faultEntry c (encode i) u := by
  cases h with
  | refused c check ends =>
    exact ⟨c, takeCommand s, by rintro rfl; simp at check, leftAtFault_take i s, ends⟩
  | raised legality c u rule ends =>
    have hbroken := (ruleOf_ends i _).of_error rule
    exact ⟨c, _, hbroken.ruleCause.ne_badMagic, leftAtFault_of_raised c (hbroken.reached legality), ends⟩

theorem RuleFrame.cmdFifo {s t : State} (h : RuleFrame s t) : t.cmdFifo = s.cmdFifo := congrArg (·.cmdFifo) h.erased

theorem Opened.cmdFifo {i : Instr} {s v : State} (h : Opened i s v) : v.cmdFifo = s.cmdFifo := by
  rcases h with rfl | ⟨-, -, rfl⟩ <;> rfl

theorem Opened.taken {i : Instr} {s v : State} (h : Opened i s v) : v.outPort.taken = s.outPort.taken := by
  rcases h with rfl | ⟨-, -, rfl⟩ <;> rfl

theorem Reached.cmdFifo {i : Instr} {s u : State} (h : Reached i s u) : u.cmdFifo = s.cmdFifo :=
  let ⟨_, hv, hu⟩ := h
  hu.cmdFifo.trans hv.cmdFifo

/-- A byte that has crossed the output port stays crossed (R80). -/
theorem Reached.taken {i : Instr} {s u : State} (h : Reached i s u) : ∃ bs, u.outPort.taken = s.outPort.taken ++ bs := by
  obtain ⟨v, hv, hu⟩ := h
  obtain ⟨bs, hbs, -⟩ := hu.written
  exact ⟨bs, hv.taken ▸ hbs⟩

theorem LeftAtFault.cmdFifo {i : Instr} {s u : State} (h : LeftAtFault i s u) : u.cmdFifo = s.cmdFifo := by
  obtain ⟨v, hv, rfl | rfl⟩ := h <;> exact hv.cmdFifo

theorem LeftAtFault.taken {i : Instr} {s u : State} (h : LeftAtFault i s u) : ∃ bs, u.outPort.taken = s.outPort.taken ++ bs := by
  obtain ⟨v, hv, rfl | rfl⟩ := h <;> exact hv.taken

/-- Settles O14: the command ends in fault entry, and what came before it has kept the control registers and the FIFO. -/
theorem faultEntryRecords : Obligations.FaultEntryRecords := by
  intro i s t hm h ht
  obtain ⟨c, u, hc, left, rfl⟩ := (exec_comesToFault hm h ht).endsInEntry
  have hk := left.controlKept
  exact ⟨⟨c, hc, rfl⟩, hk.cmdCount, rfl, congrArg (· ||| 1#2) hk.irqPend, hk.cmdCount, rfl, hk.irqEn, rfl, left.cmdFifo⟩

/-! ### The precise faults (R265) -/

/-- Of the causes that come before any write (R265), a rule raises only those of a session start's two checks. -/
theorem RuleCause.sessionCheck_of_code {c : Cause} (h : RuleCause c)
    (hcode : causeCode c = 16#8 ∨ causeCode c = 17#8 ∨ causeCode c = 18#8 ∨ causeCode c = 4#8 ∨ causeCode c = 5#8) :
    c = .invalidConfiguration ∨ c = .allocationFailure := by
  cases c with
  | invalidConfiguration => exact .inl rfl
  | allocationFailure => exact .inr rfl
  | illegalCommand | badState | operandRange => simp [RuleCause, codingCause] at h
  | ioFailure | unexpectedEndOfInput | badMagic | trailingData | corruptPayload | narrowMismatch | carryOverflow | ffrunOverflow =>
    exact absurd hcode (by decide)

/-- A session start that fails its checks has written nothing (R119). -/
theorem BrokenOff.unwritten {i : Instr} {s u : State} {c : Cause} (h : BrokenOff i s (.raise c) u)
    (hc : c = .invalidConfiguration ∨ c = .allocationFailure) : u = s := by
  rcases h with h | ⟨-, he, -⟩
  · rcases h.raised c rfl with hcoding | ⟨-, -, hu⟩
    · rcases hc with rfl | rfl <;> cases hcoding
    · exact hu
  · cases he
    simp at hc

/-- RC_DEC_TARGET has written nothing where it breaks off (R212). -/
theorem BrokenOff.unwritten_target {tot : Nat} {s u : State} {e : Abort} (h : BrokenOff (.rcDecTarget tot) s e u) : u = s := by
  rcases h with h | ⟨hi, -⟩
  · exact h.target tot rfl
  · cases hi

/-- TRAILING_DATA comes with the byte that DEC_CHECK_END took (R121). -/
theorem BrokenOff.trailing {i : Instr} {s u : State} (h : BrokenOff i s (.raise .trailingData) u) :
    i = .decCheckEnd ∧ ∃ b p, nextInAnswer s.inPort = some (.byte b, p) ∧
      u = { s with inPort := p, regs := { s.regs with inCount := s.regs.inCount + 1#64 } } := by
  rcases h with h | ⟨hi, -, hu⟩
  · have := h.raised _ rfl
    simp [codingCause] at this
  · exact ⟨hi, hu⟩

namespace ComesToFault
variable {i : Instr} {s t : State}

/-- The causes of R265 but CORRUPT_PAYLOAD and TRAILING_DATA: the fault comes before any write. -/
theorem unwritten (h : ComesToFault i s t) (hcode : t.regs.faultCause = 16#8 ∨ t.regs.faultCause = 17#8 ∨ t.regs.faultCause = 18#8 ∨
    t.regs.faultCause = 4#8 ∨ t.regs.faultCause = 5#8) : t = faultedWith s t.regs.faultCause (encode i) := by
  cases h with
  | refused c _ ends => rw [ends]; rfl
  | raised _ c u rule ends =>
    have hbroken := (ruleOf_ends i _).of_error rule
    rw [ends, takeFault_faultCause] at hcode
    have hc := hbroken.ruleCause.sessionCheck_of_code hcode
    have hprecise : impreciseFault i c = false := by rcases hc with rfl | rfl <;> rfl
    rw [ends, takeFault_faultCause, hbroken.unwritten hc, takeFault_unwritten hprecise]

/-- A fault the rule raised, where no check has the cause. -/
theorem rule_of_cause {c : Cause} (h : ComesToFault i s t) (ht : t.regs.faultCause = causeCode c) (hs : c ≠ .badState)
    (ho : c ≠ .operandRange) : ∃ u, BrokenOff i (takeCommand s) (.raise c) u ∧ t = takeFault i c u := by
  cases h with
  | refused d check ends =>
    rw [ends] at ht
    cases causeCode_injective (show causeCode d = causeCode c from ht)
    exact (check.elim hs ho).elim
  | raised _ d u rule ends =>
    rw [ends, takeFault_faultCause] at ht
    cases causeCode_injective ht
    exact ⟨u, (ruleOf_ends i _).of_error rule, ends⟩

theorem corruptTarget {tot : Nat} (h : ComesToFault (.rcDecTarget tot) s t) (ht : t.regs.faultCause = 19#8) :
    t = faultedWith s 19#8 (encode (.rcDecTarget tot)) := by
  obtain ⟨u, hbroken, rfl⟩ := h.rule_of_cause (c := .corruptPayload) ht nofun nofun
  rw [hbroken.unwritten_target]
  exact takeFault_unwritten rfl s

theorem trailing (h : ComesToFault i s t) (ht : t.regs.faultCause = 6#8) :
    ∃ b p, nextInAnswer { s.inPort with used := [] } = some (.byte b, p) ∧
      t = faultedWith { s with inPort := p, regs := { s.regs with inCount := s.regs.inCount + 1#64 } } 6#8 (encode i) := by
  obtain ⟨u, hbroken, rfl⟩ := h.rule_of_cause (c := .trailingData) ht nofun nofun
  obtain ⟨-, b, p, hp, rfl⟩ := hbroken.trailing
  exact ⟨b, p, hp, takeFault_of_precise rfl _⟩

end ComesToFault

/-- Settles O15: an illegal word is not executed; a command comes to a precise fault before its rule has written anything, or with the
byte DEC_CHECK_END took. -/
theorem preciseFaultsKeepTheState : Obligations.PreciseFaultsKeepTheState := by
  intro s t w later hstall hfifo hm h ht
  cases hd : decode w with
  | error e =>
    rw [step_of_illegal hstall hfifo hd, executeIllegal_eq, if_neg hm] at h
    cases h
    exact ⟨fun _ => rfl, fun hc => absurd hc (show 16#8 ≠ 19#8 by decide), fun hc => absurd hc (show 16#8 ≠ 6#8 by decide)⟩
  | ok i =>
    rw [step_of_decode hstall hfifo hd] at h
    have hfault : ComesToFault i { s with cmdFifo := later } t := exec_comesToFault hm h ht
    obtain ⟨-, rfl⟩ := encodeUndoesDecode w i hd
    refine ⟨hfault.unwritten, fun hc ⟨tot, htarget⟩ => ?_, hfault.trailing⟩
    cases htarget
    exact hfault.corruptTarget hc

/-! ### What any fault leaves defined (R266) -/

/-- INIT_ENC's rule raises a fault in its session start's checks alone, before any write (R117, R119). -/
theorem initEnc_raises {s u : State} {e : Abort} (h : ruleOf .initEnc s = .error e u) : u = s := by
  rcases bind_eq_error.mp h with hinit | ⟨_, _, -, hmode⟩
  · rcases sessionInit_cases s with ⟨-, hrun⟩ | ⟨-, -, hrun⟩ | ⟨-, -, hrun⟩ <;> rw [hrun] at hinit <;> cases hinit <;> rfl
  · cases hmode

/-- An INIT_ENC that faults has started no session. -/
theorem ComesToFault.initEnc_latched {s t : State} (h : ComesToFault .initEnc s t) :
    t.regs.scfg = s.regs.scfg ∧ t.regs.tablesValid = s.regs.tablesValid := by
  cases h with
  | refused c _ ends => rw [ends]; exact ⟨rfl, rfl⟩
  | raised _ c u rule ends =>
    rw [ends, takeFault, initEnc_raises rule]
    split <;> exact ⟨rfl, rfl⟩

/-- SCFG and TABLES_VALID after a fault: as before, or as INIT_DEC's session start has written them (R118, R266). -/
theorem ComesToFault.latched {i : Instr} {s t : State} (h : ComesToFault i s t) :
    (t.regs.scfg = s.regs.scfg ∧ t.regs.tablesValid = s.regs.tablesValid) ∨
      (i = .initDec ∧ t.regs.scfg = s.regs.config ∧ t.regs.tablesValid = true) := by
  obtain ⟨c, u, -, left, ends⟩ := h.endsInEntry
  rcases left.latched with hkept | ⟨rfl | rfl, -, hscfg, hvalid⟩
  · exact .inl (ends ▸ hkept)
  · exact .inl h.initEnc_latched
  · exact .inr ⟨rfl, ends ▸ hscfg, ends ▸ hvalid⟩

/-- Settles O16: what a rule has done where it breaks off, and what an imprecise fault undefines, is none of this. -/
theorem faultKeepsWhatIsDefined : Obligations.FaultKeepsWhatIsDefined := by
  intro i s t hm h ht
  have hfault := exec_comesToFault hm h ht
  have hlatched := hfault.latched
  obtain ⟨c, u, -, left, rfl⟩ := hfault.endsInEntry
  have hk := left.controlKept
  exact ⟨hk.config, hk.dir, hk.irqEn, hk.cmdCount, hlatched, left.taken⟩

end Sys2Proof.Machine
end

