-- ==== Sys2Proof/Proofs/Waiting.lean ====
section
/-! A command that waited on a port (O8). Its rule looks at the ports only through the answers they give. So where it waits, what is
left of it is one continuation, whatever answers stood at the ports when it began, as long as they bring it there. The answers given
later and the answers of the record both do. -/

namespace Sys2Proof.Machine

/-! ### Other answers at the ports -/

/-- The state with other answers about to come at its ports. -/
def withAnswers (ins : List InAnswer) (outs : List OutAnswer) (s : State) : State :=
  { s with inPort := { s.inPort with answers := ins }, outPort := { s.outPort with answers := outs } }

/-- A port's next answer, put before any others, is the port's next answer, and leaves those others (R79). -/
theorem nextInAnswer_cons {p p' : InPort} {a : InAnswer} (he : p.ended = false) (h : nextInAnswer p = some (a, p'))
    (later : List InAnswer) :
    nextInAnswer { p with answers := a :: later } = some (a, { p' with answers := later }) := by
  rcases nextInAnswer_cases h with ⟨ht, -, -⟩ | ⟨-, hused, hrest, hended, -⟩
  · exact absurd (he.symm.trans ht) Bool.false_ne_true
  · simp [nextInAnswer, he, hused, hrest, hended]

/-- The end mark, once given, is given whatever was to come (R79). -/
theorem nextInAnswer_ended {p : InPort} (he : p.ended = true) (later : List InAnswer) :
    nextInAnswer { p with answers := later } = some (.endMark, { p with answers := later }) := by
  simp [nextInAnswer, he]

theorem nextOutAnswer_cons {p p' : OutPort} {a : OutAnswer} (h : nextOutAnswer p = some (a, p')) (later : List OutAnswer) :
    nextOutAnswer { p with answers := a :: later } = some (a, { p' with answers := later }) := by
  obtain ⟨hused, hrest, htaken, -⟩ := nextOutAnswer_cases h
  simp [nextOutAnswer, hused, hrest, htaken]

/-- Which answers may stand at the ports in place of their own: where some may stand after a port's answer, there are some that may
stand before it, from which the port gives that same answer and leaves them. A session start and a byte taken make no difference. -/
structure Restock where
  /-- what may stand at an input port -/
  ins : InPort → List InAnswer → Prop
  /-- what may stand at an output port -/
  outs : OutPort → List OutAnswer → Prop
  answered : ∀ {p p' : InPort} {a : InAnswer} {l : List InAnswer}, nextInAnswer p = some (a, p') → ins p' l →
    ∃ l', ins p l' ∧ nextInAnswer { p with answers := l' } = some (a, { p' with answers := l })
  restarted : ∀ {p : InPort} {l : List InAnswer}, ins { p with ended := false } l → ins p l
  accepted : ∀ {p p' : OutPort} {a : OutAnswer} {l : List OutAnswer}, nextOutAnswer p = some (a, p') → outs p' l →
    ∃ l', outs p l' ∧ nextOutAnswer { p with answers := l' } = some (a, { p' with answers := l })
  took : ∀ {p : OutPort} {bs : List Byte} {l : List OutAnswer}, outs { p with taken := bs } l → outs p l

/-- The answers may stand at the ports of the state. -/
def Restock.At (R : Restock) (s : State) (ins : List InAnswer) (outs : List OutAnswer) : Prop :=
  R.ins s.inPort ins ∧ R.outs s.outPort outs

/-- Further answers behind those of a port, given only where none stands for ever (R79, R80). -/
def Restock.given (ins : List InAnswer) (outs : List OutAnswer) : Restock where
  ins p l := l = p.answers ++ ins ∧ (p.rest = none ∨ ins = [])
  outs p l := l = p.answers ++ outs ∧ (p.rest = none ∨ outs = [])
  answered {p p' a l} h hl := by
    obtain ⟨rfl, hgive⟩ := hl
    rcases nextInAnswer_cases h with ⟨he, rfl, rfl⟩ | ⟨he, -, hrest, -, hlisted | ⟨-, -, hstands⟩⟩
    · exact ⟨_, ⟨rfl, hgive⟩, nextInAnswer_ended he _⟩
    · exact ⟨_, ⟨rfl, hrest ▸ hgive⟩, by rw [hlisted]; exact nextInAnswer_cons he h _⟩
    · have hins : ins = [] := hgive.resolve_left (by simp [hrest, hstands])
      refine ⟨_, ⟨rfl, .inr hins⟩, ?_⟩
      simpa only [hins, List.append_nil] using h
  restarted h := h
  accepted {p p' a l} h hl := by
    obtain ⟨rfl, hgive⟩ := hl
    rcases nextOutAnswer_cases h with ⟨-, hrest, -, hlisted | ⟨-, -, hstands⟩⟩
    · exact ⟨_, ⟨rfl, hrest ▸ hgive⟩, by rw [hlisted]; exact nextOutAnswer_cons h _⟩
    · have houts : outs = [] := hgive.resolve_left (by simp [hrest, hstands])
      refine ⟨_, ⟨rfl, .inr houts⟩, ?_⟩
      simpa only [houts, List.append_nil] using h
  took h := h

/-- The answers a record and those to come behind it make up, less those the port has recorded so far (R299). -/
def Restock.replayed (ins : List InAnswer) (outs : List OutAnswer) : Restock where
  ins p l := p.used ++ l = ins
  outs p l := p.used ++ l = outs
  answered {p p' a l} h hl := by
    rcases nextInAnswer_cases h with ⟨he, rfl, rfl⟩ | ⟨he, hused, -⟩
    · exact ⟨l, hl, nextInAnswer_ended he l⟩
    · exact ⟨a :: l, by rw [← hl, hused, List.append_assoc, List.singleton_append], nextInAnswer_cons he h l⟩
  restarted h := h
  accepted {p p' a l} h hl := by
    obtain ⟨hused, -⟩ := nextOutAnswer_cases h
    exact ⟨a :: l, by rw [← hl, hused, List.append_assoc, List.singleton_append], nextOutAnswer_cons h l⟩
  took h := h

/-! ### Pieces of a rule that can be taken up again -/

section Pieces

variable {α β : Type}

/-- `x` leads from `s` to `t`, where `k` is still to do, under whatever answers bring it there. -/
def LeadsTo (x : Cmd α) (s : State) (k : Cmd α) (t : State) : Prop :=
  ∀ (R : Restock) (ins : List InAnswer) (outs : List OutAnswer), R.At t ins outs →
    ∃ ins' outs', R.At s ins' outs' ∧ x (withAnswers ins' outs' s) = k (withAnswers ins outs t)

theorem LeadsTo.refl (x : Cmd α) (s : State) : LeadsTo x s x s := fun _ ins outs h => ⟨ins, outs, h, rfl⟩

theorem LeadsTo.trans {x y z : Cmd α} {s t u : State} (h : LeadsTo x s y t) (h' : LeadsTo y t z u) : LeadsTo x s z u := by
  intro R ins outs hu
  obtain ⟨ins₁, outs₁, ht, hy⟩ := h' R ins outs hu
  obtain ⟨ins₂, outs₂, hs, hx⟩ := h R ins₁ outs₁ ht
  exact ⟨ins₂, outs₂, hs, hx.trans hy⟩

theorem LeadsTo.bind {x k : Cmd α} {s t : State} (h : LeadsTo x s k t) (f : α → Cmd β) : LeadsTo (x >>= f) s (k >>= f) t := by
  intro R ins outs ht
  obtain ⟨ins', outs', hs, hx⟩ := h R ins outs ht
  refine ⟨ins', outs', hs, ?_⟩
  show EStateM.bind x f _ = EStateM.bind k f _
  simp only [EStateM.bind, hx]

/-- A piece that sees the ports only through the answers it asks for: it leads to where it ends. Where it waits, a port has no answer
standing for ever. -/
structure Resumable (x : Cmd α) : Prop where
  answers : ∀ {s t : State} {a : α}, x s = .ok a t → LeadsTo x s (pure a) t
  waits : ∀ {s u : State}, x s = .error .wait u → (u.inPort.rest = none ∨ u.outPort.rest = none) ∧ ∃ k, LeadsTo x s k u

theorem Resumable.bind {x : Cmd α} {f : α → Cmd β} (hx : Resumable x) (hf : ∀ a, Resumable (f a)) : Resumable (x >>= f) where
  answers h := by
    obtain ⟨a, u, hxs, hfu⟩ := bind_eq_ok.mp h
    exact ((hx.answers hxs).bind f).trans ((hf a).answers hfu)
  waits h := by
    rcases bind_eq_error.mp h with hxs | ⟨a, v, hxs, hfv⟩
    · obtain ⟨hrest, k, hk⟩ := hx.waits hxs
      exact ⟨hrest, k >>= f, hk.bind f⟩
    · obtain ⟨hrest, k, hk⟩ := (hf a).waits hfv
      exact ⟨hrest, k, ((hx.answers hxs).bind f).trans hk⟩

theorem Resumable.ite {c : Prop} [Decidable c] {x y : Cmd α} (hx : Resumable x) (hy : Resumable y) :
    Resumable (if c then x else y) := by
  split
  · exact hx
  · exact hy

/-- A look at the state that does not see the answers to come. -/
theorem leadsTo_get {f : State → Cmd β} (h : ∀ ins outs s, f (withAnswers ins outs s) = f s) (s : State) :
    LeadsTo ((get : Cmd State) >>= f) s (f s) s :=
  fun _ ins outs hs => ⟨ins, outs, hs, by rw [bind_of_ok (get_run _), h]⟩

theorem Resumable.get {f : State → Cmd β} (hf : ∀ s, Resumable (f s))
    (h : ∀ ins outs s, f (withAnswers ins outs s) = f s := by intros; rfl) : Resumable ((get : Cmd State) >>= f) where
  answers {s t a} hx := by
    rw [bind_of_ok (get_run s)] at hx
    exact (leadsTo_get h s).trans ((hf s).answers hx)
  waits {s u} hx := by
    rw [bind_of_ok (get_run s)] at hx
    obtain ⟨hrest, k, hk⟩ := (hf s).waits hx
    exact ⟨hrest, k, (leadsTo_get h s).trans hk⟩

/-- How a piece that leaves the ports alone can end from `s`: it answers, the same under any answers to come; or it breaks off, and
does not wait. -/
inductive EndsApart (x : Cmd α) (s : State) : Prop where
  | ok (a : α) (t : State) (run : x s = .ok a t) (ins : t.inPort = s.inPort) (outs : t.outPort = s.outPort)
      (runs : ∀ ins outs, x (withAnswers ins outs s) = .ok a (withAnswers ins outs t))
  | error (e : Abort) (t : State) (run : x s = .error e t) (ne : e ≠ .wait)

theorem Resumable.apart {x : Cmd α} (h : ∀ s, EndsApart x s) : Resumable x where
  answers {s t a} hx := by
    cases h s with
    | ok a' t' run ins outs runs =>
      cases run.symm.trans hx
      exact fun R l m ht => ⟨l, m, ⟨ins ▸ ht.1, outs ▸ ht.2⟩, runs l m⟩
    | error e t' run ne => cases run.symm.trans hx
  waits {s u} hx := by
    cases h s with
    | ok a t run => cases run.symm.trans hx
    | error e t run ne =>
      cases run.symm.trans hx
      exact absurd rfl ne

theorem Resumable.pure (a : α) : Resumable (pure a : Cmd α) := .apart fun s => .ok a s rfl rfl rfl fun _ _ => rfl

theorem Resumable.getRegs : Resumable getRegs := .apart fun s => .ok _ s rfl rfl rfl fun _ _ => rfl

theorem Resumable.modifyRegs (f : Regs → Regs) : Resumable (modifyRegs f) :=
  .apart fun s => .ok _ _ (modifyRegs_run f s) rfl rfl fun _ _ => rfl

theorem Resumable.writeTable (t : TableId) (i : Nat) (v : Entry) : Resumable (writeTable t i v) :=
  .apart fun s => .ok _ _ (writeTable_run t i v s) rfl rfl fun _ _ => rfl

theorem Resumable.readSingle (sym : Nat) : Resumable (readSingle sym) := .apart fun s => .ok _ s rfl rfl rfl fun _ _ => rfl

theorem Resumable.readLit (i : Nat) : Resumable (readLit i) := .apart fun s => .ok _ s rfl rfl rfl fun _ _ => rfl

theorem Resumable.raise (c : Cause) : Resumable (raiseFault c : Cmd α) := .apart fun s => .error _ s rfl (by simp)

theorem Resumable.stop (g : Fault) : Resumable (stopFault g : Cmd α) := .apart fun s => .error _ s rfl (by simp)

theorem Resumable.checkedSub (a b : Nat) : Resumable (checkedSub a b) := .apart fun s => by
  by_cases h : b ≤ a
  · exact .ok _ s (checkedSub_of_le h s) rfl rfl fun _ _ => checkedSub_of_le h _
  · exact .error _ s (if_neg h) (by simp)

theorem Resumable.checkedDiv (a b : Nat) : Resumable (checkedDiv a b) := .apart fun s => by
  by_cases h : b = 0
  · exact .error _ s (if_pos h) (by simp)
  · exact .ok _ s (checkedDiv_of_ne h s) rfl rfl fun _ _ => checkedDiv_of_ne h _

theorem Resumable.checkedFit (w v : Nat) : Resumable (checkedFit w v) := .apart fun s => by
  by_cases h : v < 2 ^ w
  · exact .ok _ s (checkedFit_of_lt h s) rfl rfl fun _ _ => checkedFit_of_lt h _
  · exact .error _ s (if_neg h) (by simp)

theorem Resumable.log2Fix (n : Nat) : Resumable (log2Fix n) := .apart fun s => by
  cases h : log2FixValue s.params.log2Fix n with
  | none => exact .error (.stop .logarithmDomain) s (by simp only [Machine.log2Fix, h]) (by simp)
  | some v => exact .ok v s (by simp only [Machine.log2Fix, h]) rfl rfl fun _ _ => by simp only [Machine.log2Fix, withAnswers, h]

/-! ### The ports -/

theorem inRest_of_unanswered {p : InPort} (h : nextInAnswer p = none) : p.rest = none := by
  unfold nextInAnswer at h
  split at h
  · cases h
  · split at h
    · cases h
    · split at h
      · cases h
      · assumption

theorem outRest_of_unanswered {p : OutPort} (h : nextOutAnswer p = none) : p.rest = none := by
  unfold nextOutAnswer at h
  split at h
  · cases h
  · split at h
    · cases h
    · assumption

theorem Resumable.askInput : Resumable askInput where
  answers {s t a} h := by
    cases hn : nextInAnswer s.inPort with
    | none => cases (askInput_of_none hn).symm.trans h
    | some ap =>
      cases (askInput_of_answer hn).symm.trans h
      intro R ins outs ht
      obtain ⟨ins', hs, hn'⟩ := R.answered hn ht.1
      exact ⟨ins', outs, ⟨hs, ht.2⟩, askInput_of_answer hn'⟩
  waits {s u} h := by
    cases hn : nextInAnswer s.inPort with
    | none =>
      cases (askInput_of_none hn).symm.trans h
      exact ⟨.inl (inRest_of_unanswered hn), _, .refl _ s⟩
    | some ap => cases (askInput_of_answer hn).symm.trans h

/-- InRead asks for one answer (R79). -/
theorem Resumable.inRead : Resumable inRead := .bind .askInput fun answer => by
  cases answer with
  | byte b => exact .bind (.modifyRegs _) fun _ => .pure b
  | endMark => exact .raise _
  | error => exact .raise _

theorem outWrite_of_accept {s : State} {p : OutPort} (b : Byte) (h : nextOutAnswer s.outPort = some (.accept, p)) :
    outWrite b s = .ok () { s with
      outPort := { p with taken := p.taken ++ [b] }, regs := { s.regs with outCount := s.regs.outCount + 1#64 } } := by
  simp only [outWrite, h]

theorem outWrite_eq_ok {b : Byte} {s t : State} {a : Unit} (h : outWrite b s = .ok a t) :
    ∃ p, nextOutAnswer s.outPort = some (.accept, p) ∧ t = { s with
      outPort := { p with taken := p.taken ++ [b] }, regs := { s.regs with outCount := s.regs.outCount + 1#64 } } := by
  unfold outWrite at h
  split at h
  · cases h
  · next p hn => cases h; exact ⟨p, hn, rfl⟩
  · cases h

theorem outWrite_eq_wait {b : Byte} {s u : State} (h : outWrite b s = .error .wait u) : nextOutAnswer s.outPort = none ∧ u = s := by
  unfold outWrite at h
  split at h
  · next hn => cases h; exact ⟨hn, rfl⟩
  · cases h
  · cases h

theorem Resumable.outWrite (b : Byte) : Resumable (outWrite b) where
  answers {s t a} h := by
    obtain ⟨p, hn, rfl⟩ := outWrite_eq_ok h
    intro R ins outs ht
    obtain ⟨outs', hs, hn'⟩ := R.accepted hn (R.took ht.2)
    exact ⟨ins, outs', ⟨ht.1, hs⟩, outWrite_of_accept (s := withAnswers ins outs' s) b hn'⟩
  waits {s u} h := by
    obtain ⟨hn, rfl⟩ := outWrite_eq_wait h
    exact ⟨.inr (outRest_of_unanswered hn), _, .refl _ _⟩

/-- SessionInit (R119) takes the end mark back, whatever is to come. -/
theorem Resumable.sessionInit : Resumable sessionInit where
  answers {s t a} h := by
    rcases sessionInit_cases s with ⟨-, hrun⟩ | ⟨-, -, hrun⟩ | ⟨hc, hw, hrun⟩
    · cases hrun.symm.trans h
    · cases hrun.symm.trans h
    · cases hrun.symm.trans h
      exact fun R ins outs ht =>
        ⟨ins, outs, ⟨R.restarted ht.1, ht.2⟩, sessionInit_of_ready (s := withAnswers ins outs s) hc hw⟩
  waits {s u} h := by
    rcases sessionInit_cases s with ⟨-, hrun⟩ | ⟨-, -, hrun⟩ | ⟨-, -, hrun⟩ <;> cases hrun.symm.trans h

theorem Resumable.whenTrue {c : Bool} {x : Cmd Unit} (h : Resumable x) : Resumable (whenTrue c x) := .ite h (.pure ())

theorem Resumable.forEach {body : Nat → Cmd Unit} (h : ∀ j, Resumable (body j)) (js : List Nat) : Resumable (forEach body js) := by
  induction js with
  | nil => exact .pure ()
  | cons j js ih => exact .bind (h j) fun _ => ih

theorem Resumable.sumOver {value : Nat → Cmd Nat} (h : ∀ j, Resumable (value j)) (js : List Nat) (acc : Nat) :
    Resumable (sumOver value js acc) := by
  induction js generalizing acc with
  | nil => exact .pure acc
  | cons j js ih => exact .bind (h j) fun v => ih (acc + v)

end Pieces

/-! ### The coder's procedures -/

theorem Resumable.setRange (v : Nat) : Resumable (setRange v) := .bind (.checkedFit _ _) fun _ => .modifyRegs _

theorem Resumable.carryAdd (v : Nat) : Resumable (carryAdd v) :=
  .bind .getRegs fun _ => .ite (.modifyRegs _) (.ite (.raise _) (.modifyRegs _))

theorem Resumable.outWriteRun (b : Byte) (n : Nat) : Resumable (outWriteRun b n) := by
  induction n with
  | zero => exact .pure ()
  | succ n ih => exact .bind (.outWrite b) fun _ => ih

theorem Resumable.outputStage (x : Byte) : Resumable (outputStage x) := by
  have flush : Resumable (flushDelayed x) :=
    .bind .getRegs fun _ => .bind (.whenTrue (.outWrite _)) fun _ => .bind (.outWriteRun _ _) fun _ => .modifyRegs _
  exact .bind .getRegs fun _ => .ite (.ite (.raise _) flush) (.ite (.raise _) (.modifyRegs _))

theorem Resumable.encShift : Resumable encShift := .bind .getRegs fun _ => .bind (.outputStage _) fun _ => .modifyRegs _

theorem Resumable.encNormalizeWithin (n : Nat) : Resumable (encNormalizeWithin n) := by
  induction n with
  | zero => exact .bind .getRegs fun _ => .ite (.stop _) (.pure ())
  | succ n ih =>
    exact .bind .getRegs fun _ => .ite (.bind .encShift fun _ => .bind (.modifyRegs _) fun _ => ih) (.pure ())

theorem Resumable.decNormalizeWithin (n : Nat) : Resumable (decNormalizeWithin n) := by
  induction n with
  | zero => exact .bind .getRegs fun _ => .ite (.stop _) (.pure ())
  | succ n ih =>
    exact .bind .getRegs fun _ => .ite (.bind .inRead fun _ => .bind (.modifyRegs _) fun _ => ih) (.pure ())

/-- R <- v and a normalization: how a decoding procedure ends. -/
theorem resumable_setRange_decNormalize {α : Type} (v : Nat) (a : α) : Resumable (do setRange v; decNormalize; pure a) :=
  .bind (.setRange v) fun _ => .bind (.decNormalizeWithin 3) fun _ => .pure a

theorem Resumable.decPrime : Resumable decPrime :=
  .bind .inRead fun _ => .bind .inRead fun _ => .bind .inRead fun _ => .bind .inRead fun _ => .modifyRegs _

theorem Resumable.encFlag (p : Nat) (m : Bool) : Resumable (encFlag p m) := by
  have narrow : Resumable (encFlagNarrow p m) := .bind .getRegs fun _ =>
    .ite (.setRange _) (.bind (.carryAdd _) fun _ => .bind (.checkedSub _ _) fun _ => .setRange _)
  exact .bind narrow fun _ => .encNormalizeWithin 3

theorem Resumable.decFlag (p : Nat) : Resumable (decFlag p) :=
  .bind .getRegs fun _ => .ite (resumable_setRange_decNormalize _ _)
    (.bind (.checkedSub _ _) fun _ => .bind (.modifyRegs _) fun _ => resumable_setRange_decNormalize _ _)

theorem Resumable.encEos (last : Bool) : Resumable (encEos last) := by
  have narrow : Resumable (encEosNarrow last) := .bind .getRegs fun _ => .bind (.checkedSub _ _) fun _ =>
    .ite (.bind (.carryAdd _) fun _ => .setRange _) (.setRange _)
  exact .bind narrow fun _ => .encNormalizeWithin 3

theorem Resumable.decEos : Resumable decEos :=
  .bind .getRegs fun _ => .bind (.checkedSub _ _) fun _ =>
    .ite (resumable_setRange_decNormalize _ _) (.bind (.modifyRegs _) fun _ => resumable_setRange_decNormalize _ _)

theorem Resumable.encFreq (cum freq tot : Nat) : Resumable (encFreq cum freq tot) :=
  .bind .getRegs fun _ => .bind (.checkedDiv _ _) fun _ => .bind (.carryAdd _) fun _ => .bind (.setRange _) fun _ =>
    .encNormalizeWithin 3

theorem Resumable.decTakeInterval (base freq r : Nat) : Resumable (decTakeInterval base freq r) :=
  .bind .getRegs fun _ => .bind (.checkedSub _ _) fun _ => .bind (.modifyRegs _) fun _ => .bind (.setRange _) fun _ =>
    .decNormalizeWithin 3

theorem Resumable.decTarget (tot : Nat) : Resumable (decTarget tot) :=
  .bind .getRegs fun _ => .bind (.checkedDiv _ _) fun _ => .bind (.checkedDiv _ _) fun _ => .ite (.raise _) (.pure _)

theorem Resumable.decNarrow (cum freq tot : Nat) : Resumable (decNarrow cum freq tot) :=
  .bind .getRegs fun _ => .bind (.checkedDiv _ _) fun _ => .bind (.checkedDiv _ _) fun _ =>
    .ite (.decTakeInterval _ _ _) (.raise _)

theorem Resumable.flushCoder : Resumable flushCoder :=
  .bind .encShift fun _ => .bind .encShift fun _ => .bind .encShift fun _ => .bind .encShift fun _ => .encShift

/-! ### The models' procedures -/

theorem Resumable.totEx (x : Nat) : Resumable (totEx x) := .get fun _ => .checkedSub _ _

theorem Resumable.groupEx (g x : Nat) : Resumable (groupEx g x) := .get fun _ => .checkedSub _ _

theorem Resumable.freqEx (sym x : Nat) : Resumable (freqEx sym x) := .get fun _ => .pure _

theorem Resumable.walkGroups (x t left g acc : Nat) : Resumable (walkGroups x t left g acc) := by
  induction left generalizing g acc with
  | zero => exact .stop _
  | succ left ih => exact .bind (.groupEx g x) fun _ => .ite (ih _ _) (.pure _)

theorem Resumable.walkSingles (x t left sym acc : Nat) : Resumable (walkSingles x t left sym acc) := by
  induction left generalizing sym acc with
  | zero => exact .stop _
  | succ left ih => exact .bind (.freqEx sym x) fun _ => .ite (ih _ _) (.pure _)

theorem Resumable.litEncPath (fixed : Bool) (sym x : Nat) : Resumable (litEncPath fixed sym x) := by
  have cum : Resumable (cumEx sym x) :=
    .bind (.sumOver (fun _ => .groupEx _ _) _ _) fun _ => .sumOver (fun _ => .freqEx _ _) _ _
  have fixedPath : Resumable (litEncFixed sym x) :=
    .bind .getRegs fun _ => .bind (.checkedDiv _ _) fun _ => .bind (.checkedSub _ _) fun _ => .bind (.carryAdd _) fun _ =>
      .bind (.setRange _) fun _ => .encNormalizeWithin 3
  exact .ite fixedPath (.bind (.totEx x) fun _ => .bind cum fun _ => .bind (.readSingle sym) fun _ => .encFreq _ _ _)

theorem Resumable.litDecPath (fixed : Bool) (x : Nat) : Resumable (litDecPath fixed x) := by
  have fixedPath : Resumable (litDecFixed x) :=
    .bind .getRegs fun _ => .bind (.checkedDiv _ _) fun _ => .bind (.checkedDiv _ _) fun _ =>
      .ite (.raise _) (.bind (.decTakeInterval _ _ _) fun _ => .pure _)
  refine .ite fixedPath (.bind .getRegs fun _ => .bind (.totEx x) fun _ => .bind (.checkedDiv _ _) fun _ =>
    .bind (.checkedDiv _ _) fun _ => .ite (.raise _) ?_)
  exact .bind (.walkGroups _ _ _ _ _) fun _ => .bind (.walkSingles _ _ _ _ _) fun _ => .bind (.readSingle _) fun _ =>
    .bind (.decTakeInterval _ _ _) fun _ => .pure _

theorem Resumable.costUpdate (te fs : Nat) : Resumable (costUpdate te fs) :=
  .bind .getRegs fun _ => .bind (.checkedSub _ _) fun _ => .bind (.log2Fix _) fun _ => .bind (.log2Fix _) fun _ =>
    .bind (.checkedSub _ _) fun _ => .bind (.checkedFit _ _) fun _ => .modifyRegs _

/-- TblWrite of a number that must fit its entry (R10, R66). -/
theorem resumable_writeFit (t : TableId) (i v : Nat) : Resumable (do let w ← checkedFit 16 v; writeTable t i w) :=
  .bind (.checkedFit 16 v) fun _ => .writeTable t i _

theorem Resumable.rescale (c : Nat) : Resumable (rescale c) :=
  .bind (.forEach (fun _ => .get fun _ => .writeTable _ _ _) _) fun _ =>
    .bind (.forEach (fun _ => .bind (.sumOver (fun _ => .readLit _) _ _) fun _ => resumable_writeFit _ _ _) _) fun _ =>
      .bind (.sumOver (fun _ => .readLit _) _ _) fun _ => resumable_writeFit _ _ _

theorem Resumable.litTrain (sym : Nat) : Resumable (litTrain sym) := by
  have add (i step : Nat) : Resumable (addToLit i step) := .get fun _ => resumable_writeFit _ _ _
  exact .get fun _ => .bind (add _ _) fun _ => .bind (add _ _) fun _ => .bind (add _ _) fun _ => .get fun _ =>
    .whenTrue (.rescale _)

theorem Resumable.litEncode (sym x : Nat) : Resumable (litEncode sym x) :=
  .get fun _ => .bind (.totEx x) fun _ => .bind (.readSingle sym) fun _ => .bind (.litEncPath _ _ _) fun _ =>
    .bind (.costUpdate _ _) fun _ => .litTrain sym

theorem Resumable.litDecode (x : Nat) : Resumable (litDecode x) :=
  .get fun _ => .bind (.totEx x) fun _ => .bind (.litDecPath _ _) fun _ => .bind (.readSingle _) fun _ =>
    .bind (.costUpdate _ _) fun _ => .bind (.litTrain _) fun _ => .pure _

theorem Resumable.apmUpdate (t : TableId) (h : BitVec 4) (st : Byte) (matched : Bool) : Resumable (apmUpdate t h st matched) :=
  .get fun _ => .bind (.ite (.bind (.checkedSub _ _) fun _ => .pure _) (.checkedSub _ _)) fun _ => resumable_writeFit _ _ _

theorem Resumable.observeMember (m : Member) (q : Prediction) (b : Byte) : Resumable (observeMember m q b) :=
  .get fun _ => .bind (.writeTable _ _ _) fun _ => .bind (.apmUpdate _ _ _ _) fun _ => .modifyRegs _

theorem Resumable.observe (lo hi : Prediction) (b : Byte) : Resumable (observe lo hi b) :=
  .bind (.observeMember _ _ _) fun _ => .get fun _ => .bind (.whenTrue (.observeMember _ _ _)) fun _ => .modifyRegs _

/-! ### The commands -/

theorem Resumable.encodeSymbol (b : Byte) : Resumable (encodeSymbol b) :=
  .bind (.encEos _) fun _ => .get fun _ => .bind (.encFlag _ _) fun _ => .bind (.whenTrue (.litEncode _ _)) fun _ => .observe _ _ _

theorem Resumable.decodeSymbol : Resumable decodeSymbol := by
  have byte (x : Prediction) : Resumable (decodeByte x) :=
    .bind (.decFlag _) fun _ => .ite (.pure _) (.bind (.litDecode _) fun _ => .pure _)
  exact .bind .decEos fun _ => .ite (.bind (.modifyRegs _) fun _ => .modifyRegs _)
    (.get fun _ => .bind (byte _) fun _ => .bind (.observe _ _ _) fun _ => .bind (.outWrite _) fun _ => .modifyRegs _)

/-- The rule of every command can be taken up again where it waits. -/
theorem resumable_ruleOf (i : Instr) : Resumable (ruleOf i) := by
  cases i with
  | nop => exact .pure ()
  | setcfgHi | setcfgLo | setirq => unfold ruleOf; exact .modifyRegs _
  | initEnc => exact .bind .sessionInit fun _ => .modifyRegs _
  | initDec => exact .bind .sessionInit fun _ => .bind .decPrime fun _ => .modifyRegs _
  | tblRead tid idx => exact .get fun _ => .modifyRegs _
  | decCheckEnd =>
    refine .bind .askInput fun answer => ?_
    cases answer with
    | endMark => exact .modifyRegs _
    | byte b => exact .bind (.modifyRegs _) fun _ => .raise _
    | error => exact .raise _
  | encSym byte => exact .encodeSymbol _
  | encEnd => exact .bind (.encEos _) fun _ => .bind .flushCoder fun _ => .modifyRegs _
  | decSym => exact .decodeSymbol
  | rcEncBit bit p => exact .encFlag _ _
  | rcDecBit p => exact .bind (.decFlag p) fun _ => .modifyRegs _
  | rcEncEos last => exact .bind (.encEos _) fun _ => .whenTrue (.modifyRegs _)
  | rcDecEos => exact .bind .decEos fun _ => .bind (.modifyRegs _) fun _ => .whenTrue (.modifyRegs _)
  | rcEncFreq cum freq tot => exact .encFreq _ _ _
  | rcDecTarget tot => exact .bind (.decTarget tot) fun _ => .modifyRegs _
  | rcDecNarrow cum freq tot => exact .decNarrow _ _ _
  | rcFlush => exact .bind .flushCoder fun _ => .modifyRegs _

/-! ### A command taken up again -/

/-- A rule that waits goes on in the same way from the answers it has had and those to come, as from the answers it began with and
those given since (R299). -/
theorem Resumable.replay {x : Cmd Unit} (hx : Resumable x) {s u : State} (h : x s = .error .wait u) {ins : List InAnswer}
    {outs : List OutAnswer} (hin : u.inPort.rest = none ∨ ins = []) (hout : u.outPort.rest = none ∨ outs = [])
    (hused : s.inPort.used = [] ∧ s.outPort.used = []) :
    x (withAnswers (u.inPort.used ++ (u.inPort.answers ++ ins)) (u.outPort.used ++ (u.outPort.answers ++ outs)) s) =
      x (withAnswers (s.inPort.answers ++ ins) (s.outPort.answers ++ outs) s) := by
  obtain ⟨-, k, hk⟩ := hx.waits h
  obtain ⟨_, _, ⟨⟨rfl, -⟩, rfl, -⟩, hgiven⟩ := hk (.given ins outs) _ _ ⟨⟨rfl, hin⟩, rfl, hout⟩
  obtain ⟨ins', outs', ⟨hi, ho⟩, hreplayed⟩ := hk (.replayed _ _) _ _ ⟨rfl, rfl⟩
  have hins : ins' = _ := (congrArg (· ++ ins') hused.1).symm.trans hi
  have houts : outs' = _ := (congrArg (· ++ outs') hused.2).symm.trans ho
  rw [← hins, ← houts, hreplayed, hgiven]

/-- What a coding procedure leaves alone outside the block's registers and tables. -/
structure OutsideKept (s u : State) : Prop where
  params : u.params = s.params
  cmdFifo : u.cmdFifo = s.cmdFifo
  draws : u.draws = s.draws
  inRest : u.inPort.rest = s.inPort.rest
  outRest : u.outPort.rest = s.outPort.rest

theorem Reached.outsideKept {i : Instr} {s u : State} (h : Reached i s u) : OutsideKept s u := by
  obtain ⟨v, hv, hu⟩ := h
  have hdraws : u.draws = v.draws := congrArg (·.draws) hu.erased
  rcases hv with rfl | ⟨-, -, rfl⟩ <;> exact ⟨hu.params, hu.cmdFifo, hdraws, hu.inRest, hu.outRest⟩

/-- A command that ends its step waiting: its checks have passed, and its rule waits (R110, R299). -/
structure WaitsAt (i : Instr) (s u : State) : Prop where
  mode : s.regs.mode ≠ .faulted ∨ runsWhenFaulted i = true
  legality : legal i s.regs.mode s.regs.dir = true
  range : operandsInRange i = true
  rule : ruleOf i (takeCommand s) = .error .wait u

/-- Only a rule that waits leaves a command waiting. -/
theorem waitsAt_of_stall {i : Instr} {s t : State} (h : exec i s = .next t) (ht : t.stall ≠ none) :
    ∃ u, WaitsAt i s u ∧ t = waitOnPort i s u := by
  rcases executeCommand_cases ((exec_eq i s).symm.trans h) with ⟨-, -, he⟩ | ⟨-, he⟩ | ⟨-, -, he⟩ | ⟨hl, ho, hm, he⟩
  · cases he; exact absurd rfl ht
  · cases he; exact absurd rfl ht
  · cases he; exact absurd rfl ht
  · cases hrule : ruleOf i (takeCommand s) with
    | ok a u => rw [hrule] at he; cases he; exact absurd rfl ht
    | error e u =>
      rw [hrule] at he
      cases e with
      | raise c => cases he; exact absurd rfl ht
      | wait => cases he; exact ⟨u, ⟨by simpa [Classical.or_iff_not_imp_left] using hm, hl, ho, hrule⟩, rfl⟩
      | stop f => cases he

theorem WaitsAt.outsideKept {i : Instr} {s u : State} (h : WaitsAt i s u) : OutsideKept s u :=
  (((ruleOf_ends i _).of_error h.rule).reached h.legality).outsideKept

/-- From every state with the same registers the command runs its rule. -/
theorem WaitsAt.exec_of_regs {i : Instr} {s u : State} (h : WaitsAt i s u) (s' : State) (hr : s'.regs = s.regs) :
    exec i s' = concludeCommand i s' (ruleOf i (takeCommand s')) :=
  exec_of_runs (hr ▸ h.mode) (hr ▸ h.legality) h.range

/-- The state in which the command that began in `s` and waits in `u` is taken up again, its ports having been given further answers. -/
def takenUp (i : Instr) (s u : State) (ins : List InAnswer) (outs : List OutAnswer) : State :=
  resumeStalled ⟨encode i, s.regs, s.tables, s.inPort.ended, s.outPort.taken⟩ (giveInput ins (giveOutput outs (waitOnPort i s u)))

/-- It is the state the command began in, with the answers it has had in front of those to come. -/
theorem takeCommand_takenUp {i : Instr} {s u : State} (h : OutsideKept s u) (ins : List InAnswer) (outs : List OutAnswer) :
    takeCommand (takenUp i s u ins outs) =
      withAnswers (u.inPort.used ++ (u.inPort.answers ++ ins)) (u.outPort.used ++ (u.outPort.answers ++ outs)) (takeCommand s) := by
  obtain ⟨hparams, hfifo, hdraws, hin, hout⟩ := h
  simp [takenUp, takeCommand, withAnswers, resumeStalled, giveInput, giveOutput, waitOnPort, hparams, hfifo, hdraws, hin, hout]

/-- The step of a block in which a command waits takes it up again (R299). -/
theorem step_waitOnPort {i : Instr} (hw : i.wellFormed = true) (s u : State) (ins : List InAnswer) (outs : List OutAnswer) :
    step (giveInput ins (giveOutput outs (waitOnPort i s u))) = exec i (takenUp i s u ins outs) := by
  have hfetch : fetchCommand (giveInput ins (giveOutput outs (waitOnPort i s u))) = some (encode i, takenUp i s u ins outs) := rfl
  simp only [step, hfetch, decodeUndoesEncode i hw]

/-- The end of a command depends on the state it began in only through what a wait records of it (R299). -/
theorem concludeCommand_congr {i : Instr} {s s' : State} (hregs : s'.regs = s.regs) (htables : s'.tables = s.tables)
    (hended : s'.inPort.ended = s.inPort.ended) (htaken : s'.outPort.taken = s.outPort.taken)
    (r : EStateM.Result Abort State Unit) : concludeCommand i s' r = concludeCommand i s r := by
  rcases r with _ | ⟨_ | _ | _, _⟩ <;> simp [concludeCommand, waitOnPort, hregs, htables, hended, htaken]

/-- The command taken up again ends as the command begun with the further answers already given. -/
theorem WaitsAt.exec_takenUp {i : Instr} {s u : State} {ins : List InAnswer} {outs : List OutAnswer} (h : WaitsAt i s u)
    (hin : s.inPort.rest = none ∨ ins = []) (hout : s.outPort.rest = none ∨ outs = []) :
    exec i (takenUp i s u ins outs) = exec i (giveInput ins (giveOutput outs s)) := by
  have hkept := h.outsideKept
  have hrule : ruleOf i (takeCommand (takenUp i s u ins outs)) = ruleOf i (takeCommand (giveInput ins (giveOutput outs s))) := by
    rw [takeCommand_takenUp hkept]
    exact (resumable_ruleOf i).replay h.rule (hkept.inRest ▸ hin) (hkept.outRest ▸ hout) ⟨rfl, rfl⟩
  rw [h.exec_of_regs (takenUp i s u ins outs) rfl, hrule, h.exec_of_regs (giveInput ins (giveOutput outs s)) rfl]
  exact concludeCommand_congr rfl rfl rfl rfl _

/-- Settles O8: where it waits, the rule goes on in the same way from the answers of its record as from those it began with. -/
theorem waitingCommandResumes : Obligations.WaitingCommandResumes := by
  intro i s t ins outs hw _ hin hout h ht
  obtain ⟨u, hwaits, rfl⟩ := waitsAt_of_stall h ht
  have hrest := ((resumable_ruleOf i).waits hwaits.rule).1
  rw [hwaits.outsideKept.inRest, hwaits.outsideKept.outRest] at hrest
  exact ⟨hrest, (step_waitOnPort hw s u ins outs).trans (hwaits.exec_takenUp hin hout)⟩

end Sys2Proof.Machine
end

