-- ==== Sys2Proof/Proofs/Reset.lean ====
section
/-! Reset (R290, R291): what it leaves (O23), and that the invariants begin there (O60). -/

namespace Sys2Proof.Machine

/-- STATUS after reset: every flag is 0 but FIFO_EMPTY, for no threshold is below COST = 0 (R291). -/
theorem statusWord_assertReset (s : State) : statusWord (assertReset s) = 0x00000200#32 := by
  have hfixed : useFixed (assertReset s) = false := decide_eq_false (Nat.not_lt_zero _)
  rw [statusWord, hfixed]
  simp [Regs.reset, modeCode, flag, irqOutput]

/-- Settles O23: the registers are those of the table, none of them busy, so that a read of STATUS shows its word. -/
theorem resetState : Obligations.ResetState :=
  ⟨fun s => ⟨rfl, rfl, rfl, rfl, rfl, fun draw => (readRegister_idle rfl draw _).trans (statusWord_assertReset s)⟩, rfl, rfl⟩

/-- A state with the registers of reset, no command waiting and no table entry listed has the machine's invariant: no session
streams in it (R67). -/
theorem machineInv_of_resetRegs {s : State} {draw : Nat} (hp : log2Permitted s.params.log2Fix) (hn : s.stall = none)
    (hr : s.regs = Regs.reset) (ht : s.tables = Tables.unspecified draw) : MachineInv s := by
  refine machineInv_of_settled hp hn (settledOk_quiet (by rw [hr]; rfl) (by rw [ht]; exact Memory.wf_unspecified draw) ?_)
  rw [hr]
  rintro (h | h | h) <;> cases h

/-- Settles O60: the decided LOG2_FIX is a permitted one, and a reset keeps the parameters. -/
theorem resetMeetsInvariants : Obligations.ResetMeetsInvariants :=
  ⟨machineInv_of_resetRegs log2Permitted_exact rfl rfl rfl, memoryInv_of_idle rfl (Memory.wf_unspecified 0), fun s hs =>
    ⟨machineInv_of_resetRegs hs.params rfl rfl rfl, memoryInv_of_idle rfl (Memory.wf_unspecified s.draws)⟩⟩

end Sys2Proof.Machine
end
